-- ==== Sys2Proof/Word.lean ====
section
/-!
DEFINITION. The value types of the Parthen 6230 model: words, sets over the four stations and four groups, keys, marks,
side records, journal records, and the content of every frame kind (spec/01, spec/05, spec/07). No behaviour is here.
-/

namespace Sys2Proof

abbrev Byte := BitVec 8
abbrev Word := BitVec 32
/-- A journal sequence, stream edge or acknowledgement (Conventions, Serial comparison). -/
abbrev Seq := BitVec 32
abbrev Epoch := BitVec 16
/-- A port of a key, or a translated port (R3, R6). -/
abbrev Port := BitVec 16
/-- A block of 1,024 translated ports (R65). -/
abbrev Block := Fin 60
abbrev Bucket := BitVec 12
abbrev Way := BitVec 2
/-- Bucket × 4 + way (R2). -/
abbrev Handle := BitVec 14
abbrev Station := Fin 4
abbrev GroupId := Fin 4
/-- A receive window, 0 … 2^30 − 1 (R5). -/
abbrev Window := BitVec 30
abbrev Priority := BitVec 3
abbrev Health := BitVec 4

/-- Four like things, one for each group or each station number. -/
structure Four (α : Type) where
  g0 : α
  g1 : α
  g2 : α
  g3 : α
  deriving DecidableEq, Repr

def Four.get {α : Type} (f : Four α) (i : Fin 4) : α :=
  match i with
  | 0 => f.g0
  | 1 => f.g1
  | 2 => f.g2
  | 3 => f.g3

def Four.set {α : Type} (f : Four α) (i : Fin 4) (x : α) : Four α :=
  match i with
  | 0 => { f with g0 := x }
  | 1 => { f with g1 := x }
  | 2 => { f with g2 := x }
  | 3 => { f with g3 := x }

def Four.all {α : Type} (x : α) : Four α := ⟨x, x, x, x⟩

def Four.build {α : Type} (f : Fin 4 → α) : Four α := ⟨f 0, f 1, f 2, f 3⟩

/-- A subset of the groups 0 … 3. -/
abbrev GroupSet := Four Bool
/-- A subset of the station numbers 0 … 3. -/
abbrev StationSet := Four Bool

/-- R179. -/
inductive Role where
  | firewall
  | witness
  deriving DecidableEq, Repr

/-- The strap inputs SID0–SID1, ROLE and MEM3 (R179). -/
structure Straps where
  station : Station
  role : Role
  mem3 : Bool
  deriving DecidableEq, Repr

/-- The two addresses of a key, initiator first: their family is the key's family (R3). -/
inductive Addrs where
  | v4 (initiator responder : BitVec 32)
  | v6 (initiator responder : BitVec 128)
  deriving DecidableEq, Repr

/-- The key of a session, written in initiator order (R3). -/
structure Key where
  addrs : Addrs
  protocol : Byte
  iPort : Port
  rPort : Port
  deriving DecidableEq, Repr

/-- The marks of an entry (section 1.3), or the marks a packet adds. -/
structure Marks where
  opened : Bool := false
  answered : Bool := false
  established : Bool := false
  finI : Bool := false
  finR : Bool := false
  aborted : Bool := false
  retired : Bool := false
  deriving DecidableEq, Repr

/-- One side record of stream tracking (R5). -/
structure Side where
  edge : Option Seq
  ack : Option Seq
  window : Window
  deriving DecidableEq, Repr

structure Sides where
  initiator : Side
  responder : Side
  deriving DecidableEq, Repr

/-- A side not yet seen: edge absent, ack absent, window 0 (R5). -/
def Side.unseen : Side := ⟨none, none, 0⟩
def Sides.unseen : Sides := ⟨Side.unseen, Side.unseen⟩

/-- R30. -/
inductive Direction where
  | fromInitiator
  | fromResponder
  deriving DecidableEq, Repr

/-- The content of an ENTRY record (R79): what is copied from an entry, with its idle seconds. -/
structure EntryContent where
  key : Key
  group : GroupId
  incarnation : Byte
  marks : Marks
  stream : Option Sides
  translation : Option Port
  adopted : Bool
  idle : BitVec 16
  origin : Station
  deriving DecidableEq, Repr

/-- The three kinds of journal record (R79). -/
inductive RecordBody where
  | entry (content : EntryContent)
  | bucketEnd (bucket : Bucket) (groups : GroupSet) (opening : Seq)
  | passEnd (groups : GroupSet) (start : Seq)
  deriving DecidableEq, Repr

/-- A record as a DELTA carries it (R125). -/
structure WireRecord where
  seq : Seq
  body : RecordBody
  deriving DecidableEq, Repr

/-- The state of a group record (R136). -/
inductive GroupState where
  | disabled
  | vacant
  | following
  | claiming
  | holding
  | yielding
  deriving DecidableEq, Repr

/-- The station states that a BEACON can show (R124). -/
inductive BeaconLife where
  | listen
  | member
  | isolated
  deriving DecidableEq, Repr

/-- One of the four group fields of a BEACON (R124). -/
structure BeaconGroup where
  state : GroupState
  epoch : Epoch
  owner : Option Station
  priority : Priority
  health : Health
  hold : Bool
  eligible : Bool
  deriving DecidableEq, Repr

/-- The content of a BEACON (R124). -/
structure Beacon where
  role : Role
  life : BeaconLife
  fingerprint : Word
  heard : StationSet
  receipt : Option Seq
  want : Bool
  needSince : Option Seq
  oldest : Seq
  next : Seq
  synced : GroupSet
  groups : Four BeaconGroup
  deriving DecidableEq, Repr

/-- The cause field of a CLAIM (R127). -/
inductive ClaimCause where
  | vacant
  | yielded
  deriving DecidableEq, Repr

/-- The reason field of a CONTEST (R127). -/
inductive ContestReason where
  | ownerAlive
  | staleEpoch
  | higherClaim
  deriving DecidableEq, Repr

structure Claim where
  group : GroupId
  epoch : Epoch
  cause : ClaimCause
  priority : Priority
  health : Health
  deriving DecidableEq, Repr

structure Contest where
  group : GroupId
  epoch : Epoch
  claimant : Station
  reason : ContestReason
  known : Epoch
  deriving DecidableEq, Repr

structure Yield where
  group : GroupId
  epoch : Epoch
  successor : Station
  drained : Bool
  deriving DecidableEq, Repr

/-- The content of a FETCH, and of the fetch slot (R113, R127). -/
structure Fetch where
  groups : GroupSet
  buckets : List Bucket
  deriving DecidableEq, Repr

/-- The sending side's fields of a relay observation of a stream (R44). -/
structure ObservedSide where
  edge : Seq
  ack : Option Seq
  window : Window
  deriving DecidableEq, Repr

/-- A relay observation (R44). `side` is present exactly for a stream key. -/
structure Observation where
  key : Key
  group : GroupId
  incarnation : Byte
  direction : Direction
  marks : Marks
  side : Option ObservedSide
  deriving DecidableEq, Repr

/-- The content of a DELTA (R125). -/
structure Delta where
  oldest : Seq
  records : List WireRecord
  deriving DecidableEq, Repr

/-- The content of a DIGEST (R126): the digests of the buckets from `first` on. -/
structure Digest where
  groups : GroupSet
  first : Bucket
  digests : List Word
  deriving DecidableEq, Repr

/-- The frame kinds with their payloads (R123). -/
inductive Payload where
  | beacon (b : Beacon)
  | claim (c : Claim)
  | contest (c : Contest)
  | yield (y : Yield)
  | receipt (expected : Seq)
  | fetch (f : Fetch)
  | relay (o : Observation)
  | delta (d : Delta)
  | digest (d : Digest)
  deriving DecidableEq, Repr

structure Frame where
  source : Station
  payload : Payload
  deriving DecidableEq, Repr

/-- The width of an access to the local port's window (R192). -/
inductive AccessSize where
  | byte
  | half
  | word
  deriving DecidableEq, Repr

end Sys2Proof
end

