-- ==== Sys2Proof/Config.lean ====
section
/-!
DEFINITION. The capacities and periods the manual fixes (00_scope.md, Numbers at a Glance), and the one free value.
-/

namespace Sys2Proof.Config

/-- R193. -/
def requestQueueSize : Nat := 16
/-- R195. -/
def responseQueueSize : Nat := 16
/-- R121. -/
def controlQueueSize : Nat := 4
/-- R122. -/
def relayQueueSize : Nat := 8
/-- R104. -/
def purgeQueueSize : Nat := 4
/-- R78. -/
def journalSize : Nat := 1024
/-- R102: re-journal is asked for below this occupancy. -/
def reJournalThreshold : Nat := 768
/-- R86. -/
def deltaRecords : Nat := 8
/-- R86. -/
def deltaPayload : Nat := 960
/-- R118. -/
def collisionLimit : Nat := 16
/-- R111. -/
def digestBuckets : Nat := 16
/-- R113. -/
def fetchBuckets : Nat := 16
/-- R52: 25,000 periods of the 25 MHz reference make one millisecond. -/
def prescalerPeriod : Nat := 25000
/-- R52. -/
def millisPerTick : Nat := 1000
/-- R65: the first and last port of every pool, and the number of its ports. -/
def firstPort : Nat := 4096
def lastPort : Nat := 65535
def poolPorts : Nat := 61440
/-- R38: the lower window test's distance. -/
def lowerWindow : Seq := 1048576
/-- R62: the cap on idle seconds. -/
def idleCap : Nat := 65535
/-- R161: the cap on health. -/
def healthCap : Nat := 15

/-- A FREE VALUE: the word a snapshot shows as its tick count where R208 leaves a free slot in the cursor and states no
tick count for it (log 6). It has no body, so nothing can be proved of it. The state's `freeCount` numbers its uses. -/
opaque freeTick : Nat → BitVec 32

end Sys2Proof.Config
end

