-- ==== Sys2Proof/Syntax.lean ====
section
/-!
DEFINITION. The commands of the block: one constructor for each row of spec/opcode_table.json.
A request row (CHECK, ADOPT, …) is the request engine's taking of the oldest record of the request queue (R27), so it has
no operand: its fields are in that record. A grant row (AGING_VISIT, ENTRY_JOIN, …) is one bucket operation (R25).
-/

namespace Sys2Proof

inductive Instr where
  /-- R186: release of a power-on reset; the straps are sampled. -/
  | powerReset (straps : Straps)
  /-- R187. -/
  | pinResetAssert
  /-- R187: the straps are sampled. -/
  | pinResetRelease (straps : Straps)
  /-- R159: whether anything but this station now drives line `g` on. -/
  | groupLineReadback (g : GroupId) (foreignDrive : Bool)
  /-- R193: a write to POST, whatever its value. -/
  | post (value : Word)
  /-- R195: a write to POP, whatever its value. -/
  | pop (value : Word)
  /-- R201: a write to EVENTS or EVENTS_RAW. -/
  | eventsWrite (value : Word)
  /-- R202. -/
  | maskWrite (value : Word)
  /-- R203. -/
  | cursorWrite (value : Word)
  /-- R204. -/
  | cursorData23Read
  /-- R203: the grant of the cursor snapshot client. -/
  | cursorSnapshot
  /-- R207: a write to CLEAR. -/
  | clear (value : Word)
  /-- R192: a write of some width at a byte offset of the window. -/
  | registerWrite (offset : Byte) (size : AccessSize) (value : Word)
  /-- R194. -/
  | unknownKind
  /-- R32. -/
  | check
  /-- R48. -/
  | adopt
  /-- R50. -/
  | retire
  /-- R51. -/
  | lookup
  /-- R161. -/
  | health
  /-- R162. -/
  | hold
  /-- R162. -/
  | unhold
  /-- R115. -/
  | resync
  /-- R197. -/
  | setup
  /-- R198. -/
  | seal
  /-- R190. -/
  | rejoin
  /-- R191: steps 2 and 3 of an accepted REJOIN. -/
  | rejoinClear
  /-- R200. -/
  | keep
  /-- R52. -/
  | ageTick
  /-- R57: the grant of the aging scan. -/
  | agingVisit
  /-- R117: the medium is idle and has been so, as this station counts it, for this many microseconds. -/
  | transmitStart (idleMicros : Nat)
  /-- R120. -/
  | transmitted
  /-- R118. -/
  | collision
  /-- R128: the bytes of a transmission that ended without collision. -/
  | invalidFrame (bytes : List Byte)
  /-- R131. -/
  | beaconFrame (source : Station) (content : Beacon)
  /-- R148. -/
  | claimFrame (source : Station) (content : Claim)
  /-- R150. -/
  | contestFrame (source : Station) (content : Contest)
  /-- R156. -/
  | yieldFrame (source : Station) (content : Yield)
  /-- R88. -/
  | receiptFrame (source : Station) (expected : Seq)
  /-- R93. -/
  | deltaFrame (source : Station) (content : Delta)
  /-- R94. -/
  | deltaTake
  /-- R15: the grant of receive apply. -/
  | entryJoin
  /-- R104. -/
  | purgeHandover
  /-- R105: a grant of the reconciliation reader. -/
  | purge
  /-- R108. -/
  | passEndTake
  /-- R46. -/
  | relayFrame (source : Station) (content : Observation)
  /-- R47. -/
  | relayApply
  /-- R103: a grant of the reconciliation reader. -/
  | reJournal
  /-- R107. -/
  | passEndAppend
  /-- R111. -/
  | digestTimerExpiry
  /-- R111: a grant of the reconciliation reader. -/
  | digestPrepare
  /-- R112. -/
  | digestFrame (source : Station) (content : Digest)
  /-- R112: a grant of the reconciliation reader. -/
  | digestCompare
  /-- R114. -/
  | fetchFrame (source : Station) (content : Fetch)
  /-- R130. -/
  | beaconTimerExpiry
  /-- R132: the dead timer of that station's record. -/
  | deadTimerExpiry (peer : Station)
  /-- R182. -/
  | listenTimerExpiry
  /-- R90. -/
  | receiptTimerExpiry
  /-- R91. -/
  | stallTimerExpiry
  /-- R144. -/
  | claimWaitExpiry (g : GroupId)
  /-- R143. -/
  | claimBackoffExpiry (g : GroupId)
  /-- R154. -/
  | preemptDelayExpiry (g : GroupId)
  /-- R173. -/
  | drainTimerExpiry (g : GroupId)
  /-- R167. -/
  | adoptionWindowExpiry (g : GroupId)
  /-- R153. -/
  | quorumTimerExpiry
  /-- R160. -/
  | lineInhibitionExpiry (g : GroupId)
  /-- R199. -/
  | hostWatchExpiry
  /-- R186: power is applied or lost. -/
  | powerResetOnset
  /-- R117: another station's start is heard. -/
  | defer
  deriving DecidableEq, Repr

end Sys2Proof
end

