-- ==== Sys2Proof/Decode.lean ====
section
/-!
DEFINITION. The commands that a word spells. The part is a block: no row of spec/opcode_table.json gives its command any
bits, so no word spells a command.
-/

namespace Sys2Proof

/-- No row gives bits, so no word of any length is a command. -/
def decodeTableWord (_nbits _w : Nat) : Option Instr := none

end Sys2Proof
end

