-- ==== Sys2Proof/Machine/State.lean ====
section
/-!
DEFINITION. The state of the part, block by block (00_scope.md, The Block Picture), as plain data, and its value after
a POWER reset. Timers are held as running or stopped: their expiries are commands (log 8).
-/

namespace Sys2Proof.Machine

open Sys2Proof

/-- Who raises a fault: nobody. The spec gives every command an effect in every state, so no command ends a run (safe). -/
inductive Fault where
  deriving DecidableEq, Repr

/-- Who raises a refusal: only an arm of `exec` whose command has no meaning yet (safe). No arm does. -/
inductive Refusal where
  /-- The command of that mnemonic has no meaning in the model (safe). -/
  | notModelled (mnemonic : String)
  deriving DecidableEq, Repr

/-! ### Session table -/

/-- An entry of the session table (R3 to R8). -/
structure Entry where
  key : Key
  group : GroupId
  incarnation : Byte
  marks : Marks
  stream : Option Sides
  translation : Option Port
  adopted : Bool
  stamp : BitVec 32
  origin : Station
  confirmation : Option (Station × Seq)
  pending : Option Seq
  deriving DecidableEq, Repr

/-- An occupied slot: its entry, and whether its check bits verify (R9, log 5). -/
structure Slot where
  entry : Entry
  intact : Bool
  deriving DecidableEq, Repr

/-- The occupied slots by handle, handles strictly rising; a handle not listed is a free slot (R1, R2). -/
abbrev Table := List (Handle × Slot)

/-- The derived state of an entry (R11). -/
inductive DerivedState where
  | new
  | answered
  | established
  | closing
  | closed
  | retired
  deriving DecidableEq, Repr

/-! ### Age clock and aging scan -/

/-- R52, R53. -/
structure AgeClock where
  prescaler : Nat
  millis : Nat
  tick : BitVec 32
  deriving DecidableEq, Repr

/-- Section 3.2. Whether the scan is permitted is computed (R54). -/
structure AgingScan where
  running : Bool
  position : Bucket
  behind : Bool
  deriving DecidableEq, Repr

/-! ### Translation unit -/

/-- The translation unit's state for one group (R66, R71, R73, R74). -/
structure Pool where
  occupied : List (Port × Handle)
  cursor : Port
  lastSeen : Option Block
  quarantine : List Block
  deriving DecidableEq, Repr

/-! ### Journal controller -/

/-- A record of the journal (R79); `slot` is the slot reference of an ENTRY record. -/
structure JournalRecord where
  seq : Seq
  sent : Bool
  body : RecordBody
  slot : Option Handle
  deriving DecidableEq, Repr

/-- The sending half (R78, R80, R90, R91). -/
structure Journal where
  records : List JournalRecord
  oldest : Seq
  sendPoint : Seq
  next : Seq
  receiptTimer : Bool
  stallTimer : Bool
  deriving DecidableEq, Repr

/-- An accepted DELTA frame with its source (R93). -/
structure AcceptedDelta where
  source : Station
  content : Delta
  deriving DecidableEq, Repr

/-- The frame whose records are being taken, and the records not yet done. `inHand` says that the first of them has been
taken and waits for its grant or for the purge queue (R95, log 45). -/
structure Taking where
  source : Station
  rest : List WireRecord
  inHand : Bool
  deriving DecidableEq, Repr

/-- The receive half (section 5.6). -/
structure Receive where
  expectation : Option Seq
  want : Bool
  needSince : Option Seq
  taking : Option Taking
  waiting : List AcceptedDelta
  deriving DecidableEq, Repr

/-! ### Reconciliation unit -/

/-- A record of the purge queue with the station it came from (R104). -/
inductive PurgeItem where
  | bucketEnd (source : Station) (bucket : Bucket) (groups : GroupSet) (opening : Seq)
  | passEnd (source : Station) (groups : GroupSet) (start : Seq)
  deriving DecidableEq, Repr

/-- The DIGEST being compared: the next bucket and the received digests still to be compared (R112). -/
structure Comparison where
  groups : GroupSet
  bucket : Bucket
  rest : List Word
  deriving DecidableEq, Repr

/-- The reconciliation unit's state (the list that opens spec/06). `preparing` holds the digests computed so far. -/
structure Recon where
  resend : List Bucket
  passRunning : Bool
  passStart : Option Seq
  lastCompleted : Option Seq
  purge : List PurgeItem
  synced : GroupSet
  digestTimer : Bool
  sweep : Bucket
  preparing : Option Digest
  ready : Option Digest
  comparing : Option Comparison
  fetch : Option Fetch
  deriving DecidableEq, Repr

/-! ### Bus interface -/

/-- A frame of the control queue (section 7.2). -/
inductive ControlFrame where
  | claim (c : Claim)
  | contest (c : Contest)
  | yield (y : Yield)
  deriving DecidableEq, Repr

/-- The class 3 frame kinds (R120). -/
inductive Class3 where
  | delta
  | digest
  deriving DecidableEq, Repr

/-- The transmission in progress. `held` says that the frame still stands in its slot or at the head of its queue: it was
neither replaced, withdrawn nor discarded since the start. -/
structure Transmission where
  payload : Payload
  held : Bool
  deriving DecidableEq, Repr

/-- The bus interface (section 7.2). `straddling` says that the transmission on the medium began in SETUP and has not ended
(R181, log 36). R135 has no row for `deferred` (log 47). -/
structure Bus where
  beaconSlot : Option Beacon
  control : List ControlFrame
  receiptSlot : Option Seq
  relays : List Observation
  delta : Option Delta
  digest : Option Digest
  fetch : Option Fetch
  collisions : Nat
  lastClass3 : Option Class3
  transmitting : Option Transmission
  deferred : Bool
  straddling : Bool
  deriving DecidableEq, Repr

/-! ### Presence unit and station life -/

/-- The state of a presence record (section 7.6). -/
inductive PeerState where
  | absent
  | present
  | lost
  | mismatched
  | surplus
  deriving DecidableEq, Repr

/-- A presence record (section 7.6). -/
structure Peer where
  state : PeerState
  role : Option Role
  deadTimer : Bool
  lastBeacon : Option Beacon
  deriving DecidableEq, Repr

/-- The station state (section 10.2). -/
inductive Life where
  | setup
  | listen
  | member
  | isolated
  | fault
  deriving DecidableEq, Repr

/-- R184. -/
inductive FaultKind where
  | none
  | integrity
  | duplicate
  deriving DecidableEq, Repr

/-- R188. -/
inductive ResetKind where
  | power
  | pin
  | rejoin
  deriving DecidableEq, Repr

/-- The cause record (R188). -/
structure Cause where
  kind : ResetKind
  held : GroupSet
  prior : FaultKind
  deriving DecidableEq, Repr

/-- The presence unit (sections 7.6 and 10.2). `watched` is the pair of firewalls designated at a witness (R133). -/
structure Presence where
  records : Four Peer
  partner : Option Station
  witness : Option Station
  watched : StationSet
  beaconTimer : Bool
  fingerprint : Option Word
  life : Life
  faultKind : FaultKind
  listenTimer : Bool
  heldAtFault : GroupSet
  cause : Cause
  deriving DecidableEq, Repr

/-! ### Ownership controller and takeover machinery -/

/-- The precedence of a candidate (R137). -/
structure Precedence where
  priority : Priority
  health : Health
  station : Station
  deriving DecidableEq, Repr

structure ClaimNote where
  claimant : Station
  epoch : Epoch
  precedence : Precedence
  deriving DecidableEq, Repr

structure YieldNote where
  yielder : Station
  successor : Station
  epoch : Epoch
  deriving DecidableEq, Repr

/-- R165. -/
inductive Tenure where
  | claimed
  | handedDrained
  | handedUndrained
  | resumed
  deriving DecidableEq, Repr

/-- A group record with the takeover machinery's items (R136, section 9). -/
structure GroupRecord where
  state : GroupState
  epoch : Epoch
  owner : Option Station
  claimEpoch : Option Epoch
  successor : Option Station
  hold : Bool
  health : Health
  adoptionOpen : Bool
  claimWait : Bool
  backoff : Bool
  preempt : Bool
  drain : Bool
  adoptionTimer : Bool
  lineTimer : Bool
  lineReported : Bool
  claimNote : Option ClaimNote
  yieldNote : Option YieldNote
  handoverNote : Option Bool
  tenure : Option Tenure
  drainSpoiled : Bool
  deriving DecidableEq, Repr

/-- The ownership controller. `foreignDrive g` is whether anything but this station drives line g on (log 4). -/
structure Ownership where
  groups : Four GroupRecord
  quorumTimer : Bool
  foreignDrive : Four Bool
  deriving DecidableEq, Repr

/-! ### Request engine and local port -/

/-- One request record: the sixteen staging words as they stood at the POST (R193). -/
abbrev Request := Vector Word 16

/-- R193. -/
inductive Status where
  | ok
  | notReady
  | faulted
  | badRequest
  | groupDisabled
  | notOwner
  | adoptClosed
  | portConflict
  | exists
  | noSession
  | sealed
  | notSealed
  | busy
  | tableFull
  deriving DecidableEq, Repr

/-- R31. -/
inductive Verdict where
  | none
  | pass
  | passLoose
  | miss
  | missAdoptable
  | dropWindow
  | dropState
  | dropTableFull
  | dropNoPort
  deriving DecidableEq, Repr

/-- Words 3 to 5 of a LOOKUP response (R51, R196). -/
structure Summary where
  group : GroupId
  incarnation : Byte
  marks : Marks
  adopted : Bool
  origin : Station
  idle : BitVec 16
  confirmation : Option (Station × Seq)
  pendingExists : Bool
  deriving DecidableEq, Repr

/-- Word 3 of a HEALTH, HOLD or UNHOLD response (R161, R196). -/
structure GroupView where
  state : GroupState
  health : Health
  hold : Bool
  deriving DecidableEq, Repr

/-- A field of a request: its staging word and its lowest bit (R194). -/
structure FieldName where
  word : Nat
  bit : Nat
  deriving DecidableEq, Repr

/-- A response of the response queue (R193, R196). -/
structure Response where
  kind : BitVec 7
  tag : Byte
  status : Status
  verdict : Verdict := .none
  handle : Option Handle := Option.none
  state : Option DerivedState := Option.none
  port : Option Port := Option.none
  summary : Option Summary := Option.none
  view : Option GroupView := Option.none
  offending : Option FieldName := Option.none
  deriving DecidableEq, Repr

/-- The request engine (R27). Between commands only an accepted REJOIN, held by its tag, is in progress. -/
structure Engine where
  inProgress : Option Byte
  relaySlot : Option Observation
  deriving DecidableEq, Repr

/-- The integrity result of a snapshot (R203). -/
inductive Integrity where
  | passed
  | failedHere
  | failedElsewhere
  deriving DecidableEq, Repr

/-- The cursor snapshot (R203): one slot, whole. -/
structure Snapshot where
  handle : Handle
  entry : Option Entry
  integrity : Integrity
  tick : BitVec 32
  deriving DecidableEq, Repr

/-- A full first-fault capture (R206); an empty one is `none`. -/
structure Capture where
  kind : Byte
  source : Byte
  item : Byte
  second : Word := 0
  third : Word := 0
  more : Bool := false
  deriving DecidableEq, Repr

/-- The setup record (R197). -/
structure Setup where
  groups : GroupSet
  translate : GroupSet
  preempt : GroupSet
  solo : Bool
  priority : Four Priority
  preemptDelay : Four (BitVec 16)
  beacon : BitVec 16
  adoption : BitVec 16
  tombstone : BitVec 16
  hostWatch : BitVec 16
  newLimit : BitVec 16
  answeredLimit : BitVec 16
  streamLimit : BitVec 16
  datagramLimit : BitVec 16
  closingLimit : BitVec 16
  closedLimit : BitVec 16
  deriving DecidableEq, Repr

/-- The local port (section 11). Bit 0 of `flags`, the RESPONSE level, is computed and always stored clear (R195). -/
structure LocalPort where
  staging : Vector Word 16
  requests : List Request
  responses : List Response
  cursorHandle : Handle
  cursorPending : Bool
  snapshot : Snapshot
  snapshotCount : BitVec 16
  flags : BitVec 18
  mask : BitVec 18
  busCapture : Option Capture
  tableCapture : Option Capture
  requestCapture : Option Capture
  hostWatch : Bool
  lapsed : Bool
  setup : Setup
  isSealed : Bool
  deriving DecidableEq, Repr

/-- The reset in effect (R186, R187): a PIN reset keeps the held set and prior fault taken at its assertion. -/
inductive Phase where
  | running
  | pin (held : GroupSet) (prior : FaultKind)
  | power
  deriving DecidableEq, Repr

/-- The whole part, and the queue of commands still to be executed. -/
structure State where
  straps : Straps
  phase : Phase
  port : LocalPort
  engine : Engine
  table : Table
  clock : AgeClock
  scan : AgingScan
  xlate : Four Pool
  journal : Journal
  receive : Receive
  recon : Recon
  bus : Bus
  presence : Presence
  own : Ownership
  freeCount : Nat
  pending : List Instr
  deriving DecidableEq, Repr

/-! ### Reset values -/

/-- The defaults of R197. -/
def Setup.defaults : Setup where
  groups := Four.all false
  translate := Four.all false
  preempt := Four.all false
  solo := true
  priority := Four.all 4
  preemptDelay := Four.all 5
  beacon := 100
  adoption := 30
  tombstone := 60
  hostWatch := 0
  newLimit := 30
  answeredLimit := 30
  streamLimit := 3600
  datagramLimit := 60
  closingLimit := 120
  closedLimit := 10

/-- R208, POWER. -/
def LocalPort.reset : LocalPort where
  staging := Vector.replicate 16 0
  requests := []
  responses := []
  cursorHandle := 0
  cursorPending := false
  snapshot := ⟨0, none, .passed, 0⟩
  snapshotCount := 0
  flags := 0
  mask := 0
  busCapture := none
  tableCapture := none
  requestCapture := none
  hostWatch := false
  lapsed := false
  setup := Setup.defaults
  isSealed := false

/-- R77. -/
def Pool.reset : Pool := ⟨[], 4096, none, []⟩

/-- R100. -/
def Journal.reset : Journal := ⟨[], 1, 1, 1, false, false⟩

/-- R100; a witness's want is clear. -/
def Receive.reset (r : Role) : Receive := ⟨none, decide (r = .firewall), none, none, []⟩

/-- R116; the digest timer is restarted at the release. -/
def Recon.reset : Recon :=
  ⟨[], false, none, none, [], Four.all false, true, 0, none, none, none, none⟩

/-- R135. -/
def Bus.reset : Bus := ⟨none, [], none, [], none, none, none, 0, none, none, false, false⟩

/-- R135: ABSENT, with no role and no last beacon, and the dead timer cancelled. -/
def Peer.reset : Peer := ⟨.absent, none, false, none⟩

/-- R135, R189. -/
def Presence.reset (cause : Cause) : Presence :=
  ⟨Four.all Peer.reset, none, none, Four.all false, false, none, .setup, .none, false, Four.all false, cause⟩

/-- R163, R178, POWER. -/
def GroupRecord.reset : GroupRecord where
  state := .disabled
  epoch := 0
  owner := none
  claimEpoch := none
  successor := none
  hold := false
  health := 0
  adoptionOpen := false
  claimWait := false
  backoff := false
  preempt := false
  drain := false
  adoptionTimer := false
  lineTimer := false
  lineReported := false
  claimNote := none
  yieldNote := none
  handoverNote := none
  tenure := none
  drainSpoiled := false

/-- The part right after a POWER reset (R186), with an empty command queue. The straps and the level of the lines come
from outside: station 0, firewall, membership two, and no line driven from outside (logs 3 and 4). -/
def State.reset : State where
  straps := ⟨0, .firewall, false⟩
  phase := .running
  port := LocalPort.reset
  engine := ⟨none, none⟩
  table := []
  clock := ⟨0, 0, 0⟩
  scan := ⟨false, 0, false⟩
  xlate := Four.all Pool.reset
  journal := Journal.reset
  receive := Receive.reset .firewall
  recon := Recon.reset
  bus := Bus.reset
  presence := Presence.reset ⟨.power, Four.all false, .none⟩
  own := ⟨Four.all GroupRecord.reset, false, Four.all false⟩
  freeCount := 0
  pending := []

end Sys2Proof.Machine
end

