-- ==== Sys2Proof/Machine/Bits.lean ====
section
/-!
DEFINITION. The conventions of 00_scope.md as functions: serial comparison, the bucket fold, handles, the CRC, byte order;
and small list operations in canonical order.
-/

namespace Sys2Proof

/-! ### Reading the value types -/

def Addrs.familyCode : Addrs → Byte
  | .v4 _ _ => 4
  | .v6 _ _ => 6

/-- Some member of the set is present. -/
def Four.anyTrue (s : Four Bool) : Bool := s.g0 || s.g1 || s.g2 || s.g3

/-- The union, member by member. -/
def Four.union (a b : Four Bool) : Four Bool := Four.build fun i => a.get i || b.get i

/-- HOLDING or YIELDING. -/
def GroupState.held : GroupState → Bool
  | .holding | .yielding => true
  | .disabled | .vacant | .following | .claiming => false

def Marks.union (a b : Marks) : Marks where
  opened := a.opened || b.opened
  answered := a.answered || b.answered
  established := a.established || b.established
  finI := a.finI || b.finI
  finR := a.finR || b.finR
  aborted := a.aborted || b.aborted
  retired := a.retired || b.retired

def Marks.openedOnly : Marks := { opened := true }

def Sides.get (s : Sides) : Direction → Side
  | .fromInitiator => s.initiator
  | .fromResponder => s.responder

def Sides.set (s : Sides) (d : Direction) (x : Side) : Sides :=
  match d with
  | .fromInitiator => { s with initiator := x }
  | .fromResponder => { s with responder := x }

def Direction.other : Direction → Direction
  | .fromInitiator => .fromResponder
  | .fromResponder => .fromInitiator

end Sys2Proof

namespace Sys2Proof.Machine

open Sys2Proof

/-! ### Serial comparison -/

/-- `a` is serially before `b`: (b − a) mod 2^w lies in 1 … 2^(w−1) − 1 (Conventions). -/
def serialBefore {w : Nat} (a b : BitVec w) : Bool :=
  decide (1 ≤ (b - a).toNat ∧ (b - a).toNat < 2 ^ (w - 1))

/-- Serial max of a held value and a new value (Conventions). -/
def serialMax {w : Nat} (held new : BitVec w) : BitVec w :=
  if serialBefore held new then new else held

/-- Serial max where either may be absent: absent counts as before every present value (Conventions). -/
def serialMaxOpt {w : Nat} (held new : Option (BitVec w)) : Option (BitVec w) :=
  match held, new with
  | none, n => n
  | some h, none => some h
  | some h, some n => some (serialMax h n)

/-! ### Keys, the bucket fold and handles -/

/-- The units of an address of `16 * n` bits, most significant first. -/
def addrUnits {w : Nat} (a : BitVec w) : Nat → List (BitVec 16)
  | 0 => []
  | n + 1 => a.extractLsb' (16 * n) 16 :: addrUnits a n

def addrsUnits : Addrs → List (BitVec 16)
  | .v4 i r => addrUnits i 2 ++ addrUnits r 2
  | .v6 i r => addrUnits i 8 ++ addrUnits r 8

/-- The 16-bit units of a key, in the order of the bucket fold (Conventions). -/
def keyUnits (k : Key) : List (BitVec 16) :=
  (k.addrs.familyCode).setWidth 16 :: k.protocol.setWidth 16 :: addrsUnits k.addrs ++ [k.iPort, k.rPort]

/-- The bucket of a key (Conventions, Bucket fold). -/
def bucketOf (k : Key) : Bucket :=
  let x := (keyUnits k).foldl (· ^^^ ·) 0
  (x ^^^ (x >>> 12)).setWidth 12

/-- Bucket × 4 + way (R2). -/
def handleOf (b : Bucket) (w : Way) : Handle := b ++ w

def bucketOfHandle (h : Handle) : Bucket := h.extractLsb' 2 12
def wayOfHandle (h : Handle) : Way := h.extractLsb' 0 2

/-- A stream is a session of protocol 6 (Terms). -/
def isStream (k : Key) : Bool := k.protocol == 6

/-- Ports on a protocol without ports (R3). -/
def illFormed (k : Key) : Bool :=
  k.protocol != 6 && k.protocol != 17 && (k.iPort != 0 || k.rPort != 0)

/-! ### Byte order: most significant byte first -/

def bytes16 (v : BitVec 16) : List Byte := [v.extractLsb' 8 8, v.extractLsb' 0 8]
def bytes32 (v : BitVec 32) : List Byte :=
  [v.extractLsb' 24 8, v.extractLsb' 16 8, v.extractLsb' 8 8, v.extractLsb' 0 8]
def bytes128 (v : BitVec 128) : List Byte :=
  bytes32 (v.extractLsb' 96 32) ++ bytes32 (v.extractLsb' 64 32)
    ++ bytes32 (v.extractLsb' 32 32) ++ bytes32 (v.extractLsb' 0 32)

/-- The word of four bytes, the first most significant; missing bytes are 0. -/
def wordOfBytes : List Byte → Word
  | a :: b :: c :: d :: _ => a ++ b ++ c ++ d
  | [a, b, c] => a ++ b ++ c ++ (0 : Byte)
  | [a, b] => a ++ b ++ (0 : BitVec 16)
  | [a] => a ++ (0 : BitVec 24)
  | [] => 0

/-! ### The CRC -/

/-- The generator polynomial (Conventions, CRC). -/
def crcPolynomial : Word := 0x1EDC6F41

/-- `n` bit steps of the register, most significant bit first. -/
def crcShift : Nat → Word → Word
  | 0, c => c
  | n + 1, c => crcShift n (if c.msb then (c <<< 1) ^^^ crcPolynomial else c <<< 1)

def crcByte (c : Word) (b : Byte) : Word := crcShift 8 (c ^^^ (b.setWidth 32 <<< 24))

/-- Preset to all ones, bits taken most significant first, the final value complemented (Conventions, CRC). -/
def crc (bytes : List Byte) : Word := ~~~ (bytes.foldl crcByte 0xFFFFFFFF)

/-! ### Ordered lists -/

/-- Adds a bucket number to a rising list; a member stays once (R101). -/
def addBucket (b : Bucket) : List Bucket → List Bucket
  | [] => [b]
  | x :: xs => if b < x then b :: x :: xs else if b = x then x :: xs else x :: addBucket b xs

/-- All 4,096 bucket numbers, rising. -/
def allBuckets : List Bucket := (List.range 4096).map (BitVec.ofNat 12)

/-- Adds a port with its handle to a list rising by port; the port's earlier member is replaced. -/
def addPort (p : Port) (h : Handle) : List (Port × Handle) → List (Port × Handle)
  | [] => [(p, h)]
  | x :: xs =>
    if p < x.1 then (p, h) :: x :: xs else if p = x.1 then (p, h) :: xs else x :: addPort p h xs

def dropPort (p : Port) (l : List (Port × Handle)) : List (Port × Handle) := l.filter fun x => x.1 != p

def holderOf (p : Port) (l : List (Port × Handle)) : Option Handle :=
  (l.find? fun x => x.1 == p).map (·.2)

/-- The set bits of a group or station set, member n in bit n (section 7.3). -/
def setBits (s : Four Bool) : BitVec 4 :=
  BitVec.ofBool s.g3 ++ BitVec.ofBool s.g2 ++ BitVec.ofBool s.g1 ++ BitVec.ofBool s.g0

def setOfBits (b : BitVec 4) : Four Bool := Four.build fun i => b.getLsbD i.val

/-- The station or group numbers in order. -/
def four : List (Fin 4) := [0, 1, 2, 3]

/-- The tick count minus a stamp, in whole seconds (R57); tick counts compare as plain numbers (R53). -/
def secondsSince (now stamp : BitVec 32) : Nat := now.toNat - stamp.toNat

/-- Seconds capped at 65,535 (R51, R62, R203). -/
def cappedSeconds (now stamp : BitVec 32) : BitVec 16 :=
  BitVec.ofNat 16 (min Config.idleCap (secondsSince now stamp))

/-- R63: the receiver's tick count minus the idle seconds, 0 where they exceed it. -/
def stampFromIdle (now : BitVec 32) (idle : BitVec 16) : BitVec 32 :=
  BitVec.ofNat 32 (now.toNat - idle.toNat)

/-! ### Translated ports -/

/-- R65. -/
def blockOf (p : Port) : Block := Fin.ofNat 60 ((p.toNat - Config.firstPort) / 1024)

/-- R65: the block after block 59 is block 0. -/
def blockAfter (k : Block) : Block := k + 1

/-- R65: 4,096 + 1,024 × k. -/
def firstPortOf (k : Block) : Port := BitVec.ofNat 16 (Config.firstPort + 1024 * k.val)

/-- The port the search examines next: 4,096 follows 65,535 (R71). -/
def portAfter (p : Port) : Port := if p.toNat = Config.lastPort then BitVec.ofNat 16 Config.firstPort else p + 1

/-! ### The session table as a list of slots -/

namespace Table

def slot : Table → Handle → Option Slot
  | [], _ => none
  | x :: t, h => if x.1 = h then some x.2 else slot t h

def put : Table → Handle → Slot → Table
  | [], h, v => [(h, v)]
  | x :: t, h, v =>
    if h < x.1 then (h, v) :: x :: t else if h = x.1 then (h, v) :: t else x :: put t h v

def free (t : Table) (h : Handle) : Table := t.filter fun x => x.1 != h

/-- The canonical form: handles strictly rising (so each slot is listed at most once). -/
def wf (t : Table) : Bool := decide (t.Pairwise fun a b => a.1 < b.1)

/-- The four ways of a bucket, with their slots where occupied, by way from 0 to 3. -/
def bucket (t : Table) (b : Bucket) : List (Handle × Slot) :=
  [0, 1, 2, 3].filterMap fun (w : Way) => (slot t (handleOf b w)).map fun s => (handleOf b w, s)

/-- The verification of the check bits of every occupied slot of a bucket (R9). -/
def sound (t : Table) (b : Bucket) : Bool := (bucket t b).all fun x => x.2.intact

/-- R14. -/
def find (t : Table) (k : Key) : Option (Handle × Entry) :=
  ((bucket t (bucketOf k)).find? fun x => decide (x.2.entry.key = k)).map fun x => (x.1, x.2.entry)

/-- The lowest-numbered free way of a bucket (R18). -/
def freeWay (t : Table) (b : Bucket) : Option Handle :=
  (([0, 1, 2, 3] : List Way).map (handleOf b)).find? fun h => (slot t h).isNone

/-- The candidate with the oldest stamp, the lower way between equal stamps (R18). -/
def oldest (cands : List (Handle × Slot)) : Option (Handle × Slot) :=
  cands.foldl (fun best x =>
    match best with
    | none => some x
    | some y => if x.2.entry.stamp < y.2.entry.stamp then some x else some y) none

end Table

end Sys2Proof.Machine
end

