-- ==== Sys2Proof/Machine/Flags.lean ====
section
/-!
DEFINITION. Everything the manual computes as a flag, a mark, a derived state or a condition: event flags and IRQ,
captures, marks and derived states, window tests, precedence, quorum, eligibility, line drive and foreign assertion.
-/

namespace Sys2Proof.Machine

open Sys2Proof

/-! ### Reading the state -/

def State.me (s : State) : Station := s.straps.station
def State.life (s : State) : Life := s.presence.life
def State.group (s : State) (g : GroupId) : GroupRecord := s.own.groups.get g
def State.peer (s : State) (p : Station) : Peer := s.presence.records.get p

def State.holds (s : State) (g : GroupId) : Bool := (s.group g).state.held
/-- The held groups of this station (Terms). -/
def State.heldSet (s : State) : GroupSet := Four.build s.holds

/-- The station states in which the station transmits, takes frames and ages its table (section 10.2). -/
def Life.active : Life → Bool
  | .listen | .member | .isolated => true
  | .setup | .fault => false

/-- A transmission that ends is validated and taken: not in SETUP or FAULT (R128), and not where it began in SETUP
(R181). -/
def State.takesFrames (s : State) : Bool := s.life.active && !s.bus.straddling

/-- MEMBER or ISOLATED. -/
def Life.joined : Life → Bool
  | .member | .isolated => true
  | .setup | .listen | .fault => false

/-- The designated partner, if its record is PRESENT. -/
def State.presentPartner (s : State) : Option Station :=
  s.presence.partner.filter fun p => decide ((s.peer p).state = .present)

def State.partnerPresent (s : State) : Bool := (s.presentPartner).isSome

/-- The source is the designated partner and its record is PRESENT (R88, R93, R112, R114, R129). -/
def State.fromPartner (s : State) (p : Station) : Bool := decide (s.presentPartner = some p)

def State.now (s : State) : BitVec 32 := s.clock.tick

/-! ### Events, IRQ and captures -/

/-- The events other than the RESPONSE level, with their flags (section 11.5). -/
inductive Event where
  | takeover
  | release
  | split
  | quorum
  | presence
  | line
  | overflow
  | lag
  | sync
  | pass
  | watch
  | adoptEnd
  | table
  | relayDrop
  | bus
  | fault
  | overrun
  deriving DecidableEq, Repr

/-- The bit of an event in EVENTS, EVENTS_RAW and MASK (section 11.5). -/
def Event.bit : Event → Nat
  | .takeover => 1
  | .release => 2
  | .split => 3
  | .quorum => 4
  | .presence => 5
  | .line => 6
  | .overflow => 7
  | .lag => 8
  | .sync => 9
  | .pass => 10
  | .watch => 11
  | .adoptEnd => 12
  | .table => 13
  | .relayDrop => 14
  | .bus => 15
  | .fault => 16
  | .overrun => 17

/-- R201: an event's flag is set when the event is raised, and stays set. -/
def raiseFlag (e : Event) (flags : BitVec 18) : BitVec 18 := flags ||| (1#18 <<< e.bit)

def raise (e : Event) (s : State) : State := { s with port.flags := raiseFlag e s.port.flags }

def raiseIf (c : Bool) (e : Event) (s : State) : State := if c then raise e s else s

/-- The flags as EVENTS_RAW shows them: bit 0, RESPONSE, is set while the response queue is not empty (R195). -/
def State.eventFlags (s : State) : BitVec 18 :=
  (s.port.flags &&& ~~~ 1#18) ||| (if s.port.responses.isEmpty then 0#18 else 1#18)

/-- R202: asserted while some flag is set whose mask bit is set; deasserted while a reset is in effect. -/
def State.irq (s : State) : Bool :=
  decide (s.phase = .running) && (s.eventFlags &&& s.port.mask) != 0

/-- R206: an empty capture takes the occurrence; a full one sets *more* and keeps its fields. -/
def recordIn (old : Option Capture) (c : Capture) : Option Capture :=
  match old with
  | none => some { c with more := false }
  | some o => some { o with more := true }

def stationByte (p : Station) : Byte := BitVec.ofNat 8 p.val

def captureBus (c : Capture) (s : State) : State := { s with port.busCapture := recordIn s.port.busCapture c }
def captureTable (c : Capture) (s : State) : State := { s with port.tableCapture := recordIn s.port.tableCapture c }
def captureRequest (c : Capture) (s : State) : State :=
  { s with port.requestCapture := recordIn s.port.requestCapture c }

/-- Records an occurrence in the BUS capture and raises BUS, as every BUS occurrence does (section 11.5). -/
def busFault (c : Capture) (s : State) : State := raise .bus (captureBus c s)

/-! ### Marks and derived states -/

/-- The datagram rule of R11: whatever adds ANSWERED to a datagram adds ESTABLISHED. -/
def marksForKey (k : Key) (m : Marks) : Marks :=
  if !isStream k && m.answered then { m with established := true } else m

/-- R11: the first test that holds. -/
def derivedState (m : Marks) : DerivedState :=
  if m.retired then .retired
  else if m.aborted || (m.finI && m.finR) then .closed
  else if m.finI || m.finR then .closing
  else if m.established then .established
  else if m.answered then .answered
  else .new

def Entry.derived (e : Entry) : DerivedState := derivedState e.marks
def Entry.isRetired (e : Entry) : Bool := decide (e.derived = .retired)
/-- CLOSED or RETIRED: a creating packet begins a new incarnation of it (R36). -/
def Entry.isEnded (e : Entry) : Bool := decide (e.derived = .closed ∨ e.derived = .retired)
/-- The side records of a stream entry, unseen where there are none (R5). -/
def Entry.sides (e : Entry) : Sides := e.stream.getD Sides.unseen

/-! ### The packet of a CHECK -/

/-- The fields of a CHECK that describe the packet (R30). -/
structure Packet where
  direction : Direction
  opens : Bool
  answers : Bool
  finishes : Bool
  aborts : Bool
  seq : Seq
  ack : Option Seq
  length : BitVec 16
  window : Window
  deriving DecidableEq, Repr

/-- seq + length, modulo 2^32 (R38). -/
def Packet.endSeq (p : Packet) : Seq := p.seq + p.length.setWidth 32

/-- R34: a packet that may open a session. -/
def Packet.creates (k : Key) (p : Packet) : Bool :=
  decide (p.direction = .fromInitiator) && (!isStream k || p.opens)

/-- The marks that R41 adds to an entry with marks `m`; the second row sees the first row's result. -/
def addedMarks (k : Key) (m : Marks) (p : Packet) : Marks :=
  let fromI := decide (p.direction = .fromInitiator)
  if isStream k then
    let answered := !fromI && p.answers
    { answered := answered
      established := fromI && p.ack.isSome && (m.answered || answered)
      finI := fromI && p.finishes
      finR := !fromI && p.finishes
      aborted := p.aborts }
  else
    { answered := !fromI, established := !fromI, aborted := p.aborts }

/-- R38: the upper test; skipped while the other side's ack is absent. -/
def upperTest (o : Side) (p : Packet) : Bool :=
  match o.ack with
  | none => true
  | some a => !serialBefore (a + (if o.window = 0 then 1 else o.window.setWidth 32)) p.endSeq

/-- R38: the lower test; skipped while the sender's edge is absent. -/
def lowerTest (d : Side) (p : Packet) : Bool :=
  match d.edge with
  | none => true
  | some e => !serialBefore p.endSeq (e - Config.lowerWindow)

/-- R38: the ack test; skipped while the other side's edge is absent. -/
def ackTest (o : Side) (p : Packet) : Bool :=
  match p.ack, o.edge with
  | some a, some e => !serialBefore (e + 1) a
  | _, _ => true

/-- R38: the packet passes when it fails none of the three tests. -/
def windowTests (s : Sides) (p : Packet) : Bool :=
  let d := s.get p.direction
  let o := s.get p.direction.other
  upperTest o p && lowerTest d p && ackTest o p

/-- A side record after data ending at `edge`, with an acknowledgement where there is one (R17, R40): the window is taken
when `edge` is not serially before the edge held, or none is held. -/
def advanceSide (d : Side) (edge : Seq) (ack : Option Seq) (window : Window) : Side where
  edge := serialMaxOpt d.edge (some edge)
  ack := serialMaxOpt d.ack ack
  window := match d.edge with
    | none => window
    | some e => if serialBefore edge e then d.window else window

/-- R40. -/
def passSides (s : Sides) (p : Packet) : Sides :=
  s.set p.direction (advanceSide (s.get p.direction) p.endSeq p.ack p.window)

/-! ### Precedence, quorum and eligibility -/

/-- R137 and Conventions: priority, then health, then the lower station number. -/
def Precedence.higher (a b : Precedence) : Bool :=
  if a.priority ≠ b.priority then decide (b.priority < a.priority)
  else if a.health ≠ b.health then decide (b.health < a.health)
  else decide (a.station < b.station)

/-- R137: the epochs first, serially; precedence between equal epochs, and where neither epoch is before the other. -/
def standingHigher (e₁ : Epoch) (p₁ : Precedence) (e₂ : Epoch) (p₂ : Precedence) : Bool :=
  if serialBefore e₂ e₁ then true else if serialBefore e₁ e₂ then false else p₁.higher p₂

def State.precedence (s : State) (g : GroupId) : Precedence :=
  ⟨s.port.setup.priority.get g, (s.group g).health, s.me⟩

/-- The group field of a peer's last beacon. -/
def Peer.groupShown (p : Peer) (g : GroupId) : Option BeaconGroup := p.lastBeacon.map fun b => b.groups.get g

def shownPrecedence (b : BeaconGroup) (p : Station) : Precedence := ⟨b.priority, b.health, p⟩

/-- The peer's last beacon shows g eligible. -/
def Peer.showsEligible (p : Peer) (g : GroupId) : Bool :=
  match p.groupShown g with
  | none => false
  | some b => b.eligible

/-- The peer's last beacon shows g in HOLDING or YIELDING. -/
def Peer.showsHeld (p : Peer) (g : GroupId) : Bool :=
  match p.groupShown g with
  | none => false
  | some b => b.state.held

/-- The peer's last beacon shows g in its synced set. -/
def Peer.showsSynced (p : Peer) (g : GroupId) : Bool :=
  match p.lastBeacon with
  | none => false
  | some b => b.synced.get g

def countPresent (r : Four Peer) : Nat := (four.filter fun i => decide ((r.get i).state = .present)).length

/-- R138: the quorum count is 1 plus the PRESENT records. Solo takeover is read from the sealed record (R197). -/
def State.quorumPresent (s : State) : Bool :=
  decide (2 ≤ 1 + countPresent s.presence.records) || (!s.straps.mem3 && (s.port.isSealed && s.port.setup.solo))

/-- Inputs 1 to 7 of R139: eligible but for the group line. -/
def State.eligibleButLine (s : State) (g : GroupId) : Bool :=
  decide (s.straps.role = .firewall) && s.life.joined && (s.port.isSealed && s.port.setup.groups.get g)
    && (s.group g).health != 0 && !(s.group g).hold && !s.port.lapsed && s.quorumPresent

/-- R158. Off also while a reset is in effect (R186, R187). -/
def State.drive (s : State) (g : GroupId) : Bool :=
  decide (s.straps.role = .firewall) && decide (s.phase = .running) && s.life.active
    && !(s.group g).hold && s.holds g

/-- R159: the level of line g. -/
def State.readback (s : State) (g : GroupId) : Bool := s.drive g || s.own.foreignDrive.get g

/-- R159: the readback is on and the own drive is off. A witness's readback is not evaluated. -/
def State.foreign (s : State) (g : GroupId) : Bool :=
  decide (s.straps.role = .firewall) && s.readback g && !s.drive g

/-- R139. -/
def State.eligible (s : State) (g : GroupId) : Bool := s.eligibleButLine g && !s.foreign g

/-- R160: the conditions of the line inhibition timer other than the reported indication. -/
def State.inhibited (s : State) (g : GroupId) : Bool :=
  decide ((s.group g).state = .vacant) && s.foreign g && s.eligibleButLine g

/-- R154: the preempt condition, at a station HOLDING g. -/
def State.preemptCondition (s : State) (g : GroupId) : Bool :=
  s.port.setup.preempt.get g && decide ((s.group g).state = .holding) &&
  match s.presentPartner with
  | none => false
  | some p =>
    match (s.peer p).groupShown g with
    | none => false
    | some b => b.eligible && (s.peer p).showsSynced g && decide (s.port.setup.priority.get g < b.priority)

/-- R143, last condition: no PRESENT partner, or one not eligible for g, or of lower precedence. -/
def State.mayOutbid (s : State) (g : GroupId) : Bool :=
  match s.presentPartner with
  | none => true
  | some p =>
    match (s.peer p).groupShown g with
    | none => true
    | some b => !b.eligible || (s.precedence g).higher (shownPrecedence b p)

/-- R54. -/
def State.agingPermitted (s : State) : Bool := decide (s.straps.role = .firewall) && s.life.active

/-- R58: the idle limit of an entry that is not a tombstone; a tombstone's is its hold. -/
def Setup.idleLimit (c : Setup) (e : Entry) : Nat :=
  match e.derived with
  | .new => c.newLimit.toNat
  | .answered => c.answeredLimit.toNat
  | .established => if isStream e.key then c.streamLimit.toNat else c.datagramLimit.toNat
  | .closing => c.closingLimit.toNat
  | .closed => c.closedLimit.toNat
  | .retired => c.tombstone.toNat

/-- R106: the station may start a pass. -/
def State.mayPass (s : State) : Bool :=
  s.partnerPresent && decide (s.straps.role = .firewall) && s.life.active

/-- R111. -/
def State.sweeps (s : State) : Bool :=
  decide (s.straps.role = .firewall) && s.life.joined && s.heldSet.anyTrue && s.partnerPresent

end Sys2Proof.Machine
end

