-- ==== Sys2Proof/Machine/Wire.lean ====
section
/-!
DEFINITION. The frames of the pairing bus as bytes: the layouts of R123 to R127, and the validation of R128. A reader takes
its field from the front of the bytes that are left, and gives nothing where they do not hold such a field.
-/

namespace Sys2Proof.Machine

open Sys2Proof

/-! ### Codes -/

def kindCode : Payload → Byte
  | .beacon _ => 0x01
  | .claim _ => 0x02
  | .contest _ => 0x03
  | .yield _ => 0x04
  | .receipt _ => 0x05
  | .fetch _ => 0x06
  | .relay _ => 0x07
  | .delta _ => 0x08
  | .digest _ => 0x09

def roleCode : Role → Byte
  | .firewall => 0
  | .witness => 1

def beaconLifeCode : BeaconLife → Byte
  | .listen => 1
  | .member => 2
  | .isolated => 3

def groupStateCode : GroupState → Byte
  | .disabled => 0
  | .vacant => 1
  | .following => 2
  | .claiming => 3
  | .holding => 4
  | .yielding => 5

def causeCode : ClaimCause → Byte
  | .vacant => 0
  | .yielded => 1

def reasonCode : ContestReason → Byte
  | .ownerAlive => 1
  | .staleEpoch => 2
  | .higherClaim => 3

def directionCode : Direction → Byte
  | .fromInitiator => 0
  | .fromResponder => 1

/-- Eight named bits, bit 7 first. -/
def byteOfBits (b7 b6 b5 b4 b3 b2 b1 b0 : Bool) : Byte :=
  BitVec.ofBool b7 ++ BitVec.ofBool b6 ++ BitVec.ofBool b5 ++ BitVec.ofBool b4 ++ BitVec.ofBool b3
    ++ BitVec.ofBool b2 ++ BitVec.ofBool b1 ++ BitVec.ofBool b0

/-- The marks byte (R125, section 11.2). -/
def marksByte (m : Marks) : Byte :=
  byteOfBits false m.retired m.aborted m.finR m.finI m.established m.answered m.opened

/-- The byte of a station or group number. -/
def numberByte (p : Fin 4) : Byte := BitVec.ofNat 8 p.val

/-- A set field: bit n for member n (section 7.3). -/
def setByte (s : Four Bool) : Byte := (0 : BitVec 4) ++ setBits s

def windowBytes (w : Window) : List Byte := bytes32 (w.setWidth 32)
def bucketBytes (b : Bucket) : List Byte := bytes16 (b.setWidth 16)

/-! ### Composing -/

/-- An address, most significant byte first. -/
def addrsBytes : Addrs → List Byte
  | .v4 i r => bytes32 i ++ bytes32 r
  | .v6 i r => bytes128 i ++ bytes128 r

def sideBytes (d : Side) : List Byte :=
  bytes32 (d.edge.getD 0) ++ bytes32 (d.ack.getD 0) ++ windowBytes d.window

/-- The field flags of an ENTRY record; the presence bits of a key whose protocol is not 6 are sent clear (R125). -/
def fieldFlags (c : EntryContent) : Byte :=
  let s := if isStream c.key then c.stream.getD Sides.unseen else Sides.unseen
  byteOfBits false false s.responder.ack.isSome s.responder.edge.isSome s.initiator.ack.isSome
    s.initiator.edge.isSome c.adopted c.translation.isSome

/-- An ENTRY record from offset 5 to its end (R125). -/
def entryTail (c : EntryContent) : List Byte :=
  [numberByte c.group, c.key.addrs.familyCode, c.key.protocol, c.incarnation, marksByte c.marks, fieldFlags c,
    numberByte c.origin] ++ bytes16 c.idle ++ bytes16 (c.translation.getD 0) ++ bytes16 c.key.iPort
    ++ bytes16 c.key.rPort ++ addrsBytes c.key.addrs
    ++ (if isStream c.key then
          sideBytes (c.stream.getD Sides.unseen).initiator ++ sideBytes (c.stream.getD Sides.unseen).responder
        else [])

def recordBytes (r : WireRecord) : List Byte :=
  match r.body with
  | .entry c => [0x01] ++ bytes32 r.seq ++ entryTail c
  | .bucketEnd b g q => [0x02] ++ bytes32 r.seq ++ bucketBytes b ++ [setByte g] ++ bytes32 q
  | .passEnd g q => [0x03] ++ bytes32 r.seq ++ [setByte g] ++ bytes32 q

def beaconGroupBytes (b : BeaconGroup) : List Byte :=
  [groupStateCode b.state] ++ bytes16 b.epoch ++
    [match b.owner with
      | none => 0xFF
      | some o => numberByte o,
     b.priority.setWidth 8, b.health.setWidth 8, byteOfBits false false false false false false b.eligible b.hold]

/-- R124. -/
def beaconBytes (b : Beacon) : List Byte :=
  [roleCode b.role, beaconLifeCode b.life] ++ bytes32 b.fingerprint ++
    [setByte b.heard, byteOfBits false false false false false b.needSince.isSome b.want b.receipt.isSome] ++
    bytes32 (b.receipt.getD 0) ++ bytes32 b.oldest ++ bytes32 b.next ++ bytes32 (b.needSince.getD 0) ++
    [setByte b.synced] ++ beaconGroupBytes b.groups.g0 ++ beaconGroupBytes b.groups.g1 ++
    beaconGroupBytes b.groups.g2 ++ beaconGroupBytes b.groups.g3

/-- R127, RELAY. -/
def relayBytes (o : Observation) : List Byte :=
  [numberByte o.group, o.key.addrs.familyCode, o.key.protocol, o.incarnation, directionCode o.direction,
    marksByte o.marks,
    byteOfBits false false false false false false false
      (match o.side with
        | none => false
        | some d => d.ack.isSome)] ++
    bytes16 o.key.iPort ++ bytes16 o.key.rPort ++ addrsBytes o.key.addrs ++
    match o.side with
    | none => []
    | some d => bytes32 d.edge ++ bytes32 (d.ack.getD 0) ++ windowBytes d.window

/-- The payload of a frame (R124 to R127). -/
def payloadBytes : Payload → List Byte
  | .beacon b => beaconBytes b
  | .claim c =>
    [numberByte c.group] ++ bytes16 c.epoch ++ [causeCode c.cause, c.priority.setWidth 8, c.health.setWidth 8]
  | .contest c =>
    [numberByte c.group] ++ bytes16 c.epoch ++ [numberByte c.claimant, reasonCode c.reason] ++ bytes16 c.known
  | .yield y =>
    [numberByte y.group] ++ bytes16 y.epoch ++
      [numberByte y.successor, byteOfBits false false false false false false false y.drained]
  | .receipt n => bytes32 n
  | .fetch f => [setByte f.groups, BitVec.ofNat 8 f.buckets.length] ++ f.buckets.flatMap bucketBytes
  | .relay o => relayBytes o
  | .delta d => bytes32 d.oldest ++ [BitVec.ofNat 8 d.records.length] ++ d.records.flatMap recordBytes
  | .digest d =>
    [setByte d.groups] ++ bucketBytes d.first ++ [BitVec.ofNat 8 d.digests.length] ++ d.digests.flatMap bytes32

/-- R123: header, payload and trailer. -/
def frameBytes (f : Frame) : List Byte :=
  let p := payloadBytes f.payload
  let covered := [kindCode f.payload, numberByte f.source] ++ bytes16 (BitVec.ofNat 16 p.length) ++ p
  covered ++ bytes32 (crc covered)

/-! ### Reading fields -/

/-- A reading of one field: what it takes from the front of the bytes that are left, or failure. -/
abbrev Read (α : Type) := StateT (List Byte) Option α

/-- A code that must have a meaning. -/
def need {α : Type} (o : Option α) : Read α := fun bytes => o.map fun x => (x, bytes)

def read8 : Read Byte
  | b :: rest => some (b, rest)
  | [] => none

def read16 : Read (BitVec 16)
  | a :: b :: rest => some (a ++ b, rest)
  | _ => none

def read32 : Read (BitVec 32)
  | a :: b :: c :: d :: rest => some (a ++ b ++ c ++ d, rest)
  | _ => none

def read128 : Read (BitVec 128) := do
  let a ← read32
  let b ← read32
  let c ← read32
  let d ← read32
  return a ++ b ++ c ++ d

/-- A station or group number, 0 to 3. -/
def readNumber : Read (Fin 4) := do
  let b ← read8
  if h : b.toNat < 4 then return ⟨b.toNat, h⟩ else failure

/-- A byte whose value fits `w` bits; a larger value is outside its field. -/
def readNarrow (w : Nat) : Read (BitVec w) := do
  let b ← read8
  if b.toNat < 2 ^ w then return b.setWidth w else failure

def readSet : Read (Four Bool) := do
  let b ← readNarrow 4
  return setOfBits b

/-- A byte that is 0 or 1. -/
def readBool : Read Bool := do
  let b ← readNarrow 1
  return b.getLsbD 0

def readBucket : Read Bucket := do
  let v ← read16
  if v.toNat < 4096 then return v.setWidth 12 else failure

def readWindow : Read Window := do
  let v ← read32
  if v.toNat < 2 ^ 30 then return v.setWidth 30 else failure

/-- The marks byte; its bit 7 is not named and may not be set (R128). -/
def readMarks : Read Marks := do
  let b ← readNarrow 7
  return ⟨b.getLsbD 0, b.getLsbD 1, b.getLsbD 2, b.getLsbD 3, b.getLsbD 4, b.getLsbD 5, b.getLsbD 6⟩

/-- The two addresses of a family code; any other code is no family. -/
def readAddrs (family : Byte) : Read Addrs :=
  if family = 4 then do
    let i ← read32
    let r ← read32
    return .v4 i r
  else if family = 6 then do
    let i ← read128
    let r ← read128
    return .v6 i r
  else failure

/-- One side of an ENTRY record, given its two presence bits. -/
def readSide (edge ack : Bool) : Read Side := do
  let e ← read32
  let a ← read32
  let w ← readWindow
  return ⟨if edge then some e else none, if ack then some a else none, w⟩

/-- A list of `n` fields of one kind. -/
def readMany {α : Type} (one : Read α) : Nat → Read (List α)
  | 0 => return []
  | n + 1 => do
    let x ← one
    let xs ← readMany one n
    return x :: xs

/-! ### Reading payloads -/

/-- The translated port with its presence bit: a present port is not below 4,096, an absent one is sent as 0 (R128). -/
def readPort (present : Bool) : Read (Option Port) := do
  let p ← read16
  if present then
    if p.toNat < Config.firstPort then failure else return some p
  else if p = 0 then return none else failure

/-- The side records of a stream; a key of any other protocol has none, and its presence bits are ignored. -/
def readSides (stream : Bool) (flags : BitVec 6) : Read (Option Sides) :=
  if stream then do
    let i ← readSide (flags.getLsbD 2) (flags.getLsbD 3)
    let r ← readSide (flags.getLsbD 4) (flags.getLsbD 5)
    return some ⟨i, r⟩
  else return none

/-- An ENTRY record from offset 5 (R125). -/
def readEntry : Read EntryContent := do
  let group ← readNumber
  let family ← read8
  let protocol ← read8
  let incarnation ← read8
  let marks ← readMarks
  let flags ← readNarrow 6
  let origin ← readNumber
  let idle ← read16
  let port ← readPort (flags.getLsbD 0)
  let iPort ← read16
  let rPort ← read16
  let addrs ← readAddrs family
  let sides ← readSides (protocol == 6) flags
  if marks.opened then
    return ⟨⟨addrs, protocol, iPort, rPort⟩, group, incarnation, marks, sides, port, flags.getLsbD 1, idle, origin⟩
  else failure

def readRecord : Read WireRecord := do
  let kind ← read8
  let seq ← read32
  if kind = 0x01 then
    let c ← readEntry
    return ⟨seq, .entry c⟩
  else if kind = 0x02 then
    let b ← readBucket
    let g ← readSet
    let q ← read32
    return ⟨seq, .bucketEnd b g q⟩
  else if kind = 0x03 then
    let g ← readSet
    let q ← read32
    return ⟨seq, .passEnd g q⟩
  else failure

def roleOfCode (b : Byte) : Option Role :=
  if b = 0 then some .firewall else if b = 1 then some .witness else none

def beaconLifeOfCode (b : Byte) : Option BeaconLife :=
  if b = 1 then some .listen else if b = 2 then some .member else if b = 3 then some .isolated else none

def groupStateOfCode (b : Byte) : Option GroupState :=
  if b = 0 then some .disabled else if b = 1 then some .vacant else if b = 2 then some .following
  else if b = 3 then some .claiming else if b = 4 then some .holding else if b = 5 then some .yielding else none

def causeOfCode (b : Byte) : Option ClaimCause :=
  if b = 0 then some .vacant else if b = 1 then some .yielded else none

def reasonOfCode (b : Byte) : Option ContestReason :=
  if b = 1 then some .ownerAlive else if b = 2 then some .staleEpoch else if b = 3 then some .higherClaim else none

def directionOfCode (b : Byte) : Option Direction :=
  if b = 0 then some .fromInitiator else if b = 1 then some .fromResponder else none

/-- An owner known: a station number, or 0xFF for none (R124). -/
def readOwner : Read (Option Station) := do
  let b ← read8
  if b = 0xFF then return none
  else if h : b.toNat < 4 then return some ⟨b.toNat, h⟩ else failure

/-- The group flags beyond hold and eligible are not named, and are not read. -/
def readBeaconGroup : Read BeaconGroup := do
  let s ← read8
  let state ← need (groupStateOfCode s)
  let epoch ← read16
  let owner ← readOwner
  let priority ← readNarrow 3
  let health ← readNarrow 4
  let flags ← read8
  return ⟨state, epoch, owner, priority, health, flags.getLsbD 0, flags.getLsbD 1⟩

def readBeacon : Read Beacon := do
  let r ← read8
  let role ← need (roleOfCode r)
  let l ← read8
  let life ← need (beaconLifeOfCode l)
  let fingerprint ← read32
  let heard ← readSet
  let flags ← read8
  let receipt ← read32
  let oldest ← read32
  let next ← read32
  let need ← read32
  let synced ← readSet
  let g0 ← readBeaconGroup
  let g1 ← readBeaconGroup
  let g2 ← readBeaconGroup
  let g3 ← readBeaconGroup
  return ⟨role, life, fingerprint, heard, if flags.getLsbD 0 then some receipt else none, flags.getLsbD 1,
    if flags.getLsbD 2 then some need else none, oldest, next, synced, ⟨g0, g1, g2, g3⟩⟩

def readClaim : Read Claim := do
  let group ← readNumber
  let epoch ← read16
  let c ← read8
  let cause ← need (causeOfCode c)
  let priority ← readNarrow 3
  let health ← readNarrow 4
  return ⟨group, epoch, cause, priority, health⟩

def readContest : Read Contest := do
  let group ← readNumber
  let epoch ← read16
  let claimant ← readNumber
  let r ← read8
  let reason ← need (reasonOfCode r)
  let known ← read16
  return ⟨group, epoch, claimant, reason, known⟩

def readYield : Read Yield := do
  let group ← readNumber
  let epoch ← read16
  let successor ← readNumber
  let drained ← readBool
  return ⟨group, epoch, successor, drained⟩

def readFetch : Read Fetch := do
  let groups ← readSet
  let n ← read8
  if n.toNat < 1 ∨ Config.fetchBuckets < n.toNat then failure
  else
    let buckets ← readMany readBucket n.toNat
    return ⟨groups, buckets⟩

/-- The sending side of a RELAY: for protocol 6 only (R127). For another protocol, which has no ack field, the ack-present
bit is ignored (log 50). -/
def readObserved (stream ack : Bool) : Read (Option ObservedSide) :=
  if stream then do
    let e ← read32
    let a ← read32
    let w ← readWindow
    return some ⟨e, if ack then some a else none, w⟩
  else return none

def readRelay : Read Observation := do
  let group ← readNumber
  let family ← read8
  let protocol ← read8
  let incarnation ← read8
  let d ← read8
  let direction ← need (directionOfCode d)
  let marks ← readMarks
  let ack ← readBool
  let iPort ← read16
  let rPort ← read16
  let addrs ← readAddrs family
  let side ← readObserved (protocol == 6) ack
  return ⟨⟨addrs, protocol, iPort, rPort⟩, group, incarnation, direction, marks, side⟩

def readDelta : Read Delta := do
  let oldest ← read32
  let n ← read8
  if n.toNat < 1 ∨ Config.deltaRecords < n.toNat then failure
  else
    let records ← readMany readRecord n.toNat
    return ⟨oldest, records⟩

def readDigest : Read Digest := do
  let groups ← readSet
  let first ← readBucket
  let n ← read8
  if n.toNat ≠ Config.digestBuckets ∨ first.toNat % 16 ≠ 0 then failure
  else
    let digests ← readMany read32 Config.digestBuckets
    return ⟨groups, first, digests⟩

/-- A field that takes all the bytes of the payload. -/
def whole {α : Type} (f : Read α) (bytes : List Byte) : Option α :=
  match f bytes with
  | some (x, []) => some x
  | _ => none

/-- R128, test 5: the payload of a kind whose code is one of R123. A DELTA payload of more than 960 bytes is refused. -/
def readPayload (kind : Byte) (bytes : List Byte) : Option Payload :=
  if kind = 0x01 then (whole readBeacon bytes).map .beacon
  else if kind = 0x02 then (whole readClaim bytes).map .claim
  else if kind = 0x03 then (whole readContest bytes).map .contest
  else if kind = 0x04 then (whole readYield bytes).map .yield
  else if kind = 0x05 then (whole read32 bytes).map .receipt
  else if kind = 0x06 then (whole readFetch bytes).map .fetch
  else if kind = 0x07 then (whole readRelay bytes).map .relay
  else if kind = 0x08 then
    if Config.deltaPayload < bytes.length then none else (whole readDelta bytes).map .delta
  else (whole readDigest bytes).map .digest

/-! ### Validation -/

/-- What R128 finds: a valid frame, or the fault kind with the source and kind fields as received. -/
inductive Heard where
  | valid (f : Frame)
  | invalid (fault source kind : Byte)
  deriving DecidableEq, Repr

def badLength : Byte := 0x01
def badCrc : Byte := 0x02
def badKind : Byte := 0x03
def badSource : Byte := 0x04

/-- The byte at an offset of a transmission, 0 where it ended before. -/
def byteAt (bytes : List Byte) (i : Nat) : Byte := bytes.getD i 0

/-- R128: the five tests in order. -/
def hear (bytes : List Byte) : Heard :=
  let kind := byteAt bytes 0
  let source := byteAt bytes 1
  let length := (byteAt bytes 2 ++ byteAt bytes 3).toNat
  let covered := bytes.take (bytes.length - 4)
  if bytes.length < 8 ∨ bytes.length ≠ 8 + length ∨ 1024 < length then .invalid badLength source kind
  else if bytes.drop (bytes.length - 4) ≠ bytes32 (crc covered) then .invalid badCrc source kind
  else if kind.toNat < 1 ∨ 9 < kind.toNat then .invalid badKind source kind
  else if h : source.toNat < 4 then
    match readPayload kind (covered.drop 4) with
    | some p => .valid ⟨⟨source.toNat, h⟩, p⟩
    | none => .invalid badLength source kind
  else .invalid badSource source kind

end Sys2Proof.Machine
end

