-- ==== Sys2Proof/Machine/Ops.lean ====
section
/-!
DEFINITION. The shared operations on the session table, the translation unit, the journal, the reconciliation unit, the
bus interface and the response queue, and the entry to FAULT, which is one operation over every block.
-/

namespace Sys2Proof.Machine

open Sys2Proof

/-- A command takes effect only while no POWER or PIN reset is in effect (R186, R187). -/
def whenLive (f : State → State) (s : State) : State := if s.phase = .running then f s else s

/-! ### Slots -/

def State.entryAt (s : State) (h : Handle) : Option Entry := (s.table.slot h).map (·.entry)

/-- Writes an entry into a slot; the check bits are written with it (R9). -/
def writeEntry (h : Handle) (e : Entry) (s : State) : State := { s with table := s.table.put h ⟨e, true⟩ }

/-! ### The translation unit -/

def mapPool (g : GroupId) (f : Pool → Pool) (s : State) : State :=
  { s with xlate := s.xlate.set g (f (s.xlate.get g)) }

/-- The entry that holds port `p` in group `g` (R66). -/
def State.portHolder (s : State) (g : GroupId) (p : Port) : Option Handle := holderOf p (s.xlate.get g).occupied

/-- R67: the entry's port leaves its group's occupancy set. -/
def releasePort (e : Entry) (s : State) : State :=
  match e.translation with
  | none => s
  | some p => mapPool e.group (fun x => { x with occupied := dropPort p x.occupied }) s

/-- R67: the entry's port joins its group's occupancy set with the entry's handle. -/
def joinPort (h : Handle) (e : Entry) (s : State) : State :=
  match e.translation with
  | none => s
  | some p => mapPool e.group (fun x => { x with occupied := addPort p h x.occupied }) s

/-- R67: an entry in slot `h` becomes another; a change of port, or of group while a port is held, reaches the unit. -/
def movePort (h : Handle) (old new : Entry) (s : State) : State :=
  if old.translation = new.translation ∧ (old.group = new.group ∨ old.translation = none) then s
  else joinPort h new (releasePort old s)

/-- R71: the first port from `p` on, in `fuel` ports, outside the occupancy set and the quarantine. -/
def searchPort (occupied : List (Port × Handle)) (quarantine : List Block) : Nat → Port → Option Port
  | 0, _ => none
  | fuel + 1, p =>
    if (holderOf p occupied).isSome || quarantine.contains (blockOf p) then
      searchPort occupied quarantine fuel (portAfter p)
    else some p

/-- R71: the port that an allocation in group `g` finds. -/
def State.freePort (s : State) (g : GroupId) : Option Port :=
  let pool := s.xlate.get g
  searchPort pool.occupied pool.quarantine Config.poolPorts pool.cursor

/-- R71: the allocation cursor becomes the port after the one taken. -/
def moveCursor (g : GroupId) (p : Port) (s : State) : State :=
  mapPool g (fun x => { x with cursor := portAfter p }) s

/-- R74: the quarantine and the cursor at entry to HOLDING. -/
def openQuarantine (g : GroupId) (s : State) : State :=
  mapPool g (fun x =>
    match x.lastSeen with
    | none => { x with quarantine := [] }
    | some l =>
      { x with
        quarantine := [l, blockAfter l]
        cursor := firstPortOf (blockAfter (blockAfter l))
        lastSeen := none }) s

/-- R76. -/
def emptyQuarantine (g : GroupId) (s : State) : State := mapPool g (fun x => { x with quarantine := [] }) s

/-! ### Placing and removing entries -/

/-- R22. -/
def removeEntry (h : Handle) (s : State) : State :=
  match s.entryAt h with
  | none => s
  | some e => let s := releasePort e s; { s with table := s.table.free h }

/-- The never-transmitted record of this key and incarnation (R8, R82). -/
def Journal.unsentOf (j : Journal) (k : Key) (incarnation : Byte) : Option Seq :=
  (j.records.find? fun r => !r.sent &&
    match r.body with
    | .entry c => decide (c.key = k ∧ c.incarnation = incarnation)
    | _ => false).map (·.seq)

/-- The record with sequence `q`, changed by `f`. -/
def Journal.mapRecord (j : Journal) (q : Seq) (f : JournalRecord → JournalRecord) : Journal :=
  { j with records := j.records.map fun r => if r.seq = q then f r else r }

/-- R18 and R8: a new entry in slot `h`. It takes up the never-transmitted record of its key and incarnation, whose slot
reference becomes `h` (R82). -/
def insertEntry (h : Handle) (e : Entry) (s : State) : State :=
  let q := s.journal.unsentOf e.key e.incarnation
  let s := writeEntry h { e with pending := q } (joinPort h e s)
  match q with
  | none => s
  | some q => { s with journal := s.journal.mapRecord q fun r => { r with slot := some h } }

/-- The slot that an insertion policy finds: a free way, or an entry to evict among the candidates of a full bucket
(R18). -/
inductive Place where
  | free (h : Handle)
  | evict (h : Handle)
  | full
  deriving DecidableEq, Repr

def Place.handle : Place → Option Handle
  | .free h | .evict h => some h
  | .full => none

/-- R18, for the candidates that `mayEvict` names among the entries without a pending mark. -/
def placeIn (t : Table) (b : Bucket) (mayEvict : Entry → Bool) : Place :=
  match t.freeWay b with
  | some h => .free h
  | none =>
    match Table.oldest ((t.bucket b).filter fun x => x.2.entry.pending.isNone && mayEvict x.2.entry) with
    | some x => .evict x.1
    | none => .full

/-- R19. -/
def ownerPlace (t : Table) (b : Bucket) : Place := placeIn t b Entry.isRetired

/-- Writes a new entry into the slot a policy found, after the eviction it names. -/
def insertAt (p : Place) (e : Entry) (s : State) : State :=
  match p with
  | .free h => insertEntry h e s
  | .evict h => insertEntry h e (removeEntry h s)
  | .full => s

/-! ### The journal -/

/-- The content of an ENTRY record, with the idle seconds computed now (R62, R79). -/
def contentOf (now : BitVec 32) (e : Entry) : EntryContent where
  key := e.key
  group := e.group
  incarnation := e.incarnation
  marks := e.marks
  stream := e.stream
  translation := e.translation
  adopted := e.adopted
  idle := cappedSeconds now e.stamp
  origin := e.origin

/-- R78. -/
def Journal.occupancy (j : Journal) : Nat := (j.next - j.oldest).toNat
def Journal.full (j : Journal) : Bool := decide (Config.journalSize ≤ j.records.length)
/-- A record is outstanding: ever-transmitted and still in the journal (R78). -/
def Journal.outstanding (j : Journal) : Bool := j.records.any (·.sent)

/-- A record at the newest end, at the next sequence (R80). -/
def Journal.append (j : Journal) (body : RecordBody) (slot : Option Handle) : Journal :=
  { j with records := j.records ++ [⟨j.next, false, body, slot⟩], next := j.next + 1 }

/-- R81 to R83: the entry of slot `h` is offered. Gives the sequence of the record that carries it, where one does. -/
def offer (h : Handle) (s : State) : State × Option Seq :=
  match s.entryAt h with
  | none => (s, none)
  | some e =>
    if !s.holds e.group || !s.partnerPresent then (s, none)
    else
      match e.pending with
      | some q =>
        let s := { s with journal := s.journal.mapRecord q fun r => { r with body := .entry (contentOf s.now e) } }
        (writeEntry h { e with confirmation := some (s.me, q) } s, some q)
      | none =>
        if s.journal.full then
          (raise .overflow { s with recon.resend := addBucket (bucketOfHandle h) s.recon.resend }, none)
        else
          let q := s.journal.next
          let s := { s with journal := s.journal.append (.entry (contentOf s.now e)) (some h) }
          (writeEntry h { e with confirmation := some (s.me, q), pending := some q } s, some q)

/-- R42: an entry changed from `old` to the content of slot `h` is offered where one of the eight fields differs. -/
def changed (old new : Entry) : Bool :=
  decide (old.group ≠ new.group ∨ old.incarnation ≠ new.incarnation ∨ old.marks ≠ new.marks ∨ old.stream ≠ new.stream
    ∨ old.translation ≠ new.translation ∨ old.adopted ≠ new.adopted ∨ old.origin ≠ new.origin ∨ old.stamp ≠ new.stamp)

/-- Writes the new content of an existing entry and offers the change, if it is one (R42). -/
def updateEntry (h : Handle) (old new : Entry) (s : State) : State :=
  let s := writeEntry h new s
  if changed old new then (offer h s).1 else s

/-- R84: a BUCKET_END or PASS_END record may be appended now. -/
def State.mayAppend (s : State) : Bool := s.partnerPresent && !s.journal.full

/-- The pending mark of an intact slot is made absent (R87). A damaged slot is left as it is. -/
def Slot.withoutPending (x : Slot) : Slot := if x.intact then { x with entry.pending := none } else x

/-- R92. A damaged slot keeps its content; what follows from its failure is `verifyClear`. -/
def journalClear (s : State) : State :=
  { s with
    journal := { s.journal with
      records := [], oldest := s.journal.next, sendPoint := s.journal.next, receiptTimer := false, stallTimer := false }
    table := s.table.map fun x => (x.1, x.2.withoutPending) }

/-- R89, last sentence: the send point is never left before the oldest held. -/
def Journal.carry (j : Journal) : Journal :=
  if serialBefore j.sendPoint j.oldest then { j with sendPoint := j.oldest } else j

/-- R88: the sequence after the newest ever-transmitted record, or the oldest held. -/
def Journal.sentEnd (j : Journal) : Seq :=
  match j.records.reverse.find? (·.sent) with
  | some r => r.seq + 1
  | none => j.oldest

/-- R88: N is neither stale nor after T. The test is that N lies from the oldest held to T. -/
def Journal.admits (j : Journal) (n : Seq) : Bool := decide ((n - j.oldest).toNat ≤ (j.sentEnd - j.oldest).toNat)

/-- R88, R89 and R91: an admitted receipt removes the records before N, carries or goes back the send point, and restarts
or cancels the stall timer. -/
def Journal.receipt (j : Journal) (n : Seq) : Journal :=
  let rest := j.records.drop (n - j.oldest).toNat
  let kept := Journal.carry { j with records := rest, oldest := n }
  { kept with
    sendPoint := if serialBefore n kept.sendPoint then n else kept.sendPoint
    stallTimer := if n = j.oldest then j.stallTimer else rest.any (·.sent) }

/-- R88. -/
def judgeReceipt (n : Seq) (s : State) : State :=
  if s.journal.admits n then { s with journal := s.journal.receipt n } else s

/-! ### Reconciliation -/

/-- R106: a pass starts or restarts. -/
def startPass (s : State) : State :=
  if s.mayPass then
    { s with
      recon.passRunning := true
      recon.passStart := some s.journal.next
      recon.resend := allBuckets }
  else s

/-- R99, R109: want is set with a sequence, and the synced set is emptied. -/
def setWant (q : Seq) (s : State) : State :=
  { s with
    receive.expectation := some q
    receive.want := true
    receive.needSince := some q
    recon.synced := Four.all false }

/-- R116: what the end of the partner's presence, REJOIN and the entry to FAULT all clear. -/
def Recon.cleared (r : Recon) : Recon :=
  { r with
    resend := []
    passRunning := false
    passStart := none
    lastCompleted := none
    purge := []
    preparing := none
    ready := none
    comparing := none
    fetch := none }

/-! ### The bus interface -/

/-- The transmission in progress no longer stands in its slot or queue, if it is of this kind. -/
def letGo (kind : Byte) (t : Option Transmission) : Option Transmission :=
  t.map fun x => if kindCode x.payload = kind then { x with held := false } else x

def controlPayload : ControlFrame → Payload
  | .claim c => .claim c
  | .contest c => .contest c
  | .yield y => .yield y

/-- R121: the capture of a frame that the full control queue discards. -/
def queueFull (f : ControlFrame) (s : State) : State :=
  busFault { kind := 0x07, source := stationByte s.me, item := kindCode (controlPayload f) } s

/-- R121: a CONTEST or YIELD is handed to the control queue; one that finds it full is lost (R147). -/
def handControl (f : ControlFrame) (s : State) : State :=
  if s.bus.control.length < Config.controlQueueSize then { s with bus.control := s.bus.control ++ [f] }
  else queueFull f s

/-- The group field of a BEACON (R124); a witness sends priority and health 0 and eligible no. -/
def State.beaconGroup (s : State) (g : GroupId) : BeaconGroup :=
  let r := s.group g
  let fw := decide (s.straps.role = .firewall)
  { state := r.state
    epoch := r.epoch
    owner := r.owner
    priority := if fw then s.port.setup.priority.get g else 0
    health := if fw then r.health else 0
    hold := r.hold
    eligible := s.eligible g }

/-- R124: the BEACON of the moment. -/
def State.beacon (s : State) : Beacon :=
  let fw := decide (s.straps.role = .firewall)
  { role := s.straps.role
    life := match s.life with
      | .member => .member
      | .isolated => .isolated
      | _ => .listen
    fingerprint := s.presence.fingerprint.getD 0
    heard := Four.build fun p => decide ((s.peer p).state = .present ∨ (s.peer p).state = .surplus)
    receipt := if fw then s.receive.expectation else none
    want := fw && s.receive.want
    needSince := if fw then s.receive.needSince else none
    oldest := s.journal.oldest
    next := s.journal.next
    synced := s.recon.synced
    groups := Four.build s.beaconGroup }

/-- R121, R130: a BEACON is composed and handed to the beacon slot. The one it replaces may be in transmission already: that
transmission goes on, and the new BEACON stays in the slot to be sent after it (log 39). -/
def handBeacon (s : State) : State :=
  { s with bus.beaconSlot := some s.beacon, bus.transmitting := letGo 0x01 s.bus.transmitting }

/-- R97, R122: a receipt with the expectation takes the receipt slot; a replaced one in transmission goes on (log 39). An
unknown expectation gives no receipt (log 38). -/
def placeReceipt (s : State) : State :=
  match s.receive.expectation with
  | none => s
  | some q => { s with bus.receiptSlot := some q, bus.transmitting := letGo 0x05 s.bus.transmitting }

/-- R122. -/
def handRelay (o : Observation) (s : State) : State :=
  if s.bus.relays.length < Config.relayQueueSize then { s with bus.relays := s.bus.relays ++ [o] }
  else raise .relayDrop s

/-! ### Responses -/

/-- The code of a status (section 11.2). -/
def statusCode : Status → Byte
  | .ok => 0
  | .notReady => 1
  | .faulted => 2
  | .badRequest => 3
  | .groupDisabled => 4
  | .notOwner => 5
  | .adoptClosed => 6
  | .portConflict => 7
  | .exists => 8
  | .noSession => 9
  | .sealed => 10
  | .notSealed => 11
  | .busy => 12
  | .tableFull => 13

/-- The offending field as response word 7 and the third capture word show it (R194, R206). -/
def offendingWord : Option FieldName → Word
  | none => 0
  | some f => (BitVec.ofNat 4 f.word).setWidth 32 <<< 16 ||| (BitVec.ofNat 5 f.bit).setWidth 32 <<< 8

/-- R194, R206: the response takes the tail of the queue; a status other than OK is captured. -/
def respond (r : Response) (s : State) : State :=
  let s := { s with port.responses := s.port.responses ++ [r] }
  if r.status = .ok then s
  else captureRequest { kind := statusCode r.status, source := r.tag, item := r.kind.setWidth 8,
                        third := offendingWord r.offending } s

/-- The kind of REJOIN (R196). -/
def rejoinKind : BitVec 7 := 0x22

/-! ### FAULT -/

/-- R163, R178: the REJOIN and FAULT columns of the group record. -/
def GroupRecord.cleared (enabled : Bool) (r : GroupRecord) : GroupRecord :=
  { GroupRecord.reset with
    state := if enabled then .vacant else .disabled
    epoch := r.epoch
    hold := r.hold
    health := r.health }

/-- R163: the ownership controller at REJOIN and on entry to FAULT. -/
def clearOwnership (s : State) : State :=
  { s with
    own.groups := Four.build fun g => (s.group g).cleared (s.port.isSealed && s.port.setup.groups.get g)
    own.quorumTimer := false
    xlate := Four.build fun g => { s.xlate.get g with quarantine := [] } }

/-- R163, last paragraph: a foreign assertion found on after the reset raises LINE. -/
def raiseLines (s : State) : State := raiseIf (four.any s.foreign) .line s

/-- R184: the values of every FAULT column. -/
def faultColumns (k : FaultKind) (s : State) : State :=
  let held := s.heldSet
  let s := clearOwnership (journalClear s)
  { s with
    engine.relaySlot := none
    scan := ⟨false, 0, false⟩
    receive.taking := none
    receive.waiting := []
    recon := s.recon.cleared
    bus := { Bus.reset with lastClass3 := s.bus.lastClass3 }
    presence.records := Four.build fun p => { s.peer p with deadTimer := false }
    presence.beaconTimer := false
    presence.life := .fault
    presence.faultKind := k
    presence.listenTimer := false
    presence.heldAtFault := held
    port.hostWatch := false }

/-- R191: the answer of a REJOIN in progress that the fault ends. A duplicate number ends it; an integrity failure does
not. -/
def answerRejoin (k : FaultKind) (s : State) : State :=
  match k, s.engine.inProgress with
  | .duplicate, some tag =>
    respond { kind := rejoinKind, tag := tag, status := .faulted } { s with engine.inProgress := none }
  | _, _ => s

/-- R184: entry to FAULT from LISTEN, MEMBER or ISOLATED. In FAULT nothing more happens (R185). -/
def enterFault (k : FaultKind) (s : State) : State :=
  if s.life.active then answerRejoin k (raise .fault (raiseLines (faultColumns k s))) else s

/-- The clients of the table as the INTEGRITY capture names them (R206). -/
inductive Client where
  | receiveApply
  | request
  | reader
  | aging
  | cursor
  | composition
  deriving DecidableEq, Repr

def Client.code : Client → Byte
  | .receiveApply => 1
  | .request => 2
  | .reader => 3
  | .aging => 4
  | .cursor => 5
  | .composition => 6

/-- R9: a verification of check bits failed in bucket `b`. -/
def integrityFailure (c : Client) (b : Bucket) (s : State) : State :=
  enterFault .integrity (captureTable
    { kind := 0x11, source := stationByte s.me, item := c.code, third := b.setWidth 32 } s)

/-- The slot bears a pending mark that a clear of the journal cannot make absent, since its check bits fail. -/
def Slot.resistsClear (x : Slot) : Bool := x.entry.pending.isSome && !x.intact

/-- The bucket of the first slot, by handle, at which a clear fails. -/
def Table.failedClear (t : Table) : Option Bucket := (t.find? fun x => x.2.resistsClear).map fun x => bucketOfHandle x.1

/-- R92 in the manner of R87: a clear at a stall or at the end of the partner's presence whose slot fails enters FAULT, with
the TABLE capture naming the composition as the client (log 20). -/
def verifyClear (s : State) : State :=
  match s.table.failedClear with
  | none => s
  | some b => integrityFailure .composition b s

/-- One bucket operation: the bucket is verified first, and a failure drops the operation (R9). -/
def bucketOperation (c : Client) (b : Bucket) (f : State → State) (s : State) : State :=
  if s.table.sound b then f s else integrityFailure c b s

end Sys2Proof.Machine
end

