-- ==== Sys2Proof/Machine/Ownership.lean ====
section
/-!
DEFINITION. The shared operations of the ownership controller and the takeover machinery (spec/08, spec/09): following,
claiming, abandoning, entering and leaving HOLDING, the drain, and what follows a change of eligibility.
-/

namespace Sys2Proof.Machine

open Sys2Proof

/-! ### Group records -/

def mapGroup (g : GroupId) (f : GroupRecord → GroupRecord) (s : State) : State :=
  { s with own.groups := s.own.groups.set g (f (s.group g)) }

/-- R142, R109: a change of the owner known takes g out of the synced set. -/
def setOwner (g : GroupId) (o : Option Station) (s : State) : State :=
  if (s.group g).owner = o then s
  else
    let s := mapGroup g (fun r => { r with owner := o }) s
    { s with recon.synced := s.recon.synced.set g false }

/-- R140. -/
def raiseEpoch (g : GroupId) (e : Epoch) (s : State) : State :=
  mapGroup g (fun r => { r with epoch := serialMax r.epoch e }) s

/-- R153: the quorum timer is cancelled when no group is held or yielded. -/
def cancelQuorumTimer (s : State) : State :=
  if s.heldSet.anyTrue then s else { s with own.quorumTimer := false }

/-- R168, R76: the adoption window closes and the quarantine empties. -/
def closeWindow (g : GroupId) (s : State) : State :=
  emptyQuarantine g (mapGroup g (fun r => { r with adoptionOpen := false, adoptionTimer := false }) s)

/-- R164, R169: the window opens, or its timer restarts. -/
def openWindow (g : GroupId) (s : State) : State :=
  mapGroup g (fun r => { r with adoptionOpen := true, adoptionTimer := true }) s

/-! ### Leaving and entering HOLDING -/

/-- R151: leaving HOLDING or YIELDING. -/
def leaveHolding (g : GroupId) (state : GroupState) (owner : Option Station) (s : State) : State :=
  let s := mapGroup g (fun r =>
    { r with state := state, preempt := false, drain := false, successor := none, tenure := none }) s
  raise .release (cancelQuorumTimer (closeWindow g (setOwner g owner s)))

/-- R151: a release, which also starts the claim backoff. -/
def release (g : GroupId) (s : State) : State :=
  mapGroup g (fun r => { r with backoff := true }) (leaveHolding g .vacant none s)

/-- R165: the tenure kind of a claim that matures. -/
def GroupRecord.maturing (r : GroupRecord) : Tenure :=
  match r.handoverNote with
  | none => .claimed
  | some true => .handedDrained
  | some false => .handedUndrained

/-- R146, R164, R165, R74: entry to HOLDING. -/
def enterHolding (g : GroupId) (tenure : Tenure) (s : State) : State :=
  let s := mapGroup g (fun r =>
    { r with
      state := .holding
      epoch := match r.claimEpoch with
        | none => r.epoch
        | some e => serialMax r.epoch e
      claimEpoch := none
      successor := none
      claimWait := false
      backoff := false
      drain := false
      handoverNote := none
      tenure := some tenure }) s
  startPass (raise .takeover (openQuarantine g (openWindow g (setOwner g (some s.me) s))))

/-! ### The drain -/

/-- R172, first condition, negated. -/
def Journal.holdsGroup (j : Journal) (g : GroupId) : Bool :=
  j.records.any fun r =>
    match r.body with
    | .entry c => decide (c.group = g)
    | _ => false

/-- R172. -/
def State.drainComplete (s : State) (g : GroupId) : Bool :=
  decide ((s.group g).state = .yielding) && !(s.group g).drainSpoiled && !s.journal.holdsGroup g &&
  match (s.group g).successor with
  | none => false
  | some p => (s.peer p).showsSynced g

/-- R173: the drain ends; the YIELD is handed over first. -/
def endDrain (g : GroupId) (drained : Bool) (s : State) : State :=
  match (s.group g).successor with
  | none => s
  | some p =>
    leaveHolding g .following (some p) (handControl (.yield ⟨g, (s.group g).epoch, p, drained⟩) s)

/-- R172: the completion test. -/
def drainTest (g : GroupId) (s : State) : State := if s.drainComplete g then endDrain g true s else s

/-- R152, R171: entry to YIELDING, with the completion test at once. -/
def enterYielding (g : GroupId) (successor : Station) (s : State) : State :=
  drainTest g (mapGroup g (fun r =>
    { r with
      state := .yielding, successor := some successor, drain := true, drainSpoiled := false, preempt := false }) s)

/-- R152: the reaction of a HOLDING station to the loss of input 4, 5 or 6 of eligibility. -/
def reactLoss (g : GroupId) (s : State) : State :=
  if (s.group g).state = .holding then
    match s.presentPartner with
    | none => release g s
    | some p => if (s.peer p).showsEligible g then enterYielding g p s else release g s
  else s

/-! ### Claims -/

def isClaimOf (g : GroupId) : ControlFrame → Bool
  | .claim c => decide (c.group = g)
  | _ => false

/-- The transmission of a withdrawn CLAIM is no longer that of a waiting frame. -/
def letGoClaim (g : GroupId) (t : Option Transmission) : Option Transmission :=
  t.map fun x =>
    match x.payload with
    | .claim c => if c.group = g then { x with held := false } else x
    | _ => x

/-- R145: a claim is abandoned; its CLAIM is withdrawn. -/
def abandonClaim (g : GroupId) (state : GroupState) (owner : Option Station) (s : State) : State :=
  let s := mapGroup g (fun r =>
    { r with state := state, claimEpoch := none, claimWait := false, backoff := true, handoverNote := none }) s
  setOwner g owner
    { s with
      bus.control := s.bus.control.filter fun f => !isClaimOf g f
      bus.transmitting := letGoClaim g s.bus.transmitting }

/-- R143, R156: a claim starts. A CLAIM that finds the control queue full is discarded, which abandons it (R121, R145). -/
def startClaim (g : GroupId) (cause : ClaimCause) (epoch : Epoch) (note : Option Bool) (s : State) : State :=
  let s := setOwner g none (mapGroup g (fun r =>
    { r with state := .claiming, claimEpoch := some epoch, claimWait := false, handoverNote := note }) s)
  let c : ControlFrame := .claim ⟨g, epoch, cause, s.port.setup.priority.get g, (s.group g).health⟩
  if s.bus.control.length < Config.controlQueueSize then { s with bus.control := s.bus.control ++ [c] }
  else abandonClaim g .vacant none (queueFull c s)

/-- R143: the conditions of a claim of cause VACANT. -/
def State.mayClaim (s : State) (g : GroupId) : Bool :=
  decide ((s.group g).state = .vacant) && s.eligible g && !(s.group g).backoff && s.mayOutbid g

/-- R160: the line inhibition timer and its reported indication follow their conditions. -/
def followLine (g : GroupId) (s : State) : State :=
  if s.inhibited g then mapGroup g (fun r => { r with lineTimer := !r.lineReported }) s
  else mapGroup g (fun r => { r with lineTimer := false, lineReported := false }) s

/-- What a change of the inputs of R139, R143 and R160 brings to one group. -/
def settleGroup (s : State) (g : GroupId) : State :=
  let s := if (s.group g).state = .claiming && !s.eligible g then abandonClaim g .vacant none s else s
  let s := if s.mayClaim g then startClaim g .vacant ((s.group g).epoch + 1) none s else s
  followLine g s

/-- Several groups that come to claim at one event hand over their CLAIMs in the order of the group numbers (log 48). -/
def settle (s : State) : State := four.foldl settleGroup s

/-! ### Following -/

/-- R141: the holders of g. -/
def State.holders (s : State) (g : GroupId) : List Station :=
  four.filter fun p => decide ((s.peer p).state = .present) && (s.peer p).showsHeld g

/-- The standing that a peer's last beacon shows. -/
def Peer.standing (x : Peer) (g : GroupId) (p : Station) : Epoch × Precedence :=
  match x.groupShown g with
  | none => (0, ⟨0, 0, p⟩)
  | some b => (b.epoch, shownPrecedence b p)

/-- R141: the holder of highest standing. -/
def State.bestHolder (s : State) (g : GroupId) : Option Station :=
  (s.holders g).foldl (fun best p =>
    match best with
    | none => some p
    | some q =>
      let a := (s.peer p).standing g p
      let b := (s.peer q).standing g q
      if standingHigher a.1 a.2 b.1 b.2 then some p else some q) none

/-- R141 at a station VACANT or FOLLOWING; R149 for the notes of a witness. -/
def followHolder (g : GroupId) (s : State) : State :=
  match (s.group g).state, s.bestHolder g with
  | .vacant, some p | .following, some p =>
    raiseEpoch g ((s.peer p).standing g p).1 (setOwner g (some p) (mapGroup g (fun r =>
      { r with
        state := .following
        claimNote := none
        yieldNote := r.yieldNote.filter fun n => decide (n.yielder = p) }) s))
  | _, _ => s

/-- The state a beacon shows g in keeps the owner known: CLAIMING, HOLDING or YIELDING (R142). -/
def keepsOwner : GroupState → Bool
  | .claiming | .holding | .yielding => true
  | .disabled | .vacant | .following => false

/-- R142: the owner known is lost, by its record or by a beacon of its own. -/
def State.ownerLost (s : State) (g : GroupId) (source : Option Station) : Bool :=
  decide ((s.group g).state = .following) &&
  match (s.group g).owner with
  | none => false
  | some o =>
    decide ((s.peer o).state ≠ .present) ||
      (decide (source = some o) &&
        match (s.peer o).groupShown g with
        | none => false
        | some b => !keepsOwner b.state)

/-- R142 then R141. -/
def followOrLose (g : GroupId) (source : Option Station) (s : State) : State :=
  let s := if s.ownerLost g source then
      setOwner g none (mapGroup g (fun r => { r with state := .vacant, claimNote := none, yieldNote := none }) s)
    else s
  followHolder g s

/-! ### What a beacon or a change of presence brings to a group -/

/-- The field of g in the beacon just accepted from a PRESENT source. -/
def State.shownBy (s : State) (g : GroupId) (source : Option Station) : Option (Station × BeaconGroup) :=
  source.bind fun p => ((s.peer p).groupShown g).map fun b => (p, b)

/-- R157. -/
def resolveDual (g : GroupId) (source : Option Station) (s : State) : State :=
  match s.shownBy g source with
  | none => s
  | some (q, b) =>
    if s.holds g && b.state.held then
      if standingHigher b.epoch (shownPrecedence b q) (s.group g).epoch (s.precedence g) then
        raise .split (raiseEpoch g b.epoch (leaveHolding g .following (some q) s))
      else startPass (openWindow g (raise .split s))
    else s

/-- R155: the successor no longer backs the yield. -/
def State.yieldLost (s : State) (g : GroupId) : Bool :=
  decide ((s.group g).state = .yielding) &&
  match (s.group g).successor with
  | none => true
  | some p => decide (s.presentPartner ≠ some p) || !(s.peer p).showsEligible g

/-- R155. -/
def giveUpYield (g : GroupId) (s : State) : State :=
  if s.yieldLost g then
    if s.eligible g then enterHolding g .resumed s else release g s
  else s

/-- R145, fourth row. -/
def yieldToHolder (g : GroupId) (source : Option Station) (s : State) : State :=
  match s.shownBy g source, (s.group g).claimEpoch with
  | some (q, b), some e =>
    if (s.group g).state = .claiming && b.state.held && !serialBefore b.epoch e then
      raiseEpoch g b.epoch (abandonClaim g .following (some q) s)
    else s
  | _, _ => s

/-- R140, last writer. -/
def takeEpoch (g : GroupId) (source : Option Station) (s : State) : State :=
  match s.shownBy g source, (s.group g).state with
  | some (_, b), .disabled | some (_, b), .vacant | some (_, b), .following => raiseEpoch g b.epoch s
  | _, _ => s

/-- R154: the condition begins or ends. -/
def preemptTest (g : GroupId) (s : State) : State :=
  if s.preemptCondition g then
    match s.presentPartner with
    | none => s
    | some p =>
      if s.port.setup.preemptDelay.get g = 0 then enterYielding g p s
      else mapGroup g (fun r => { r with preempt := true }) s
  else mapGroup g (fun r => { r with preempt := false }) s

/-- What an accepted BEACON of a PRESENT source, or a change of a presence record (no source), brings to one group.
`partner` says that it is the partner's beacon, or a change of a record. -/
def visitGroup (source : Option Station) (partner : Bool) (s : State) (g : GroupId) : State :=
  let s := giveUpYield g (resolveDual g source s)
  let s := followOrLose g source (takeEpoch g source (yieldToHolder g source s))
  let s := if partner then preemptTest g s else s
  if (s.group g).successor.isSome && decide ((s.group g).successor = source) then drainTest g s else s

def visitGroups (source : Option Station) (partner : Bool) (s : State) : State :=
  four.foldl (visitGroup source partner) s

end Sys2Proof.Machine
end

