-- ==== Sys2Proof/Machine/Operands.lean ====
section
/-!
DEFINITION. The operand forms of the requests: the fields of a request record (sections 11.2 and 11.3), the offending
fields (R194), and the taking of a request by the request engine (R27, R199).
-/

namespace Sys2Proof.Machine

open Sys2Proof

/-! ### Fields -/

def Request.kind (r : Request) : BitVec 7 := r[0].extractLsb' 24 7
def Request.tag (r : Request) : Byte := r[0].extractLsb' 16 8
def Request.groupByte (r : Request) : Byte := r[0].extractLsb' 8 8
def Request.familyByte (r : Request) : Byte := r[0].extractLsb' 0 8
def Request.protocol (r : Request) : Byte := r[1].extractLsb' 24 8
def Request.directionByte (r : Request) : Byte := r[1].extractLsb' 16 8
def Request.iPort (r : Request) : Port := r[2].extractLsb' 16 16
def Request.rPort (r : Request) : Port := r[2].extractLsb' 0 16
def Request.score (r : Request) : Byte := r[1].extractLsb' 0 8

/-- The group of a request whose group byte is in range. -/
def Request.group (r : Request) : GroupId := Fin.ofNat 4 r.groupByte.toNat

def Request.direction (r : Request) : Direction :=
  if r.directionByte = 0 then .fromInitiator else .fromResponder

/-- The addresses of a request whose family code is in range. -/
def Request.addrs (r : Request) : Addrs :=
  if r.familyByte = 4 then .v4 r[7] r[11]
  else .v6 (r[7] ++ r[8] ++ r[9] ++ r[10]) (r[11] ++ r[12] ++ r[13] ++ r[14])

def Request.key (r : Request) : Key := ⟨r.addrs, r.protocol, r.iPort, r.rPort⟩

def Request.window (r : Request) : Window := r[6].extractLsb' 0 30

/-- The packet of a CHECK (R30). -/
def Request.packet (r : Request) : Packet where
  direction := r.direction
  opens := r[1].getLsbD 8
  answers := r[1].getLsbD 9
  finishes := r[1].getLsbD 10
  aborts := r[1].getLsbD 11
  seq := r[3]
  ack := if r[1].getLsbD 0 then some r[4] else none
  length := r[5].extractLsb' 0 16
  window := r.window

def Request.translateOnCreate (r : Request) : Bool := r[1].getLsbD 1

/-- The translated port of an ADOPT, where one is given (R48). -/
def Request.givenPort (r : Request) : Option Port :=
  if r[15].getLsbD 31 then some (r[15].extractLsb' 0 16) else none

/-! ### Offending fields -/

/-- The first offence of a list in the order of the staging words. -/
def firstOffence (l : List (Bool × FieldName)) : Option FieldName := (l.find? (·.1)).map (·.2)

def groupOffence (r : Request) : List (Bool × FieldName) := [(decide (3 < r.groupByte.toNat), ⟨0, 8⟩)]

def familyOffence (r : Request) : List (Bool × FieldName) :=
  [(r.familyByte != 4 && r.familyByte != 6, ⟨0, 0⟩)]

def directionOffence (r : Request) : List (Bool × FieldName) := [(decide (1 < r.directionByte.toNat), ⟨1, 16⟩)]

/-- R194: an ill-formed key is named by its initiator-port field. -/
def portOffence (r : Request) : List (Bool × FieldName) := [(illFormed r.key, ⟨2, 16⟩)]

/-- The window of a stream; for any other protocol it is not examined (R30). -/
def windowOffence (r : Request) : List (Bool × FieldName) :=
  [(isStream r.key && r[6].extractLsb' 30 2 != 0, ⟨6, 0⟩)]

/-- The address words that a V4 key does not use (R194). -/
def addressOffence (r : Request) : List (Bool × FieldName) :=
  let v4 := r.familyByte == 4
  [(v4 && r[8] != 0, ⟨8, 0⟩), (v4 && r[9] != 0, ⟨9, 0⟩), (v4 && r[10] != 0, ⟨10, 0⟩),
   (v4 && r[12] != 0, ⟨12, 0⟩), (v4 && r[13] != 0, ⟨13, 0⟩), (v4 && r[14] != 0, ⟨14, 0⟩)]

def checkOffence (r : Request) : Option FieldName :=
  firstOffence (groupOffence r ++ familyOffence r ++ directionOffence r ++ portOffence r ++ windowOffence r
    ++ addressOffence r)

/-- R48: beside those of R30, a port below 4,096, or a port where translation is not enabled for the group. -/
def adoptOffence (translate : GroupSet) (r : Request) : Option FieldName :=
  firstOffence (groupOffence r ++ familyOffence r ++ directionOffence r ++ portOffence r ++ windowOffence r
    ++ addressOffence r ++
    [(match r.givenPort with
      | none => false
      | some p => decide (p.toNat < Config.firstPort) || !translate.get r.group, ⟨15, 0⟩)])

def keyOffence (r : Request) : Option FieldName :=
  firstOffence (familyOffence r ++ portOffence r ++ addressOffence r)

/-! ### The SETUP request -/

/-- A byte or half-word field outside its range. -/
def outside {w : Nat} (v : BitVec w) (low high : Nat) : Bool := decide (v.toNat < low ∨ high < v.toNat)

def hi16 (w : Word) : BitVec 16 := w.extractLsb' 16 16
def lo16 (w : Word) : BitVec 16 := w.extractLsb' 0 16

/-- R197: the fields of words 2 to 9 in order; word 1 has no value out of range. -/
def setupOffence (r : Request) : Option FieldName :=
  firstOffence
    ([(outside (r[2].extractLsb' 24 8) 0 7, ⟨2, 24⟩), (outside (r[2].extractLsb' 16 8) 0 7, ⟨2, 16⟩),
      (outside (r[2].extractLsb' 8 8) 0 7, ⟨2, 8⟩), (outside (r[2].extractLsb' 0 8) 0 7, ⟨2, 0⟩),
      (outside (hi16 r[3]) 0 600, ⟨3, 16⟩), (outside (lo16 r[3]) 0 600, ⟨3, 0⟩),
      (outside (hi16 r[4]) 0 600, ⟨4, 16⟩), (outside (lo16 r[4]) 0 600, ⟨4, 0⟩)] ++
     [(outside (hi16 r[5]) 20 1000, ⟨5, 16⟩), (outside (lo16 r[5]) 1 120, ⟨5, 0⟩),
      (outside (hi16 r[6]) 1 65535, ⟨6, 16⟩), (lo16 r[6] != 0 && outside (lo16 r[6]) 10 10000, ⟨6, 0⟩),
      (outside (hi16 r[7]) 1 65535, ⟨7, 16⟩), (outside (lo16 r[7]) 1 65535, ⟨7, 0⟩),
      (outside (hi16 r[8]) 1 65535, ⟨8, 16⟩), (outside (lo16 r[8]) 1 65535, ⟨8, 0⟩),
      (outside (hi16 r[9]) 1 65535, ⟨9, 16⟩), (outside (lo16 r[9]) 1 65535, ⟨9, 0⟩)])

/-- R197: the setup record that a SETUP request writes. -/
def Request.setup (r : Request) : Setup where
  groups := setOfBits (r[1].extractLsb' 24 4)
  translate := setOfBits (r[1].extractLsb' 16 4)
  preempt := setOfBits (r[1].extractLsb' 8 4)
  solo := r[1].getLsbD 0
  priority := ⟨r[2].extractLsb' 24 3, r[2].extractLsb' 16 3, r[2].extractLsb' 8 3, r[2].extractLsb' 0 3⟩
  preemptDelay := ⟨hi16 r[3], lo16 r[3], hi16 r[4], lo16 r[4]⟩
  beacon := hi16 r[5]
  adoption := lo16 r[5]
  tombstone := hi16 r[6]
  hostWatch := lo16 r[6]
  newLimit := hi16 r[7]
  answeredLimit := lo16 r[7]
  streamLimit := hi16 r[8]
  datagramLimit := lo16 r[8]
  closingLimit := hi16 r[9]
  closedLimit := lo16 r[9]

/-- R198: the 21 bytes of the shared subset, in order. -/
def Setup.sharedBytes (c : Setup) : List Byte :=
  [setByte c.groups, setByte c.translate, setByte c.preempt] ++ bytes16 c.beacon ++
    [c.adoption.setWidth 8, if c.solo then 1 else 0] ++ bytes16 c.newLimit ++ bytes16 c.answeredLimit ++
    bytes16 c.streamLimit ++ bytes16 c.datagramLimit ++ bytes16 c.closingLimit ++ bytes16 c.closedLimit ++
    bytes16 c.tombstone

/-- R198. -/
def Setup.fingerprint (c : Setup) : Word := crc c.sharedBytes

/-! ### Taking a request -/

/-- R196: the kinds that name a request. -/
def knownKinds : List (BitVec 7) := [0x01, 0x02, 0x03, 0x04, 0x10, 0x11, 0x12, 0x13, 0x20, 0x21, 0x22, 0x23]

/-- R27: the request engine takes the oldest request: it has no work, no observation waits, and a response has room. -/
def State.nextRequest (s : State) : Option Request :=
  if s.engine.inProgress.isNone && s.engine.relaySlot.isNone
      && decide (s.port.responses.length < Config.responseQueueSize) then s.port.requests.head?
  else none

/-- R199: the host-watch timer restarts where the station and the period allow. -/
def restartHostWatch (s : State) : State :=
  { s with port.hostWatch := s.life.active && s.port.setup.hostWatch != 0 }

/-- R27, R199: the request leaves its queue; lapsed clears, with what that brings to eligibility; the host watch
restarts. -/
def takeRequest (s : State) : State :=
  let cleared := { s with port.requests := s.port.requests.tail, port.lapsed := false }
  restartHostWatch (if s.port.lapsed then settle cleared else cleared)

/-- The taking of a request of kind `k`, where the oldest request is of that kind. -/
def onRequest (k : BitVec 7) (f : Request → State → State) (s : State) : State :=
  whenLive (fun s =>
    match s.nextRequest with
    | none => s
    | some r => if r.kind = k then f r (takeRequest s) else s) s

/-! ### Answers -/

/-- A response with a status and nothing else. -/
def plainResponse (r : Request) (status : Status) : Response := { kind := r.kind, tag := r.tag, status := status }

def answer (r : Request) (status : Status) (s : State) : State := respond (plainResponse r status) s

def badRequest (r : Request) (f : FieldName) (s : State) : State :=
  respond { plainResponse r .badRequest with offending := some f } s

/-- R28: the tests of a session request, before it proceeds. -/
def sessionRequest (r : Request) (offence : Option FieldName) (f : State → State) (s : State) : State :=
  match s.life, offence with
  | .setup, _ => answer r .notReady s
  | .fault, _ => answer r .faulted s
  | _, some o => badRequest r o s
  | _, none => f s

/-- R9: the request's bucket operation on bucket `b`; a failure answers FAULTED. -/
def requestOperation (r : Request) (b : Bucket) (f : State → State) (s : State) : State :=
  if s.table.sound b then f s else answer r .faulted (integrityFailure .request b s)

end Sys2Proof.Machine
end

