-- ==== Sys2Proof/Machine/Arbiter.lean ====
section
/-!
DEFINITION. The table arbiter (R25): when each client of the session table waits for a grant, and the grant, which goes to
no client while one of higher priority waits (log 2).
-/

namespace Sys2Proof.Machine

open Sys2Proof

/-- The client whose grant a command is, or, for a request, may need. -/
def grantOf : Instr → Option Client
  | .entryJoin => some .receiveApply
  | .check | .adopt | .retire | .lookup | .relayApply => some .request
  | .purge | .digestPrepare | .digestCompare | .reJournal => some .reader
  | .agingVisit => some .aging
  | .cursorSnapshot => some .cursor
  | _ => none

/-! ### Who waits -/

/-- The record in hand is an ENTRY, so receive apply waits for the grant of its join (R95). Between two records of one
frame none is in hand, and receive apply waits for nothing (R25, log 45). -/
def State.joinWaits (s : State) : Bool :=
  match s.receive.taking with
  | some ⟨_, r :: _, true⟩ =>
    match r.body with
    | .entry _ => true
    | .bucketEnd _ _ _ | .passEnd _ _ => false
  | _ => false

/-- The session request comes to its table work: it passes the tests that R28 and its own rule (R32, R48, R50, R51) make
before the bucket operation. -/
def State.reachesTable (s : State) (r : Request) : Bool :=
  s.life.active &&
    if r.kind = 0x01 then (checkOffence r).isNone && decide ((s.group r.group).state ≠ .disabled)
    else if r.kind = 0x02 then
      (adoptOffence s.port.setup.translate r).isNone && s.holds r.group && (s.group r.group).adoptionOpen
    else if r.kind = 0x03 ∨ r.kind = 0x04 then (keyOffence r).isNone
    else false

/-- The request engine's next work needs the table: the waiting observation of a held group (R47), or else the oldest
request (R27). -/
def State.engineWaits (s : State) : Bool :=
  match s.engine.inProgress, s.engine.relaySlot with
  | some _, _ => false
  | none, some o => s.holds o.group
  | none, none =>
    match s.nextRequest with
    | none => false
    | some r => s.reachesTable r

/-- A purge waits for the reader, which takes it before its other work (R102). -/
def State.purgeWaits (s : State) : Bool :=
  match s.recon.purge with
  | .bucketEnd _ _ _ _ :: _ => true
  | _ => false

/-- R102: the reader may re-journal. -/
def State.mayRejournal (s : State) : Bool :=
  !s.recon.resend.isEmpty && s.partnerPresent && decide (s.journal.occupancy < Config.reJournalThreshold)
    && s.life.active

/-- R102: the reconciliation reader has work. -/
def State.readerWaits (s : State) : Bool :=
  s.purgeWaits || s.recon.comparing.isSome || s.recon.preparing.isSome || s.mayRejournal

/-- R55. -/
def State.agingWaits (s : State) : Bool := s.scan.running && s.agingPermitted

/-- A client of the table waits for a grant. The composition of a DELTA is no client of the arbiter (R87). -/
def State.waits (s : State) : Client → Bool
  | .receiveApply => s.joinWaits
  | .request => s.engineWaits
  | .reader => s.readerWaits
  | .aging => s.agingWaits
  | .cursor => s.port.cursorPending
  | .composition => false

/-! ### The grant -/

/-- The clients of the arbiter in the order of their priority (R25). -/
def Client.all : List Client := [.receiveApply, .request, .reader, .aging, .cursor]

/-- R25: a client of higher priority than `k` waits. -/
def State.higherWaits (s : State) (k : Client) : Bool :=
  Client.all.any fun x => decide (x.code < k.code) && s.waits x

/-- R25: the grant of client `k`, which is not made while a client of higher priority waits. -/
def whenGranted (k : Client) (f : State → State) (s : State) : State := if s.higherWaits k then s else f s

/-- R25, R27: the request engine takes its next work; work that needs the table stays where it is until the grant can be
made (log 2). -/
def whenEngineGranted (f : State → State) (s : State) : State :=
  if s.engineWaits then whenGranted .request f s else f s

end Sys2Proof.Machine
end

