-- ==== Sys2Proof/Machine/SessionRequests.lean ====
section
/-!
DEFINITION. The session requests: CHECK, ADOPT, RETIRE and LOOKUP (spec/02).
-/

namespace Sys2Proof.Machine

open Sys2Proof

/-! ### Answers -/

def verdictResponse (r : Request) (v : Verdict) : Response := { plainResponse r .ok with verdict := v }

/-- A response with the entry's handle and derived state, and its translated port (R31). -/
def entryResponse (r : Request) (status : Status) (v : Verdict) (h : Handle) (e : Entry) : Response :=
  { plainResponse r status with verdict := v, handle := some h, state := some e.derived, port := e.translation }

/-- A response with the handle and derived state alone (word 1). -/
def slotResponse (r : Request) (status : Status) (h : Handle) (e : Entry) : Response :=
  { plainResponse r status with handle := some h, state := some e.derived }

/-! ### Writing entries -/

/-- An entry as a creation by CHECK writes it (R20, R34 steps 3 to 5). -/
def openedEntry (k : Key) (g : GroupId) (incarnation : Byte) (translation : Option Port) (now : BitVec 32)
    (me : Station) (p : Packet) : Entry where
  key := k
  group := g
  incarnation := incarnation
  marks := Marks.openedOnly.union (addedMarks k Marks.openedOnly p)
  stream := if isStream k then some ⟨⟨some p.endSeq, p.ack, p.window⟩, Side.unseen⟩ else none
  translation := translation
  adopted := false
  stamp := now
  origin := me
  confirmation := none
  pending := none

/-- R12, R36: the new incarnation of an entry, written as a creation writes it; the translation and the confirmation are
kept. -/
def newIncarnation (e : Entry) (now : BitVec 32) (me : Station) (p : Packet) : Entry :=
  { openedEntry e.key e.group (e.incarnation + 1) e.translation now me p with confirmation := e.confirmation }

/-- R37 steps 3 to 6: a live entry after a passing or loose check. -/
def passedEntry (e : Entry) (now : BitVec 32) (me : Station) (p : Packet) : Entry :=
  { e with
    stream := if isStream e.key then some (passSides e.sides p) else e.stream
    marks := e.marks.union (addedMarks e.key e.marks p)
    stamp := now
    origin := me }

/-- R34, steps 3 to 6 and the response: the slot and the port are settled. -/
def createByCheck (r : Request) (place : Place) (h : Handle) (port : Option Port) (s : State) : State :=
  let e := openedEntry r.key r.group 0 port s.now s.me r.packet
  let s := match port with
    | none => s
    | some p => moveCursor r.group p s
  let s := (offer h (insertAt place e s)).1
  respond (entryResponse r .ok .pass h e) s

/-- R34. -/
def checkCreates (r : Request) (s : State) : State :=
  let place := ownerPlace s.table (bucketOf r.key)
  match place.handle with
  | none => respond (verdictResponse r .dropTableFull) s
  | some h =>
    if r.translateOnCreate && s.port.setup.translate.get r.group then
      match s.freePort r.group with
      | none => respond (verdictResponse r .dropNoPort) s
      | some p => createByCheck r place h (some p) s
    else createByCheck r place h none s

/-- R39. -/
def State.loose (s : State) (e : Entry) : Bool :=
  s.holds e.group && (s.group e.group).adoptionOpen && decide (e.origin ≠ s.me)

/-- R37. -/
def checkLive (r : Request) (h : Handle) (e : Entry) (s : State) : State :=
  if e.isRetired then respond (entryResponse r .ok .dropState h e) s
  else if !s.loose e && isStream e.key && !windowTests e.sides r.packet then
    respond (entryResponse r .ok .dropWindow h e) s
  else
    let new := passedEntry e s.now s.me r.packet
    respond (entryResponse r .ok (if s.loose e then .passLoose else .pass) h new) (updateEntry h e new s)

/-- Section 2.3: a check at the owner. -/
def ownerCheck (r : Request) (s : State) : State :=
  match s.table.find r.key with
  | none =>
    if Packet.creates r.key r.packet then checkCreates r s
    else respond (verdictResponse r (if (s.group r.group).adoptionOpen then .missAdoptable else .miss)) s
  | some (h, e) =>
    if e.group ≠ r.group then respond (entryResponse r .ok .dropState h e) s
    else if e.isEnded && Packet.creates r.key r.packet then
      let new := newIncarnation e s.now s.me r.packet
      respond (entryResponse r .ok .pass h new) (updateEntry h e new s)
    else checkLive r h e s

/-- R44. -/
def observationOf (r : Request) (e : Entry) : Observation where
  key := r.key
  group := r.group
  incarnation := e.incarnation
  direction := r.packet.direction
  marks := addedMarks e.key e.marks r.packet
  side := if isStream r.key then some ⟨r.packet.endSeq, r.packet.ack, r.packet.window⟩ else none

/-- R43, R45: a check on the local copy, with a relay observation where `relays`. -/
def copyCheck (r : Request) (relays : Bool) (s : State) : State :=
  match s.table.find r.key with
  | none => respond (verdictResponse r .miss) s
  | some (h, e) =>
    if e.group ≠ r.group then respond (entryResponse r .ok .dropState h e) s
    else if e.isEnded && Packet.creates r.key r.packet then respond (entryResponse r .ok .miss h e) s
    else if e.isRetired then respond (entryResponse r .ok .dropState h e) s
    else if isStream e.key && !windowTests e.sides r.packet then respond (entryResponse r .ok .dropWindow h e) s
    else
      let s := if relays then handRelay (observationOf r e) s else s
      respond (entryResponse r .ok .pass h e) s

/-- R32: the group state that governs. -/
def checkByState (r : Request) (s : State) : State :=
  match (s.group r.group).state with
  | .disabled => answer r .groupDisabled s
  | .holding | .yielding => requestOperation r (bucketOf r.key) (ownerCheck r) s
  | .following => requestOperation r (bucketOf r.key) (copyCheck r (decide (s.straps.role = .firewall))) s
  | .vacant | .claiming => requestOperation r (bucketOf r.key) (copyCheck r false) s

/-- R32. -/
def execCheck (s : State) : Host.Outcome State Fault Refusal :=
  .next (whenEngineGranted (onRequest 0x01 fun r s => sessionRequest r (checkOffence r) (checkByState r) s) s)

/-! ### ADOPT -/

/-- R49, steps 3 and 4. -/
def adoptedEntry (r : Request) (now : BitVec 32) (me : Station) : Entry where
  key := r.key
  group := r.group
  incarnation := 0
  marks := { opened := true, answered := true, established := true }
  stream :=
    if isStream r.key then
      some ((Sides.unseen.set r.direction ⟨some r[3], some r[4], r.window⟩).set r.direction.other
        ⟨some r[4], none, 0⟩)
    else none
  translation := r.givenPort
  adopted := true
  stamp := now
  origin := me
  confirmation := none
  pending := none

/-- The table as the choice of a slot sees it: a holder that is to be displaced from the same bucket has left (R23). -/
def tableWithout (t : Table) (b : Bucket) (holder : Option Handle) : Table :=
  match holder with
  | some h => if bucketOfHandle h = b then t.free h else t
  | none => t

/-- The bucket of a holder to be displaced, where its check bits fail (R9, R23). -/
def badHolder (t : Table) (holder : Option Handle) : Option Bucket :=
  match holder with
  | some h => if t.sound (bucketOfHandle h) then none else some (bucketOfHandle h)
  | none => none

/-- R22, R23: the holder of a port is removed. -/
def displace (holder : Option Handle) (s : State) : State :=
  match holder with
  | some h => removeEntry h s
  | none => s

/-- The port's holder may not be displaced by ADOPT: it is not a tombstone (R48 step 5, R70). -/
def State.portConflict (s : State) (holder : Option Handle) : Bool :=
  match holder.bind s.entryAt with
  | some e => !e.isRetired
  | none => false

/-- R48 steps 4 to 7, and R49. PORT_CONFLICT and TABLE_FULL are answered from the content of the holder's slot, without a
verification of its bucket, which comes only before its removal (log 46). -/
def adoptInBucket (r : Request) (s : State) : State :=
  match s.table.find r.key with
  | some (h, e) => respond (slotResponse r .exists h e) s
  | none =>
    let holder := r.givenPort.bind (s.portHolder r.group)
    if s.portConflict holder then answer r .portConflict s
    else
      let place := ownerPlace (tableWithout s.table (bucketOf r.key) holder) (bucketOf r.key)
      match place.handle, badHolder s.table holder with
      | none, _ => answer r .tableFull s
      | some _, some b => answer r .faulted (integrityFailure .request b s)
      | some h, none =>
        let e := adoptedEntry r s.now s.me
        respond (entryResponse r .ok .none h e) (offer h (insertAt place e (displace holder s))).1

/-- R48, steps 1 to 3. -/
def adoptByState (r : Request) (s : State) : State :=
  if (s.group r.group).state = .disabled then answer r .groupDisabled s
  else if !s.holds r.group then answer r .notOwner s
  else if !(s.group r.group).adoptionOpen then answer r .adoptClosed s
  else requestOperation r (bucketOf r.key) (adoptInBucket r) s

/-- R48. -/
def execAdopt (s : State) : Host.Outcome State Fault Refusal :=
  .next (whenEngineGranted
    (onRequest 0x02 fun r s => sessionRequest r (adoptOffence s.port.setup.translate r) (adoptByState r) s) s)

/-! ### RETIRE -/

/-- R50 step 5, R59: an entry becomes a tombstone. -/
def retiredEntry (e : Entry) (now : BitVec 32) (me : Station) : Entry :=
  { e with marks := { e.marks with retired := true }, stamp := now, origin := me }

/-- R50. -/
def retireInBucket (r : Request) (s : State) : State :=
  match s.table.find r.key with
  | none => answer r .noSession s
  | some (h, e) =>
    if (s.group e.group).state = .disabled then answer r .groupDisabled s
    else if !s.holds e.group then respond (slotResponse r .notOwner h e) s
    else if e.isRetired then respond (slotResponse r .ok h e) s
    else
      let new := retiredEntry e s.now s.me
      respond (slotResponse r .ok h new) (updateEntry h e new s)

/-- R50. -/
def execRetire (s : State) : Host.Outcome State Fault Refusal :=
  .next (whenEngineGranted
    (onRequest 0x03 fun r s =>
      sessionRequest r (keyOffence r) (requestOperation r (bucketOf r.key) (retireInBucket r)) s) s)

/-! ### LOOKUP -/

/-- R51. -/
def summaryOf (now : BitVec 32) (e : Entry) : Summary where
  group := e.group
  incarnation := e.incarnation
  marks := e.marks
  adopted := e.adopted
  origin := e.origin
  idle := cappedSeconds now e.stamp
  confirmation := e.confirmation
  pendingExists := e.pending.isSome

/-- R51. -/
def lookupInBucket (r : Request) (s : State) : State :=
  match s.table.find r.key with
  | none => answer r .noSession s
  | some (h, e) => respond { entryResponse r .ok .none h e with summary := some (summaryOf s.now e) } s

/-- R51. -/
def execLookup (s : State) : Host.Outcome State Fault Refusal :=
  .next (whenEngineGranted
    (onRequest 0x04 fun r s =>
      sessionRequest r (keyOffence r) (requestOperation r (bucketOf r.key) (lookupInBucket r)) s) s)

end Sys2Proof.Machine
end

