-- ==== Sys2Proof/Machine/Aging.lean ====
section
/-!
DEFINITION. The age clock and the aging scan (spec/03).
-/

namespace Sys2Proof.Machine

open Sys2Proof

/-! ### The age clock -/

/-- R52 to R54 and R56: an age tick. -/
def ageTick (s : State) : State :=
  let s := { s with clock := ⟨0, 0, s.clock.tick + 1⟩ }
  if s.agingPermitted then
    if s.scan.running then { s with scan.behind := true } else { s with scan := ⟨true, 0, s.scan.behind⟩ }
  else s

/-- R52: one period of the reference. It makes a base tick at the prescaler's wrap, and an age tick at the wrap of the
millisecond count. -/
def referencePeriod (s : State) : State :=
  if s.clock.prescaler + 1 < Config.prescalerPeriod then { s with clock.prescaler := s.clock.prescaler + 1 }
  else if s.clock.millis + 1 < Config.millisPerTick then
    { s with clock := ⟨0, s.clock.millis + 1, s.clock.tick⟩ }
  else ageTick s

/-- R52: the time to the wrap of the millisecond count has passed, and the wrap is made (log 9). -/
def execAgeTick (s : State) : Host.Outcome State Fault Refusal := .next (whenLive ageTick s)

/-- What an empty queue brings: one period of the reference, while no reset is in effect (log 9). -/
def idle (s : State) : State := whenLive referencePeriod s

/-! ### The scan -/

/-- The idle time of an entry, in whole seconds (R57). -/
def idleOf (now : BitVec 32) (e : Entry) : Nat := secondsSince now e.stamp

/-- R57, R59, R60: the visit of one entry. -/
def visitEntry (s : State) (h : Handle) : State :=
  match s.entryAt h with
  | none => s
  | some e =>
    if idleOf s.now e ≤ s.port.setup.idleLimit e then s
    else if e.isRetired then (if e.pending.isNone then removeEntry h s else s)
    else if s.holds e.group then updateEntry h e (retiredEntry e s.now s.me) s
    else s

/-- R55, R56: the end of a visit. -/
def AgingScan.advance (x : AgingScan) : AgingScan :=
  if x.position = 4095 then ⟨x.behind, 0, false⟩ else { x with position := x.position + 1 }

/-- R57: the visit of the bucket at the scan position. -/
def visitBucket (s : State) : State :=
  let handles := (s.table.bucket s.scan.position).map (·.1)
  let s := handles.foldl visitEntry s
  { s with scan := s.scan.advance }

/-- R55: the running pass visits its next bucket. -/
def visitNext (s : State) : State :=
  if s.agingWaits then bucketOperation .aging s.scan.position visitBucket s else s

/-- R55: a grant of the running pass. -/
def execAgingVisit (s : State) : Host.Outcome State Fault Refusal :=
  .next (whenLive (whenGranted .aging visitNext) s)

end Sys2Proof.Machine
end

