-- ==== Sys2Proof/Machine/Presence.lean ====
section
/-!
DEFINITION. The presence unit (sections 7.6 and 10.2): designation, changes of the presence records with everything they
bring, the taking of a BEACON, and the entry to LISTEN.
-/

namespace Sys2Proof.Machine

open Sys2Proof

/-! ### Designation -/

/-- R133: a candidate for a role. -/
def Peer.candidate (x : Peer) (role : Role) : Bool :=
  decide (x.role = some role) && decide (x.state = .present ∨ x.state = .lost ∨ x.state = .surplus)

def candidates (records : Four Peer) (role : Role) : List Station :=
  four.filter fun p => (records.get p).candidate role

/-- R133: the designated partner, witness, and the watched firewalls of a witness. -/
structure Designation where
  partner : Option Station
  witness : Option Station
  watched : StationSet
  deriving DecidableEq, Repr

def designate (own : Role) (records : Four Peer) : Designation :=
  match own with
  | .firewall =>
    ⟨(candidates records .firewall).head?, (candidates records .witness).head?, Four.all false⟩
  | .witness =>
    ⟨none, none, Four.build fun p => ((candidates records .firewall).take 2).contains p⟩

def Designation.includes (d : Designation) (p : Station) : Bool :=
  decide (d.partner = some p) || decide (d.witness = some p) || d.watched.get p

/-- R133: the state of a candidate after a recomputation. -/
def Peer.settled (x : Peer) (designated : Bool) : Peer :=
  match x.state with
  | .present | .lost | .surplus =>
    { x with state := if x.deadTimer then (if designated then .present else .surplus) else .lost }
  | .absent | .mismatched => x

/-! ### A change of the records -/

/-- The end of the partner's presence (R92, R109, R112, R113, R116). A composed DIGEST goes with the digest; one in
transmission goes on, and is not sent again where it collides (log 23). -/
def partnerEnds (s : State) : State :=
  let s := journalClear s
  { s with
    recon := { s.recon.cleared with synced := Four.all false }
    bus.digest := none
    bus.transmitting := letGo 0x09 s.bus.transmitting }

/-- The presence of the partner `before` has ended (R92). -/
def State.partnershipEnded (s : State) (before : Option Station) : Bool :=
  before.isSome && decide (before ≠ s.presentPartner)

/-- R133: an end and a beginning of the partner's presence, between the state before and this one. -/
def partnerChange (before : Option Station) (s : State) : State :=
  if before = s.presentPartner then s
  else
    let s := if s.partnershipEnded before then partnerEnds s else s
    if s.partnerPresent then { s with receive.expectation := none } else s

/-- R183. -/
def memberOrIsolated (s : State) : State :=
  let alone := countPresent s.presence.records == 0
  match s.life with
  | .member => if alone then { s with presence.life := .isolated } else s
  | .isolated => if alone then s else { s with presence.life := .member }
  | _ => s

/-- R138, R153: what a crossing of the quorum threshold brings. A witness raises no QUORUM. -/
def quorumChange (before : Bool) (s : State) : State :=
  if before = s.quorumPresent then s
  else
    let s := raiseIf (decide (s.straps.role = .firewall)) .quorum s
    { s with own.quorumTimer := !s.quorumPresent && s.heldSet.anyTrue }

/-- Some record changed its state (R134). -/
def recordsDiffer (a b : Four Peer) : Bool := four.any fun p => decide ((a.get p).state ≠ (b.get p).state)

/-- The records become `records`, the designation is recomputed, and every other unit is told (R131 to R134, R183). `heard`
says that the partner's heard set changed whether it includes this station. Where the clear at the end of the partner's
presence fails, all this is done and the station then enters FAULT (log 20). -/
def changeRecords (records : Four Peer) (heard : Bool) (s : State) : State :=
  let d := designate s.straps.role records
  let settled : Four Peer := Four.build fun p => (records.get p).settled (d.includes p)
  let s' := { s with
    presence.records := settled
    presence.partner := d.partner
    presence.witness := d.witness
    presence.watched := d.watched }
  let s' := raiseIf (heard || recordsDiffer s.presence.records settled) .presence s'
  let s' := quorumChange s.quorumPresent (memberOrIsolated (partnerChange s.presentPartner s'))
  if s'.partnershipEnded s.presentPartner then verifyClear s' else s'

/-- What the ownership controller does after a change: each group is visited, then the consequences settle. A source that
is not PRESENT counts as none, without a changed record nothing is visited, and in FAULT nothing is (R184). -/
def revisit (before : State) (source : Option Station) (s : State) : State :=
  let source := source.filter fun p => decide ((s.peer p).state = .present)
  let partner := decide (source = s.presence.partner ∧ source.isSome)
    || decide (before.presentPartner ≠ s.presentPartner)
  if s.life.active && (source.isSome || recordsDiffer before.presence.records s.presence.records) then
    settle (visitGroups source partner s)
  else s

/-! ### BEACONs -/

/-- R131: the record of the sender as the BEACON leaves it, before the designation. -/
def Peer.hearBeacon (x : Peer) (b : Beacon) (own : Option Word) : Peer :=
  if own = some b.fingerprint then ⟨.surplus, some b.role, true, some b⟩
  else { x with state := .mismatched, role := some b.role, deadTimer := true }

/-- R134: the partner's heard set changes whether it includes this station. The partner is the one designated before the
BEACON (log 40). -/
def State.heardChange (s : State) (p : Station) (b : Beacon) : Bool :=
  decide (s.presence.partner = some p) && decide (s.presence.fingerprint = some b.fingerprint) &&
  match (s.peer p).lastBeacon with
  | none => false
  | some old => old.heard.get s.me != b.heard.get s.me

/-- R98: the first case that holds. -/
def expectByBeacon (b : Beacon) (s : State) : State :=
  match s.receive.expectation with
  | none => setWant b.next s
  | some x =>
    if serialBefore b.next x then setWant b.next s
    else if serialBefore x b.oldest then setWant b.oldest s
    else s

/-- R106, cause 1. -/
def State.beaconAsksPass (s : State) (b : Beacon) : Bool :=
  b.want && !s.recon.passRunning &&
  match b.needSince, s.recon.lastCompleted with
  | none, _ => false
  | some _, none => true
  | some n, some l => serialBefore l n

/-- R88, R98 and R106 on a BEACON of the partner with its record PRESENT. -/
def partnerBeacon (b : Beacon) (s : State) : State :=
  let s := match b.receipt with
    | none => s
    | some n => judgeReceipt n s
  let s := expectByBeacon b s
  if s.beaconAsksPass b then startPass s else s

/-- R131 and what follows it. -/
def takeBeacon (p : Station) (b : Beacon) (s : State) : State :=
  let records := s.presence.records.set p ((s.peer p).hearBeacon b s.presence.fingerprint)
  let s' := changeRecords records (s.heardChange p b) s
  let s' := if s'.life.active && s'.fromPartner p then partnerBeacon b s' else s'
  revisit s (if s.presence.fingerprint = some b.fingerprint then some p else none) s'

/-- R132. -/
def loseRecord (p : Station) (s : State) : State :=
  let x := s.peer p
  let lost : Peer := match x.state with
    | .present | .surplus => { x with state := .lost, deadTimer := false }
    | _ => { x with deadTimer := false }
  revisit s none (changeRecords (s.presence.records.set p lost) false s)

/-! ### Frames -/

/-- R129: a valid frame that bears this station's own number. -/
def duplicateNumber (kind : Byte) (s : State) : State :=
  enterFault .duplicate (busFault { kind := 0x05, source := stationByte s.me, item := kind } s)

/-- R128, R181: a transmission ends. One that began in SETUP is discarded, also where SEAL has been accepted since
(log 36). -/
def onTransmission (f : State → State) (s : State) : State :=
  whenLive (fun s =>
    if s.bus.straddling then { s with bus.straddling := false } else if s.life.active then f s else s) s

/-- R129: a valid frame of a kind heard from `source`. -/
def onFrame (kind : Byte) (source : Station) (f : State → State) (s : State) : State :=
  onTransmission (fun s => if source = s.me then duplicateNumber kind s else f s) s

/-! ### LISTEN -/

/-- R130, R181, R191, R199: the entry to LISTEN. -/
def enterListen (s : State) : State :=
  handBeacon { s with
    presence.life := .listen
    presence.listenTimer := true
    presence.beaconTimer := true
    port.hostWatch := s.port.setup.hostWatch != 0 }

end Sys2Proof.Machine
end

