-- ==== Sys2Proof/Machine/BusFrames.lean ====
section
/-!
DEFINITION. The frames of the presence unit, the ownership controller and the journal's receipts as they are heard, and a
transmission that fails its validation (R128, R131, R148 to R150, R156, R88).
-/

namespace Sys2Proof.Machine

open Sys2Proof

/-! ### Validation -/

/-- R128: a discarded frame is captured, and BUS is raised. -/
def discardInvalid (bytes : List Byte) (s : State) : State :=
  match hear bytes with
  | .valid _ => s
  | .invalid fault source kind => busFault { kind := fault, source := source, item := kind } s

/-- R128. -/
def execInvalidFrame (bytes : List Byte) (s : State) : Host.Outcome State Fault Refusal :=
  .next (onTransmission (discardInvalid bytes) s)

/-! ### BEACON and RECEIPT -/

/-- R131. -/
def execBeaconFrame (source : Station) (content : Beacon) (s : State) : Host.Outcome State Fault Refusal :=
  .next (onFrame 0x01 source (takeBeacon source content) s)

/-- R88, R172: a receipt, and the completion tests where it removed records, in the order of the group numbers (log 42). -/
def takeReceipt (n : Seq) (s : State) : State :=
  let s' := judgeReceipt n s
  if s'.journal.oldest = s.journal.oldest then s' else settle (four.foldl (fun s g => drainTest g s) s')

/-- R88. -/
def execReceiptFrame (source : Station) (expected : Seq) (s : State) : Host.Outcome State Fault Refusal :=
  .next (onFrame 0x05 source (fun s => if s.fromPartner source then takeReceipt expected s else s) s)

/-! ### Ownership frames -/

/-- R147: an ownership frame is taken from a source whose record is PRESENT. -/
def onOwnershipFrame (kind : Byte) (source : Station) (f : State → State) (s : State) : State :=
  onFrame kind source (fun s => if (s.peer source).state = .present then f s else s) s

def claimPrecedence (c : Claim) (source : Station) : Precedence := ⟨c.priority, c.health, source⟩

def contest (c : Claim) (source : Station) (reason : ContestReason) (s : State) : State :=
  handControl (.contest ⟨c.group, c.epoch, source, reason, (s.group c.group).epoch⟩) s

/-- R148, last case: the claim is let through. -/
def letThrough (c : Claim) (source : Station) (s : State) : State :=
  if serialBefore (s.group c.group).epoch c.epoch then
    let s := raiseEpoch c.group c.epoch s
    if s.holds c.group then leaveHolding c.group .following (some source) s
    else
      setOwner c.group (some source) (mapGroup c.group (fun r => { r with state := .following }) s)
  else s

/-- R148: a firewall, by its state for the group. -/
def firewallClaim (c : Claim) (source : Station) (s : State) : State :=
  let r := s.group c.group
  match r.state with
  | .holding => contest c source .ownerAlive s
  | .yielding => if r.successor = some source then letThrough c source s else contest c source .ownerAlive s
  | .claiming =>
    if standingHigher c.epoch (claimPrecedence c source) (r.claimEpoch.getD r.epoch) (s.precedence c.group) then
      raiseEpoch c.group c.epoch (abandonClaim c.group .following (some source) s)
    else contest c source .higherClaim s
  | .disabled => s
  | .vacant | .following => letThrough c source s

/-- R149, rule 2: another station holds the group, and the claim is not the one its YIELD named. -/
def State.heldByOther (s : State) (c : Claim) (source : Station) : Bool :=
  four.any fun p =>
    decide (p ≠ source) && decide ((s.peer p).state = .present) && (s.peer p).showsHeld c.group &&
    !(decide (c.cause = .yielded) && decide ((s.group c.group).yieldNote = some ⟨p, source, c.epoch - 1⟩))

/-- R149, rule 3: a higher claim at the epoch of the noted one. -/
def GroupRecord.outranks (r : GroupRecord) (c : Claim) (source : Station) : Bool :=
  decide (c.epoch = r.epoch) &&
  match r.claimNote with
  | none => false
  | some n => decide (n.claimant ≠ source ∧ n.epoch = c.epoch) && (claimPrecedence c source).higher n.precedence

def noteClaim (c : Claim) (source : Station) (s : State) : State :=
  mapGroup c.group (fun r => { r with claimNote := some ⟨source, c.epoch, claimPrecedence c source⟩ }) s

/-- R149: a witness, by the first rule that holds. -/
def witnessClaim (c : Claim) (source : Station) (s : State) : State :=
  let r := s.group c.group
  if r.state = .disabled then s
  else if s.heldByOther c source then contest c source .ownerAlive s
  else if r.outranks c source then setOwner c.group (some source) (noteClaim c source s)
  else if !serialBefore r.epoch c.epoch then contest c source .staleEpoch s
  else
    setOwner c.group (some source) (noteClaim c source
      (mapGroup c.group (fun r => { r with state := .following }) (raiseEpoch c.group c.epoch s)))

def takeClaim (c : Claim) (source : Station) (s : State) : State :=
  settle (match s.straps.role with
    | .firewall => firewallClaim c source s
    | .witness => witnessClaim c source s)

/-- R148, R149. -/
def execClaimFrame (source : Station) (content : Claim) (s : State) : Host.Outcome State Fault Refusal :=
  .next (onOwnershipFrame 0x02 source (takeClaim content source) s)

/-- R150. -/
def takeContest (c : Contest) (s : State) : State :=
  let r := s.group c.group
  if c.claimant = s.me ∧ r.state = .claiming ∧ r.claimEpoch = some c.epoch then
    settle (raiseEpoch c.group c.known (abandonClaim c.group .vacant none s))
  else s

/-- R150. -/
def execContestFrame (source : Station) (content : Contest) (s : State) : Host.Outcome State Fault Refusal :=
  .next (onOwnershipFrame 0x03 source (takeContest content) s)

/-- R156 at a firewall: the named successor claims at the next epoch, if it is eligible. -/
def succeedYield (y : Yield) (s : State) : State :=
  let s := raiseEpoch y.group y.epoch s
  if s.eligible y.group then
    startClaim y.group .yielded (y.epoch + 1) (some y.drained)
      (mapGroup y.group (fun r => { r with backoff := false }) s)
  else s

/-- R156: the YIELD names this station, whose state for the group lets it act. -/
def State.isSuccessor (s : State) (y : Yield) : Bool :=
  decide (y.successor = s.me) && decide ((s.group y.group).state = .following ∨ (s.group y.group).state = .vacant)

def noteYield (y : Yield) (source : Station) (s : State) : State :=
  mapGroup y.group (fun r => { r with yieldNote := some ⟨source, y.successor, y.epoch⟩ }) s

/-- R156. A witness that is named raises its epoch known as any successor does, and claims nothing, since it is never
eligible (R139). -/
def takeYield (y : Yield) (source : Station) (s : State) : State :=
  match s.straps.role with
  | .witness => noteYield y source (if s.isSuccessor y then raiseEpoch y.group y.epoch s else s)
  | .firewall => if s.isSuccessor y then settle (succeedYield y s) else s

/-- R156. -/
def execYieldFrame (source : Station) (content : Yield) (s : State) : Host.Outcome State Fault Refusal :=
  .next (onOwnershipFrame 0x04 source (takeYield content source) s)

end Sys2Proof.Machine
end

