-- ==== Sys2Proof/Machine/Replication.lean ====
section
/-!
DEFINITION. The receive side of the journal and the join (sections 1.6, 1.7 and 5.6), relay observations at the owner
(section 2.5), the purge queue, passes and re-journal (sections 6.1 to 6.3).
-/

namespace Sys2Proof.Machine

open Sys2Proof

/-! ### Accepting and taking a DELTA -/

/-- The accepted frames the receive side holds (R93). -/
def Receive.frames (r : Receive) : Nat := r.waiting.length + (if r.taking.isSome then 1 else 0)

/-- R93. -/
def acceptDelta (source : Station) (d : Delta) (s : State) : State :=
  if decide (s.straps.role = .firewall) && s.fromPartner source && decide (s.receive.frames < 2) then
    { s with receive.waiting := s.receive.waiting ++ [⟨source, d⟩] }
  else s

/-- R93. -/
def execDeltaFrame (source : Station) (content : Delta) (s : State) : Host.Outcome State Fault Refusal :=
  .next (onFrame 0x08 source (acceptDelta source content) s)

/-- R94: a catch-up, where the sender's oldest held lies beyond the expectation. -/
def catchUp (h : Seq) (s : State) : State :=
  match s.receive.expectation with
  | none => setWant h s
  | some x => if serialBefore x h then setWant h s else s

/-- R73: the last-seen block of an offered record. -/
def noteBlock (c : EntryContent) (s : State) : State :=
  match c.translation with
  | none => s
  | some p => mapPool c.group (fun x => { x with lastSeen := some (blockOf p) }) s

/-- R3: an ENTRY record with an ill-formed key. -/
def malformedRecord (source : Station) (q : Seq) (s : State) : State :=
  raise .table (captureTable { kind := 0x12, source := stationByte source, item := 0x01, second := q } s)

/-- R97: the frame being taken is finished. With the expectation unknown no receipt is placed (log 38). -/
def finishDelta (s : State) : State := placeReceipt { s with receive.taking := none }

/-- R95, R96: the records of the frame being taken, up to one that waits for a grant or for the purge queue. That one stays
at the front and is in hand. A record at exactly half the range from the expectation, for which R95 gives no case, counts as a
gap (log 19). Where the expectation has become unknown, the frame ends (log 38). The last-seen block is written here, at
the offer of the record, and not at the grant of its join (log 37). -/
def takeRecords (source : Station) : List WireRecord → State → State
  | [], s => finishDelta s
  | r :: rest, s =>
    match s.receive.expectation with
    | none => finishDelta s
    | some x =>
      if serialBefore r.seq x then takeRecords source rest s
      else if r.seq ≠ x then finishDelta s
      else
        match r.body with
        | .entry c =>
          if illFormed c.key then
            takeRecords source rest (malformedRecord source r.seq { s with receive.expectation := some (x + 1) })
          else if s.holds c.group then takeRecords source rest { s with receive.expectation := some (x + 1) }
          else noteBlock c { s with receive.taking := some ⟨source, r :: rest, true⟩ }
        | .bucketEnd _ _ _ | .passEnd _ _ => { s with receive.taking := some ⟨source, r :: rest, true⟩ }

/-- R94, R95: the waiting frame is taken, or the taking of a frame goes on with its next record, where none is in hand
(log 45). -/
def takeDelta (s : State) : State :=
  match s.receive.taking, s.receive.waiting with
  | some ⟨source, rest, false⟩, _ => takeRecords source rest s
  | none, d :: rest =>
    takeRecords d.source d.content.records (catchUp d.content.oldest { s with receive.waiting := rest })
  | _, _ => s

/-- R94, R95. -/
def execDeltaTake (s : State) : Host.Outcome State Fault Refusal := .next (whenLive takeDelta s)

/-- The record in hand is done: the expectation advances past it. The last record finishes the frame (R97); otherwise the
next one is taken by a DELTA_TAKE of its own, so that other clients may be granted before its join (R25, R95, log 45). -/
def recordDone (source : Station) (r : WireRecord) (rest : List WireRecord) (s : State) : State :=
  let s := if s.receive.expectation = some r.seq then { s with receive.expectation := some (r.seq + 1) } else s
  if rest.isEmpty then finishDelta s else { s with receive.taking := some ⟨source, rest, false⟩ }

/-! ### The join -/

/-- The stream tracking that a record gives an entry: none for a key that is not a stream (R5). -/
def recordStream (c : EntryContent) : Option Sides :=
  if isStream c.key then some (c.stream.getD Sides.unseen) else none

/-- R15: an entry whose every replicated field is the record's. -/
def recordEntry (c : EntryContent) (source : Station) (q : Seq) (now : BitVec 32) : Entry where
  key := c.key
  group := c.group
  incarnation := c.incarnation
  marks := marksForKey c.key c.marks
  stream := recordStream c
  translation := c.translation
  adopted := c.adopted
  stamp := stampFromIdle now c.idle
  origin := c.origin
  confirmation := some (source, q)
  pending := none

/-- The record's edge is not before the entry's; an absent edge counts as before every present one (R16). -/
def edgeNotBefore (record entry : Option Seq) : Bool :=
  match record, entry with
  | none, some _ => false
  | some r, some e => !serialBefore r e
  | _, none => true

/-- R16, for one side. -/
def mergeSide (e r : Side) : Side where
  edge := serialMaxOpt e.edge r.edge
  ack := serialMaxOpt e.ack r.ack
  window := if edgeNotBefore r.edge e.edge then r.window else e.window

/-- R16. -/
def mergeEntry (e : Entry) (c : EntryContent) (source : Station) (q : Seq) (now : BitVec 32) : Entry :=
  let r := recordEntry c source q now
  { r with
    marks := marksForKey c.key (e.marks.union c.marks)
    stream :=
      match r.stream with
      | none => none
      | some x => some ⟨mergeSide e.sides.initiator x.initiator, mergeSide e.sides.responder x.responder⟩
    stamp := if e.stamp < r.stamp then r.stamp else e.stamp
    adopted := e.adopted || c.adopted
    pending := e.pending }

/-- R21: the slot that a follower finds, and whether the eviction is that of its second step. -/
def followerPlace (t : Table) (b : Bucket) (holds : GroupId → Bool) : Place × Bool :=
  match placeIn t b Entry.isRetired with
  | .full => (placeIn t b fun e => !holds e.group, true)
  | p => (p, false)

/-- R21: a TABLE occurrence of a record. -/
def tableEvent (kind : Byte) (source : Station) (q : Seq) (b : Bucket) (s : State) : State :=
  raise .table (captureTable
    { kind := kind, source := stationByte source, item := 0x01, second := q, third := b.setWidth 32 } s)

/-- The other entry that holds the port which a record gives an entry (R68). -/
def State.otherHolder (s : State) (h : Option Handle) (c : EntryContent) : Option Handle :=
  (c.translation.bind (s.portHolder c.group)).filter fun x => decide (some x ≠ h)

/-- What an operation that fails on the check bits of a displaced holder does: nothing else (R68). -/
def withHolder (client : Client) (holder : Option Handle) (f : State → State) (s : State) : State :=
  match badHolder s.table holder with
  | some b => integrityFailure client b s
  | none => f (displace holder s)

/-- R15, key absent: insertion by R21. A displaced holder of the same bucket leaves before the slot is chosen (R23). -/
def joinInsert (source : Station) (q : Seq) (c : EntryContent) (s : State) : State :=
  let b := bucketOf c.key
  let holder := s.otherHolder none c
  let place := followerPlace (tableWithout s.table b holder) b s.holds
  match place.1 with
  | .full => tableEvent 0x14 source q b s
  | p =>
    withHolder .receiveApply holder (fun s =>
      let s := if place.2 then tableEvent 0x13 source q b s else s
      insertAt p (recordEntry c source q s.now) s) s

/-- R15, R16: an existing entry takes new content, through the translation unit (R23, R67). -/
def joinWrite (h : Handle) (e : Entry) (new : Entry) (c : EntryContent) (s : State) : State :=
  withHolder .receiveApply (s.otherHolder (some h) c) (fun s => writeEntry h new (movePort h e new s)) s

/-- R15, in the bucket operation. -/
def joinRecord (source : Station) (q : Seq) (c : EntryContent) (s : State) : State :=
  match s.table.find c.key with
  | none => joinInsert source q c s
  | some (h, e) =>
    if e.incarnation = c.incarnation then joinWrite h e (mergeEntry e c source q s.now) c s
    else if serialBefore e.incarnation c.incarnation then joinWrite h e (recordEntry c source q s.now) c s
    else s

/-- R15, R96: the join of the record in hand; on a failure the record is abandoned with the frame (R95). -/
def joinInHand (s : State) : State :=
  match s.receive.taking with
  | some ⟨source, r :: rest, true⟩ =>
    match r.body with
    | .entry c =>
      let s' := bucketOperation .receiveApply (bucketOf c.key) (joinRecord source r.seq c) s
      if s'.life = .fault then s' else recordDone source r rest s'
    | .bucketEnd _ _ _ | .passEnd _ _ => s
  | _ => s

/-- R15. -/
def execEntryJoin (s : State) : Host.Outcome State Fault Refusal :=
  .next (whenLive (whenGranted .receiveApply joinInHand) s)

/-! ### The purge queue -/

/-- R104: the item that the record in hand makes in the purge queue. -/
def purgeItemOf (source : Station) : RecordBody → Option PurgeItem
  | .entry _ => none
  | .bucketEnd b g q => some (.bucketEnd source b g q)
  | .passEnd g q => some (.passEnd source g q)

/-- R104: the hand-over, where the queue has room. The end of the partner's presence and a move of the designation empty the
queue and leave the record in hand, which is handed over all the same (log 49). -/
def handOver (s : State) : State :=
  match s.receive.taking with
  | some ⟨source, r :: rest, true⟩ =>
    match purgeItemOf source r.body with
    | some item =>
      if s.recon.purge.length < Config.purgeQueueSize then
        recordDone source r rest { s with recon.purge := s.recon.purge ++ [item] }
      else s
    | none => s
  | _ => s

/-- R104. -/
def execPurgeHandover (s : State) : Host.Outcome State Fault Refusal := .next (whenLive handOver s)

/-- R105: the entry is stale for a BUCKET_END (groups, opening) of `source`. -/
def stale (s : State) (source : Station) (groups : GroupSet) (opening : Seq) (e : Entry) : Bool :=
  groups.get e.group && !s.holds e.group &&
  match e.confirmation with
  | none => true
  | some (o, q) => decide (o ≠ source) || serialBefore q opening

/-- R105, for one entry. -/
def purgeEntry (source : Station) (groups : GroupSet) (opening : Seq) (s : State) (h : Handle) : State :=
  match s.entryAt h with
  | none => s
  | some e => if stale s source groups opening e then removeEntry h s else s

/-- R105, in the bucket operation. -/
def purgeBucket (source : Station) (b : Bucket) (groups : GroupSet) (opening : Seq) (s : State) : State :=
  let handles := (s.table.bucket b).map (·.1)
  let s := handles.foldl (purgeEntry source groups opening) s
  { s with recon.purge := s.recon.purge.tail }

/-- R105: the reader's purge of the BUCKET_END at the head of the queue. -/
def purgeHead (s : State) : State :=
  match s.recon.purge with
  | .bucketEnd source b groups opening :: _ =>
    bucketOperation .reader b (purgeBucket source b groups opening) s
  | _ => s

/-- R105. -/
def execPurge (s : State) : Host.Outcome State Fault Refusal := .next (whenLive (whenGranted .reader purgeHead) s)

/-- R108: every group that the partner's last beacon shows held is in the synced set. The partner is the one designated when
the PASS_END reaches the head of the queue; where none is, want is not cleared (log 51). -/
def State.partnerCovered (s : State) : Bool :=
  match s.presence.partner with
  | none => false
  | some p => four.all fun g => !(s.peer p).showsHeld g || s.recon.synced.get g

/-- R108. -/
def takePassEnd (groups : GroupSet) (start : Seq) (s : State) : State :=
  let s := { s with recon.purge := s.recon.purge.tail }
  let covers := match s.receive.needSince with
    | none => true
    | some n => !serialBefore start n
  if covers then
    let synced := Four.build fun g => s.recon.synced.get g || (groups.get g && !s.holds g)
    let s' := { s with recon.synced := synced }
    let clears := s.receive.want && s'.partnerCovered
    let s' := if clears then { s' with receive.want := false } else s'
    raiseIf (clears || decide (synced ≠ s.recon.synced)) .sync s'
  else s

/-- R108: the PASS_END at the head of the queue. -/
def execPassEndTake (s : State) : Host.Outcome State Fault Refusal :=
  .next (whenLive (fun s =>
    match s.recon.purge with
    | .passEnd _ groups start :: _ => takePassEnd groups start s
    | _ => s) s)

/-! ### Relay observations -/

/-- R129, R46. -/
def acceptRelay (source : Station) (o : Observation) (s : State) : State :=
  if !s.fromPartner source then s
  else if s.engine.relaySlot.isNone then { s with engine.relaySlot := some o }
  else raise .relayDrop s

/-- R46. -/
def execRelayFrame (source : Station) (content : Observation) (s : State) : Host.Outcome State Fault Refusal :=
  .next (onFrame 0x07 source (acceptRelay source content) s)

/-- R17: the marks of an observation that are applied. -/
def observedMarks (m : Marks) : Marks :=
  { established := m.established, finI := m.finI, finR := m.finR, aborted := m.aborted }

/-- R17: the entry after the observation. -/
def observedEntry (e : Entry) (o : Observation) (now : BitVec 32) (me : Station) : Entry :=
  { e with
    marks := e.marks.union (observedMarks o.marks)
    stream :=
      match o.side with
      | some d =>
        if isStream e.key then
          some (e.sides.set o.direction (advanceSide (e.sides.get o.direction) d.edge d.ack d.window))
        else e.stream
      | none => e.stream
    stamp := now
    origin := me }

/-- R17, R47: the join of an observation. A change of marks or stream fields is offered; a change of stamp or origin alone
is not. -/
def joinObservation (o : Observation) (s : State) : State :=
  match s.table.find o.key with
  | none => s
  | some (h, e) =>
    if e.group ≠ o.group ∨ e.incarnation ≠ o.incarnation then s
    else
      let new := observedEntry e o s.now s.me
      let s := writeEntry h new s
      if new.marks ≠ e.marks ∨ new.stream ≠ e.stream then (offer h s).1 else s

/-- R47: the engine takes the observation, when it has no work in progress. -/
def applyRelay (s : State) : State :=
  match s.engine.inProgress, s.engine.relaySlot with
  | none, some o =>
    let s := { s with engine.relaySlot := none }
    if s.holds o.group then bucketOperation .request (bucketOf o.key) (joinObservation o) s else s
  | _, _ => s

/-- R47. -/
def execRelayApply (s : State) : Host.Outcome State Fault Refusal :=
  .next (whenLive (whenEngineGranted applyRelay) s)

/-! ### Re-journal and the end of a pass -/

/-- R103, step 1: the entry is offered, and the serially earliest sequence reported so far is kept. -/
def rejournalEntry (x : State × Option Seq) (h : Handle) : State × Option Seq :=
  let y := offer h x.1
  (y.1, match x.2, y.2 with
    | none, q => q
    | p, none => p
    | some p, some q => some (if serialBefore q p then q else p))

/-- R103, in the bucket operation. -/
def rejournalBucket (b : Bucket) (s : State) : State :=
  let groups := s.heldSet
  let handles := ((s.table.bucket b).filter fun x => groups.get x.2.entry.group).map (·.1)
  let x := handles.foldl rejournalEntry (s, none)
  let s := x.1
  let s := if groups.anyTrue && s.mayAppend then
      { s with journal := s.journal.append (.bucketEnd b groups (x.2.getD s.journal.next)) none }
    else s
  { s with recon.resend := s.recon.resend.filter (· != b) }

/-- R102, R103: purge and digest work go first. -/
def rejournal (s : State) : State :=
  match s.recon.resend with
  | b :: _ =>
    if s.mayRejournal && !s.purgeWaits && s.recon.comparing.isNone && s.recon.preparing.isNone then
      bucketOperation .reader b (rejournalBucket b) s
    else s
  | [] => s

/-- R103. -/
def execReJournal (s : State) : Host.Outcome State Fault Refusal :=
  .next (whenLive (whenGranted .reader rejournal) s)

/-- R107: the PASS_END of a running pass whose Resend Set is empty is appended. -/
def appendPassEnd (s : State) : State :=
  if s.recon.passRunning && s.recon.resend.isEmpty && s.mayAppend then
    let start := s.recon.passStart.getD s.journal.next
    raise .pass
      { s with
        journal := s.journal.append (.passEnd s.heldSet start) none
        recon.lastCompleted := s.recon.passStart
        recon.passRunning := false }
  else s

/-- R107. -/
def execPassEndAppend (s : State) : Host.Outcome State Fault Refusal := .next (whenLive appendPassEnd s)

end Sys2Proof.Machine
end

