-- ==== Sys2Proof/Machine/Digests.lean ====
section
/-!
DEFINITION. Digests, the digest sweep and FETCH (sections 6.4 and 6.5).
-/

namespace Sys2Proof.Machine

open Sys2Proof

/-- R110: the fingerprint of an entry, with the idle seconds sent as 0. -/
def fingerprint (e : Entry) : Word := crc (entryTail { contentOf 0 e with idle := 0 })

/-- R110: the digest of a bucket for a set of groups. -/
def bucketDigest (t : Table) (b : Bucket) (groups : GroupSet) : Word :=
  (((t.bucket b).filter fun x => groups.get x.2.entry.group && !x.2.entry.isRetired).map
    fun x => fingerprint x.2.entry).foldl (· + ·) 0

/-! ### Preparing -/

/-- R111: a sweeping station begins to prepare a digest, where none is prepared or waiting. -/
def beginDigest (s : State) : State :=
  if s.recon.digestTimer && s.sweeps && s.recon.preparing.isNone && s.recon.ready.isNone then
    { s with recon.preparing := some ⟨s.heldSet, s.recon.sweep, []⟩ }
  else s

/-- R111: the timer runs continuously, so its expiry restarts it. -/
def execDigestTimerExpiry (s : State) : Host.Outcome State Fault Refusal := .next (whenLive beginDigest s)

/-- The bucket that a digest in preparation reaches next. -/
def nextBucket (d : Digest) : Bucket := d.first + BitVec.ofNat 12 d.digests.length

/-- R111, steps 2 and 3. -/
def prepareBucket (d : Digest) (s : State) : State :=
  let d := { d with digests := d.digests ++ [bucketDigest s.table (nextBucket d) d.groups] }
  if d.digests.length < Config.digestBuckets then { s with recon.preparing := some d }
  else if s.partnerPresent then
    { s with recon.preparing := none, recon.ready := some d, recon.sweep := nextBucket d }
  else { s with recon.preparing := none }

/-- R111, R102: a purge and a comparison go first. -/
def prepareDigest (s : State) : State :=
  match s.recon.preparing with
  | some d =>
    if s.purgeWaits || s.recon.comparing.isSome then s
    else bucketOperation .reader (nextBucket d) (prepareBucket d) s
  | none => s

/-- R111. -/
def execDigestPrepare (s : State) : Host.Outcome State Fault Refusal :=
  .next (whenLive (whenGranted .reader prepareDigest) s)

/-! ### Comparing -/

/-- R112. -/
def State.acceptsDigest (s : State) (source : Station) (d : Digest) : Bool :=
  decide (s.straps.role = .firewall) && s.life.joined && s.fromPartner source && d.groups.anyTrue &&
    (four.all fun g => !d.groups.get g ||
      decide ((s.group g).state = .following ∧ (s.group g).owner = some source)) &&
    s.recon.comparing.isNone

/-- R112. -/
def acceptDigest (source : Station) (d : Digest) (s : State) : State :=
  if s.acceptsDigest source d then { s with recon.comparing := some ⟨d.groups, d.first, d.digests⟩ } else s

/-- R112. -/
def execDigestFrame (source : Station) (content : Digest) (s : State) : Host.Outcome State Fault Refusal :=
  .next (onFrame 0x09 source (acceptDigest source content) s)

/-- R113: a mismatching bucket is offered to the fetch slot. -/
def offerFetch (groups : GroupSet) (b : Bucket) (slot : Option Fetch) : Option Fetch :=
  match slot with
  | none => some ⟨groups, [b]⟩
  | some f =>
    if f.groups = groups ∧ !f.buckets.contains b ∧ f.buckets.length < Config.fetchBuckets then
      some { f with buckets := f.buckets ++ [b] }
    else some f

/-- R112: one bucket is compared, and the comparison goes on or ends. -/
def compareBucket (c : Comparison) (received : Word) (rest : List Word) (s : State) : State :=
  let slot := if bucketDigest s.table c.bucket c.groups = received then s.recon.fetch
    else offerFetch c.groups c.bucket s.recon.fetch
  { s with
    recon.fetch := slot
    recon.comparing := if rest.isEmpty then none else some ⟨c.groups, c.bucket + 1, rest⟩ }

/-- R112, R102: a purge goes first. -/
def compareDigest (s : State) : State :=
  match s.recon.comparing with
  | some c =>
    if s.purgeWaits then s
    else
      match c.rest with
      | received :: rest => bucketOperation .reader c.bucket (compareBucket c received rest) s
      | [] => { s with recon.comparing := none }
  | none => s

/-- R112. -/
def execDigestCompare (s : State) : Host.Outcome State Fault Refusal :=
  .next (whenLive (whenGranted .reader compareDigest) s)

/-! ### FETCH -/

/-- R114. -/
def State.acceptsFetch (s : State) (source : Station) (f : Fetch) : Bool :=
  decide (s.straps.role = .firewall) && s.life.joined && s.fromPartner source && f.groups.anyTrue &&
    four.all fun g => !f.groups.get g || s.holds g

/-- R114. -/
def acceptFetch (source : Station) (f : Fetch) (s : State) : State :=
  if s.acceptsFetch source f then
    { s with recon.resend := f.buckets.foldl (fun l b => addBucket b l) s.recon.resend }
  else s

/-- R114. -/
def execFetchFrame (source : Station) (content : Fetch) (s : State) : Host.Outcome State Fault Refusal :=
  .next (onFrame 0x06 source (acceptFetch source content) s)

end Sys2Proof.Machine
end

