-- ==== Sys2Proof/Machine/Station.lean ====
section
/-!
DEFINITION. The resets (R186, R187) and the group lines' readback (R159).
-/

namespace Sys2Proof.Machine

open Sys2Proof

/-- R186, R187: the values of the POWER column with the sampled straps, a cause record and the captures that are kept. The
levels driven from outside, the numbering of free values and the queue of commands are not the part's to reset. -/
def resetStation (straps : Straps) (cause : Cause) (bus table request : Option Capture) (s : State) : State :=
  raiseLines
    { State.reset with
      straps := straps
      receive := Receive.reset straps.role
      presence := Presence.reset cause
      port := { LocalPort.reset with busCapture := bus, tableCapture := table, requestCapture := request }
      own := { State.reset.own with foreignDrive := s.own.foreignDrive }
      freeCount := s.freeCount
      pending := s.pending }

/-- R186. -/
def execPowerReset (straps : Straps) (s : State) : Host.Outcome State Fault Refusal :=
  .next (resetStation straps ⟨.power, Four.all false, .none⟩ none none none s)

/-- R186: power is applied or lost. The lines go off and a transmission stops; what the reset leaves is written at its
release. -/
def execPowerResetOnset (s : State) : Host.Outcome State Fault Refusal :=
  .next { s with phase := .power, bus.transmitting := none }

/-- The held set that a PIN reset or a REJOIN takes (R187). -/
def State.takenHeldSet (s : State) : GroupSet := if s.life = .fault then s.presence.heldAtFault else s.heldSet

/-- R187: the held set is taken, every line drive turns off, and a transmission stops. -/
def execPinResetAssert (s : State) : Host.Outcome State Fault Refusal :=
  .next (whenLive (fun s =>
    { s with phase := .pin s.takenHeldSet s.presence.faultKind, bus.transmitting := none }) s)

/-- R187. -/
def execPinResetRelease (straps : Straps) (s : State) : Host.Outcome State Fault Refusal :=
  .next (match s.phase with
    | .pin held prior =>
      resetStation straps ⟨.pin, held, prior⟩ s.port.busCapture s.port.tableCapture s.port.requestCapture s
    | .running | .power => s)

/-- R159: the level that others drive changes; a change of foreign assertion raises LINE, and eligibility is recomputed. -/
def execGroupLineReadback (g : GroupId) (foreignDrive : Bool) (s : State) : Host.Outcome State Fault Refusal :=
  let s' := { s with own.foreignDrive := s.own.foreignDrive.set g foreignDrive }
  .next (whenLive (fun s' => settle (raiseIf (s.foreign g != s'.foreign g) .line s')) s')

end Sys2Proof.Machine
end

