-- ==== Sys2Proof/Machine/GroupRequests.lean ====
section
/-!
DEFINITION. The requests that make no bucket operation: HEALTH, HOLD, UNHOLD, RESYNC, SETUP, SEAL, REJOIN with its clear,
KEEP, and a request of an unknown kind (spec/06, spec/08, spec/10, spec/11).
-/

namespace Sys2Proof.Machine

open Sys2Proof

/-- R161, R162: word 3 of the response, as it stands after the request. -/
def answerView (r : Request) (s : State) : State :=
  let g := s.group r.group
  respond { plainResponse r .ok with view := some ⟨g.state, g.health, g.hold⟩ } s

/-- R161, steps 1 to 5. -/
def groupRequest (r : Request) (f : State → State) (s : State) : State :=
  if s.life = .setup then answer r .notReady s
  else if s.life = .fault then answer r .faulted s
  else
    match firstOffence (groupOffence r) with
    | some o => badRequest r o s
    | none =>
      if s.straps.role = .witness then answer r .notOwner s
      else if (s.group r.group).state = .disabled then answer r .groupDisabled s
      else f s

/-- R161: the score, or 15 where it exceeds 15. -/
def cappedHealth (score : Byte) : Health := BitVec.ofNat 4 (min Config.healthCap score.toNat)

/-- R161. -/
def setHealth (r : Request) (s : State) : State :=
  let s := mapGroup r.group (fun x => { x with health := cappedHealth r.score }) s
  answerView r (settle (if cappedHealth r.score = 0 then reactLoss r.group s else s))

/-- R162. -/
def setHold (r : Request) (s : State) : State :=
  if (s.group r.group).hold then answerView r s
  else answerView r (settle (reactLoss r.group (mapGroup r.group (fun x => { x with hold := true }) s)))

/-- R162. -/
def clearHold (r : Request) (s : State) : State :=
  answerView r (settle (mapGroup r.group (fun x => { x with hold := false }) s))

/-- R161. -/
def execHealth (s : State) : Host.Outcome State Fault Refusal :=
  .next (onRequest 0x10 (fun r s => groupRequest r (setHealth r) s) s)

/-- R162. -/
def execHold (s : State) : Host.Outcome State Fault Refusal :=
  .next (onRequest 0x11 (fun r s => groupRequest r (setHold r) s) s)

/-- R162. -/
def execUnhold (s : State) : Host.Outcome State Fault Refusal :=
  .next (onRequest 0x12 (fun r s => groupRequest r (clearHold r) s) s)

/-- R115. -/
def resync (r : Request) (s : State) : State :=
  if s.life = .setup then answer r .notReady s
  else if s.life = .fault then answer r .faulted s
  else if s.recon.passRunning then answer r .busy s
  else if !s.heldSet.anyTrue then answer r .notOwner s
  else answer r .ok (startPass s)

/-- R115. -/
def execResync (s : State) : Host.Outcome State Fault Refusal := .next (onRequest 0x13 resync s)

/-- R197. -/
def writeSetup (r : Request) (s : State) : State :=
  if s.port.isSealed then answer r .sealed s
  else
    match setupOffence r with
    | some o => badRequest r o s
    | none => answer r .ok { s with port.setup := r.setup }

/-- R197. -/
def execSetup (s : State) : Host.Outcome State Fault Refusal := .next (onRequest 0x20 writeSetup s)

/-- R181. Solo takeover takes effect with the seal, so quorum may become present (R138, log 13). -/
def sealStation (s : State) : State :=
  enterListen (quorumChange s.quorumPresent { s with
    port.isSealed := true
    presence.fingerprint := some s.port.setup.fingerprint
    own.groups := Four.build fun g =>
      { s.group g with state := if s.port.setup.groups.get g then .vacant else .disabled } })

/-- R198. -/
def sealRequest (r : Request) (s : State) : State :=
  if s.life = .setup then answer r .ok (sealStation s) else answer r .sealed s

/-- R198. -/
def execSeal (s : State) : Host.Outcome State Fault Refusal := .next (onRequest 0x21 sealRequest s)

/-- R109, R142: the synced set without the groups whose owner known ends. -/
def State.syncedUnowned (s : State) : GroupSet :=
  Four.build fun g => s.recon.synced.get g && (s.group g).owner.isNone

/-- R191, step 1. The acceptance leaves the groups VACANT and starts no claim (log 11). -/
def acceptRejoin (r : Request) (s : State) : State :=
  raiseLines
    { clearOwnership s with
      recon.synced := s.syncedUnowned
      presence.cause := ⟨.rejoin, s.takenHeldSet, s.presence.faultKind⟩
      engine.inProgress := some r.tag }

/-- R190. -/
def rejoinRequest (r : Request) (s : State) : State :=
  if s.life = .setup then answer r .notSealed s
  else if s.life = .fault ∧ s.presence.faultKind = .duplicate then answer r .faulted s
  else acceptRejoin r s

/-- R190. -/
def execRejoin (s : State) : Host.Outcome State Fault Refusal := .next (onRequest 0x22 rejoinRequest s)

/-- R191, step 2: the values of every REJOIN column. A composed DELTA and a transmission in progress are kept (R135); the
slots and queues empty, so a frame of any kind but DELTA that is in transmission and then collides is not sent again
(log 41). The indication that the station has deferred, for which R135 has no row, is kept with the collision count
(log 47). The tick count that the emptied snapshot shows is a free value (log 6). -/
def rejoinColumns (s : State) : State :=
  let s := clearOwnership s
  { s with
    table := []
    scan := ⟨false, 0, false⟩
    xlate := Four.all Pool.reset
    journal := { Journal.reset with oldest := s.journal.next, sendPoint := s.journal.next, next := s.journal.next }
    receive := Receive.reset s.straps.role
    recon := { Recon.reset with digestTimer := s.recon.digestTimer }
    engine.relaySlot := none
    bus := { Bus.reset with
      delta := s.bus.delta
      collisions := s.bus.collisions
      lastClass3 := s.bus.lastClass3
      transmitting := s.bus.transmitting.map fun x => { x with held := x.held && kindCode x.payload == 0x08 }
      deferred := s.bus.deferred
      straddling := s.bus.straddling }
    presence := { Presence.reset s.presence.cause with
      fingerprint := s.presence.fingerprint
      life := s.life }
    port.cursorPending := false
    port.snapshot := ⟨s.port.cursorHandle, none, .passed, Config.freeTick s.freeCount⟩
    freeCount := s.freeCount + 1 }

/-- R191, steps 2 and 3: the clear, then the entry to LISTEN and the answer. -/
def rejoinSteps (tag : Byte) (s : State) : State :=
  let s := enterListen (quorumChange s.quorumPresent (rejoinColumns s))
  respond { kind := rejoinKind, tag := tag, status := .ok } { s with engine.inProgress := none }

/-- R191. -/
def execRejoinClear (s : State) : Host.Outcome State Fault Refusal :=
  .next (whenLive (fun s =>
    match s.engine.inProgress with
    | none => s
    | some tag => rejoinSteps tag s) s)

/-- R200. -/
def keepRequest (r : Request) (s : State) : State :=
  answer r (if s.life = .fault then .faulted else .ok) s

/-- R200. -/
def execKeep (s : State) : Host.Outcome State Fault Refusal := .next (onRequest 0x23 keepRequest s)

/-- R194: the oldest request is of a kind that names none. -/
def execUnknownKind (s : State) : Host.Outcome State Fault Refusal :=
  .next (whenLive (fun s =>
    match s.nextRequest with
    | none => s
    | some r => if knownKinds.contains r.kind then s else badRequest r ⟨0, 24⟩ (takeRequest s)) s)

end Sys2Proof.Machine
end

