-- ==== Sys2Proof/Machine/LocalPort.lean ====
section
/-!
DEFINITION. The host's accesses to the window (sections 11.1, 11.2, 11.5 and 11.6), and the cursor snapshot.
-/

namespace Sys2Proof.Machine

open Sys2Proof

/-! ### What a write does -/

/-- R193: the staged request is queued, or discarded as OVERRUN. -/
def postRequest (s : State) : State :=
  if s.port.requests.length < Config.requestQueueSize then
    { s with port.requests := s.port.requests ++ [s.port.staging] }
  else
    let w := s.port.staging[0]
    raise .overrun (captureRequest
      { kind := 0x20, source := w.extractLsb' 16 8, item := (w.extractLsb' 24 7).setWidth 8 } s)

/-- R195. -/
def popResponse (s : State) : State := { s with port.responses := s.port.responses.tail }

/-- R201: the flags whose bits are one clear; RESPONSE is a level, and its stored bit stays clear. -/
def clearEvents (value : Word) (s : State) : State :=
  { s with port.flags := s.port.flags &&& ~~~ (value.setWidth 18) }

/-- R202. -/
def writeMask (value : Word) (s : State) : State := { s with port.mask := value.setWidth 18 }

/-- R203. -/
def writeCursor (value : Word) (s : State) : State :=
  { s with port.cursorHandle := value.setWidth 14, port.cursorPending := true }

/-- R207. -/
def clearCaptures (value : Word) (s : State) : State :=
  { s with
    port.busCapture := if value.getLsbD 0 then none else s.port.busCapture
    port.tableCapture := if value.getLsbD 1 then none else s.port.tableCapture
    port.requestCapture := if value.getLsbD 2 then none else s.port.requestCapture }

/-- A write of a staging word (R192, R193). -/
def writeStaging (i : Fin 16) (value : Word) (s : State) : State :=
  { s with port.staging := s.port.staging.set i.val value i.isLt }

/-- R192: a whole-word write at an offset of the window; a word marked R ignores it. -/
def writeWord (offset : Byte) (value : Word) (s : State) : State :=
  if offset = 0x10 ∨ offset = 0x14 then clearEvents value s
  else if offset = 0x18 then writeMask value s
  else if offset = 0x1C then postRequest s
  else if offset = 0x20 then popResponse s
  else if offset = 0x24 then writeCursor value s
  else if offset = 0x28 then clearCaptures value s
  else if 0x60 ≤ offset.toNat ∧ offset.toNat < 0xA0 then
    writeStaging (Fin.ofNat 16 ((offset.toNat - 0x60) / 4)) value s
  else s

/-- R192: a write narrower than a word is ignored; so is a word at an offset that is no multiple of four. -/
def writeWindow (offset : Byte) (size : AccessSize) (value : Word) (s : State) : State :=
  if size = .word ∧ offset.toNat % 4 = 0 then writeWord offset value s else s

/-! ### The cursor -/

/-- R204: the next way of the same bucket. -/
def nextWay (h : Handle) : Handle := handleOf (bucketOfHandle h) (wayOfHandle h + 1)

/-- R204: a read of CURSOR_DATA23. -/
def advanceCursor (s : State) : State :=
  if s.port.cursorPending then s
  else { s with port.cursorHandle := nextWay s.port.cursorHandle, port.cursorPending := true }

/-- R203: what the verification of the slot's bucket finds. A failure of this slot is shown first where another slot of the
bucket fails too (log 44). -/
def State.integrityAt (s : State) (h : Handle) : Integrity :=
  if s.table.sound (bucketOfHandle h) then .passed
  else
    match s.table.slot h with
    | some x => if x.intact then .failedElsewhere else .failedHere
    | none => .failedElsewhere

/-- R203: the slot is copied whole, and the count advances. -/
def copySnapshot (s : State) : State :=
  let h := s.port.cursorHandle
  { s with
    port.snapshot := ⟨h, s.entryAt h, s.integrityAt h, s.now⟩
    port.snapshotCount := s.port.snapshotCount + 1
    port.cursorPending := false }

/-- R203: the grant; a failed verification is recorded after the copy. -/
def takeSnapshot (s : State) : State :=
  if s.port.cursorPending then
    let b := bucketOfHandle s.port.cursorHandle
    let s' := copySnapshot s
    if s.table.sound b then s' else integrityFailure .cursor b s'
  else s

/-! ### The commands -/

/-- R193. -/
def execPost (_value : Word) (s : State) : Host.Outcome State Fault Refusal := .next (whenLive postRequest s)

/-- R195. -/
def execPop (_value : Word) (s : State) : Host.Outcome State Fault Refusal := .next (whenLive popResponse s)

/-- R201. -/
def execEventsWrite (value : Word) (s : State) : Host.Outcome State Fault Refusal :=
  .next (whenLive (clearEvents value) s)

/-- R202. -/
def execMaskWrite (value : Word) (s : State) : Host.Outcome State Fault Refusal := .next (whenLive (writeMask value) s)

/-- R203. -/
def execCursorWrite (value : Word) (s : State) : Host.Outcome State Fault Refusal :=
  .next (whenLive (writeCursor value) s)

/-- R204. -/
def execCursorData23Read (s : State) : Host.Outcome State Fault Refusal := .next (whenLive advanceCursor s)

/-- R203. -/
def execCursorSnapshot (s : State) : Host.Outcome State Fault Refusal :=
  .next (whenLive (whenGranted .cursor takeSnapshot) s)

/-- R207. -/
def execClear (value : Word) (s : State) : Host.Outcome State Fault Refusal := .next (whenLive (clearCaptures value) s)

/-- R192. -/
def execRegisterWrite (offset : Byte) (size : AccessSize) (value : Word) (s : State) :
    Host.Outcome State Fault Refusal :=
  .next (whenLive (writeWindow offset size value) s)

end Sys2Proof.Machine
end

