-- ==== Sys2Proof/Machine/Timers.lean ====
section
/-!
DEFINITION. The expiries of the part's timers. An expiry of a timer that is not running does nothing (log 7).
-/

namespace Sys2Proof.Machine

open Sys2Proof

/-- R130. -/
def execBeaconTimerExpiry (s : State) : Host.Outcome State Fault Refusal :=
  .next (whenLive (fun s => if s.presence.beaconTimer then handBeacon s else s) s)

/-- R132. -/
def execDeadTimerExpiry (peer : Station) (s : State) : Host.Outcome State Fault Refusal :=
  .next (whenLive (fun s => if (s.peer peer).deadTimer then loseRecord peer s else s) s)

/-- R182. -/
def leaveListen (s : State) : State :=
  settle { s with
    presence.listenTimer := false
    presence.life := if countPresent s.presence.records = 0 then .isolated else .member }

/-- R182. -/
def execListenTimerExpiry (s : State) : Host.Outcome State Fault Refusal :=
  .next (whenLive (fun s => if s.presence.listenTimer && decide (s.life = .listen) then leaveListen s else s) s)

/-- R90: the send point goes back to the oldest held, where records are outstanding. -/
def receiptExpires (s : State) : State :=
  { s with
    journal.receiptTimer := false
    journal.sendPoint := if s.journal.outstanding then s.journal.oldest else s.journal.sendPoint }

/-- R90. -/
def execReceiptTimerExpiry (s : State) : Host.Outcome State Fault Refusal :=
  .next (whenLive (fun s => if s.journal.receiptTimer then receiptExpires s else s) s)

/-- R174: a stall spoils every drain in progress. -/
def spoilDrains (s : State) : State :=
  { s with own.groups := Four.build fun g =>
      let r := s.group g
      if r.state = .yielding then { r with drainSpoiled := true } else r }

/-- R91. A clear that fails enters FAULT, where no pass starts (log 20). -/
def stall (s : State) : State := startPass (verifyClear (spoilDrains (raise .lag (journalClear s))))

/-- R91. -/
def execStallTimerExpiry (s : State) : Host.Outcome State Fault Refusal :=
  .next (whenLive (fun s => if s.journal.stallTimer then stall s else s) s)

/-- R144, R146. -/
def execClaimWaitExpiry (g : GroupId) (s : State) : Host.Outcome State Fault Refusal :=
  .next (whenLive (fun s =>
    if (s.group g).claimWait && decide ((s.group g).state = .claiming) then
      enterHolding g (s.group g).maturing s
    else s) s)

/-- R143. -/
def execClaimBackoffExpiry (g : GroupId) (s : State) : Host.Outcome State Fault Refusal :=
  .next (whenLive (fun s =>
    if (s.group g).backoff then settle (mapGroup g (fun r => { r with backoff := false }) s) else s) s)

/-- R154: the delay has run out; with the condition still holding, the station yields. -/
def preemptNow (g : GroupId) (s : State) : State :=
  let s := mapGroup g (fun r => { r with preempt := false }) s
  match s.presentPartner with
  | some p => if s.preemptCondition g then settle (enterYielding g p s) else s
  | none => s

/-- R154. -/
def execPreemptDelayExpiry (g : GroupId) (s : State) : Host.Outcome State Fault Refusal :=
  .next (whenLive (fun s => if (s.group g).preempt then preemptNow g s else s) s)

/-- R173: the drain ends at its limit, with drained no. -/
def execDrainTimerExpiry (g : GroupId) (s : State) : Host.Outcome State Fault Refusal :=
  .next (whenLive (fun s =>
    if (s.group g).drain && decide ((s.group g).state = .yielding) then settle (endDrain g false s) else s) s)

/-- R167. -/
def execAdoptionWindowExpiry (g : GroupId) (s : State) : Host.Outcome State Fault Refusal :=
  .next (whenLive (fun s =>
    if (s.group g).adoptionTimer && (s.group g).adoptionOpen then raise .adoptEnd (closeWindow g s) else s) s)

/-- R153: every group that the station holds or yields is released. -/
def releaseAll (s : State) : State := four.foldl (fun s g => if s.holds g then release g s else s) s

/-- R153. -/
def execQuorumTimerExpiry (s : State) : Host.Outcome State Fault Refusal :=
  .next (whenLive (fun s =>
    if s.own.quorumTimer then settle (releaseAll { s with own.quorumTimer := false }) else s) s)

/-- R160: a line that stays foreign-asserted is captured once. -/
def lineStuck (g : GroupId) (s : State) : State :=
  busFault { kind := 0x08, source := stationByte s.me, item := 0, second := BitVec.ofNat 32 g.val }
    (mapGroup g (fun r => { r with lineTimer := false, lineReported := true }) s)

/-- R160. -/
def execLineInhibitionExpiry (g : GroupId) (s : State) : Host.Outcome State Fault Refusal :=
  .next (whenLive (fun s => if (s.group g).lineTimer then lineStuck g s else s) s)

/-- R199, R152: the host has lapsed; each held group reacts on its own, in the order of the group numbers (log 42). -/
def hostLapses (s : State) : State :=
  let s := raise .watch { s with port.lapsed := true, port.hostWatch := false }
  settle (four.foldl (fun s g => reactLoss g s) s)

/-- R199. -/
def execHostWatchExpiry (s : State) : Host.Outcome State Fault Refusal :=
  .next (whenLive (fun s => if s.port.hostWatch then hostLapses s else s) s)

end Sys2Proof.Machine
end

