-- ==== Sys2Proof/Machine/Transmit.lean ====
section
/-!
DEFINITION. The medium and the grant (section 7.1), the selection and composition of frames (R120, R86, R113), and what
follows a transmission (R118, R120, R144).
-/

namespace Sys2Proof.Machine

open Sys2Proof

/-! ### Contending -/

/-- R85: a DELTA is ready: one is composed, or the journal is ready to send. -/
def State.deltaReady (s : State) : Bool := s.bus.delta.isSome || serialBefore s.journal.sendPoint s.journal.next

/-- R111: a DIGEST is ready. -/
def State.digestReady (s : State) : Bool := s.bus.digest.isSome || s.recon.ready.isSome

/-- R117: the lowest class among the ready frames. -/
def State.readyClass (s : State) : Option Nat :=
  if !s.bus.control.isEmpty || s.bus.beaconSlot.isSome then some 1
  else if s.bus.receiptSlot.isSome || s.bus.fetch.isSome || s.recon.fetch.isSome || !s.bus.relays.isEmpty then some 2
  else if s.deltaReady || s.digestReady then some 3
  else none

/-- R117: the gap of a class, in microseconds. -/
def gapMicros (c : Nat) (me : Station) : Nat := 10 * c + 2 * me.val

/-! ### Composing a DELTA -/

/-- A journal record as a DELTA carries it. -/
def JournalRecord.wire (r : JournalRecord) : WireRecord := ⟨r.seq, r.body⟩

/-- R86: up to `n` records whose bytes fit in `room`; the first always fits. -/
def fitting : Nat → Nat → List JournalRecord → List JournalRecord
  | 0, _, _ => []
  | _ + 1, _, [] => []
  | n + 1, room, r :: rest =>
    let size := (recordBytes r.wire).length
    if size ≤ room then r :: fitting n (room - size) rest else []

/-- R86: the records from the send point onward that the frame carries. -/
def Journal.carried (j : Journal) : List JournalRecord :=
  fitting Config.deltaRecords (Config.deltaPayload - 5) (j.records.drop (j.sendPoint - j.oldest).toNat)

/-- R86: the journal after the composition. -/
def Journal.composed (j : Journal) : Journal :=
  let sent := j.carried
  { j with
    records := j.records.map fun r => if sent.any (fun x => x.seq == r.seq) then { r with sent := true } else r
    sendPoint := j.sendPoint + BitVec.ofNat 32 sent.length
    receiptTimer := true
    stallTimer := true }

/-- R87: the slot of a record carried for the first time, whose pending mark names the record. -/
def State.pendingSlot (s : State) (r : JournalRecord) : Option (Handle × Slot) :=
  if r.sent then none
  else
    r.slot.bind fun h =>
      (s.table.slot h).bind fun x => if x.entry.pending = some r.seq then some (h, x) else none

/-- R87: the pending mark of one record is cleared, or the slot's check bits fail. The composition stops at a failure. -/
def clearPending (s : State) (r : JournalRecord) : State :=
  match s.pendingSlot r with
  | none => s
  | some (h, x) =>
    if s.life = .fault then s
    else if x.intact then writeEntry h { x.entry with pending := none } s
    else integrityFailure .composition (bucketOfHandle h) s

/-- R86, R87: a DELTA is composed and its transmission starts; a failed check enters FAULT, which stops it. -/
def composeDelta (s : State) : State :=
  let sent := s.journal.carried
  let d : Delta := ⟨s.journal.oldest, sent.map JournalRecord.wire⟩
  let s := { s with
    journal := s.journal.composed
    bus.delta := some d
    bus.transmitting := some ⟨.delta d, true⟩ }
  sent.foldl clearPending s

/-! ### Starting -/

def beginTransmission (p : Payload) (s : State) : State := { s with bus.transmitting := some ⟨p, true⟩ }

/-- R120, class 1. -/
def startControl (s : State) : State :=
  match s.bus.control with
  | f :: _ => beginTransmission (controlPayload f) s
  | [] =>
    match s.bus.beaconSlot with
    | some b => beginTransmission (.beacon b) s
    | none => s

/-- R120, class 2. A FETCH is composed at its grant, and the fetch slot empties (R113). -/
def startSecond (s : State) : State :=
  match s.bus.receiptSlot with
  | some n => beginTransmission (.receipt n) s
  | none =>
    match s.bus.fetch, s.recon.fetch with
    | some f, _ => beginTransmission (.fetch f) s
    | none, some f => beginTransmission (.fetch f) { s with bus.fetch := some f, recon.fetch := none }
    | none, none =>
      match s.bus.relays with
      | o :: _ => beginTransmission (.relay o) s
      | [] => s

def startDelta (s : State) : State :=
  match s.bus.delta with
  | some d => beginTransmission (.delta d) s
  | none => composeDelta s

def startDigest (s : State) : State :=
  match s.bus.digest, s.recon.ready with
  | some d, _ => beginTransmission (.digest d) s
  | none, some d => beginTransmission (.digest d) { s with bus.digest := some d }
  | none, none => s

/-- R120, class 3: of two ready frames, the kind not transmitted last, and at first the DELTA. -/
def startThird (s : State) : State :=
  if s.deltaReady && (!s.digestReady || s.bus.lastClass3 != some .delta) then startDelta s else startDigest s

/-- R120. -/
def startClass (c : Nat) (s : State) : State :=
  if c = 1 then startControl s else if c = 2 then startSecond s else startThird s

/-- R117: the station contends, and no transmission of its own is in progress. -/
def State.contends (s : State) : Option Nat :=
  if s.life.active && s.bus.transmitting.isNone then s.readyClass else none

/-- R117: the gap has ended with the medium still idle, so nothing that began in SETUP is left on it (log 36). -/
def execTransmitStart (idleMicros : Nat) (s : State) : Host.Outcome State Fault Refusal :=
  .next (whenLive (fun s =>
    match s.contends with
    | none => s
    | some c =>
      if gapMicros c s.me ≤ idleMicros then startClass c { s with bus.deferred := false, bus.straddling := false }
      else s) s)

/-- R117: another station's start is heard before the gap ends. In SETUP nothing contends; the start is noted, since its
transmission is discarded even where SEAL is accepted before its end (R181, log 36). -/
def hearStart (s : State) : State :=
  if s.life = .setup then { s with bus.straddling := true }
  else if s.contends.isSome then { s with bus.deferred := true }
  else s

/-- R117. -/
def execDefer (s : State) : Host.Outcome State Fault Refusal := .next (whenLive hearStart s)

/-- R123: the frame that is being transmitted bears this station's own number. -/
def State.sentFrame (s : State) : Option Frame := s.bus.transmitting.map fun t => ⟨s.me, t.payload⟩

/-- R123: the bytes of the transmission in progress. -/
def State.sentBytes (s : State) : Option (List Byte) := s.sentFrame.map frameBytes

/-! ### Ending -/

def class3Of : Payload → Option Class3
  | .delta _ => some .delta
  | .digest _ => some .digest
  | _ => none

/-- The frame leaves its slot or queue; a DELTA or DIGEST is finished (R120). -/
def leaveHolder (p : Payload) (s : State) : State :=
  match p with
  | .beacon _ => { s with bus.beaconSlot := none }
  | .claim _ | .contest _ | .yield _ => { s with bus.control := s.bus.control.tail }
  | .receipt _ => { s with bus.receiptSlot := none }
  | .fetch _ => { s with bus.fetch := none }
  | .relay _ => { s with bus.relays := s.bus.relays.tail }
  | .delta _ => { s with bus.delta := none }
  | .digest _ => { s with bus.digest := none, recon.ready := none }

/-- A transmission has ended for good: its frame leaves, and a class 3 kind counts as transmitted last. -/
def finishFrame (t : Transmission) (s : State) : State :=
  let s := if t.held then leaveHolder t.payload s else s
  { s with
    bus.transmitting := none
    bus.collisions := 0
    bus.lastClass3 := (class3Of t.payload).orElse fun _ => s.bus.lastClass3 }

/-- R144: the claim wait starts when the CLAIM has been transmitted. -/
def claimTransmitted (t : Transmission) (s : State) : State :=
  match t.payload with
  | .claim c =>
    if t.held && decide ((s.group c.group).state = .claiming ∧ (s.group c.group).claimEpoch = some c.epoch) then
      mapGroup c.group (fun r => { r with claimWait := true }) s
    else s
  | _ => s

/-- R120. -/
def execTransmitted (s : State) : Host.Outcome State Fault Refusal :=
  .next (whenLive (fun s =>
    match s.bus.transmitting with
    | none => s
    | some t => claimTransmitted t (finishFrame t s)) s)

/-- R118: the first sequence of a DELTA, for the capture. -/
def firstSequence : Payload → Word
  | .delta d => (d.records.head?.map (·.seq)).getD 0
  | _ => 0

/-- R145, third row: the CLAIM was discarded. -/
def claimDiscarded (t : Transmission) (s : State) : State :=
  match t.payload with
  | .claim c =>
    if t.held && decide ((s.group c.group).state = .claiming) then settle (abandonClaim c.group .vacant none s) else s
  | _ => s

/-- R118: the sixteenth consecutive collision. -/
def discardFrame (t : Transmission) (s : State) : State :=
  claimDiscarded t (busFault
    { kind := 0x06, source := stationByte s.me, item := kindCode t.payload, second := firstSequence t.payload }
    (finishFrame t s))

/-- R118. -/
def execCollision (s : State) : Host.Outcome State Fault Refusal :=
  .next (whenLive (fun s =>
    match s.bus.transmitting with
    | none => s
    | some t =>
      if s.bus.collisions + 1 < Config.collisionLimit then
        { s with bus.transmitting := none, bus.collisions := s.bus.collisions + 1 }
      else discardFrame t s) s)

end Sys2Proof.Machine
end

