-- ==== Sys2Proof/Machine/Dispatch.lean ====
section
/-!
DEFINITION. The dispatch of a command to its meaning.
-/

namespace Sys2Proof.Machine

open Sys2Proof

def exec (i : Instr) (s : State) : Host.Outcome State Fault Refusal :=
  match i with
  | .powerReset straps => Sys2Proof.Machine.execPowerReset straps s
  | .pinResetAssert => Sys2Proof.Machine.execPinResetAssert s
  | .pinResetRelease straps => Sys2Proof.Machine.execPinResetRelease straps s
  | .groupLineReadback g foreignDrive => Sys2Proof.Machine.execGroupLineReadback g foreignDrive s
  | .post value => Sys2Proof.Machine.execPost value s
  | .pop value => Sys2Proof.Machine.execPop value s
  | .eventsWrite value => Sys2Proof.Machine.execEventsWrite value s
  | .maskWrite value => Sys2Proof.Machine.execMaskWrite value s
  | .cursorWrite value => Sys2Proof.Machine.execCursorWrite value s
  | .cursorData23Read => Sys2Proof.Machine.execCursorData23Read s
  | .cursorSnapshot => Sys2Proof.Machine.execCursorSnapshot s
  | .clear value => Sys2Proof.Machine.execClear value s
  | .registerWrite offset size value => Sys2Proof.Machine.execRegisterWrite offset size value s
  | .unknownKind => Sys2Proof.Machine.execUnknownKind s
  | .check => Sys2Proof.Machine.execCheck s
  | .adopt => Sys2Proof.Machine.execAdopt s
  | .retire => Sys2Proof.Machine.execRetire s
  | .lookup => Sys2Proof.Machine.execLookup s
  | .health => Sys2Proof.Machine.execHealth s
  | .hold => Sys2Proof.Machine.execHold s
  | .unhold => Sys2Proof.Machine.execUnhold s
  | .resync => Sys2Proof.Machine.execResync s
  | .setup => Sys2Proof.Machine.execSetup s
  | .seal => Sys2Proof.Machine.execSeal s
  | .rejoin => Sys2Proof.Machine.execRejoin s
  | .rejoinClear => Sys2Proof.Machine.execRejoinClear s
  | .keep => Sys2Proof.Machine.execKeep s
  | .ageTick => Sys2Proof.Machine.execAgeTick s
  | .agingVisit => Sys2Proof.Machine.execAgingVisit s
  | .transmitStart idleMicros => Sys2Proof.Machine.execTransmitStart idleMicros s
  | .transmitted => Sys2Proof.Machine.execTransmitted s
  | .collision => Sys2Proof.Machine.execCollision s
  | .invalidFrame bytes => Sys2Proof.Machine.execInvalidFrame bytes s
  | .beaconFrame source content => Sys2Proof.Machine.execBeaconFrame source content s
  | .claimFrame source content => Sys2Proof.Machine.execClaimFrame source content s
  | .contestFrame source content => Sys2Proof.Machine.execContestFrame source content s
  | .yieldFrame source content => Sys2Proof.Machine.execYieldFrame source content s
  | .receiptFrame source expected => Sys2Proof.Machine.execReceiptFrame source expected s
  | .deltaFrame source content => Sys2Proof.Machine.execDeltaFrame source content s
  | .deltaTake => Sys2Proof.Machine.execDeltaTake s
  | .entryJoin => Sys2Proof.Machine.execEntryJoin s
  | .purgeHandover => Sys2Proof.Machine.execPurgeHandover s
  | .purge => Sys2Proof.Machine.execPurge s
  | .passEndTake => Sys2Proof.Machine.execPassEndTake s
  | .relayFrame source content => Sys2Proof.Machine.execRelayFrame source content s
  | .relayApply => Sys2Proof.Machine.execRelayApply s
  | .reJournal => Sys2Proof.Machine.execReJournal s
  | .passEndAppend => Sys2Proof.Machine.execPassEndAppend s
  | .digestTimerExpiry => Sys2Proof.Machine.execDigestTimerExpiry s
  | .digestPrepare => Sys2Proof.Machine.execDigestPrepare s
  | .digestFrame source content => Sys2Proof.Machine.execDigestFrame source content s
  | .digestCompare => Sys2Proof.Machine.execDigestCompare s
  | .fetchFrame source content => Sys2Proof.Machine.execFetchFrame source content s
  | .beaconTimerExpiry => Sys2Proof.Machine.execBeaconTimerExpiry s
  | .deadTimerExpiry peer => Sys2Proof.Machine.execDeadTimerExpiry peer s
  | .listenTimerExpiry => Sys2Proof.Machine.execListenTimerExpiry s
  | .receiptTimerExpiry => Sys2Proof.Machine.execReceiptTimerExpiry s
  | .stallTimerExpiry => Sys2Proof.Machine.execStallTimerExpiry s
  | .claimWaitExpiry g => Sys2Proof.Machine.execClaimWaitExpiry g s
  | .claimBackoffExpiry g => Sys2Proof.Machine.execClaimBackoffExpiry g s
  | .preemptDelayExpiry g => Sys2Proof.Machine.execPreemptDelayExpiry g s
  | .drainTimerExpiry g => Sys2Proof.Machine.execDrainTimerExpiry g s
  | .adoptionWindowExpiry g => Sys2Proof.Machine.execAdoptionWindowExpiry g s
  | .quorumTimerExpiry => Sys2Proof.Machine.execQuorumTimerExpiry s
  | .lineInhibitionExpiry g => Sys2Proof.Machine.execLineInhibitionExpiry g s
  | .hostWatchExpiry => Sys2Proof.Machine.execHostWatchExpiry s
  | .powerResetOnset => Sys2Proof.Machine.execPowerResetOnset s
  | .defer => Sys2Proof.Machine.execDefer s

end Sys2Proof.Machine
end

