-- ==== Sys2Proof/Machine/Window.lean ====
section
/-!
DEFINITION. What the window of the local port reads as, word by word (R192, R195, R203, R205, R206), and the IRQ output. A
read changes nothing, but for CURSOR_DATA23, which is a command.
-/

namespace Sys2Proof.Machine

open Sys2Proof

/-! ### Fields of words -/

/-- `v` with its bit 0 at bit `low` of a word. -/
def at_ {w : Nat} (low : Nat) (v : BitVec w) : Word := v.setWidth 32 <<< low

def flagAt (low : Nat) (b : Bool) : Word := at_ low (BitVec.ofBool b)

def numberAt (low : Nat) (n : Nat) : Word := at_ low (BitVec.ofNat 32 n)

/-! ### Codes -/

def lifeCode : Life → Nat
  | .setup => 0
  | .listen => 1
  | .member => 2
  | .isolated => 3
  | .fault => 4

def faultCode : FaultKind → Nat
  | .none => 0
  | .integrity => 1
  | .duplicate => 2

def resetCode : ResetKind → Nat
  | .power => 0
  | .pin => 1
  | .rejoin => 2

def derivedCode : DerivedState → Nat
  | .new => 1
  | .answered => 2
  | .established => 3
  | .closing => 4
  | .closed => 5
  | .retired => 6

def verdictCode : Verdict → Nat
  | .none => 0
  | .pass => 1
  | .passLoose => 2
  | .miss => 3
  | .missAdoptable => 4
  | .dropWindow => 5
  | .dropState => 6
  | .dropTableFull => 7
  | .dropNoPort => 8

def tenureCode : Option Tenure → Nat
  | none => 0
  | some .claimed => 1
  | some .handedDrained => 2
  | some .handedUndrained => 3
  | some .resumed => 4

def integrityCode : Integrity → Nat
  | .passed => 0
  | .failedHere => 1
  | .failedElsewhere => 2

/-! ### Identity, status and group view (R205) -/

/-- The entry count: the number of occupied slots (R24). -/
def State.entryCount (s : State) : Nat := s.table.length

/-- The stations currently designated (R133, R205). -/
def State.designatedSet (s : State) : StationSet :=
  Four.build fun p =>
    decide (s.presence.partner = some p) || decide (s.presence.witness = some p) || s.presence.watched.get p

def State.idWord (s : State) : Word :=
  numberAt 16 0x6230 ||| flagAt 15 s.port.isSealed ||| at_ 8 (setBits s.designatedSet) ||| flagAt 7 s.straps.mem3
    ||| flagAt 6 (decide (s.straps.role = .witness)) ||| numberAt 0 s.me.val

def State.statusA (s : State) : Word :=
  numberAt 29 (lifeCode s.life) ||| numberAt 27 (faultCode s.presence.faultKind) ||| flagAt 26 s.scan.behind
    ||| flagAt 25 s.port.lapsed ||| numberAt 20 s.port.requests.length ||| numberAt 15 s.port.responses.length
    ||| numberAt 0 s.entryCount

def State.eligibleSet (s : State) : GroupSet := Four.build s.eligible

def State.statusB (s : State) : Word :=
  numberAt 21 s.journal.occupancy ||| numberAt 8 s.recon.resend.length ||| flagAt 7 s.recon.passRunning
    ||| flagAt 6 s.quorumPresent ||| flagAt 5 s.receive.want ||| flagAt 4 s.partnerPresent
    ||| at_ 0 (setBits s.eligibleSet)

def State.causeWord (s : State) : Word :=
  let c := s.presence.cause
  numberAt 30 (resetCode c.kind) ||| numberAt 28 (faultCode c.prior) ||| at_ 0 (setBits c.held)

/-- The group is in the synced set of the designated partner's last beacon, while the partner is PRESENT (R205). -/
def State.partnerSynced (s : State) (g : GroupId) : Bool :=
  match s.presentPartner with
  | none => false
  | some p => (s.peer p).showsSynced g

def State.groupWord (s : State) (g : GroupId) : Word :=
  let r := s.group g
  at_ 16 r.epoch ||| at_ 13 (groupStateCode r.state)
    ||| numberAt 10 (match r.owner with
        | none => 7
        | some p => p.val)
    ||| at_ 6 r.health ||| numberAt 3 (tenureCode r.tenure) ||| flagAt 2 r.hold ||| flagAt 1 r.adoptionOpen
    ||| flagAt 0 (s.partnerSynced g)

/-! ### Captures (R206) -/

def captureWord (c : Option Capture) (i : Fin 3) : Word :=
  match c with
  | none => 0
  | some c =>
    match i with
    | 0 => flagAt 31 true ||| flagAt 30 c.more ||| at_ 16 c.kind ||| at_ 8 c.source ||| at_ 0 c.item
    | 1 => c.second
    | 2 => c.third

/-! ### Responses (section 11.2, R196) -/

def Summary.word3 (x : Summary) : Word :=
  numberAt 24 x.group.val ||| at_ 16 x.incarnation ||| at_ 8 (marksByte x.marks) ||| flagAt 7 x.adopted
    ||| flagAt 6 x.confirmation.isSome ||| flagAt 5 x.pendingExists ||| numberAt 0 x.origin.val

def GroupView.word3 (x : GroupView) : Word :=
  at_ 24 (groupStateCode x.state) ||| at_ 8 x.health ||| flagAt 0 x.hold

def Response.word3 (r : Response) : Word :=
  match r.summary, r.view with
  | some x, _ => x.word3
  | none, some x => x.word3
  | none, none => 0

def Response.word4 (r : Response) : Word :=
  match r.summary with
  | none => 0
  | some x =>
    at_ 16 x.idle ||| (match x.confirmation with
      | none => 0
      | some c => numberAt 0 c.1.val)

def Response.word5 (r : Response) : Word :=
  match r.summary.bind (·.confirmation) with
  | none => 0
  | some c => c.2

def Response.word (r : Response) (i : Fin 8) : Word :=
  match i with
  | 0 => flagAt 31 true ||| at_ 24 r.kind ||| at_ 16 r.tag ||| at_ 8 (statusCode r.status)
      ||| numberAt 0 (verdictCode r.verdict)
  | 1 => flagAt 31 r.handle.isSome ||| flagAt 30 r.state.isSome
      ||| (match r.state with
        | none => 0
        | some x => numberAt 24 (derivedCode x)) ||| at_ 0 (r.handle.getD 0)
  | 2 => flagAt 31 r.port.isSome ||| at_ 0 (r.port.getD 0)
  | 3 => r.word3
  | 4 => r.word4
  | 5 => r.word5
  | 6 => 0
  | 7 => offendingWord r.offending

/-- R195: the response at the head of the queue; 0 while it is empty. -/
def State.responseWord (s : State) (i : Fin 8) : Word :=
  match s.port.responses with
  | [] => 0
  | r :: _ => r.word i

/-! ### The cursor (R203) -/

/-- Words 0 to 17: the entry's encoding from offset 5, four bytes to a word, 0 after its end. -/
def snapshotBytes (now : BitVec 32) (e : Entry) (i : Nat) : Word :=
  wordOfBytes ((entryTail (contentOf now e)).drop (4 * i))

def Snapshot.entryWord (x : Snapshot) (i : Nat) : Word :=
  match x.entry with
  | none => 0
  | some e =>
    if i < 18 then snapshotBytes x.tick e i
    else if i = 18 then e.stamp
    else if i = 19 then (e.confirmation.map (·.2)).getD 0
    else e.pending.getD 0

def Snapshot.word21 (x : Snapshot) : Word :=
  numberAt 21 (integrityCode x.integrity) ||| at_ 0 x.handle |||
  match x.entry with
  | none => 0
  | some e =>
    flagAt 31 true ||| flagAt 30 e.confirmation.isSome ||| flagAt 29 e.pending.isSome
      ||| (match e.confirmation with
        | none => 0
        | some c => numberAt 26 c.1.val) ||| numberAt 23 (derivedCode e.derived)

def State.cursorData (s : State) (i : Nat) : Word :=
  if i < 21 then s.port.snapshot.entryWord i
  else if i = 21 then s.port.snapshot.word21
  else if i = 22 then s.port.snapshot.tick
  else flagAt 31 s.port.cursorPending ||| at_ 0 s.port.snapshotCount

/-! ### The window -/

/-- R192: the word at an index of the window, 0 to 63. A word marked W reads 0. -/
def State.wordAt (s : State) (i : Nat) : Word :=
  if i = 0 then s.idWord
  else if i = 1 then s.statusA
  else if i = 2 then s.statusB
  else if i = 3 then s.causeWord
  else if i = 4 then at_ 0 (s.eventFlags &&& s.port.mask)
  else if i = 5 then at_ 0 s.eventFlags
  else if i = 6 then at_ 0 s.port.mask
  else if i = 9 then flagAt 31 s.port.cursorPending ||| at_ 0 s.port.cursorHandle
  else if i = 10 then s.presence.fingerprint.getD 0
  else if 11 ≤ i ∧ i < 15 then s.groupWord (Fin.ofNat 4 (i - 11))
  else if 15 ≤ i ∧ i < 18 then captureWord s.port.busCapture (Fin.ofNat 3 (i - 15))
  else if 18 ≤ i ∧ i < 21 then captureWord s.port.tableCapture (Fin.ofNat 3 (i - 18))
  else if 21 ≤ i ∧ i < 24 then captureWord s.port.requestCapture (Fin.ofNat 3 (i - 21))
  else if 24 ≤ i ∧ i < 32 then s.responseWord (Fin.ofNat 8 (i - 24))
  else if 40 ≤ i ∧ i < 64 then s.cursorData (i - 40)
  else 0

/-- R192: a read of the word at an offset; 0 while a POWER or PIN reset is in effect. An offset that is no multiple of four
reads the word that contains it (log 43). -/
def State.readWord (s : State) (offset : Byte) : Word :=
  if s.phase = .running then s.wordAt (offset.toNat / 4) else 0

/-- R192: a read narrower than a word returns the addressed bytes of the word, the byte at offset 0 most significant
(log 12). -/
def State.readByte (s : State) (offset : Byte) : Byte :=
  (s.readWord offset).extractLsb' (24 - 8 * (offset.toNat % 4)) 8

end Sys2Proof.Machine
end

