-- ==== Sys2Proof/Safety.lean ====
section
/-!
DEFINITION. The invariants of the state: the capacities of the queues, the shape of the session table, the occupancy sets,
the order of the journal, the silence of a station in SETUP or FAULT, and a witness that keeps nothing. And what the offer
of a changed entry leaves, case by case, for the statements of the operations that change one.
-/

namespace Sys2Proof.Machine

open Sys2Proof

/-! ### Invariants -/

/-- The capacities of the queues, slots and counters (00_scope.md, Numbers at a Glance). The Resend Set lists its buckets
strictly rising, each at most once, so it has at most 4,096 members (R101). -/
def State.bounded (s : State) : Prop :=
  s.port.requests.length ≤ Config.requestQueueSize
    ∧ s.port.responses.length + (if s.engine.inProgress.isSome then 1 else 0) ≤ Config.responseQueueSize
    ∧ s.bus.control.length ≤ Config.controlQueueSize
    ∧ s.bus.relays.length ≤ Config.relayQueueSize
    ∧ s.bus.collisions < Config.collisionLimit
    ∧ s.recon.purge.length ≤ Config.purgeQueueSize
    ∧ s.receive.frames ≤ 2
    ∧ s.journal.records.length ≤ Config.journalSize
    ∧ (∀ f, s.recon.fetch = some f → f.buckets.length ≤ Config.fetchBuckets)
    ∧ s.recon.resend.Pairwise (· < ·)
    ∧ s.clock.prescaler < Config.prescalerPeriod ∧ s.clock.millis < Config.millisPerTick

/-- R1: the canonical form of the table, every entry in the bucket of its key, and no key twice. -/
def Table.shaped (t : Table) : Prop :=
  t.wf = true
    ∧ (∀ h x, t.slot h = some x → bucketOfHandle h = bucketOf x.entry.key)
    ∧ (∀ h k x y, t.slot h = some x → t.slot k = some y → x.entry.key = y.entry.key → h = k)

/-- R66: the occupancy set of a group names exactly the ports its entries hold, each with its entry's handle. -/
def State.exactPorts (s : State) : Prop :=
  ∀ g p h, s.portHolder g p = some h ↔ ∃ e, s.entryAt h = some e ∧ e.group = g ∧ e.translation = some p

/-- R78: sequences are consecutive from the oldest held to the next sequence, every ever-transmitted record is older than
every other, and the send point lies after ever-transmitted records only. -/
def Journal.ordered (j : Journal) : Prop :=
  j.records.length ≤ Config.journalSize
    ∧ j.next = j.oldest + BitVec.ofNat 32 j.records.length
    ∧ (∀ i r, j.records[i]? = some r → r.seq = j.oldest + BitVec.ofNat 32 i)
    ∧ ∃ n, (∀ i r, j.records[i]? = some r → (r.sent = true ↔ i < n)) ∧ (j.sendPoint - j.oldest).toNat ≤ n
        ∧ n ≤ j.records.length

/-- The frame slots and queues are empty, and nothing is being transmitted. -/
def Bus.silent (b : Bus) : Prop :=
  b.beaconSlot = none ∧ b.control = [] ∧ b.receiptSlot = none ∧ b.relays = [] ∧ b.delta = none ∧ b.digest = none
    ∧ b.fetch = none ∧ b.transmitting = none

/-- What a station in SETUP or FAULT keeps: no frame, no timer that could act, no work on the table, and every group
DISABLED or VACANT (R119, R158, R163, R184). -/
def State.atRest (s : State) : Prop :=
  s.bus.silent
    ∧ (∀ g, (s.group g).state = .disabled ∨ (s.group g).state = .vacant)
    ∧ (∀ p, (s.peer p).deadTimer = false)
    ∧ s.presence.beaconTimer = false ∧ s.presence.listenTimer = false ∧ s.port.hostWatch = false
    ∧ s.receive.taking = none ∧ s.receive.waiting = [] ∧ s.engine.relaySlot = none ∧ s.scan.running = false

/-- R119, R180, R184. -/
def State.quiet (s : State) : Prop := s.life.active = false → s.atRest

/-- A witness keeps no session and no journal, follows at most, and wants nothing (chapter 1, R93, R109, R136). -/
def State.witnessInert (s : State) : Prop :=
  s.straps.role = .witness →
    s.table = [] ∧ s.journal.records = [] ∧ s.receive.taking = none ∧ s.receive.waiting = []
      ∧ s.receive.want = false ∧ s.recon.synced = Four.all false ∧ s.recon.purge = [] ∧ s.presence.partner = none
      ∧ ∀ g, (s.group g).state = .disabled ∨ (s.group g).state = .vacant ∨ (s.group g).state = .following

/-- R195: the stored flag of RESPONSE, which is a level, is never set. -/
def State.levelClear (s : State) : Prop := s.port.flags.getLsbD 0 = false

/-! ### An offered change -/

/-- R81 to R83: what the offer of the entry `e` in slot `h` leaves in `t`, by the first case that applies, where the journal
stood at `j` before it. The group state, the presence, the age tick, the Resend Set and the event flags are those of `s`. -/
def State.offered (s t : State) (j : Journal) (h : Handle) (e : Entry) : Prop :=
  let body : RecordBody := .entry (contentOf s.clock.tick e)
  let accepted : Prop := s.holds e.group = true ∧ s.partnerPresent = true
  let leaves (entry : Entry) (journal : Journal) (resend : List Bucket) (flags : BitVec 18) : Prop :=
    t.entryAt h = some entry ∧ t.journal = journal ∧ t.recon.resend = resend ∧ t.port.flags = flags
  (¬ accepted → leaves e j s.recon.resend s.port.flags) ∧
  (∀ q, accepted → e.pending = some q →
    leaves { e with confirmation := some (s.me, q) }
      { j with records := j.records.map fun r => if r.seq = q then { r with body := body } else r }
      s.recon.resend s.port.flags) ∧
  (accepted → e.pending = none → 1024 ≤ j.records.length →
    leaves e j (addBucket (bucketOfHandle h) s.recon.resend) (raiseFlag .overflow s.port.flags)) ∧
  (accepted → e.pending = none → j.records.length < 1024 →
    leaves { e with confirmation := some (s.me, j.next), pending := some j.next }
      { j with records := j.records ++ [⟨j.next, false, body, some h⟩], next := j.next + 1 }
      s.recon.resend s.port.flags)

end Sys2Proof.Machine
end

