-- ==== Sys2Proof/WellFormed.lean ====
section
/-!
DEFINITION. Which terms of `Instr` are commands: the frame commands carry only contents that a valid frame can have
(R123 to R128); every other command has every operand value its types allow.
-/

namespace Sys2Proof

/-- Stream tracking is present exactly when the protocol is 6 (R5, R79), OPENED is among the marks, and a translated port
is not below 4,096 (R128). -/
def EntryContent.wellFormed (c : EntryContent) : Bool :=
  c.marks.opened && (c.stream.isSome == (c.key.protocol == 6)) &&
    match c.translation with
    | none => true
    | some p => decide (Config.firstPort ≤ p.toNat)

def RecordBody.wellFormed : RecordBody → Bool
  | .entry c => c.wellFormed
  | .bucketEnd _ _ _ => true
  | .passEnd _ _ => true

/-- R125: 1 to 8 records. -/
def Delta.wellFormed (d : Delta) : Bool :=
  decide (1 ≤ d.records.length) && decide (d.records.length ≤ Config.deltaRecords)
    && d.records.all fun r => r.body.wellFormed

/-- R126: sixteen digests, and a first bucket that is a multiple of 16. -/
def Digest.wellFormed (d : Digest) : Bool :=
  decide (d.digests.length = Config.digestBuckets) && decide (d.first.toNat % 16 = 0)

/-- R127: 1 to 16 buckets. -/
def Fetch.wellFormed (f : Fetch) : Bool :=
  decide (1 ≤ f.buckets.length) && decide (f.buckets.length ≤ Config.fetchBuckets)

/-- R127: the side fields are present for protocol 6 only. -/
def Observation.wellFormed (o : Observation) : Bool := o.side.isSome == (o.key.protocol == 6)

def Payload.wellFormed : Payload → Bool
  | .beacon _ | .claim _ | .contest _ | .yield _ | .receipt _ => true
  | .fetch f => f.wellFormed
  | .relay o => o.wellFormed
  | .delta d => d.wellFormed
  | .digest d => d.wellFormed

def Frame.wellFormed (f : Frame) : Bool := f.payload.wellFormed

def Instr.wellFormed : Instr → Bool
  | .deltaFrame _ d => d.wellFormed
  | .relayFrame _ o => o.wellFormed
  | .digestFrame _ d => d.wellFormed
  | .fetchFrame _ f => f.wellFormed
  | _ => true

end Sys2Proof
end

