-- ==== Sys2Proof/Certificates/Slice0/Obligations.lean ====
section
/-!
DEFINITION. The statements for the provers. A frame is written as `t = { s with … }`, which names every component that may
differ. Requests are stated over `takeRequest s`, the state after the request engine has taken its oldest request (R27).
-/

open Sys2Proof Sys2Proof.Machine

/-! ### Steps, reset and invariants -/

/-- The model's choice (log 1; the manual names no queue): a step runs the command at the front of the queue on the state
with the queue's rest. -/
def Obligations.StepRunsTheFrontCommand : Prop :=
  ∀ (c : Instr) (s : State) (rest : List Instr),
    s.pending = c :: rest → step s = exec c { s with pending := rest }

/-- The model's choice (log 9): an empty queue lets one period of the reference pass; the counts are those of R52, and the
age tick that the last of them makes is that of R53, R54 and R56. -/
def Obligations.EmptyQueueLetsAPeriodPass : Prop :=
  ∀ s : State, s.pending = [] →
    (s.phase ≠ .running → step s = .next s) ∧
    (s.phase = .running → s.clock.prescaler + 1 < 25000 →
      step s = .next { s with clock.prescaler := s.clock.prescaler + 1 }) ∧
    (s.phase = .running → 25000 ≤ s.clock.prescaler + 1 → s.clock.millis + 1 < 1000 →
      step s = .next { s with clock := ⟨0, s.clock.millis + 1, s.clock.tick⟩ }) ∧
    (s.phase = .running → 25000 ≤ s.clock.prescaler + 1 → 1000 ≤ s.clock.millis + 1 →
      step s = .next { s with
        clock := ⟨0, 0, s.clock.tick + 1⟩
        scan :=
          if s.straps.role = .witness ∨ s.life.active = false then s.scan
          else if s.scan.running then { s.scan with behind := true }
          else ⟨true, 0, s.scan.behind⟩ })

/-- No command stops the part. That no command, a reset included, touches the queue of commands is the model's choice
(log 1). -/
def Obligations.EveryCommandGoesOn : Prop :=
  ∀ (i : Instr) (s : State), ∃ t, exec i s = .next t ∧ t.pending = s.pending

/-- The state after a POWER reset, whole: R26, R64, R77, R100, R116, R135, R163, R178, R186, R189, R197 and R208. The straps
and the lines (no line driven from outside) are the model's choice (logs 3 and 4); `want` is set because those straps make a
firewall. The counter of free values and the empty queue are the model's own (logs 6 and 1). R135 has no row for the
indications of a deferral and of a transmission that began in SETUP: that both are clear is the model's choice (logs 47 and
36). -/
def Obligations.ResetValues : Prop :=
  State.reset.straps = ⟨0, .firewall, false⟩ ∧ State.reset.phase = .running
    ∧ State.reset.port.staging = Vector.replicate 16 0
    ∧ State.reset.port.requests = [] ∧ State.reset.port.responses = []
    ∧ State.reset.port.cursorHandle = 0 ∧ State.reset.port.cursorPending = false
    ∧ State.reset.port.snapshot = ⟨0, none, .passed, 0⟩ ∧ State.reset.port.snapshotCount = 0
    ∧ State.reset.port.flags = 0 ∧ State.reset.port.mask = 0 ∧ State.reset.port.busCapture = none
    ∧ State.reset.port.tableCapture = none ∧ State.reset.port.requestCapture = none
    ∧ State.reset.port.hostWatch = false ∧ State.reset.port.lapsed = false ∧ State.reset.port.isSealed = false
    ∧ State.reset.port.setup =
        { groups := Four.all false, translate := Four.all false, preempt := Four.all false, solo := true
          priority := Four.all 4, preemptDelay := Four.all 5, beacon := 100, adoption := 30, tombstone := 60
          hostWatch := 0, newLimit := 30, answeredLimit := 30, streamLimit := 3600, datagramLimit := 60
          closingLimit := 120, closedLimit := 10 }
    ∧ State.reset.engine = ⟨none, none⟩ ∧ State.reset.table = [] ∧ State.reset.clock = ⟨0, 0, 0⟩
    ∧ State.reset.scan = ⟨false, 0, false⟩ ∧ State.reset.xlate = Four.all ⟨[], 4096, none, []⟩
    ∧ State.reset.journal = ⟨[], 1, 1, 1, false, false⟩ ∧ State.reset.receive = ⟨none, true, none, none, []⟩
    ∧ State.reset.recon = ⟨[], false, none, none, [], Four.all false, true, 0, none, none, none, none⟩
    ∧ State.reset.bus = ⟨none, [], none, [], none, none, none, 0, none, none, false, false⟩
    ∧ (∀ p, State.reset.peer p = ⟨.absent, none, false, none⟩)
    ∧ State.reset.presence.partner = none ∧ State.reset.presence.witness = none
    ∧ State.reset.presence.watched = Four.all false ∧ State.reset.presence.beaconTimer = false
    ∧ State.reset.presence.fingerprint = none ∧ State.reset.life = .setup
    ∧ State.reset.presence.faultKind = .none ∧ State.reset.presence.listenTimer = false
    ∧ State.reset.presence.heldAtFault = Four.all false
    ∧ State.reset.presence.cause = ⟨.power, Four.all false, .none⟩
    ∧ (∀ g, State.reset.group g =
        { state := .disabled, epoch := 0, owner := none, claimEpoch := none, successor := none, hold := false
          health := 0, adoptionOpen := false, claimWait := false, backoff := false, preempt := false, drain := false
          adoptionTimer := false, lineTimer := false, lineReported := false, claimNote := none, yieldNote := none
          handoverNote := none, tenure := none, drainSpoiled := false })
    ∧ State.reset.own.quorumTimer = false ∧ State.reset.own.foreignDrive = Four.all false
    ∧ (∀ g, State.reset.drive g = false) ∧ State.reset.irq = false
    ∧ State.reset.freeCount = 0 ∧ State.reset.pending = []

/-- The invariants hold after reset: R26, R66, R78, R100, R119, R136 and R195 for the values they are about. The reset
state's straps are the model's (log 3) and make a firewall, so what the fifth asks of a witness is asked of nothing here. -/
def Obligations.InvariantsAtReset : Prop :=
  State.reset.bounded ∧ State.reset.table.shaped ∧ State.reset.exactPorts ∧ State.reset.journal.ordered
    ∧ State.reset.quiet ∧ State.reset.witnessInert ∧ State.reset.levelClear

/-- Every step keeps the capacities, the Resend Set rising and so within its 4,096 members (R101) among them. -/
def Obligations.StepsKeepCapacities : Prop :=
  ∀ s t : State, s.bounded → step s = .next t → t.bounded

/-- Every step keeps the shape of the session table: handles rising, entries in the bucket of their key, keys unique. -/
def Obligations.StepsKeepTableShape : Prop :=
  ∀ s t : State, s.table.shaped → step s = .next t → t.table.shaped

/-- Every step keeps the occupancy sets equal to the ports that the entries hold. -/
def Obligations.StepsKeepPortsExact : Prop :=
  ∀ s t : State, s.table.shaped → s.exactPorts → step s = .next t → t.exactPorts

/-- Every step keeps the order of the journal. -/
def Obligations.StepsKeepJournalOrder : Prop :=
  ∀ s t : State, s.journal.ordered → step s = .next t → t.journal.ordered

/-- Every step keeps a station in SETUP or FAULT at rest. -/
def Obligations.StepsKeepSilence : Prop :=
  ∀ s t : State, s.quiet → step s = .next t → t.quiet

/-- Every step keeps a witness without sessions, without a journal, and never holding. -/
def Obligations.StepsKeepWitnessInert : Prop :=
  ∀ s t : State, s.witnessInert → step s = .next t → t.witnessInert

/-- The stored RESPONSE bit stays clear, and the flag that is read is set exactly while a response waits. -/
def Obligations.ResponseFlagIsALevel : Prop :=
  (∀ s t : State, s.levelClear → step s = .next t → t.levelClear) ∧
  ∀ s : State, s.eventFlags.getLsbD 0 = !s.port.responses.isEmpty

/-- R123 to R128: a frame composed from contents that a frame can carry is heard as itself; and the bytes that a station
sends are those of a frame that bears its own number. -/
def Obligations.ComposedFramesAreHeard : Prop :=
  (∀ f : Frame, f.wellFormed = true → hear (frameBytes f) = .valid f) ∧
  (∀ s : State, s.bus.transmitting = none → s.sentBytes = none) ∧
  (∀ (s : State) (x : Transmission), s.bus.transmitting = some x →
    ∃ bytes, s.sentBytes = some bytes
      ∧ bytes.take 2 = [kindCode x.payload, BitVec.ofNat 8 s.straps.station.val]
      ∧ bytes.length = 8 + (payloadBytes x.payload).length
      ∧ (x.payload.wellFormed = true → hear bytes = .valid ⟨s.straps.station, x.payload⟩))

/-! ### The window -/

/-- R193. -/
def Obligations.PostQueuesOrOverruns : Prop :=
  ∀ (v : Word) (s : State), s.phase = .running →
    (s.port.requests.length < 16 →
      exec (.post v) s = .next { s with port.requests := s.port.requests ++ [s.port.staging] }) ∧
    (16 ≤ s.port.requests.length →
      exec (.post v) s = .next { s with
        port.flags := raiseFlag .overrun s.port.flags
        port.requestCapture := recordIn s.port.requestCapture
          { kind := 0x20, source := s.port.staging[0].extractLsb' 16 8,
            item := (s.port.staging[0].extractLsb' 24 7).setWidth 8 } })

/-- R195, R201, R202: POP, EVENTS and MASK, IRQ, and what the RESPONSE words and the event words read as. -/
def Obligations.PopEventsAndMask : Prop :=
  (∀ (v : Word) (s : State), s.phase = .running →
    exec (.pop v) s = .next { s with port.responses := s.port.responses.tail }) ∧
  (∀ (v : Word) (s : State), s.phase = .running →
    ∃ t, exec (.eventsWrite v) s = .next t ∧ t = { s with port.flags := t.port.flags } ∧
      ∀ i, i < 18 → t.port.flags.getLsbD i = (s.port.flags.getLsbD i && !v.getLsbD i)) ∧
  (∀ (v : Word) (s : State), s.phase = .running →
    exec (.maskWrite v) s = .next { s with port.mask := v.setWidth 18 }) ∧
  (∀ s : State, s.irq = true ↔
    s.phase = .running ∧ ∃ i, i < 18 ∧ s.eventFlags.getLsbD i = true ∧ s.port.mask.getLsbD i = true) ∧
  (∀ s : State, s.phase = .running →
    s.readWord 0x10 = (s.eventFlags &&& s.port.mask).setWidth 32 ∧ s.readWord 0x14 = s.eventFlags.setWidth 32
      ∧ s.readWord 0x18 = s.port.mask.setWidth 32) ∧
  (∀ (s : State) (i : Fin 8), s.phase = .running → s.port.responses = [] →
    s.readWord (BitVec.ofNat 8 (0x60 + 4 * i.val)) = 0) ∧
  (∀ (s : State) (r : Response) (rest : List Response), s.phase = .running → s.port.responses = r :: rest →
    (s.readWord 0x60).getLsbD 31 = true ∧ (s.readWord 0x60).extractLsb' 24 7 = r.kind
      ∧ (s.readWord 0x60).extractLsb' 16 8 = r.tag ∧ (s.readWord 0x60).extractLsb' 8 8 = statusCode r.status
      ∧ (s.readWord 0x60).extractLsb' 0 8 = BitVec.ofNat 8 (verdictCode r.verdict)
      ∧ (s.readWord 0x64).getLsbD 31 = r.handle.isSome ∧ (s.readWord 0x64).getLsbD 30 = r.state.isSome
      ∧ (∀ x, r.state = some x → (s.readWord 0x64).extractLsb' 24 3 = BitVec.ofNat 3 (derivedCode x))
      ∧ (∀ h, r.handle = some h → (s.readWord 0x64).extractLsb' 0 14 = h)
      ∧ (s.readWord 0x68).getLsbD 31 = r.port.isSome
      ∧ (∀ p, r.port = some p → (s.readWord 0x68).extractLsb' 0 16 = p)
      ∧ (∀ x, r.summary = some x →
          (s.readWord 0x6C).extractLsb' 24 8 = BitVec.ofNat 8 x.group.val
            ∧ (s.readWord 0x6C).extractLsb' 16 8 = x.incarnation
            ∧ (s.readWord 0x6C).extractLsb' 8 8 = marksByte x.marks ∧ (s.readWord 0x6C).getLsbD 7 = x.adopted
            ∧ (s.readWord 0x6C).getLsbD 6 = x.confirmation.isSome
            ∧ (s.readWord 0x6C).getLsbD 5 = x.pendingExists
            ∧ (s.readWord 0x6C).extractLsb' 0 2 = BitVec.ofNat 2 x.origin.val
            ∧ (s.readWord 0x70).extractLsb' 16 16 = x.idle
            ∧ ∀ o q, x.confirmation = some (o, q) →
                (s.readWord 0x70).extractLsb' 0 2 = BitVec.ofNat 2 o.val ∧ s.readWord 0x74 = q)
      ∧ (∀ x, r.summary = none → r.view = some x →
          (s.readWord 0x6C).extractLsb' 24 8 = groupStateCode x.state
            ∧ (s.readWord 0x6C).extractLsb' 8 4 = x.health ∧ (s.readWord 0x6C).getLsbD 0 = x.hold)
      ∧ s.readWord 0x78 = 0
      ∧ (r.offending = none → s.readWord 0x7C = 0)
      ∧ (∀ f, r.offending = some f → (s.readWord 0x7C).extractLsb' 16 4 = BitVec.ofNat 4 f.word
          ∧ (s.readWord 0x7C).extractLsb' 8 5 = BitVec.ofNat 5 f.bit))

/-- R203, R204: a write of CURSOR, a read of CURSOR_DATA23, the snapshot of a slot, a failed verification at it, and what the
CURSOR and CURSOR_DATA words read as. Where this slot and another of the bucket fail, that the snapshot shows this one is the
model's choice (log 44). -/
def Obligations.CursorShowsASlot : Prop :=
  ∀ s : State, s.phase = .running →
    let h := s.port.cursorHandle
    (∀ v : Word, exec (.cursorWrite v) s = .next { s with
      port.cursorHandle := v.setWidth 14, port.cursorPending := true }) ∧
    (s.port.cursorPending = true → exec .cursorData23Read s = .next s) ∧
    (s.port.cursorPending = false → exec .cursorData23Read s = .next { s with
      port.cursorHandle := handleOf (bucketOfHandle h) (wayOfHandle h + 1), port.cursorPending := true }) ∧
    (s.port.cursorPending = true → s.higherWaits .cursor = false → s.table.sound (bucketOfHandle h) = true →
      exec .cursorSnapshot s = .next { s with
        port.snapshot := ⟨h, s.entryAt h, .passed, s.clock.tick⟩
        port.snapshotCount := s.port.snapshotCount + 1
        port.cursorPending := false }) ∧
    (s.port.cursorPending = true → s.higherWaits .cursor = false → s.table.sound (bucketOfHandle h) = false →
      ∃ t, exec .cursorSnapshot s = .next t ∧ t.port.cursorPending = false
        ∧ t.port.snapshotCount = s.port.snapshotCount + 1
        ∧ t.port.snapshot = ⟨h, s.entryAt h, t.port.snapshot.integrity, s.clock.tick⟩
        ∧ (t.port.snapshot.integrity = .failedHere ↔ ∃ x, s.table.slot h = some x ∧ x.intact = false)
        ∧ t.port.snapshot.integrity ≠ .passed
        ∧ t.port.tableCapture = recordIn s.port.tableCapture
            { kind := 0x11, source := stationByte s.me, item := 5, third := (bucketOfHandle h).setWidth 32 }
        ∧ (s.life.active = true → t.life = .fault ∧ t.presence.faultKind = .integrity)
        ∧ (s.life.active = false → t.life = s.life ∧ t.table = s.table)) ∧
    ((s.readWord 0x24).getLsbD 31 = s.port.cursorPending ∧ (s.readWord 0x24).extractLsb' 0 14 = h) ∧
    (let x := s.port.snapshot
      let data (i : Nat) : Word := s.readWord (BitVec.ofNat 8 (0xA0 + 4 * i))
      (x.entry = none → (data 21).getLsbD 31 = false ∧ ∀ i, i < 21 → data i = 0)
        ∧ (∀ e, x.entry = some e →
            (∀ i, i < 18 → data i =
              wordOfBytes (((recordBytes ⟨0, .entry (contentOf x.tick e)⟩).drop 5).drop (4 * i)))
              ∧ data 18 = e.stamp ∧ data 19 = (e.confirmation.map (·.2)).getD 0 ∧ data 20 = e.pending.getD 0
              ∧ (data 21).getLsbD 31 = true ∧ (data 21).getLsbD 30 = e.confirmation.isSome
              ∧ (data 21).getLsbD 29 = e.pending.isSome
              ∧ (∀ o q, e.confirmation = some (o, q) → (data 21).extractLsb' 26 2 = BitVec.ofNat 2 o.val)
              ∧ (data 21).extractLsb' 23 3 = BitVec.ofNat 3 (derivedCode e.derived))
        ∧ (data 21).extractLsb' 21 2 = BitVec.ofNat 2 (integrityCode x.integrity)
        ∧ (data 21).extractLsb' 0 14 = x.handle ∧ data 22 = x.tick
        ∧ (data 23).getLsbD 31 = s.port.cursorPending ∧ (data 23).extractLsb' 0 16 = s.port.snapshotCount)

/-- R206, R207: a capture takes an occurrence, the three words it reads as, and CLEAR. -/
def Obligations.ClearEmptiesCaptures : Prop :=
  (∀ (v : Word) (s : State), s.phase = .running →
    exec (.clear v) s = .next { s with
      port.busCapture := if v.getLsbD 0 then none else s.port.busCapture
      port.tableCapture := if v.getLsbD 1 then none else s.port.tableCapture
      port.requestCapture := if v.getLsbD 2 then none else s.port.requestCapture }) ∧
  (∀ c : Capture, recordIn none c = some { c with more := false } ∧
    ∀ o : Capture, recordIn (some o) c = some { o with more := true }) ∧
  (∀ s : State, s.phase = .running →
    let shows (capture : Option Capture) (a b d : Word) : Prop :=
      (capture = none → a = 0 ∧ b = 0 ∧ d = 0) ∧
      ∀ c, capture = some c → a.getLsbD 31 = true ∧ a.getLsbD 30 = c.more ∧ a.extractLsb' 16 8 = c.kind
        ∧ a.extractLsb' 8 8 = c.source ∧ a.extractLsb' 0 8 = c.item ∧ b = c.second ∧ d = c.third
    shows s.port.busCapture (s.readWord 0x3C) (s.readWord 0x40) (s.readWord 0x44)
      ∧ shows s.port.tableCapture (s.readWord 0x48) (s.readWord 0x4C) (s.readWord 0x50)
      ∧ shows s.port.requestCapture (s.readWord 0x54) (s.readWord 0x58) (s.readWord 0x5C))

/-- R192, R205: staging words, ignored writes, writes during a reset, and what the identity, status, cause and group words
read as. That a word written at the offset of EVENTS, EVENTS_RAW, MASK, POST, POP, CURSOR or CLEAR has the effect of that
register's own command is log 24 (DEDUCED), the model's routing of a second name for one write. -/
def Obligations.WindowWrites : Prop :=
  (∀ (s : State) (v : Word),
    (s.phase = .running → ∀ i : Fin 16,
      exec (.registerWrite (BitVec.ofNat 8 (0x60 + 4 * i.val)) .word v) s
        = .next { s with port.staging := s.port.staging.set i.val v i.isLt }) ∧
    (exec (.registerWrite 0x10 .word v) s = exec (.eventsWrite v) s
      ∧ exec (.registerWrite 0x14 .word v) s = exec (.eventsWrite v) s
      ∧ exec (.registerWrite 0x18 .word v) s = exec (.maskWrite v) s
      ∧ exec (.registerWrite 0x1C .word v) s = exec (.post v) s
      ∧ exec (.registerWrite 0x20 .word v) s = exec (.pop v) s
      ∧ exec (.registerWrite 0x24 .word v) s = exec (.cursorWrite v) s
      ∧ exec (.registerWrite 0x28 .word v) s = exec (.clear v) s) ∧
    (∀ (offset : Byte) (size : AccessSize), size ≠ .word → exec (.registerWrite offset size v) s = .next s) ∧
    (∀ (offset : Byte), offset.toNat < 0x10 ∨ (0x2C ≤ offset.toNat ∧ offset.toNat < 0x60) ∨ 0xA0 ≤ offset.toNat →
      exec (.registerWrite offset .word v) s = .next s) ∧
    (s.phase ≠ .running → ∀ (offset : Byte) (size : AccessSize),
      exec (.registerWrite offset size v) s = .next s ∧ s.readWord offset = 0)) ∧
  (∀ s : State, s.phase = .running →
    let id := s.readWord 0x00
    let a := s.readWord 0x04
    let b := s.readWord 0x08
    let cause := s.readWord 0x0C
    (id.extractLsb' 16 16 = 0x6230 ∧ id.getLsbD 15 = s.port.isSealed
      ∧ (∀ p : Station, id.getLsbD (8 + p.val) = decide (s.presence.partner = some p ∨ s.presence.witness = some p
          ∨ s.presence.watched.get p = true))
      ∧ id.getLsbD 7 = s.straps.mem3 ∧ id.getLsbD 6 = decide (s.straps.role = .witness)
      ∧ id.extractLsb' 0 2 = BitVec.ofNat 2 s.straps.station.val) ∧
    (s.port.requests.length ≤ 16 → s.port.responses.length ≤ 16 → s.table.length ≤ 16384 →
      a.extractLsb' 29 3 = BitVec.ofNat 3 (lifeCode s.life)
        ∧ a.extractLsb' 27 2 = BitVec.ofNat 2 (faultCode s.presence.faultKind) ∧ a.getLsbD 26 = s.scan.behind
        ∧ a.getLsbD 25 = s.port.lapsed ∧ (a.extractLsb' 20 5).toNat = s.port.requests.length
        ∧ (a.extractLsb' 15 5).toNat = s.port.responses.length ∧ (a.extractLsb' 0 15).toNat = s.table.length) ∧
    (s.journal.occupancy ≤ 1024 → s.recon.resend.length ≤ 4096 →
      (b.extractLsb' 21 11).toNat = s.journal.occupancy ∧ (b.extractLsb' 8 13).toNat = s.recon.resend.length
        ∧ b.getLsbD 7 = s.recon.passRunning ∧ b.getLsbD 6 = s.quorumPresent ∧ b.getLsbD 5 = s.receive.want
        ∧ b.getLsbD 4 = s.partnerPresent ∧ ∀ g : GroupId, b.getLsbD g.val = s.eligible g) ∧
    (cause.extractLsb' 30 2 = BitVec.ofNat 2 (resetCode s.presence.cause.kind)
      ∧ cause.extractLsb' 28 2 = BitVec.ofNat 2 (faultCode s.presence.cause.prior)
      ∧ ∀ g : GroupId, cause.getLsbD g.val = s.presence.cause.held.get g) ∧
    s.readWord 0x28 = s.presence.fingerprint.getD 0 ∧
    ∀ g : GroupId,
      let w := s.readWord (BitVec.ofNat 8 (0x2C + 4 * g.val))
      let r := s.group g
      w.extractLsb' 16 16 = r.epoch ∧ w.extractLsb' 13 3 = (groupStateCode r.state).setWidth 3
        ∧ (r.owner = none → w.extractLsb' 10 3 = 7)
        ∧ (∀ p, r.owner = some p → w.extractLsb' 10 3 = BitVec.ofNat 3 p.val)
        ∧ w.extractLsb' 6 4 = r.health ∧ w.extractLsb' 3 3 = BitVec.ofNat 3 (tenureCode r.tenure)
        ∧ w.getLsbD 2 = r.hold ∧ w.getLsbD 1 = r.adoptionOpen
        ∧ (s.presentPartner = none → w.getLsbD 0 = false)
        ∧ ∀ p, s.presentPartner = some p → w.getLsbD 0 = (s.peer p).showsSynced g)

/-! ### Resets and lines -/

/-- R186, R187: what a reset in effect takes and turns off. -/
def Obligations.ResetsSilenceTheStation : Prop :=
  ∀ s : State,
    exec .powerResetOnset s = .next { s with phase := .power, bus.transmitting := none } ∧
    (s.phase = .running → exec .pinResetAssert s = .next { s with
      phase := .pin (if s.life = .fault then s.presence.heldAtFault else s.heldSet) s.presence.faultKind
      bus.transmitting := none }) ∧
    (s.phase ≠ .running → s.irq = false ∧ ∀ g, s.drive g = false)

/-- R186, R187, R179, R188, R208: the release of a POWER reset, and of a PIN reset. Every component has its value of
`ResetValues` but those named. LINE is raised where a line is driven from outside, which is log 14 (DEDUCED); that the level
of the lines, the numbering of free values and the queue of commands are no reset's to change is the model's choice (logs 4,
6 and 1). That the release of a POWER reset acts from any state is log 28 (DEDUCED), and the indications of a deferral and of
a transmission that began in SETUP are cleared by logs 47 (DEDUCED) and 36 (DESIGN CHOICE), the model's choices. -/
def Obligations.ResetReleases : Prop :=
  ∀ (straps : Straps) (s : State),
    let lines : BitVec 18 :=
      if straps.role = .firewall ∧ ∃ g, s.own.foreignDrive.get g = true then raiseFlag .line 0 else 0
    let released (cause : Cause) (bus table request : Option Capture) : State :=
      { State.reset with
        straps := straps
        receive := ⟨none, decide (straps.role = .firewall), none, none, []⟩
        presence.cause := cause
        port.busCapture := bus
        port.tableCapture := table
        port.requestCapture := request
        port.flags := lines
        own.foreignDrive := s.own.foreignDrive
        freeCount := s.freeCount
        pending := s.pending }
    exec (.powerReset straps) s = .next (released ⟨.power, Four.all false, .none⟩ none none none) ∧
    (∀ held prior, s.phase = .pin held prior →
      exec (.pinResetRelease straps) s = .next
        (released ⟨.pin, held, prior⟩ s.port.busCapture s.port.tableCapture s.port.requestCapture))

/-- R159: a change of the level that others drive raises LINE exactly where foreign assertion changes; R139, R143, R145: the
claim that a foreign assertion ends, and the claim that its end starts; R160: the timer of a line that a VACANT station finds
on. That the operand is the drive of others, and not the level of the line, is the model's choice (log 4). -/
def Obligations.ReadbackMovesForeignAssertion : Prop :=
  ∀ (g : GroupId) (on : Bool) (s : State), s.phase = .running →
    let r := s.group g
    let able : Prop := s.straps.role = .firewall ∧ (s.life = .member ∨ s.life = .isolated) ∧ s.port.isSealed = true
      ∧ s.port.setup.groups.get g = true ∧ r.health ≠ 0 ∧ r.hold = false ∧ s.port.lapsed = false
      ∧ s.quorumPresent = true
    ∃ t, exec (.groupLineReadback g on) s = .next t
      ∧ t.own.foreignDrive = s.own.foreignDrive.set g on
      ∧ t.port.flags.getLsbD 6 = (s.port.flags.getLsbD 6 || (s.foreign g != t.foreign g))
      ∧ (r.state = .claiming → ¬ able ∨ on = true →
          (t.group g).state = .vacant ∧ (t.group g).owner = none ∧ (t.group g).claimEpoch = none
            ∧ (t.group g).claimWait = false ∧ (t.group g).handoverNote = none ∧ (t.group g).backoff = true
            ∧ (t.group g).epoch = r.epoch ∧ ∀ c, .claim c ∈ t.bus.control → c.group ≠ g)
      ∧ (r.state = .vacant → able → on = false → r.backoff = false → s.mayOutbid g = true → s.bus.control = [] →
          (t.group g).state = .claiming ∧ (t.group g).owner = none ∧ (t.group g).claimEpoch = some (r.epoch + 1)
            ∧ (t.group g).epoch = r.epoch ∧ (t.group g).claimWait = false
            ∧ .claim ⟨g, r.epoch + 1, .vacant, s.port.setup.priority.get g, r.health⟩ ∈ t.bus.control)
      ∧ (r.state = .vacant → able → on = true → t.group g = { r with lineTimer := !r.lineReported })
      ∧ (r.state ≠ .claiming → r.state ≠ .vacant → t.group g = { r with lineTimer := false, lineReported := false })
      ∧ t = { s with
          own.groups := t.own.groups, own.foreignDrive := t.own.foreignDrive, bus.control := t.bus.control
          bus.transmitting := t.bus.transmitting, recon.synced := t.recon.synced
          port.flags := t.port.flags, port.busCapture := t.port.busCapture }

/-- R158: the drive of a line by the first row that applies. -/
def Obligations.DriveFollowsItsTable : Prop :=
  ∀ (s : State) (g : GroupId), s.straps.role = .firewall → s.phase = .running →
    s.drive g =
      if s.life = .setup ∨ s.life = .fault then false
      else if (s.group g).hold then false
      else if (s.group g).state = .holding ∨ (s.group g).state = .yielding then true
      else false

/-! ### Requests -/

/-- R25, R27, R199, R206: what the taking of a request changes, what a response does, and that no grant is made while a
client of higher priority waits. That a request which must wait for its grant stays in its queue until then, and that receive
apply waits from the taking of a record to its join and not between two records, are the model's choices (logs 2 and 45). -/
def Obligations.TakingAndAnswering : Prop :=
  (∀ s : State, s.port.lapsed = false → takeRequest s = { s with
    port.requests := s.port.requests.tail
    port.hostWatch := s.life.active && s.port.setup.hostWatch != 0 }) ∧
  (∀ s : State, s.port.lapsed = true →
    let t := takeRequest s
    t = { s with
      port.requests := s.port.requests.tail
      port.lapsed := false
      port.hostWatch := s.life.active && s.port.setup.hostWatch != 0
      port.flags := t.port.flags
      port.busCapture := t.port.busCapture
      own.groups := t.own.groups
      bus.control := t.bus.control
      bus.transmitting := t.bus.transmitting
      recon.synced := t.recon.synced }) ∧
  (∀ (s : State) (g : GroupId), s.port.lapsed = true → s.bus.control = [] →
    ({ s with port.lapsed := false } : State).mayClaim g = true →
      ((takeRequest s).group g).state = .claiming
        ∧ ((takeRequest s).group g).claimEpoch = some ((s.group g).epoch + 1)) ∧
  (∀ (r : Response) (s : State), respond r s = { s with
    port.responses := s.port.responses ++ [r]
    port.requestCapture :=
      if r.status = .ok then s.port.requestCapture
      else recordIn s.port.requestCapture
        { kind := statusCode r.status, source := r.tag, item := r.kind.setWidth 8,
          third := offendingWord r.offending } }) ∧
  (∀ s : State,
    let joins : Prop := ∃ src r rest c, s.receive.taking = some ⟨src, r :: rest, true⟩ ∧ r.body = .entry c
    let purges : Prop := ∃ src b groups q rest, s.recon.purge = .bucketEnd src b groups q :: rest
    let reads : Prop := purges ∨ s.recon.comparing ≠ none ∨ s.recon.preparing ≠ none ∨
      (s.recon.resend ≠ [] ∧ s.partnerPresent = true ∧ s.journal.occupancy < 768 ∧ s.life.active = true)
    s.higherWaits .receiveApply = false ∧ (s.higherWaits .request = true ↔ joins) ∧
    (s.higherWaits .reader = true ↔ joins ∨ s.engineWaits = true) ∧
    (s.higherWaits .aging = true ↔ joins ∨ s.engineWaits = true ∨ reads) ∧
    (s.higherWaits .cursor = true ↔
      joins ∨ s.engineWaits = true ∨ reads ∨ (s.scan.running = true ∧ s.agingPermitted = true))) ∧
  (∀ (i : Instr) (k : Client) (s : State), grantOf i = some k → k ≠ .request → s.higherWaits k = true →
    exec i s = .next s) ∧
  (∀ (i : Instr) (s : State), grantOf i = some .request → s.engineWaits = true → s.higherWaits .request = true →
    exec i s = .next s)

/-- R28, R30, R48, R194: the tests of a session request before it proceeds, and the fields out of range in the order of the
staging words, of which the first is named. That an unused address word, a refused port and an ill-formed key are named as
they are here is log 15 (DEDUCED), the model's reading. -/
def Obligations.SessionRequestsAreTestedFirst : Prop :=
  ∀ (s : State) (r : Request) (i : Instr) (offence : Option FieldName) (fields : List (Bool × FieldName)),
    s.phase = .running → s.nextRequest = some r →
    let u := takeRequest s
    let v4 := r[0].extractLsb' 0 8 == 4
    let protocol : Byte := r[1].extractLsb' 24 8
    let group := [(decide (3 < (r[0].extractLsb' 8 8).toNat), FieldName.mk 0 8)]
    let family := [(r[0].extractLsb' 0 8 != 4 && r[0].extractLsb' 0 8 != 6, FieldName.mk 0 0)]
    let direction := [(decide (1 < (r[1].extractLsb' 16 8).toNat), FieldName.mk 1 16)]
    let ports := [(protocol != 6 && protocol != 17 && r[2] != 0, FieldName.mk 2 16)]
    let window := [(protocol == 6 && r[6].extractLsb' 30 2 != 0, FieldName.mk 6 0)]
    let addresses := [(v4 && r[8] != 0, FieldName.mk 8 0), (v4 && r[9] != 0, FieldName.mk 9 0),
      (v4 && r[10] != 0, FieldName.mk 10 0), (v4 && r[12] != 0, FieldName.mk 12 0),
      (v4 && r[13] != 0, FieldName.mk 13 0), (v4 && r[14] != 0, FieldName.mk 14 0)]
    let given := [(r[15].getLsbD 31 &&
      (decide ((r[15].extractLsb' 0 16).toNat < 4096) || !u.port.setup.translate.get r.group), FieldName.mk 15 0)]
    let packet := group ++ family ++ direction ++ ports ++ window ++ addresses
    (i = .check ∧ r.kind = 0x01 ∧ offence = checkOffence r ∧ fields = packet ∨
      i = .adopt ∧ r.kind = 0x02 ∧ offence = adoptOffence u.port.setup.translate r ∧ fields = packet ++ given ∨
      i = .retire ∧ r.kind = 0x03 ∧ offence = keyOffence r ∧ fields = family ++ ports ++ addresses ∨
      i = .lookup ∧ r.kind = 0x04 ∧ offence = keyOffence r ∧ fields = family ++ ports ++ addresses) →
    (u.life = .setup → exec i s = .next (answer r .notReady u)) ∧
    (u.life = .fault → exec i s = .next (answer r .faulted u)) ∧
    (∀ o, u.life.active = true → fields.find? (·.1) = some (true, o) →
      exec i s = .next (respond { plainResponse r .badRequest with offending := some o } u)) ∧
    offence = (fields.find? (·.1)).map (·.2)

/-- R34, R35: a check at the owner of a key that the table does not hold; R18 to R20: the slot that a creation takes; R71,
R72: the port it takes, and the allocation cursor after it; R8: the never-transmitted record that the new entry takes up; R42,
R81 to R83: the offer of the creation. -/
def Obligations.OwnerChecksAnAbsentKey : Prop :=
  ∀ (s : State) (r : Request), s.phase = .running → s.nextRequest = some r → r.kind = 0x01 →
    let u := takeRequest s
    let b := bucketOf r.key
    let free (k : Handle) : Prop := bucketOfHandle k = b ∧ u.entryAt k = none
    let candidate (k : Handle) (e : Entry) : Prop :=
      bucketOfHandle k = b ∧ u.entryAt k = some e ∧ e.isRetired = true ∧ e.pending = none
    let place (h : Handle) : Prop :=
      (free h ∧ ∀ k, free k → h ≤ k) ∨
      ((∀ k, ¬ free k) ∧ ∃ e, candidate h e ∧
        ∀ k e', candidate k e' → e.stamp < e'.stamp ∨ (e.stamp = e'.stamp ∧ h ≤ k))
    let translated := r.translateOnCreate && u.port.setup.translate.get r.group
    let pool := u.xlate.get r.group
    let next (p : Port) : Port := if p = 65535 then 4096 else p + 1
    let taken (p : Port) : Prop :=
      (u.portHolder r.group p).isSome = true ∨ ∃ k, k ∈ pool.quarantine ∧ k.val = (p.toNat - 4096) / 1024
    let allocates (p : Port) : Prop :=
      ∃ n : Nat, n < 61440 ∧ p = next^[n] pool.cursor ∧ ¬ taken p ∧ ∀ m : Nat, m < n → taken (next^[m] pool.cursor)
    s.higherWaits .request = false → u.life.active = true → checkOffence r = none → u.holds r.group = true →
    u.table.sound b = true → u.table.find r.key = none →
    (Packet.creates r.key r.packet = false → (u.group r.group).adoptionOpen = true →
      exec .check s = .next (respond (verdictResponse r .missAdoptable) u)) ∧
    (Packet.creates r.key r.packet = false → (u.group r.group).adoptionOpen = false →
      exec .check s = .next (respond (verdictResponse r .miss) u)) ∧
    (Packet.creates r.key r.packet = true → (∀ k, ¬ free k) → (∀ k e, ¬ candidate k e) →
      exec .check s = .next (respond (verdictResponse r .dropTableFull) u)) ∧
    (∀ h, Packet.creates r.key r.packet = true → place h → translated = true →
      (∀ n : Nat, n < 61440 → taken (next^[n] pool.cursor)) →
      exec .check s = .next (respond (verdictResponse r .dropNoPort) u)) ∧
    (∀ h port, Packet.creates r.key r.packet = true → place h →
      (translated = true ∧ (∃ p, port = some p ∧ allocates p) ∨ translated = false ∧ port = none) →
      let unsent := u.journal.unsentOf r.key 0
      let names (x : JournalRecord) : Prop :=
        x ∈ u.journal.records ∧ x.sent = false ∧ ∃ c, x.body = .entry c ∧ c.key = r.key ∧ c.incarnation = 0
      let new : Entry :=
        { key := r.key, group := r.group, incarnation := 0
          marks := { opened := true, finI := isStream r.key && r.packet.finishes, aborted := r.packet.aborts }
          stream := if isStream r.key then
              some ⟨⟨some (r.packet.seq + r.packet.length.setWidth 32), r.packet.ack, r.packet.window⟩, ⟨none, none, 0⟩⟩
            else none
          translation := port, adopted := false, stamp := u.clock.tick, origin := u.me, confirmation := none
          pending := unsent }
      let journal : Journal := { u.journal with
        records := u.journal.records.map fun x => if unsent = some x.seq then { x with slot := some h } else x }
      (unsent = none → ∀ x, ¬ names x) ∧ (∀ q, unsent = some q → ∃ x, names x ∧ x.seq = q) ∧
      ∃ t, exec .check s = .next t ∧ u.offered t journal h new
        ∧ (∀ k, k ≠ h → t.entryAt k = u.entryAt k)
        ∧ (∀ p, port = some p → t.portHolder r.group p = some h ∧ (t.xlate.get r.group).cursor = next p)
        ∧ (∀ g, g ≠ r.group ∨ port = none → (t.xlate.get g).cursor = (u.xlate.get g).cursor)
        ∧ (∀ g, (t.xlate.get g).quarantine = (u.xlate.get g).quarantine
            ∧ (t.xlate.get g).lastSeen = (u.xlate.get g).lastSeen)
        ∧ t.port.responses = u.port.responses ++ [entryResponse r .ok .pass h new]
        ∧ t = { u with
            table := t.table, xlate := t.xlate, journal := t.journal, recon.resend := t.recon.resend
            port.flags := t.port.flags, port.responses := t.port.responses })

/-- R33, R36, R37, R39 to R41: a check at the owner of a key that the table holds; R42, R81 to R83: an entry that the check
changes is offered, and one that it leaves as it was is not. -/
def Obligations.OwnerChecksAnEntry : Prop :=
  ∀ (s : State) (r : Request) (h : Handle) (e : Entry),
    s.phase = .running → s.nextRequest = some r → r.kind = 0x01 →
    let u := takeRequest s
    let loose := (u.group r.group).adoptionOpen && decide (e.origin ≠ u.me)
    let written (t : State) (new : Entry) (v : Verdict) : Prop :=
      exec .check s = .next t ∧ (∀ k, k ≠ h → t.entryAt k = u.entryAt k)
        ∧ (new ≠ e → u.offered t u.journal h new)
        ∧ (new = e → t.entryAt h = some e ∧ t.journal = u.journal ∧ t.recon.resend = u.recon.resend
            ∧ t.port.flags = u.port.flags)
        ∧ t.port.responses = u.port.responses ++ [entryResponse r .ok v h new]
        ∧ t = { u with
            table := t.table, journal := t.journal, recon.resend := t.recon.resend
            port.flags := t.port.flags, port.responses := t.port.responses }
    s.higherWaits .request = false → u.life.active = true → checkOffence r = none → u.holds r.group = true →
    u.table.sound (bucketOf r.key) = true → u.table.find r.key = some (h, e) →
    (e.group ≠ r.group → exec .check s = .next (respond (entryResponse r .ok .dropState h e) u)) ∧
    (e.group = r.group → (e.isEnded && Packet.creates r.key r.packet) = true →
      ∃ t, written t { e with
        incarnation := e.incarnation + 1
        marks := { opened := true, finI := isStream e.key && r.packet.finishes, aborted := r.packet.aborts }
        stream := if isStream e.key then
            some ⟨⟨some (r.packet.seq + r.packet.length.setWidth 32), r.packet.ack, r.packet.window⟩, ⟨none, none, 0⟩⟩
          else none
        adopted := false, stamp := u.clock.tick, origin := u.me, pending := none } .pass) ∧
    (e.group = r.group → Packet.creates r.key r.packet = false → e.isRetired = true →
      exec .check s = .next (respond (entryResponse r .ok .dropState h e) u)) ∧
    (e.group = r.group → (e.isEnded && Packet.creates r.key r.packet) = false → e.isRetired = false →
      loose = false → isStream e.key = true → windowTests e.sides r.packet = false →
      exec .check s = .next (respond (entryResponse r .ok .dropWindow h e) u)) ∧
    (e.group = r.group → (e.isEnded && Packet.creates r.key r.packet) = false → e.isRetired = false →
      (loose || !isStream e.key || windowTests e.sides r.packet) = true →
      ∃ t, written t { e with
        marks := e.marks.union (addedMarks e.key e.marks r.packet)
        stream := if isStream e.key then some (passSides e.sides r.packet) else e.stream
        stamp := u.clock.tick, origin := u.me } (if loose then .passLoose else .pass))

/-- R38: the three window tests, over serial comparison. -/
def Obligations.WindowTestsAreTheThreeTests : Prop :=
  ∀ (x : Sides) (p : Packet),
    let d := x.get p.direction
    let o := x.get p.direction.other
    windowTests x p = true ↔
      (∀ a, o.ack = some a →
        serialBefore (a + (if o.window = 0 then 1 else o.window.setWidth 32)) (p.seq + p.length.setWidth 32) = false)
      ∧ (∀ e, d.edge = some e → serialBefore (p.seq + p.length.setWidth 32) (e - 1048576) = false)
      ∧ (∀ a e, p.ack = some a → o.edge = some e → serialBefore (e + 1) a = false)

/-- R32, R43 to R45: a check without ownership reads the copy and writes nothing; only a follower's PASS is relayed, as an
observation for the owner; and a check of a DISABLED group. That the marks of the observation are the additions of the rows of
R41 for the copy as the check finds it is log 21 (DEDUCED), the model's reading. -/
def Obligations.CopyChecksWriteNothing : Prop :=
  ∀ (s : State) (r : Request), s.phase = .running → s.nextRequest = some r → r.kind = 0x01 →
    let u := takeRequest s
    let g := (u.group r.group).state
    u.life.active = true → checkOffence r = none →
    (g = .disabled → exec .check s = .next (answer r .groupDisabled u)) ∧
    (s.higherWaits .request = false → g = .following ∨ g = .vacant ∨ g = .claiming →
      u.table.sound (bucketOf r.key) = true →
      (u.table.find r.key = none → exec .check s = .next (respond (verdictResponse r .miss) u)) ∧
      (∀ h e, u.table.find r.key = some (h, e) →
        let observed : Observation :=
          { key := r.key, group := r.group, incarnation := e.incarnation, direction := r.direction
            marks := addedMarks r.key e.marks r.packet
            side := if isStream r.key then
                some ⟨r.packet.seq + r.packet.length.setWidth 32, r.packet.ack, r.packet.window⟩
              else none }
        (e.group ≠ r.group → exec .check s = .next (respond (entryResponse r .ok .dropState h e) u)) ∧
        (e.group = r.group → (e.isEnded && Packet.creates r.key r.packet) = true →
          exec .check s = .next (respond (entryResponse r .ok .miss h e) u)) ∧
        (e.group = r.group → Packet.creates r.key r.packet = false → e.isRetired = true →
          exec .check s = .next (respond (entryResponse r .ok .dropState h e) u)) ∧
        (e.group = r.group → (e.isEnded && Packet.creates r.key r.packet) = false → e.isRetired = false →
          (isStream e.key && !windowTests e.sides r.packet) = true →
          exec .check s = .next (respond (entryResponse r .ok .dropWindow h e) u)) ∧
        (e.group = r.group → (e.isEnded && Packet.creates r.key r.packet) = false → e.isRetired = false →
          (isStream e.key && !windowTests e.sides r.packet) = false →
          exec .check s = .next (respond (entryResponse r .ok .pass h e)
            (if g = .following ∧ u.straps.role = .firewall then
              if u.bus.relays.length < 8 then { u with bus.relays := u.bus.relays ++ [observed] }
              else { u with port.flags := raiseFlag .relayDrop u.port.flags }
            else u)))))

/-- R48, R49: ADOPT, by the first step that applies; R18, R19, R23: the slot it takes; R42, R81 to R83: the offer of the
creation. That the first three answers come without a verification of check bits is log 27 (DEDUCED), and that PORT_CONFLICT
and TABLE_FULL come without a verification of the bucket of the port's holder is log 46 (DEDUCED): the model's choices. -/
def Obligations.AdoptByItsSteps : Prop :=
  ∀ (s : State) (r : Request), s.phase = .running → s.nextRequest = some r → r.kind = 0x02 →
    let u := takeRequest s
    let b := bucketOf r.key
    let holder := r.givenPort.bind (u.portHolder r.group)
    let displaced : Prop := ∀ k e, holder = some k → u.entryAt k = some e → e.isRetired = true
    let free (k : Handle) : Prop := bucketOfHandle k = b ∧ (u.entryAt k = none ∨ holder = some k)
    let candidate (k : Handle) (e : Entry) : Prop :=
      bucketOfHandle k = b ∧ holder ≠ some k ∧ u.entryAt k = some e ∧ e.isRetired = true ∧ e.pending = none
    let place (h : Handle) : Prop :=
      (free h ∧ ∀ k, free k → h ≤ k) ∨
      ((∀ k, ¬ free k) ∧ ∃ e, candidate h e ∧
        ∀ k e', candidate k e' → e.stamp < e'.stamp ∨ (e.stamp = e'.stamp ∧ h ≤ k))
    u.life.active = true → adoptOffence u.port.setup.translate r = none →
    ((u.group r.group).state = .disabled → exec .adopt s = .next (answer r .groupDisabled u)) ∧
    ((u.group r.group).state ≠ .disabled → u.holds r.group = false → exec .adopt s = .next (answer r .notOwner u)) ∧
    (u.holds r.group = true → (u.group r.group).adoptionOpen = false →
      exec .adopt s = .next (answer r .adoptClosed u)) ∧
    (u.holds r.group = true → (u.group r.group).adoptionOpen = true → s.higherWaits .request = false →
      u.table.sound b = true →
      (∀ h e, u.table.find r.key = some (h, e) → exec .adopt s = .next (respond (slotResponse r .exists h e) u)) ∧
      (u.table.find r.key = none →
        (∀ p k e, r.givenPort = some p → u.portHolder r.group p = some k → u.entryAt k = some e →
          e.isRetired = false → exec .adopt s = .next (answer r .portConflict u)) ∧
        (displaced → (∀ k, ¬ free k) → (∀ k e, ¬ candidate k e) →
          exec .adopt s = .next (answer r .tableFull u)) ∧
        (∀ h, displaced → (∀ k, holder = some k → u.table.sound (bucketOfHandle k) = true) → place h →
          let unsent := u.journal.unsentOf r.key 0
          let new : Entry :=
            { key := r.key, group := r.group, incarnation := 0
              marks := { opened := true, answered := true, established := true }
              stream :=
                if isStream r.key = false then none
                else if r.direction = .fromInitiator then
                  some ⟨⟨some r[3], some r[4], r.window⟩, ⟨some r[4], none, 0⟩⟩
                else some ⟨⟨some r[4], none, 0⟩, ⟨some r[3], some r[4], r.window⟩⟩
              translation := r.givenPort, adopted := true, stamp := u.clock.tick, origin := u.me
              confirmation := none, pending := unsent }
          let journal : Journal := { u.journal with
            records := u.journal.records.map fun x => if unsent = some x.seq then { x with slot := some h } else x }
          ∃ t, exec .adopt s = .next t ∧ u.offered t journal h new
            ∧ (∀ k, k ≠ h → holder ≠ some k → t.entryAt k = u.entryAt k)
            ∧ (∀ k, k ≠ h → holder = some k → t.entryAt k = none)
            ∧ (∀ p, r.givenPort = some p → t.portHolder r.group p = some h)
            ∧ (∀ g, (t.xlate.get g).cursor = (u.xlate.get g).cursor
                ∧ (t.xlate.get g).quarantine = (u.xlate.get g).quarantine
                ∧ (t.xlate.get g).lastSeen = (u.xlate.get g).lastSeen)
            ∧ t.port.responses = u.port.responses ++ [entryResponse r .ok .none h new]
            ∧ t = { u with
                table := t.table, xlate := t.xlate, journal := t.journal, recon.resend := t.recon.resend
                port.flags := t.port.flags, port.responses := t.port.responses })))

/-- R50: RETIRE, by the first step that applies; R42, R81 to R83: the offer of the change. Of the entry only the marks, the
stamp and the origin change, and what the offer writes: the confirmation and the pending mark. -/
def Obligations.RetireByItsSteps : Prop :=
  ∀ (s : State) (r : Request), s.phase = .running → s.nextRequest = some r → r.kind = 0x03 →
    let u := takeRequest s
    s.higherWaits .request = false → u.life.active = true → keyOffence r = none → u.table.sound (bucketOf r.key) = true →
    (u.table.find r.key = none → exec .retire s = .next (answer r .noSession u)) ∧
    (∀ h e, u.table.find r.key = some (h, e) →
      ((u.group e.group).state = .disabled → exec .retire s = .next (answer r .groupDisabled u)) ∧
      ((u.group e.group).state ≠ .disabled → u.holds e.group = false →
        exec .retire s = .next (respond (slotResponse r .notOwner h e) u)) ∧
      (u.holds e.group = true → e.isRetired = true →
        exec .retire s = .next (respond (slotResponse r .ok h e) u)) ∧
      (u.holds e.group = true → e.isRetired = false →
        let new : Entry := { e with
          marks := { e.marks with retired := true }, stamp := u.clock.tick, origin := u.me }
        ∃ t, exec .retire s = .next t ∧ u.offered t u.journal h new ∧ (∀ k, k ≠ h → t.entryAt k = u.entryAt k)
          ∧ t.port.responses = u.port.responses ++ [slotResponse r .ok h new]
          ∧ t = { u with
              table := t.table, journal := t.journal, recon.resend := t.recon.resend
              port.flags := t.port.flags, port.responses := t.port.responses }))

/-- R51. -/
def Obligations.LookupReads : Prop :=
  ∀ (s : State) (r : Request), s.phase = .running → s.nextRequest = some r → r.kind = 0x04 →
    let u := takeRequest s
    s.higherWaits .request = false → u.life.active = true → keyOffence r = none → u.table.sound (bucketOf r.key) = true →
    (u.table.find r.key = none → exec .lookup s = .next (answer r .noSession u)) ∧
    (∀ h e, u.table.find r.key = some (h, e) →
      exec .lookup s = .next (respond { entryResponse r .ok .none h e with
        summary := some ⟨e.group, e.incarnation, e.marks, e.adopted, e.origin, cappedSeconds u.clock.tick e.stamp,
          e.confirmation, e.pending.isSome⟩ } u))

/-- R152, R161, R162: HEALTH, HOLD and UNHOLD, their tests, their effect on the group record, and what a hold or a health
of 0 brings at a CLAIMING and at a HOLDING station. -/
def Obligations.GroupRequests : Prop :=
  ∀ (s : State) (r : Request) (i : Instr), s.phase = .running → s.nextRequest = some r →
    (i = .health ∧ r.kind = 0x10 ∨ i = .hold ∧ r.kind = 0x11 ∨ i = .unhold ∧ r.kind = 0x12) →
    let u := takeRequest s
    (u.life = .setup → exec i s = .next (answer r .notReady u)) ∧
    (u.life = .fault → exec i s = .next (answer r .faulted u)) ∧
    (u.life.active = true → 3 < r.groupByte.toNat → exec i s = .next (badRequest r ⟨0, 8⟩ u)) ∧
    (u.life.active = true → r.groupByte.toNat ≤ 3 → u.straps.role = .witness →
      exec i s = .next (answer r .notOwner u)) ∧
    (u.life.active = true → r.groupByte.toNat ≤ 3 → u.straps.role = .firewall →
      (u.group r.group).state = .disabled → exec i s = .next (answer r .groupDisabled u)) ∧
    (u.life.active = true → r.groupByte.toNat ≤ 3 → u.straps.role = .firewall →
      (u.group r.group).state ≠ .disabled →
      ∃ t, exec i s = .next t
        ∧ t.port.responses = u.port.responses ++ [{ plainResponse r .ok with
            view := some ⟨(t.group r.group).state, (t.group r.group).health, (t.group r.group).hold⟩ }]
        ∧ (i = .health → (t.group r.group).health = BitVec.ofNat 4 (min 15 r.score.toNat)
            ∧ (t.group r.group).hold = (u.group r.group).hold)
        ∧ (i = .hold → (t.group r.group).hold = true ∧ (t.group r.group).health = (u.group r.group).health
            ∧ t.drive r.group = false)
        ∧ (i = .unhold → (t.group r.group).hold = false ∧ (t.group r.group).health = (u.group r.group).health)
        ∧ (i = .hold ∧ (u.group r.group).hold = false ∨ i = .health ∧ r.score = 0 →
            ((u.group r.group).state = .claiming → (t.group r.group).state = .vacant
              ∧ (t.group r.group).owner = none ∧ (t.group r.group).claimEpoch = none
              ∧ (t.group r.group).backoff = true ∧ ∀ x, .claim x ∈ t.bus.control → x.group ≠ r.group) ∧
            ((u.group r.group).state = .holding →
              (∀ p, u.presentPartner = some p → (u.peer p).showsEligible r.group = true →
                (u.journal.holdsGroup r.group = false ∧ (u.peer p).showsSynced r.group = true →
                  (t.group r.group).state = .following ∧ (t.group r.group).owner = some p
                    ∧ t.port.flags.getLsbD 2 = true
                    ∧ (u.bus.control = [] →
                        .yield ⟨r.group, (u.group r.group).epoch, p, true⟩ ∈ t.bus.control)) ∧
                (u.journal.holdsGroup r.group = true ∨ (u.peer p).showsSynced r.group = false →
                  (t.group r.group).state = .yielding ∧ (t.group r.group).successor = some p
                    ∧ (t.group r.group).drain = true ∧ (t.group r.group).drainSpoiled = false)) ∧
              ((∀ p, u.presentPartner = some p → (u.peer p).showsEligible r.group = false) →
                (t.group r.group).state = .vacant ∧ (t.group r.group).owner = none
                  ∧ (t.group r.group).backoff = true ∧ t.port.flags.getLsbD 2 = true)))
        ∧ t = { u with
            own.groups := t.own.groups, own.quorumTimer := t.own.quorumTimer
            bus.control := t.bus.control, bus.transmitting := t.bus.transmitting
            recon.synced := t.recon.synced, xlate := t.xlate
            port.flags := t.port.flags, port.busCapture := t.port.busCapture, port.responses := t.port.responses })

/-- R115. -/
def Obligations.ResyncByItsSteps : Prop :=
  ∀ (s : State) (r : Request), s.phase = .running → s.nextRequest = some r → r.kind = 0x13 →
    let u := takeRequest s
    (u.life = .setup → exec .resync s = .next (answer r .notReady u)) ∧
    (u.life = .fault → exec .resync s = .next (answer r .faulted u)) ∧
    (u.life.active = true → u.recon.passRunning = true → exec .resync s = .next (answer r .busy u)) ∧
    (u.life.active = true → u.recon.passRunning = false → u.heldSet = Four.all false →
      exec .resync s = .next (answer r .notOwner u)) ∧
    (u.life.active = true → u.recon.passRunning = false → (∃ g, u.holds g = true) → u.presentPartner = none →
      exec .resync s = .next (answer r .ok u)) ∧
    (u.life.active = true → u.recon.passRunning = false → (∃ g, u.holds g = true) →
      u.presentPartner.isSome = true → u.straps.role = .firewall →
      exec .resync s = .next (answer r .ok { u with
        recon.passRunning := true, recon.passStart := some u.journal.next, recon.resend := allBuckets }))

/-- R197, R198, R181, R194: SETUP and SEAL, and the fields of a SETUP out of range in the order of the staging words, of which
the first is named; that a field is named by its staging word and its lowest bit is log 15 (DEDUCED). That SEAL raises QUORUM
where solo takeover makes quorum present is log 13 (DEDUCED), the model's reading of R138. -/
def Obligations.SetupAndSeal : Prop :=
  ∀ (s : State) (r : Request), s.phase = .running → s.nextRequest = some r →
    let u := takeRequest s
    let outside (word : Fin 16) (bit width low high : Nat) : Bool × FieldName :=
      let v := (r[word].extractLsb' bit width).toNat
      (decide (v < low ∨ high < v), FieldName.mk word.val bit)
    let watch := (r[6].extractLsb' 0 16).toNat
    let fields : List (Bool × FieldName) :=
      [outside 2 24 8 0 7, outside 2 16 8 0 7, outside 2 8 8 0 7, outside 2 0 8 0 7, outside 3 16 16 0 600,
        outside 3 0 16 0 600, outside 4 16 16 0 600, outside 4 0 16 0 600, outside 5 16 16 20 1000,
        outside 5 0 16 1 120, outside 6 16 16 1 65535,
        (decide (watch ≠ 0 ∧ (watch < 10 ∨ 10000 < watch)), FieldName.mk 6 0), outside 7 16 16 1 65535,
        outside 7 0 16 1 65535, outside 8 16 16 1 65535, outside 8 0 16 1 65535, outside 9 16 16 1 65535,
        outside 9 0 16 1 65535]
    (r.kind = 0x20 → u.port.isSealed = true → exec .setup s = .next (answer r .sealed u)) ∧
    (∀ o, r.kind = 0x20 → u.port.isSealed = false → fields.find? (·.1) = some (true, o) →
      exec .setup s = .next (respond { plainResponse r .badRequest with offending := some o } u)) ∧
    (r.kind = 0x20 → u.port.isSealed = false → fields.find? (·.1) = none →
      exec .setup s = .next (answer r .ok { u with port.setup := r.setup })) ∧
    (r.kind = 0x21 → u.life ≠ .setup → exec .seal s = .next (answer r .sealed u)) ∧
    (r.kind = 0x21 → u.life = .setup →
      ∃ t, exec .seal s = .next t ∧ t.life = .listen ∧ t.port.isSealed = true
        ∧ t.presence.fingerprint = some (crc u.port.setup.sharedBytes)
        ∧ t.presence.listenTimer = true ∧ t.presence.beaconTimer = true
        ∧ t.port.hostWatch = (u.port.setup.hostWatch != 0)
        ∧ (∀ g, t.group g = { u.group g with
            state := if u.port.setup.groups.get g then .vacant else .disabled })
        ∧ t.bus.beaconSlot = some t.beacon
        ∧ t.port.responses = u.port.responses ++ [plainResponse r .ok]
        ∧ (u.port.isSealed = false →
            (t.quorumPresent = true ↔ u.quorumPresent = true ∨ (u.straps.mem3 = false ∧ u.port.setup.solo = true))
              ∧ t.port.flags = if u.straps.role = .firewall ∧ t.quorumPresent ≠ u.quorumPresent
                  then raiseFlag .quorum u.port.flags else u.port.flags)
        ∧ (t.own.quorumTimer = true → u.own.quorumTimer = true)
        ∧ t = { u with
            port.isSealed := true, port.hostWatch := t.port.hostWatch, port.responses := t.port.responses
            port.flags := t.port.flags, presence.life := .listen, presence.listenTimer := true
            presence.beaconTimer := true, presence.fingerprint := t.presence.fingerprint
            own.groups := t.own.groups, own.quorumTimer := t.own.quorumTimer
            bus.beaconSlot := t.bus.beaconSlot, bus.transmitting := t.bus.transmitting })

/-- R109, R190, R191: a REJOIN refused, its acceptance, and its clear. The free value of log 6 is not constrained. That the
acceptance starts no claim is log 11 (DEDUCED), and what waits for the clear (the synced set but for the groups whose owner
known ends, the control queue, the relay slot) is log 26 (DEDUCED). At the clear, that a frame in transmission of any kind but
DELTA goes on and is not sent again is log 41 (DEDUCED), that the crossing of the quorum threshold raises QUORUM is log 13
(DEDUCED), the reading of R138, that the indication of a deferral is kept is log 47 (DEDUCED), and that of a transmission that
began in SETUP is the model's own field (log 36): the model's choices. -/
def Obligations.RejoinByItsSteps : Prop :=
  (∀ (s : State) (r : Request), s.phase = .running → s.nextRequest = some r → r.kind = 0x22 →
    let u := takeRequest s
    (u.life = .setup → exec .rejoin s = .next (answer r .notSealed u)) ∧
    (u.life = .fault → u.presence.faultKind = .duplicate → exec .rejoin s = .next (answer r .faulted u)) ∧
    (u.life ≠ .setup → (u.life = .fault → u.presence.faultKind ≠ .duplicate) →
      ∃ t, exec .rejoin s = .next t ∧ t.engine.inProgress = some r.tag
        ∧ t.presence.cause = ⟨.rejoin, if u.life = .fault then u.presence.heldAtFault else u.heldSet,
            u.presence.faultKind⟩
        ∧ (∀ g, t.drive g = false ∧ (t.group g).epoch = (u.group g).epoch ∧ (t.group g).hold = (u.group g).hold
            ∧ (t.group g).health = (u.group g).health ∧ (t.group g).adoptionOpen = false
            ∧ (t.xlate.get g).quarantine = []
            ∧ (t.group g).state = if u.port.isSealed && u.port.setup.groups.get g then .vacant else .disabled)
        ∧ (∀ g, (t.group g).owner = none
            ∧ t.recon.synced.get g = (u.recon.synced.get g && (u.group g).owner.isNone))
        ∧ t = { u with
            own.groups := t.own.groups, own.quorumTimer := t.own.quorumTimer
            xlate := t.xlate, presence.cause := t.presence.cause, engine := t.engine
            recon.synced := t.recon.synced, port.flags := t.port.flags })) ∧
  (∀ (s : State) (tag : Byte), s.phase = .running → s.engine.inProgress = some tag →
    ∃ t, exec .rejoinClear s = .next t
      ∧ t.bus.beaconSlot = some t.beacon
      ∧ (∀ g, t.group g = { State.reset.group g with
          state := if s.port.isSealed && s.port.setup.groups.get g then .vacant else .disabled
          epoch := (s.group g).epoch, hold := (s.group g).hold, health := (s.group g).health })
      ∧ t.port.flags = (if s.straps.role = .firewall ∧ t.quorumPresent ≠ s.quorumPresent
          then raiseFlag .quorum s.port.flags else s.port.flags)
      ∧ t = { s with
          engine := ⟨none, none⟩
          table := []
          scan := ⟨false, 0, false⟩
          xlate := Four.all ⟨[], 4096, none, []⟩
          journal := ⟨[], s.journal.next, s.journal.next, s.journal.next, false, false⟩
          receive := ⟨none, decide (s.straps.role = .firewall), none, none, []⟩
          recon := ⟨[], false, none, none, [], Four.all false, s.recon.digestTimer, 0, none, none, none, none⟩
          bus := {
            beaconSlot := t.bus.beaconSlot, control := [], receiptSlot := none, relays := [], delta := s.bus.delta
            digest := none, fetch := none, collisions := s.bus.collisions, lastClass3 := s.bus.lastClass3
            transmitting := s.bus.transmitting.map fun x =>
              { x with held := x.held && decide (kindCode x.payload = 0x08) }
            deferred := s.bus.deferred, straddling := s.bus.straddling }
          presence := {
            records := Four.all ⟨.absent, none, false, none⟩, partner := none, witness := none
            watched := Four.all false, beaconTimer := true, fingerprint := s.presence.fingerprint, life := .listen
            faultKind := .none, listenTimer := true, heldAtFault := Four.all false, cause := s.presence.cause }
          own := { s.own with groups := t.own.groups, quorumTimer := false }
          port.cursorPending := false
          port.snapshot := ⟨s.port.cursorHandle, none, .passed, t.port.snapshot.tick⟩
          port.hostWatch := s.port.setup.hostWatch != 0
          port.flags := t.port.flags
          port.responses := s.port.responses ++ [{ kind := 0x22, tag := tag, status := .ok }]
          freeCount := t.freeCount })

/-- R200, R194: KEEP, and a request of an unknown kind. -/
def Obligations.KeepAndUnknownKinds : Prop :=
  ∀ (s : State) (r : Request), s.phase = .running → s.nextRequest = some r →
    let u := takeRequest s
    (r.kind = 0x23 → u.life = .fault → exec .keep s = .next (answer r .faulted u)) ∧
    (r.kind = 0x23 → u.life ≠ .fault → exec .keep s = .next (answer r .ok u)) ∧
    (r.kind ∉ knownKinds →
      exec .unknownKind s = .next (respond { plainResponse r .badRequest with offending := some ⟨0, 24⟩ } u))

/-! ### Aging -/

/-- R53, R54, R56: an age tick. That the command makes the wrap from any prescaler and millisecond count, which become 0, is
the model's choice (log 9). -/
def Obligations.AgeTickCounts : Prop :=
  ∀ s : State, s.phase = .running →
    let permitted := decide (s.straps.role = .firewall) && s.life.active
    exec .ageTick s = .next { s with
      clock := ⟨0, 0, s.clock.tick + 1⟩
      scan :=
        if permitted = false then s.scan
        else if s.scan.running then { s.scan with behind := true }
        else ⟨true, 0, s.scan.behind⟩ }

/-- R55, R57, R59, R60: the visit of a bucket, way by way, and the end of a pass; R42, R81 to R83: the offer of a retirement
by idle, which the next way finds done. -/
def Obligations.AgingVisitsABucket : Prop :=
  ∀ s : State, s.phase = .running → s.scan.running = true → s.agingPermitted = true →
    s.higherWaits .aging = false → s.table.sound s.scan.position = true →
    let retired (e : Entry) : Entry :=
      { e with marks := { e.marks with retired := true }, stamp := s.clock.tick, origin := s.me }
    let visited (way : Way) (x y : State) : Prop :=
      let h := handleOf s.scan.position way
      (∀ k, k ≠ h → y.entryAt k = x.entryAt k)
        ∧ (x.entryAt h = none → y = x)
        ∧ (∀ e, x.entryAt h = some e →
            let due : Prop := s.port.setup.idleLimit e < s.clock.tick.toNat - e.stamp.toNat
            (¬ due ∨ (e.isRetired = true ∧ e.pending.isSome = true) ∨ (e.isRetired = false ∧ s.holds e.group = false) →
              y = x) ∧
            (due → e.isRetired = true → e.pending = none →
              y.entryAt h = none ∧ y = { x with table := y.table, xlate := y.xlate }) ∧
            (due → e.isRetired = false → s.holds e.group = true →
              x.offered y x.journal h (retired e) ∧ y.xlate = x.xlate))
        ∧ y = { x with
            table := y.table, xlate := y.xlate, journal := y.journal, recon.resend := y.recon.resend
            port.flags := y.port.flags }
    ∃ a b c t, visited 0 s a ∧ visited 1 a b ∧ visited 2 b c ∧ visited 3 c { t with scan := s.scan }
      ∧ exec .agingVisit s = .next t
      ∧ (∀ k, bucketOfHandle k ≠ s.scan.position → t.entryAt k = s.entryAt k)
      ∧ (∀ k e, bucketOfHandle k = s.scan.position → s.entryAt k = some e →
          let idle := s.clock.tick.toNat - e.stamp.toNat
          (idle ≤ s.port.setup.idleLimit e → t.entryAt k = some e) ∧
          (s.port.setup.idleLimit e < idle → e.isRetired = true → e.pending = none → t.entryAt k = none) ∧
          (s.port.setup.idleLimit e < idle → e.isRetired = true → e.pending.isSome = true → t.entryAt k = some e) ∧
          (s.port.setup.idleLimit e < idle → e.isRetired = false → s.holds e.group = false →
            t.entryAt k = some e) ∧
          (s.port.setup.idleLimit e < idle → e.isRetired = false → s.holds e.group = true →
            ∃ e', t.entryAt k = some e'
              ∧ e' = { retired e with confirmation := e'.confirmation, pending := e'.pending }))
      ∧ t.scan = (if s.scan.position = 4095 then ⟨s.scan.behind, 0, false⟩
          else { s.scan with position := s.scan.position + 1 })
      ∧ t = { s with
          table := t.table, xlate := t.xlate, journal := t.journal, recon.resend := t.recon.resend
          port.flags := t.port.flags, scan := t.scan }

/-- R9, R87, R184: a failed verification of check bits enters FAULT, in a bucket operation of any client of the arbiter and
in the composition of a DELTA; the operation itself is dropped, and a request is answered FAULTED. (The cursor's is in
`CursorShowsASlot`.) So does a clear of the journal in the manner of R87 (R91, R92), at a stall and where the partner's
presence ends by a dead timer or by a BEACON: that the capture names the composition and the first failing slot is log 20
(DEDUCED), the model's reading. -/
def Obligations.IntegrityFailureEntersFault : Prop :=
  ∀ s : State, s.phase = .running → s.life.active = true →
    let failed (s t : State) (client : Byte) (b : Bucket) : Prop :=
      t.life = .fault ∧ t.presence.faultKind = .integrity
        ∧ t.presence.heldAtFault = s.heldSet ∧ t.atRest
        ∧ (∀ g, t.drive g = false ∧ (t.group g).epoch = (s.group g).epoch ∧ (t.group g).owner = none
            ∧ (t.group g).hold = (s.group g).hold ∧ (t.xlate.get g).occupied = (s.xlate.get g).occupied
            ∧ (t.xlate.get g).quarantine = [])
        ∧ (∀ k e, s.entryAt k = some e → ∃ e', t.entryAt k = some e' ∧ (e' = e ∨ e' = { e with pending := none }))
        ∧ (∀ k, s.entryAt k = none → t.entryAt k = none)
        ∧ t.journal.records = [] ∧ t.journal.next = s.journal.next ∧ t.recon.synced = s.recon.synced
        ∧ t.clock = s.clock ∧ t.scan = ⟨false, 0, false⟩ ∧ t.port.flags.getLsbD 16 = true
        ∧ t.port.tableCapture = recordIn s.port.tableCapture
            { kind := 0x11, source := stationByte s.me, item := client, third := b.setWidth 32 }
        ∧ t.port.requests = s.port.requests
    let fails (i : Instr) (client : Byte) (b : Bucket) : Prop :=
      ∃ t, exec i s = .next t ∧ failed s t client b ∧ t.port.responses = s.port.responses
    (∀ src r rest c, s.receive.taking = some ⟨src, r :: rest, true⟩ → r.body = .entry c →
      s.table.sound (bucketOf c.key) = false →
      fails .entryJoin 1 (bucketOf c.key) ∧ ∀ t, exec .entryJoin s = .next t →
        t.receive.expectation = s.receive.expectation) ∧
    (s.higherWaits .request = false →
      (∀ (r : Request) (i : Instr), s.nextRequest = some r →
        let u := takeRequest s
        i = .check ∧ r.kind = 0x01 ∧ checkOffence r = none ∧ (u.group r.group).state ≠ .disabled ∨
          i = .adopt ∧ r.kind = 0x02 ∧ adoptOffence u.port.setup.translate r = none ∧ u.holds r.group = true
            ∧ (u.group r.group).adoptionOpen = true ∨
          i = .retire ∧ r.kind = 0x03 ∧ keyOffence r = none ∨
          i = .lookup ∧ r.kind = 0x04 ∧ keyOffence r = none →
        u.table.sound (bucketOf r.key) = false →
        ∃ t, exec i s = .next t ∧ failed u t 2 (bucketOf r.key)
          ∧ t.port.responses = u.port.responses ++ [plainResponse r .faulted]) ∧
      (∀ o, s.engine.inProgress = none → s.engine.relaySlot = some o → s.holds o.group = true →
        s.table.sound (bucketOf o.key) = false → fails .relayApply 2 (bucketOf o.key))) ∧
    (s.higherWaits .reader = false →
      (∀ src b groups q rest, s.recon.purge = .bucketEnd src b groups q :: rest → s.table.sound b = false →
        fails .purge 3 b) ∧
      (s.purgeWaits = false →
        (∀ groups b d rest, s.recon.comparing = some ⟨groups, b, d :: rest⟩ → s.table.sound b = false →
          fails .digestCompare 3 b) ∧
        (s.recon.comparing = none →
          (∀ d, s.recon.preparing = some d → s.table.sound (d.first + BitVec.ofNat 12 d.digests.length) = false →
            fails .digestPrepare 3 (d.first + BitVec.ofNat 12 d.digests.length)) ∧
          (∀ b rest, s.recon.preparing = none → s.recon.resend = b :: rest → s.mayRejournal = true →
            s.table.sound b = false → fails .reJournal 3 b)))) ∧
    (s.higherWaits .aging = false → s.scan.running = true → s.agingPermitted = true →
      s.table.sound s.scan.position = false → fails .agingVisit 4 s.scan.position) ∧
    (∀ n, s.bus.transmitting = none → s.readyClass = some 3 → 30 + 2 * s.me.val ≤ n →
      s.deltaReady = true → s.digestReady = false ∨ s.bus.lastClass3 ≠ some .delta → s.bus.delta = none →
      (∃ r h x, r ∈ s.journal.carried ∧ r.sent = false ∧ r.slot = some h ∧ s.table.slot h = some x
        ∧ x.entry.pending = some r.seq ∧ x.intact = false) →
      ∃ t h x, exec (.transmitStart n) s = .next t ∧ s.table.slot h = some x ∧ x.intact = false
        ∧ failed s t 6 (bucketOfHandle h) ∧ t.port.responses = s.port.responses) ∧
    (∀ h x, s.table.find? (fun y => y.2.entry.pending.isSome && !y.2.intact) = some (h, x) →
      let clearFails (i : Instr) (t : State) : Prop :=
        exec i s = .next t ∧ t.port.responses = s.port.responses
          ∧ failed { s with recon.synced := t.recon.synced } t 6 (bucketOfHandle h)
      (s.journal.stallTimer = true →
        ∃ t, clearFails .stallTimerExpiry t ∧ t.recon.synced = s.recon.synced ∧ t.port.flags.getLsbD 8 = true) ∧
      (∀ p, (s.peer p).deadTimer = true → s.presentPartner = some p →
        ∃ t, clearFails (.deadTimerExpiry p) t ∧ t.recon.synced = Four.all false
          ∧ ((t.peer p).state = .lost ∧ t.port.flags.getLsbD 5 = true)) ∧
      (∀ p b, s.takesFrames = true → p ≠ s.me →
        ∃ t, exec (.beaconFrame p b) s = .next t
          ∧ (s.presentPartner.isSome = true → t.presentPartner ≠ s.presentPartner →
              clearFails (.beaconFrame p b) t ∧ t.recon.synced = Four.all false
                ∧ ((∃ q, (t.peer q).state ≠ (s.peer q).state) → t.port.flags.getLsbD 5 = true))))

/-! ### The medium -/

/-- R117, R120, R113: a start, its gap, and the frame that a start of class 1 or 2 takes. That the command's operand is the
idle time to be held against the gap, and that a start ends what began in SETUP, are the model's choices (logs 10 and 36). -/
def Obligations.StartsTakeTheSelectedFrame : Prop :=
  ∀ (n : Nat) (s : State), s.phase = .running → s.life.active = true → s.bus.transmitting = none →
    let sends (p : Payload) (u : State) : Prop :=
      exec (.transmitStart n) s = .next { u with
        bus.deferred := false, bus.straddling := false, bus.transmitting := some ⟨p, true⟩ }
    (s.readyClass = none → exec (.transmitStart n) s = .next s) ∧
    (∀ c, s.readyClass = some c → n < 10 * c + 2 * s.me.val → exec (.transmitStart n) s = .next s) ∧
    (10 + 2 * s.me.val ≤ n →
      (∀ f rest, s.bus.control = f :: rest → sends (controlPayload f) s) ∧
      (∀ b, s.bus.control = [] → s.bus.beaconSlot = some b → sends (.beacon b) s)) ∧
    (20 + 2 * s.me.val ≤ n → s.bus.control = [] → s.bus.beaconSlot = none →
      (∀ q, s.bus.receiptSlot = some q → sends (.receipt q) s) ∧
      (∀ f, s.bus.receiptSlot = none → s.bus.fetch = some f → sends (.fetch f) s) ∧
      (∀ f, s.bus.receiptSlot = none → s.bus.fetch = none → s.recon.fetch = some f →
        sends (.fetch f) { s with bus.fetch := some f, recon.fetch := none }) ∧
      (∀ o rest, s.bus.receiptSlot = none → s.bus.fetch = none → s.recon.fetch = none → s.bus.relays = o :: rest →
        sends (.relay o) s))

/-- R86, R87, R111, R120: the start of a class 3 frame, and the composition of a DELTA. That the command's operand is the idle
time to be held against the gap, and that a start ends what began in SETUP, are the model's choices (logs 10 and 36). -/
def Obligations.DeltasAreComposed : Prop :=
  ∀ (n : Nat) (s : State), s.phase = .running → s.life.active = true → s.bus.transmitting = none →
    s.readyClass = some 3 → 30 + 2 * s.me.val ≤ n →
    let sends (p : Payload) (u : State) : Prop :=
      exec (.transmitStart n) s = .next { u with
        bus.deferred := false, bus.straddling := false, bus.transmitting := some ⟨p, true⟩ }
    let start := (s.journal.sendPoint - s.journal.oldest).toNat
    let carry (k : Nat) : Delta :=
      ⟨s.journal.oldest, ((s.journal.records.drop start).take k).map JournalRecord.wire⟩
    (s.deltaReady = true → s.digestReady = false ∨ s.bus.lastClass3 ≠ some .delta →
      (∀ d, s.bus.delta = some d → sends (.delta d) s) ∧
      (s.bus.delta = none → s.journal.ordered → (∀ h x, s.table.slot h = some x → x.intact = true) →
        ∃ t k, exec (.transmitStart n) s = .next t ∧ 1 ≤ k ∧ k ≤ 8 ∧ start + k ≤ s.journal.records.length
          ∧ (payloadBytes (.delta (carry k))).length ≤ 960
          ∧ (k < 8 → start + k < s.journal.records.length → 960 < (payloadBytes (.delta (carry (k + 1)))).length)
          ∧ t.bus = { s.bus with
              deferred := false, straddling := false, delta := some (carry k)
              transmitting := some ⟨.delta (carry k), true⟩ }
          ∧ t.journal = { s.journal with
              records := t.journal.records
              sendPoint := s.journal.sendPoint + BitVec.ofNat 32 k
              receiptTimer := true
              stallTimer := true }
          ∧ (∀ i : Nat, t.journal.records[i]? = s.journal.records[i]?.map fun r =>
              { r with sent := r.sent || decide (i < start + k) })
          ∧ (∀ h, t.entryAt h = (s.entryAt h).map fun e =>
              if ((s.journal.records.drop start).take k).any
                fun r => !r.sent && decide (r.slot = some h ∧ e.pending = some r.seq)
              then { e with pending := none } else e)
          ∧ t = { s with journal := t.journal, table := t.table, bus := t.bus })) ∧
    (s.digestReady = true → s.deltaReady = false ∨ s.bus.lastClass3 = some .delta →
      (∀ d, s.bus.digest = some d → sends (.digest d) s) ∧
      (∀ d, s.bus.digest = none → s.recon.ready = some d → sends (.digest d) { s with bus.digest := some d }))

/-- R117, R118, R120, R121, R144, R145: a deferral, the end of a transmission of every kind, of one whose frame no longer
stands in its slot or queue too, and a collision. That a start heard in SETUP is noted for R181 is the model's choice
(log 36); that the transmission of a frame that was replaced or withdrawn goes on, and leaves the newer one in place, is log 39
(DEDUCED), and that a claim wait starts only for the claim still in progress is log 29 (DEDUCED). -/
def Obligations.TransmissionsEnd : Prop :=
  ∀ s : State, s.phase = .running →
    (∀ c, s.contends = some c → exec .defer s = .next { s with bus.deferred := true }) ∧
    (s.life = .setup → exec .defer s = .next { s with bus.straddling := true }) ∧
    (∀ p, s.bus.transmitting = some ⟨p, false⟩ → exec .transmitted s = .next { s with
      bus.transmitting := none, bus.collisions := 0
      bus.lastClass3 := match p with
        | .delta _ => some .delta
        | .digest _ => some .digest
        | _ => s.bus.lastClass3 }) ∧
    (∀ c, s.bus.transmitting = some ⟨.contest c, true⟩ → exec .transmitted s = .next { s with
      bus.control := s.bus.control.tail, bus.transmitting := none, bus.collisions := 0 }) ∧
    (∀ y, s.bus.transmitting = some ⟨.yield y, true⟩ → exec .transmitted s = .next { s with
      bus.control := s.bus.control.tail, bus.transmitting := none, bus.collisions := 0 }) ∧
    (∀ f, s.bus.transmitting = some ⟨.fetch f, true⟩ → exec .transmitted s = .next { s with
      bus.fetch := none, bus.transmitting := none, bus.collisions := 0 }) ∧
    (∀ c, s.bus.transmitting = some ⟨.claim c, true⟩ →
      (s.group c.group).state ≠ .claiming ∨ (s.group c.group).claimEpoch ≠ some c.epoch →
      exec .transmitted s = .next { s with
        bus.control := s.bus.control.tail, bus.transmitting := none, bus.collisions := 0 }) ∧
    (∀ b, s.bus.transmitting = some ⟨.beacon b, true⟩ → exec .transmitted s = .next { s with
      bus.beaconSlot := none, bus.transmitting := none, bus.collisions := 0 }) ∧
    (∀ c, s.bus.transmitting = some ⟨.claim c, true⟩ → (s.group c.group).state = .claiming →
      (s.group c.group).claimEpoch = some c.epoch →
      exec .transmitted s = .next { s with
        own.groups := s.own.groups.set c.group { s.group c.group with claimWait := true }
        bus.control := s.bus.control.tail, bus.transmitting := none, bus.collisions := 0 }) ∧
    (∀ q, s.bus.transmitting = some ⟨.receipt q, true⟩ → exec .transmitted s = .next { s with
      bus.receiptSlot := none, bus.transmitting := none, bus.collisions := 0 }) ∧
    (∀ o, s.bus.transmitting = some ⟨.relay o, true⟩ → exec .transmitted s = .next { s with
      bus.relays := s.bus.relays.tail, bus.transmitting := none, bus.collisions := 0 }) ∧
    (∀ d, s.bus.transmitting = some ⟨.delta d, true⟩ → exec .transmitted s = .next { s with
      bus.delta := none, bus.transmitting := none, bus.collisions := 0, bus.lastClass3 := some .delta }) ∧
    (∀ d, s.bus.transmitting = some ⟨.digest d, true⟩ → exec .transmitted s = .next { s with
      bus.digest := none, recon.ready := none
      bus.transmitting := none, bus.collisions := 0, bus.lastClass3 := some .digest }) ∧
    (∀ x, s.bus.transmitting = some x → s.bus.collisions < 15 → exec .collision s = .next { s with
      bus.transmitting := none, bus.collisions := s.bus.collisions + 1 }) ∧
    (∀ x, s.bus.transmitting = some x → s.bus.collisions = 15 → kindCode x.payload ≠ 0x02 →
      ∃ u, exec .transmitted s = .next u ∧ exec .collision s = .next { u with
        port.flags := raiseFlag .bus s.port.flags
        port.busCapture := recordIn s.port.busCapture
          { kind := 0x06, source := stationByte s.me, item := kindCode x.payload,
            second := firstSequence x.payload } }) ∧
    (∀ c, s.bus.transmitting = some ⟨.claim c, true⟩ → s.bus.collisions = 15 →
      (s.group c.group).state = .claiming →
      let discarded := recordIn s.port.busCapture { kind := 0x06, source := stationByte s.me, item := 0x02, second := 0 }
      ∃ t, exec .collision s = .next t ∧ t.bus.transmitting = none ∧ t.bus.collisions = 0
        ∧ t.port.flags = raiseFlag .bus s.port.flags
        ∧ (s.bus.control.length ≤ 1 → t.port.busCapture = discarded)
        ∧ (∀ k, discarded = some k →
            ∃ m, t.port.busCapture = some { k with more := m } ∧ (k.more = true → m = true))
        ∧ (t.group c.group).state = .vacant ∧ (t.group c.group).owner = none
        ∧ (t.group c.group).claimEpoch = none ∧ (t.group c.group).backoff = true
        ∧ t = { s with
            own.groups := t.own.groups, bus.control := t.bus.control, bus.transmitting := none, bus.collisions := 0
            recon.synced := t.recon.synced, port.flags := t.port.flags, port.busCapture := t.port.busCapture })

/-- R119, R128, R129, R181, R191: a transmission that fails its validation; one that a station in SETUP or FAULT hears, or
that began in SETUP (as log 36 has it); and a valid frame that bears this station's own number, with a REJOIN in progress
too. -/
def Obligations.InvalidAndDuplicateFrames : Prop :=
  ∀ s : State, s.phase = .running →
    let frame (i : Instr) (p : Station) (kind : Byte) : Prop :=
      (∃ b, i = .beaconFrame p b ∧ kind = 0x01) ∨ (∃ c, i = .claimFrame p c ∧ kind = 0x02)
        ∨ (∃ c, i = .contestFrame p c ∧ kind = 0x03) ∨ (∃ y, i = .yieldFrame p y ∧ kind = 0x04)
        ∨ (∃ q, i = .receiptFrame p q ∧ kind = 0x05) ∨ (∃ f, i = .fetchFrame p f ∧ kind = 0x06)
        ∨ (∃ o, i = .relayFrame p o ∧ kind = 0x07) ∨ (∃ d, i = .deltaFrame p d ∧ kind = 0x08)
        ∨ (∃ d, i = .digestFrame p d ∧ kind = 0x09)
    (∀ bytes fault source kind, s.takesFrames = true → hear bytes = .invalid fault source kind →
      exec (.invalidFrame bytes) s = .next { s with
        port.flags := raiseFlag .bus s.port.flags
        port.busCapture := recordIn s.port.busCapture { kind := fault, source := source, item := kind } }) ∧
    (∀ i p kind, (frame i p kind ∨ ∃ bytes, i = .invalidFrame bytes) →
      (s.bus.straddling = true → exec i s = .next { s with bus.straddling := false }) ∧
      (s.bus.straddling = false → s.life.active = false → exec i s = .next s)) ∧
    (∀ i kind, s.takesFrames = true → frame i s.me kind →
      ∃ t, exec i s = .next t ∧ t.life = .fault ∧ t.presence.faultKind = .duplicate
        ∧ t.presence.heldAtFault = s.heldSet ∧ t.atRest ∧ t.presence.cause = s.presence.cause
        ∧ t.port.busCapture = recordIn s.port.busCapture { kind := 0x05, source := stationByte s.me, item := kind }
        ∧ t.port.flags.getLsbD 15 = true ∧ t.port.flags.getLsbD 16 = true ∧ t.port.requests = s.port.requests
        ∧ t.engine.inProgress = none
        ∧ (s.engine.inProgress = none → t.port.responses = s.port.responses)
        ∧ ∀ tag, s.engine.inProgress = some tag →
            t.port.responses = s.port.responses ++ [{ kind := 0x22, tag := tag, status := .faulted }])

/-! ### Presence -/

/-- R131, R133, R134, R138, R183: what a BEACON makes of the presence records, the designation and the station state; R92,
R109: the end of the partner's presence by a moved designation; and R141, R142, R145, R155, R157 for each group where no third
station shows it held: a holder is followed, an owner is lost, a claim gives way, a yield is given up, a dual ownership is
resolved. Where preemption would run on at once from a HOLDING kept or resumed here (R154, a delay of 0), the clause of that
HOLDING says nothing. That the partner of R134 is the one designated before
the BEACON is the model's choice (log 40). A BEACON that ends the presence of a partner while a slot with a pending mark fails
its check bits enters FAULT (`IntegrityFailureEntersFault`, log 20). -/
def Obligations.BeaconsUpdateTheRecord : Prop :=
  ∀ (p : Station) (b : Beacon) (s : State), s.phase = .running → s.takesFrames = true → p ≠ s.me →
    ∃ t, exec (.beaconFrame p b) s = .next t ∧
      (s.presentPartner = none ∨ t.presentPartner = s.presentPartner ∨
        (∀ x, x ∈ s.table → x.2.entry.pending.isSome = true → x.2.intact = true) →
      let standing (q : Station) : Prop :=
        (t.peer q).state = .present ∨ (t.peer q).state = .lost ∨ (t.peer q).state = .surplus
      let candidate (role : Role) (q : Station) : Prop := (t.peer q).role = some role ∧ standing q
      let lowest (role : Role) (q : Station) : Prop := candidate role q ∧ ∀ q', q' < q → ¬ candidate role q'
      let designated (q : Station) : Prop :=
        t.presence.partner = some q ∨ t.presence.witness = some q ∨ t.presence.watched.get q = true
      let ended : Prop := s.presentPartner.isSome = true ∧ t.presentPartner ≠ s.presentPartner
      let runsOn (g : GroupId) : Prop := s.port.setup.preempt.get g = true ∧ s.port.setup.preemptDelay.get g = 0
      (s.presence.fingerprint ≠ some b.fingerprint →
          t.peer p = ⟨.mismatched, some b.role, true, (s.peer p).lastBeacon⟩)
      ∧ (s.presence.fingerprint = some b.fingerprint →
          ((t.peer p).state = .present ↔ designated p)
          ∧ ((t.peer p).state = .present ∨ (t.peer p).state = .surplus)
          ∧ (t.peer p).role = some b.role ∧ (t.peer p).deadTimer = true ∧ (t.peer p).lastBeacon = some b)
      ∧ (∀ q, q ≠ p → (t.peer q).role = (s.peer q).role ∧ (t.peer q).deadTimer = (s.peer q).deadTimer
          ∧ (t.peer q).lastBeacon = (s.peer q).lastBeacon
          ∧ ((s.peer q).state = .absent ∨ (s.peer q).state = .mismatched → t.peer q = s.peer q)
          ∧ ((s.peer q).state ≠ .absent → (s.peer q).state ≠ .mismatched → standing q))
      ∧ (∀ q, standing q →
          (t.peer q).state = if (t.peer q).deadTimer = false then .lost
            else if designated q then .present else .surplus)
      ∧ (s.straps.role = .firewall → ∀ q,
          (t.presence.partner = some q ↔ lowest .firewall q) ∧ (t.presence.witness = some q ↔ lowest .witness q)
          ∧ t.presence.watched.get q = false)
      ∧ (s.straps.role = .witness → t.presence.partner = none ∧ t.presence.witness = none ∧
          ∀ q, t.presence.watched.get q = true ↔ candidate .firewall q ∧
            ∀ a b, a < b → b < q → candidate .firewall a → ¬ candidate .firewall b)
      ∧ (ended → t.journal = ⟨[], s.journal.next, s.journal.next, s.journal.next, false, false⟩
          ∧ t.recon.synced = Four.all false
          ∧ ∀ k, t.entryAt k = (s.entryAt k).map fun e => { e with pending := none })
      ∧ (¬ ended → t.table = s.table ∧ (t.presentPartner ≠ some p → t.journal = s.journal))
      ∧ (s.life = .listen → t.life = .listen)
      ∧ (s.life ≠ .listen → t.life = if countPresent t.presence.records = 0 then .isolated else .member)
      ∧ (s.straps.role = .firewall → s.quorumPresent ≠ t.quorumPresent → t.port.flags.getLsbD 4 = true)
      ∧ (t.port.flags.getLsbD 5 = true ↔ s.port.flags.getLsbD 5 = true
          ∨ (∃ q, (t.peer q).state ≠ (s.peer q).state)
          ∨ (s.presence.partner = some p ∧ s.presence.fingerprint = some b.fingerprint
              ∧ ∃ old, (s.peer p).lastBeacon = some old ∧ old.heard.get s.me ≠ b.heard.get s.me))
      ∧ (∀ g, (t.peer p).state = .present →
          (∀ q, q ≠ p → (t.peer q).state = .present → (t.peer q).showsHeld g = false) →
          let r := s.group g
          let x := b.groups.get g
          let follows : Prop := (t.group g).state = .following ∧ (t.group g).owner = some p
            ∧ (t.group g).epoch = serialMax r.epoch x.epoch
          let mayHold : Prop := s.straps.role = .firewall ∧ (t.life = .member ∨ t.life = .isolated)
            ∧ s.port.isSealed = true ∧ s.port.setup.groups.get g = true ∧ r.health ≠ 0 ∧ r.hold = false
            ∧ s.port.lapsed = false ∧ t.quorumPresent = true
          (r.state = .vacant ∨ r.state = .following → x.state.held = true → follows) ∧
          (r.state = .following → r.owner = some p → keepsOwner x.state = false →
            (t.group g).owner = none ∧ ((t.group g).state = .vacant ∨ (t.group g).state = .claiming)
              ∧ (t.group g).epoch = serialMax r.epoch x.epoch ∧ t.recon.synced.get g = false) ∧
          (∀ e, r.state = .claiming → r.claimEpoch = some e → x.state.held = true → serialBefore x.epoch e = false →
            follows ∧ (t.group g).claimEpoch = none ∧ (t.group g).backoff = true
              ∧ ∀ c, .claim c ∈ t.bus.control → c.group ≠ g) ∧
          (s.holds g = true → x.state.held = true →
            t.port.flags.getLsbD 3 = true ∧
            (standingHigher x.epoch ⟨x.priority, x.health, p⟩ r.epoch (s.precedence g) = true →
              follows ∧ t.drive g = false ∧ (t.group g).adoptionOpen = false ∧ t.port.flags.getLsbD 2 = true) ∧
            (standingHigher x.epoch ⟨x.priority, x.health, p⟩ r.epoch (s.precedence g) = false →
              r.state = .holding → ¬ runsOn g →
              (t.group g).state = .holding ∧ (t.group g).epoch = r.epoch ∧ (t.group g).adoptionOpen = true
                ∧ (t.group g).adoptionTimer = true)) ∧
          (r.state = .yielding → r.successor = some p → x.state.held = false → x.eligible = false →
            (mayHold → ¬ runsOn g → (t.group g).state = .holding ∧ (t.group g).owner = some s.me
              ∧ (t.group g).tenure = some .resumed ∧ (t.group g).adoptionOpen = true
              ∧ t.port.flags.getLsbD 1 = true) ∧
            (¬ mayHold → (t.group g).state = .vacant ∧ (t.group g).owner = none ∧ (t.group g).backoff = true
              ∧ t.drive g = false ∧ t.port.flags.getLsbD 2 = true)))
      ∧ t = { s with
          table := t.table, xlate := t.xlate, journal := t.journal, receive.expectation := t.receive.expectation
          receive.want := t.receive.want, receive.needSince := t.receive.needSince
          recon := { t.recon with digestTimer := s.recon.digestTimer, sweep := s.recon.sweep }
          bus.control := t.bus.control, bus.transmitting := t.bus.transmitting, bus.digest := t.bus.digest
          presence.records := t.presence.records, presence.partner := t.presence.partner
          presence.witness := t.presence.witness, presence.watched := t.presence.watched
          presence.life := t.presence.life
          own.groups := t.own.groups, own.quorumTimer := t.own.quorumTimer
          port.flags := t.port.flags, port.busCapture := t.port.busCapture })

/-- R98, R88, R89, R91 and R106: what a BEACON of the partner brings to the expectation, to the journal and to a pass. That a
receipt at exactly half the range from the oldest held is ignored is log 17 (DEDUCED), the model's reading. (A BEACON that
ends the presence of another partner while a slot with a pending mark fails its check bits enters FAULT instead:
`IntegrityFailureEntersFault`, log 20.) -/
def Obligations.PartnerBeaconsMoveTheExpectation : Prop :=
  ∀ (p : Station) (b : Beacon) (s : State), s.phase = .running → s.takesFrames = true → p ≠ s.me →
    ∃ t, exec (.beaconFrame p b) s = .next t ∧ (t.presentPartner = some p →
      (s.presentPartner = none ∨ s.presentPartner = some p ∨
        ∀ x, x ∈ s.table → x.2.entry.pending.isSome = true → x.2.intact = true) →
      let before := if s.presentPartner = some p then s.receive.expectation else none
      let sets (q : Seq) : Prop :=
        t.receive.expectation = some q ∧ t.receive.want = true ∧ t.receive.needSince = some q
      (before = none → sets b.next) ∧
      (∀ x, before = some x → serialBefore b.next x = true → sets b.next) ∧
      (∀ x, before = some x → serialBefore b.next x = false → serialBefore x b.oldest = true → sets b.oldest) ∧
      (∀ x, before = some x → serialBefore b.next x = false → serialBefore x b.oldest = false →
        t.receive.expectation = some x ∧ t.receive.want = s.receive.want
          ∧ t.receive.needSince = s.receive.needSince) ∧
      (∀ n, s.presentPartner = some p → b.receipt = some n → s.journal.ordered →
        let sentEnd : Seq := match (s.journal.records.filter (·.sent)).getLast? with
          | some x => x.seq + 1
          | none => s.journal.oldest
        let ignored : Prop := serialBefore n s.journal.oldest = true ∨ serialBefore sentEnd n = true
          ∨ n = s.journal.oldest + 0x80000000
        let kept := s.journal.records.drop (n - s.journal.oldest).toNat
        (ignored → t.journal = s.journal) ∧
        (¬ ignored → t.journal = { s.journal with
          records := kept, oldest := n, sendPoint := n
          stallTimer := if n = s.journal.oldest then s.journal.stallTimer else kept.any (·.sent) })) ∧
      (∀ n, s.presentPartner = some p → b.want = true → b.needSince = some n → s.recon.passRunning = false →
        (∀ l, s.recon.lastCompleted = some l → serialBefore l n = true) →
        t.recon.passRunning = true ∧ t.recon.resend = allBuckets))

/-! ### Ownership frames -/

/-- R148: a firewall judges a CLAIM by its state for the group; one that it answers or that is of no later epoch changes
nothing in the group record. (The timer of a foreign line, R160, and a claim of this station's own, R143, follow their own
conditions.) -/
def Obligations.FirewallsJudgeClaims : Prop :=
  ∀ (p : Station) (c : Claim) (s : State), s.phase = .running → s.takesFrames = true → p ≠ s.me →
    (s.peer p).state = .present → s.straps.role = .firewall →
    let r := s.group c.group
    let answered (t : State) (reason : ContestReason) : Prop :=
      .contest ⟨c.group, c.epoch, p, reason, r.epoch⟩ ∈ t.bus.control
    let unchanged (t : State) : Prop :=
      t.group c.group = { r with
        lineTimer := (t.group c.group).lineTimer, lineReported := (t.group c.group).lineReported }
    ∃ t, exec (.claimFrame p c) s = .next t
      ∧ (s.bus.control.length < 4 → r.state = .holding ∨ (r.state = .yielding ∧ r.successor ≠ some p) →
          answered t .ownerAlive)
      ∧ (r.state = .holding ∨ (r.state = .yielding ∧ r.successor ≠ some p) ∨ r.state = .disabled → unchanged t)
      ∧ (r.state = .vacant ∨ r.state = .following ∨ (r.state = .yielding ∧ r.successor = some p) →
          serialBefore r.epoch c.epoch = true →
          (t.group c.group).state = .following ∧ (t.group c.group).owner = some p
            ∧ (t.group c.group).epoch = c.epoch)
      ∧ (r.state = .yielding → r.successor = some p → serialBefore r.epoch c.epoch = true →
          t.drive c.group = false ∧ (t.group c.group).adoptionOpen = false ∧ (t.group c.group).drain = false
            ∧ (t.group c.group).tenure = none ∧ (t.xlate.get c.group).quarantine = []
            ∧ t.port.flags.getLsbD 2 = true)
      ∧ (r.state = .following ∨ (r.state = .yielding ∧ r.successor = some p)
            ∨ (r.state = .vacant ∧ s.mayClaim c.group = false) →
          serialBefore r.epoch c.epoch = false → unchanged t)
      ∧ (r.state = .vacant → serialBefore r.epoch c.epoch = false → (t.group c.group).epoch = r.epoch
          ∧ ((t.group c.group).state = .vacant ∨ (t.group c.group).state = .claiming))
      ∧ (∀ e, r.state = .claiming → r.claimEpoch = some e →
          standingHigher c.epoch ⟨c.priority, c.health, p⟩ e (s.precedence c.group) = true →
          (t.group c.group).state = .following ∧ (t.group c.group).owner = some p
            ∧ (t.group c.group).claimEpoch = none ∧ (t.group c.group).claimWait = false
            ∧ (t.group c.group).backoff = true ∧ (t.group c.group).epoch = serialMax r.epoch c.epoch
            ∧ ∀ x, .claim x ∈ t.bus.control → x.group ≠ c.group)
      ∧ (∀ e, r.state = .claiming → r.claimEpoch = some e → s.bus.control.length < 4 →
          standingHigher c.epoch ⟨c.priority, c.health, p⟩ e (s.precedence c.group) = false →
          answered t .higherClaim)
      ∧ t = { s with
          own.groups := t.own.groups, own.quorumTimer := t.own.quorumTimer
          bus := t.bus, recon.synced := t.recon.synced, xlate := t.xlate
          port.flags := t.port.flags, port.busCapture := t.port.busCapture }

/-- R149: a witness judges a CLAIM by the first rule that holds. -/
def Obligations.WitnessesJudgeClaims : Prop :=
  ∀ (p : Station) (c : Claim) (s : State), s.phase = .running → s.takesFrames = true → p ≠ s.me →
    (s.peer p).state = .present → s.straps.role = .witness → s.bus.control.length < 4 →
    (∀ g, (s.group g).state ≠ .claiming) →
    let r := s.group c.group
    let note : ClaimNote := ⟨p, c.epoch, ⟨c.priority, c.health, p⟩⟩
    let heldElsewhere : Prop :=
      ∃ q, q ≠ p ∧ (s.peer q).state = .present ∧ (s.peer q).showsHeld c.group = true
        ∧ ¬ (c.cause = .yielded ∧ r.yieldNote = some ⟨q, p, c.epoch - 1⟩)
    let outranks : Prop :=
      c.epoch = r.epoch ∧ ∃ n, r.claimNote = some n ∧ n.claimant ≠ p ∧ n.epoch = c.epoch
        ∧ Precedence.higher ⟨c.priority, c.health, p⟩ n.precedence = true
    let contested (t : State) (reason : ContestReason) : Prop :=
      t.bus.control = s.bus.control ++ [.contest ⟨c.group, c.epoch, p, reason, r.epoch⟩]
        ∧ (t.group c.group).owner = r.owner ∧ (t.group c.group).epoch = r.epoch
        ∧ (t.group c.group).claimNote = r.claimNote
    ∃ t, exec (.claimFrame p c) s = .next t
      ∧ (r.state = .disabled → t.bus = s.bus ∧ (t.group c.group).owner = r.owner
          ∧ (t.group c.group).epoch = r.epoch ∧ (t.group c.group).claimNote = r.claimNote)
      ∧ (r.state ≠ .disabled → heldElsewhere → contested t .ownerAlive)
      ∧ (r.state ≠ .disabled → ¬ heldElsewhere → outranks → t.bus = s.bus
          ∧ (t.group c.group).owner = some p ∧ (t.group c.group).claimNote = some note
          ∧ (t.group c.group).epoch = r.epoch)
      ∧ (r.state ≠ .disabled → ¬ heldElsewhere → ¬ outranks → serialBefore r.epoch c.epoch = false →
          contested t .staleEpoch)
      ∧ (r.state ≠ .disabled → ¬ heldElsewhere → ¬ outranks → serialBefore r.epoch c.epoch = true →
          t.bus = s.bus ∧ (t.group c.group).state = .following ∧ (t.group c.group).owner = some p
            ∧ (t.group c.group).epoch = c.epoch ∧ (t.group c.group).claimNote = some note)
      ∧ t = { s with own.groups := t.own.groups, bus := t.bus, recon.synced := t.recon.synced }

/-- R150: a CONTEST that names this station's claim abandons it, whatever the reason; any other is ignored. -/
def Obligations.ContestsAbandonClaims : Prop :=
  ∀ (p : Station) (c : Contest) (s : State), s.phase = .running → s.takesFrames = true → p ≠ s.me →
    (s.peer p).state = .present →
    let r := s.group c.group
    (c.claimant = s.me → r.state = .claiming → r.claimEpoch = some c.epoch →
      ∃ t, exec (.contestFrame p c) s = .next t
        ∧ (t.group c.group).state = .vacant ∧ (t.group c.group).owner = none
        ∧ (t.group c.group).claimEpoch = none ∧ (t.group c.group).claimWait = false
        ∧ (t.group c.group).handoverNote = none ∧ (t.group c.group).backoff = true
        ∧ (t.group c.group).epoch = serialMax r.epoch c.known
        ∧ (∀ x, .claim x ∈ t.bus.control → x.group ≠ c.group)
        ∧ (∀ reason, exec (.contestFrame p { c with reason := reason }) s = .next t)
        ∧ t = { s with
            own.groups := t.own.groups, bus := t.bus, recon.synced := t.recon.synced
            port.flags := t.port.flags, port.busCapture := t.port.busCapture }) ∧
    (c.claimant ≠ s.me ∨ r.state ≠ .claiming ∨ r.claimEpoch ≠ some c.epoch →
      exec (.contestFrame p c) s = .next s)

/-- R156, R175: a YIELD at the successor it names, a firewall or a witness, at any other witness, and elsewhere; and R147: a
CLAIM, CONTEST or YIELD of a source whose presence record is not PRESENT. -/
def Obligations.YieldsHandOver : Prop :=
  (∀ (p : Station) (s : State), s.phase = .running → s.takesFrames = true → p ≠ s.me →
    (s.peer p).state ≠ .present →
    (∀ c, exec (.claimFrame p c) s = .next s) ∧ (∀ c, exec (.contestFrame p c) s = .next s) ∧
    ∀ y, exec (.yieldFrame p y) s = .next s) ∧
  ∀ (p : Station) (y : Yield) (s : State), s.phase = .running → s.takesFrames = true → p ≠ s.me →
    (s.peer p).state = .present →
    let r := s.group y.group
    let acts : Prop := y.successor = s.me ∧ (r.state = .following ∨ r.state = .vacant)
    (s.straps.role = .witness → acts → exec (.yieldFrame p y) s = .next { s with
      own.groups := s.own.groups.set y.group { r with
        epoch := serialMax r.epoch y.epoch, yieldNote := some ⟨p, y.successor, y.epoch⟩ } }) ∧
    (s.straps.role = .witness → ¬ acts → exec (.yieldFrame p y) s = .next { s with
      own.groups := s.own.groups.set y.group { r with yieldNote := some ⟨p, y.successor, y.epoch⟩ } }) ∧
    (s.straps.role = .firewall → ¬ acts → exec (.yieldFrame p y) s = .next s) ∧
    (s.straps.role = .firewall → acts →
      ∃ t, exec (.yieldFrame p y) s = .next t ∧ (t.group y.group).epoch = serialMax r.epoch y.epoch
        ∧ (s.eligible y.group = true → s.bus.control.length < 4 →
            (t.group y.group).state = .claiming ∧ (t.group y.group).owner = none
              ∧ (t.group y.group).claimEpoch = some (y.epoch + 1) ∧ (t.group y.group).backoff = false
              ∧ (t.group y.group).claimWait = false ∧ (t.group y.group).handoverNote = some y.drained
              ∧ .claim ⟨y.group, y.epoch + 1, .yielded, s.port.setup.priority.get y.group, r.health⟩
                  ∈ t.bus.control)
        ∧ (s.eligible y.group = false →
            (t.group y.group).state = r.state ∧ (t.group y.group).owner = r.owner)
        ∧ t = { s with
            own.groups := t.own.groups, bus := t.bus, recon.synced := t.recon.synced
            port.flags := t.port.flags, port.busCapture := t.port.busCapture })

/-! ### Replication -/

/-- R88, R89, R91, R172, R173: a RECEIPT frame. That one at exactly half the range from the oldest held is ignored is log 17
(DEDUCED), the model's reading. -/
def Obligations.ReceiptsAreJudged : Prop :=
  ∀ (p : Station) (n : Seq) (s : State), s.phase = .running → s.takesFrames = true → p ≠ s.me →
    (s.presentPartner ≠ some p → exec (.receiptFrame p n) s = .next s) ∧
    let sentEnd : Seq := match (s.journal.records.filter (·.sent)).getLast? with
      | some x => x.seq + 1
      | none => s.journal.oldest
    let ignored : Prop := serialBefore n s.journal.oldest = true ∨ serialBefore sentEnd n = true
      ∨ n = s.journal.oldest + 0x80000000
    (s.presentPartner = some p → s.journal.ordered → ignored → exec (.receiptFrame p n) s = .next s) ∧
    (s.presentPartner = some p → s.journal.ordered → ¬ ignored →
      ∃ t, exec (.receiptFrame p n) s = .next t
        ∧ t.journal = { s.journal with
            records := s.journal.records.drop (n - s.journal.oldest).toNat
            oldest := n
            sendPoint := n
            stallTimer := t.journal.stallTimer }
        ∧ (n = s.journal.oldest → t.journal.stallTimer = s.journal.stallTimer)
        ∧ (n ≠ s.journal.oldest → t.journal.stallTimer = t.journal.outstanding)
        ∧ (∀ g q, n ≠ s.journal.oldest → (s.group g).state = .yielding → (s.group g).successor = some q →
            (s.group g).drainSpoiled = false → t.journal.holdsGroup g = false → (s.peer q).showsSynced g = true →
            (t.group g).state = .following ∧ (t.group g).owner = some q ∧ t.port.flags.getLsbD 2 = true
              ∧ (s.bus.control = [] → .yield ⟨g, (s.group g).epoch, q, true⟩ ∈ t.bus.control))
        ∧ t = { s with
            journal := t.journal
            own.groups := t.own.groups, own.quorumTimer := t.own.quorumTimer
            bus := t.bus, recon.synced := t.recon.synced, xlate := t.xlate
            port.flags := t.port.flags, port.busCapture := t.port.busCapture })

/-- R81 to R83: an offered change, by the first case that applies. -/
def Obligations.OffersFollowTheirCases : Prop :=
  ∀ (h : Handle) (e : Entry) (s : State), s.entryAt h = some e →
    (s.holds e.group = false ∨ s.partnerPresent = false → offer h s = (s, none)) ∧
    (∀ q, s.holds e.group = true → s.partnerPresent = true → e.pending = some q →
      offer h s = ({ s with
        journal.records := s.journal.records.map fun r =>
          if r.seq = q then { r with body := .entry (contentOf s.clock.tick e) } else r
        table := s.table.put h ⟨{ e with confirmation := some (s.me, q) }, true⟩ }, some q)) ∧
    (s.holds e.group = true → s.partnerPresent = true → e.pending = none → 1024 ≤ s.journal.records.length →
      offer h s = ({ s with
        recon.resend := addBucket (bucketOfHandle h) s.recon.resend
        port.flags := raiseFlag .overflow s.port.flags }, none)) ∧
    (s.holds e.group = true → s.partnerPresent = true → e.pending = none → s.journal.records.length < 1024 →
      let q := s.journal.next
      offer h s = ({ s with
        journal.records := s.journal.records ++ [⟨q, false, .entry (contentOf s.clock.tick e), some h⟩]
        journal.next := q + 1
        table := s.table.put h ⟨{ e with confirmation := some (s.me, q), pending := some q }, true⟩ }, some q))

/-- R3, R93 to R97: a DELTA is accepted; its records are taken one at a time, up to one that waits in hand; and the taking
goes on after that one. That a record at exactly half the range from the expectation counts as a gap is log 19 (DEDUCED), that
a second frame is accepted while one waits and none is being taken is log 33 (DEDUCED), that the block of an offered record is
noted at the taking is log 37 (DEDUCED), that a frame ends without a receipt where the expectation has become unknown is log 38
(DEDUCED), and that the taking goes on by a DELTA_TAKE is the model's choice (log 45). -/
def Obligations.DeltasAreTaken : Prop :=
  let taken (s t : State) (source : Station) (records : List WireRecord) : Prop :=
    ∃ x, t.receive.expectation = some x
      ∧ (t.receive.taking = none → t.bus.receiptSlot = some x)
      ∧ (∀ k, t.receive.taking = some k → k.source = source ∧ k.rest <:+ records ∧ k.inHand = true
          ∧ t.bus.receiptSlot = s.bus.receiptSlot
          ∧ ∃ r, k.rest.head? = some r ∧ r.seq = x
            ∧ ∀ c, r.body = .entry c → s.holds c.group = false ∧ illFormed c.key = false
                ∧ ∀ q, c.translation = some q → (t.xlate.get c.group).lastSeen = some (blockOf q))
      ∧ t = { s with
          receive := t.receive, recon.synced := t.recon.synced, xlate := t.xlate, bus.receiptSlot := t.bus.receiptSlot
          bus.transmitting := t.bus.transmitting, port.flags := t.port.flags
          port.tableCapture := t.port.tableCapture }
  (∀ (p : Station) (d : Delta) (s : State), s.phase = .running → s.takesFrames = true → p ≠ s.me →
    (s.straps.role = .firewall → s.presentPartner = some p → s.receive.frames < 2 →
      exec (.deltaFrame p d) s = .next { s with receive.waiting := s.receive.waiting ++ [⟨p, d⟩] }) ∧
    (s.straps.role = .witness ∨ s.presentPartner ≠ some p ∨ 2 ≤ s.receive.frames →
      exec (.deltaFrame p d) s = .next s)) ∧
  (∀ (s : State) (d : AcceptedDelta) (rest : List AcceptedDelta), s.phase = .running →
    s.receive.taking = none → s.receive.waiting = d :: rest →
    let h := d.content.oldest
    let taking (u : State) : State :=
      { u with receive.waiting := rest, receive.taking := some ⟨d.source, d.content.records, false⟩ }
    let caughtUp : State := { s with
      receive.expectation := some h, receive.want := true, receive.needSince := some h
      recon.synced := Four.all false }
    ((∀ x₀, s.receive.expectation = some x₀ → serialBefore x₀ h = true) →
      exec .deltaTake s = exec .deltaTake (taking caughtUp)) ∧
    (∀ x₀, s.receive.expectation = some x₀ → serialBefore x₀ h = false →
      exec .deltaTake s = exec .deltaTake (taking s)) ∧
    ∃ t, exec .deltaTake s = .next t ∧ t.receive.waiting = rest
      ∧ ((∀ x₀, s.receive.expectation = some x₀ → serialBefore x₀ h = true) →
          t.receive.want = true ∧ t.receive.needSince = some h ∧ t.recon.synced = Four.all false
            ∧ taken s t d.source d.content.records)
      ∧ (∀ x₀, s.receive.expectation = some x₀ → serialBefore x₀ h = false →
          t.receive.want = s.receive.want ∧ t.receive.needSince = s.receive.needSince
            ∧ t.recon.synced = s.recon.synced ∧ taken s t d.source d.content.records)) ∧
  (∀ (s : State) (source : Station) (rest : List WireRecord), s.phase = .running →
    s.receive.taking = some ⟨source, rest, false⟩ →
    (s.receive.expectation = none → exec .deltaTake s = .next { s with receive.taking := none }) ∧
    (∀ x₀, s.receive.expectation = some x₀ →
      let goesOn (u : State) (records : List WireRecord) : Prop :=
        exec .deltaTake s = exec .deltaTake { u with receive.taking := some ⟨source, records, false⟩ }
      let counted : State := { s with receive.expectation := some (x₀ + 1) }
      let finished : Prop := exec .deltaTake s = .next { s with
        receive.taking := none
        bus.receiptSlot := some x₀
        bus.transmitting := s.bus.transmitting.map fun x =>
          if kindCode x.payload = 0x05 then { x with held := false } else x }
      (rest = [] → finished) ∧
      (∀ r later, rest = r :: later →
        let inHand : State := { s with receive.taking := some ⟨source, rest, true⟩ }
        (serialBefore r.seq x₀ = true → goesOn s later) ∧
        (serialBefore r.seq x₀ = false → r.seq ≠ x₀ → finished) ∧
        (r.seq = x₀ → (∀ c, r.body ≠ .entry c) → exec .deltaTake s = .next inHand) ∧
        (∀ c, r.seq = x₀ → r.body = .entry c →
          (illFormed c.key = true → goesOn { counted with
            port.flags := raiseFlag .table s.port.flags
            port.tableCapture := recordIn s.port.tableCapture
              { kind := 0x12, source := stationByte source, item := 0x01, second := r.seq } } later) ∧
          (illFormed c.key = false → s.holds c.group = true → goesOn counted later) ∧
          (illFormed c.key = false → s.holds c.group = false →
            (c.translation = none → exec .deltaTake s = .next inHand) ∧
            (∀ q, c.translation = some q → exec .deltaTake s = .next { inHand with
              xlate := s.xlate.set c.group
                { s.xlate.get c.group with lastSeen := some (blockOf q) } })))) ∧
      ∃ t, exec .deltaTake s = .next t ∧ taken s t source rest ∧ t.receive.waiting = s.receive.waiting
        ∧ t.receive.want = s.receive.want ∧ t.receive.needSince = s.receive.needSince
        ∧ t.recon.synced = s.recon.synced)) ∧
  ∀ (s : State) (k : Taking), s.phase = .running → s.receive.taking = some k → k.inHand = true →
    exec .deltaTake s = .next s

/-- R13, R15, R16, R18, R21, R23, R68, R95: the join of the ENTRY record in hand, by its incarnation; the insertion into a
bucket with a free way or without one; and the displacement of an entry that holds the record's port. That a record is joined
also where its group has come to be held since it was taken is log 18 (DEDUCED); that the next record of the frame is then not
yet in hand, so that other clients may be granted before its join (R25), is by log 45 (DESIGN CHOICE): the model's choices. -/
def Obligations.JoinsByIncarnation : Prop :=
  ∀ (s : State) (src : Station) (r : WireRecord) (rest : List WireRecord) (c : EntryContent),
    s.phase = .running → s.life.active = true → s.receive.taking = some ⟨src, r :: rest, true⟩ → r.body = .entry c →
    s.table.sound (bucketOf c.key) = true →
    let b := bucketOf c.key
    let ends (t : State) : Prop :=
      exec .entryJoin s = .next t
        ∧ t.receive.expectation = (if s.receive.expectation = some r.seq then some (r.seq + 1)
            else s.receive.expectation)
        ∧ (rest = [] → t.receive.taking = none ∧ ∀ x, t.receive.expectation = some x → t.bus.receiptSlot = some x)
        ∧ (rest ≠ [] → t.receive.taking = some ⟨src, rest, false⟩ ∧ t.bus = s.bus)
        ∧ t = { s with
            table := t.table, xlate := t.xlate, journal := t.journal, receive.taking := t.receive.taking
            receive.expectation := t.receive.expectation
            bus.receiptSlot := t.bus.receiptSlot, bus.transmitting := t.bus.transmitting
            port.flags := t.port.flags, port.tableCapture := t.port.tableCapture }
    let inserted : Entry :=
      { recordEntry c src r.seq s.clock.tick with pending := s.journal.unsentOf c.key c.incarnation }
    let records (t : State) (kind : Byte) : Prop :=
      t.port.flags = raiseFlag .table s.port.flags
        ∧ t.port.tableCapture = recordIn s.port.tableCapture
            { kind := kind, source := stationByte src, item := 0x01, second := r.seq, third := b.setWidth 32 }
    let candidate (may : Entry → Bool) (k : Handle) (e : Entry) : Prop :=
      bucketOfHandle k = b ∧ s.entryAt k = some e ∧ e.pending = none ∧ may e = true
    let oldest (may : Entry → Bool) (k : Handle) : Prop :=
      ∃ e, candidate may k e ∧ ∀ k' e', candidate may k' e' → e.stamp < e'.stamp ∨ (e.stamp = e'.stamp ∧ k ≤ k')
    (s.table.find c.key = none → c.translation.bind (s.portHolder c.group) = none →
      (∀ h, s.table.freeWay b = some h →
        ∃ t, ends t ∧ (∀ k, k ≠ h → t.entryAt k = s.entryAt k) ∧ t.entryAt h = some inserted
          ∧ t.port.flags = s.port.flags) ∧
      (∀ h, s.table.freeWay b = none → oldest Entry.isRetired h →
        ∃ t, ends t ∧ (∀ k, k ≠ h → t.entryAt k = s.entryAt k) ∧ t.entryAt h = some inserted
          ∧ t.port.flags = s.port.flags) ∧
      (s.table.freeWay b = none → (∀ k e, ¬ candidate Entry.isRetired k e) →
        (∀ h, oldest (fun e => !s.holds e.group) h →
          ∃ t, ends t ∧ (∀ k, k ≠ h → t.entryAt k = s.entryAt k) ∧ t.entryAt h = some inserted
            ∧ records t 0x13) ∧
        ((∀ k e, ¬ candidate (fun e => !s.holds e.group) k e) →
          ∃ t, ends t ∧ t.table = s.table ∧ records t 0x14))) ∧
    (∀ h p d, s.table.find c.key = none → c.translation = some p → s.portHolder c.group p = some d →
      s.table.sound (bucketOfHandle d) = true → (tableWithout s.table b (some d)).freeWay b = some h →
      ∃ t, ends t ∧ t.entryAt h = some inserted ∧ (d ≠ h → t.entryAt d = none)
        ∧ (∀ k, k ≠ h → k ≠ d → t.entryAt k = s.entryAt k)
        ∧ t.portHolder c.group p = some h) ∧
    (∀ h e, s.table.find c.key = some (h, e) → e.incarnation ≠ c.incarnation →
      serialBefore e.incarnation c.incarnation = false → ∃ t, ends t ∧ t.table = s.table) ∧
    (∀ h e, s.table.find c.key = some (h, e) →
      (∀ d, s.otherHolder (some h) c = some d → s.table.sound (bucketOfHandle d) = true) →
      (serialBefore e.incarnation c.incarnation = true →
        ∃ t, ends t ∧ (∀ k, k ≠ h → s.otherHolder (some h) c ≠ some k → t.entryAt k = s.entryAt k)
          ∧ (∀ k, s.otherHolder (some h) c = some k → t.entryAt k = none)
          ∧ t.entryAt h = some (recordEntry c src r.seq s.clock.tick)) ∧
      (e.incarnation = c.incarnation →
        ∃ t e', ends t ∧ (∀ k, k ≠ h → s.otherHolder (some h) c ≠ some k → t.entryAt k = s.entryAt k)
          ∧ (∀ k, s.otherHolder (some h) c = some k → t.entryAt k = none) ∧ t.entryAt h = some e'
          ∧ e'.key = c.key ∧ e'.group = c.group ∧ e'.incarnation = c.incarnation
          ∧ e'.marks = marksForKey c.key (e.marks.union c.marks) ∧ e'.translation = c.translation
          ∧ e'.stream = (recordStream c).map (fun x =>
              ⟨mergeSide e.sides.initiator x.initiator, mergeSide e.sides.responder x.responder⟩)
          ∧ e'.adopted = (e.adopted || c.adopted) ∧ e'.origin = c.origin
          ∧ e'.stamp.toNat = max e.stamp.toNat (s.clock.tick.toNat - c.idle.toNat)
          ∧ e'.confirmation = some (src, r.seq) ∧ e'.pending = e.pending))

/-- R104, R105: the hand-over of a BUCKET_END or PASS_END, and a purge. That the next record of the frame is then not yet in hand
is the model's choice (log 45), and that the hand-over is made also where the partner's presence has ended is log 49 (DEDUCED),
the model's reading. -/
def Obligations.PurgesRemoveStaleCopies : Prop :=
  ∀ s : State, s.phase = .running →
    (∀ src r rest item, s.receive.taking = some ⟨src, r :: rest, true⟩ → purgeItemOf src r.body = some item →
      (4 ≤ s.recon.purge.length → exec .purgeHandover s = .next s) ∧
      (s.recon.purge.length < 4 →
        ∃ t, exec .purgeHandover s = .next t ∧ t.recon.purge = s.recon.purge ++ [item]
          ∧ t.receive.expectation = (if s.receive.expectation = some r.seq then some (r.seq + 1)
              else s.receive.expectation)
          ∧ (rest = [] → t.receive.taking = none ∧ ∀ x, t.receive.expectation = some x → t.bus.receiptSlot = some x)
          ∧ (rest ≠ [] → t.receive.taking = some ⟨src, rest, false⟩ ∧ t.bus = s.bus)
          ∧ t = { s with
              receive.expectation := t.receive.expectation, receive.taking := t.receive.taking
              recon.purge := t.recon.purge, bus.receiptSlot := t.bus.receiptSlot
              bus.transmitting := t.bus.transmitting })) ∧
    (∀ src b groups opening rest, s.recon.purge = .bucketEnd src b groups opening :: rest →
      s.higherWaits .reader = false → s.table.sound b = true →
      ∃ t, exec .purge s = .next t
        ∧ (∀ k, bucketOfHandle k ≠ b → t.entryAt k = s.entryAt k)
        ∧ (∀ k e, bucketOfHandle k = b → s.entryAt k = some e →
            let unconfirmed : Prop :=
              ∀ o q, e.confirmation = some (o, q) → o ≠ src ∨ serialBefore q opening = true
            (groups.get e.group = true ∧ s.holds e.group = false ∧ unconfirmed → t.entryAt k = none) ∧
            (¬ (groups.get e.group = true ∧ s.holds e.group = false ∧ unconfirmed) → t.entryAt k = some e))
        ∧ t = { s with table := t.table, xlate := t.xlate, recon.purge := rest })

/-- R103, R107, R108: a re-journal of the lowest bucket of the Resend Set (every step keeps it rising: `StepsKeepCapacities`),
the end of a pass, and a PASS_END at the head of the purge queue. That the start value is kept after the end of the pass is
log 30 (DEDUCED), that a PASS_END of a former partner is taken like any other is log 49 (DEDUCED), and that want is cleared by
the BEACON of the partner designated then, and not where none is, is log 51 (DEDUCED): the model's readings. -/
def Obligations.PassesRunAndEnd : Prop :=
  (∀ (s : State) (b : Bucket) (rest : List Bucket), s.phase = .running → s.recon.resend = b :: rest →
    (b :: rest).Pairwise (· < ·) → s.partnerPresent = true → s.journal.occupancy < 768 → s.life.active = true →
    s.purgeWaits = false →
    s.recon.comparing = none → s.recon.preparing = none → s.higherWaits .reader = false → s.table.sound b = true →
    let covered (k : Handle) (e : Entry) : Prop :=
      bucketOfHandle k = b ∧ s.entryAt k = some e ∧ s.holds e.group = true
    ∃ t, exec .reJournal s = .next t ∧ t.recon.resend = rest
      ∧ (s.heldSet = Four.all false → t.journal = s.journal ∧ t.table = s.table)
      ∧ (s.heldSet ≠ Four.all false → s.journal.ordered →
          (∀ k e q, covered k e → e.pending = some q → ∃ r, r ∈ s.journal.records ∧ r.seq = q) →
          (∀ k k' e e' q, covered k e → covered k' e' → e.pending = some q → e'.pending = some q → k = k') →
          ∃ old q, t.journal.records = old ++ [⟨t.journal.next - 1, false, .bucketEnd b s.heldSet q, none⟩]
            ∧ ((∀ k e, ¬ covered k e) → q = t.journal.next - 1)
            ∧ ((∃ k e, covered k e) → ∃ k e e', covered k e ∧ t.entryAt k = some e' ∧ e'.pending = some q)
            ∧ (∀ k e, covered k e → ∃ q' e', t.entryAt k = some e' ∧ serialBefore q' q = false
                ∧ e' = { e with confirmation := some (s.me, q'), pending := some q' }
                ∧ (e.pending = none → ∃ r, r ∈ old ∧ r.seq = q' ∧ r.sent = false ∧ r.slot = some k
                    ∧ r.body = .entry (contentOf s.clock.tick e))
                ∧ (∀ p, e.pending = some p → q' = p ∧ ∀ r, r ∈ s.journal.records → r.seq = p →
                    { r with body := .entry (contentOf s.clock.tick e) } ∈ old)))
      ∧ (∀ k, (∀ e, ¬ covered k e) → t.entryAt k = s.entryAt k)
      ∧ t = { s with
          table := t.table, journal := t.journal, recon.resend := t.recon.resend, port.flags := t.port.flags }) ∧
  (∀ (s : State) (q : Seq), s.phase = .running → s.recon.passRunning = true → s.recon.resend = [] →
    s.recon.passStart = some q → s.partnerPresent = true →
    (1024 ≤ s.journal.records.length → exec .passEndAppend s = .next s) ∧
    (s.journal.records.length < 1024 → exec .passEndAppend s = .next { s with
      journal.records := s.journal.records ++ [⟨s.journal.next, false, .passEnd s.heldSet q, none⟩]
      journal.next := s.journal.next + 1
      recon.lastCompleted := some q
      recon.passRunning := false
      port.flags := raiseFlag .pass s.port.flags })) ∧
  (∀ (s : State) (src : Station) (groups : GroupSet) (start : Seq) (rest : List PurgeItem),
    s.phase = .running → s.recon.purge = .passEnd src groups start :: rest →
    (∀ n, s.receive.needSince = some n → serialBefore start n = true →
      exec .passEndTake s = .next { s with recon.purge := rest }) ∧
    ((∀ n, s.receive.needSince = some n → serialBefore start n = false) →
      ∃ t, exec .passEndTake s = .next t
        ∧ (∀ g, t.recon.synced.get g = (s.recon.synced.get g || (groups.get g && !s.holds g)))
        ∧ t.receive.want = (s.receive.want && !t.partnerCovered)
        ∧ t.port.flags = (if t.receive.want = s.receive.want ∧ t.recon.synced = s.recon.synced then s.port.flags
            else raiseFlag .sync s.port.flags)
        ∧ t = { s with
            recon.purge := rest, recon.synced := t.recon.synced, receive.want := t.receive.want
            port.flags := t.port.flags }))

/-- R46, R47, R17: a relay observation at the owner; R42, R81 to R83: the offer of what it changes. -/
def Obligations.RelaysReachTheOwner : Prop :=
  (∀ (p : Station) (o : Observation) (s : State), s.phase = .running → s.takesFrames = true → p ≠ s.me →
    (s.presentPartner ≠ some p → exec (.relayFrame p o) s = .next s) ∧
    (s.presentPartner = some p → s.engine.relaySlot = none →
      exec (.relayFrame p o) s = .next { s with engine.relaySlot := some o }) ∧
    (s.presentPartner = some p → s.engine.relaySlot ≠ none →
      exec (.relayFrame p o) s = .next { s with port.flags := raiseFlag .relayDrop s.port.flags })) ∧
  (∀ (s : State) (o : Observation), s.phase = .running → s.engine.inProgress = none →
    s.engine.relaySlot = some o →
    let u := { s with engine.relaySlot := none }
    (s.holds o.group = false → exec .relayApply s = .next u) ∧
    (s.holds o.group = true → s.higherWaits .request = false → s.table.sound (bucketOf o.key) = true →
      (s.table.find o.key = none → exec .relayApply s = .next u) ∧
      (∀ h e, s.table.find o.key = some (h, e) → e.group ≠ o.group ∨ e.incarnation ≠ o.incarnation →
        exec .relayApply s = .next u) ∧
      (∀ h e, s.table.find o.key = some (h, e) → e.group = o.group → e.incarnation = o.incarnation →
        let new : Entry := { e with
          marks := { e.marks with
            established := e.marks.established || o.marks.established
            finI := e.marks.finI || o.marks.finI
            finR := e.marks.finR || o.marks.finR
            aborted := e.marks.aborted || o.marks.aborted }
          stream := match o.side with
            | some d =>
              if isStream e.key then
                some (e.sides.set o.direction (advanceSide (e.sides.get o.direction) d.edge d.ack d.window))
              else e.stream
            | none => e.stream
          stamp := s.clock.tick, origin := s.me }
        ∃ t, exec .relayApply s = .next t ∧ (∀ k, k ≠ h → t.entryAt k = s.entryAt k)
          ∧ (new.marks ≠ e.marks ∨ new.stream ≠ e.stream → u.offered t u.journal h new)
          ∧ (new.marks = e.marks → new.stream = e.stream → t.entryAt h = some new ∧ t.journal = s.journal
              ∧ t.recon.resend = s.recon.resend ∧ t.port.flags = s.port.flags)
          ∧ t = { u with
              table := t.table, journal := t.journal, recon.resend := t.recon.resend
              port.flags := t.port.flags })))

/-- R110 to R114: the digest of a bucket; a digest is prepared, a DIGEST compared, a FETCH answered. -/
def Obligations.DigestsFindMismatches : Prop :=
  (∀ (t : Table) (b : Bucket) (groups : GroupSet),
    let part (w : Way) : Word :=
      match t.slot (handleOf b w) with
      | some x =>
        if groups.get x.entry.group = true ∧ x.entry.isRetired = false then
          crc ((recordBytes ⟨0, .entry { contentOf 0 x.entry with idle := 0 }⟩).drop 5)
        else 0
      | none => 0
    bucketDigest t b groups = part 0 + part 1 + part 2 + part 3) ∧
  (∀ s : State, s.phase = .running → s.recon.digestTimer = true →
    (s.sweeps = true → s.recon.preparing = none → s.recon.ready = none →
      exec .digestTimerExpiry s = .next { s with recon.preparing := some ⟨s.heldSet, s.recon.sweep, []⟩ }) ∧
    (s.sweeps = false ∨ s.recon.preparing ≠ none ∨ s.recon.ready ≠ none →
      exec .digestTimerExpiry s = .next s)) ∧
  (∀ (s : State) (d : Digest), s.phase = .running → s.recon.preparing = some d → s.purgeWaits = false →
    s.recon.comparing = none → s.higherWaits .reader = false →
    let b := d.first + BitVec.ofNat 12 d.digests.length
    let d' : Digest := { d with digests := d.digests ++ [bucketDigest s.table b d.groups] }
    s.table.sound b = true →
    (d.digests.length < 15 → exec .digestPrepare s = .next { s with recon.preparing := some d' }) ∧
    (d.digests.length = 15 → s.partnerPresent = true → exec .digestPrepare s = .next { s with
      recon.preparing := none, recon.ready := some d', recon.sweep := d.first + 16 }) ∧
    (d.digests.length = 15 → s.partnerPresent = false →
      exec .digestPrepare s = .next { s with recon.preparing := none })) ∧
  (∀ (p : Station) (d : Digest) (s : State), s.phase = .running → s.takesFrames = true → p ≠ s.me →
    let accepted : Prop :=
      s.straps.role = .firewall ∧ (s.life = .member ∨ s.life = .isolated) ∧ s.presentPartner = some p
        ∧ (∃ g, d.groups.get g = true) ∧ s.recon.comparing = none
        ∧ ∀ g, d.groups.get g = true → (s.group g).state = .following ∧ (s.group g).owner = some p
    (accepted → exec (.digestFrame p d) s = .next { s with
      recon.comparing := some ⟨d.groups, d.first, d.digests⟩ }) ∧
    (¬ accepted → exec (.digestFrame p d) s = .next s)) ∧
  (∀ (s : State) (groups : GroupSet) (b : Bucket) (received : Word) (rest : List Word), s.phase = .running →
    s.recon.comparing = some ⟨groups, b, received :: rest⟩ → s.purgeWaits = false →
    s.higherWaits .reader = false → s.table.sound b = true →
    let after := if rest = [] then none else some ⟨groups, b + 1, rest⟩
    let offered (f : Option Fetch) : Prop :=
      exec .digestCompare s = .next { s with recon.comparing := after, recon.fetch := f }
    (bucketDigest s.table b groups = received → offered s.recon.fetch) ∧
    (bucketDigest s.table b groups ≠ received → s.recon.fetch = none → offered (some ⟨groups, [b]⟩)) ∧
    (∀ f, bucketDigest s.table b groups ≠ received → s.recon.fetch = some f →
      (f.groups = groups → b ∉ f.buckets → f.buckets.length < 16 →
        offered (some ⟨groups, f.buckets ++ [b]⟩)) ∧
      (f.groups ≠ groups ∨ b ∈ f.buckets ∨ 16 ≤ f.buckets.length → offered (some f)))) ∧
  (∀ (p : Station) (f : Fetch) (s : State), s.phase = .running → s.takesFrames = true → p ≠ s.me →
    let accepted : Prop :=
      s.straps.role = .firewall ∧ (s.life = .member ∨ s.life = .isolated) ∧ s.presentPartner = some p
        ∧ (∃ g, f.groups.get g = true) ∧ ∀ g, f.groups.get g = true → s.holds g = true
    (accepted → ∃ t, exec (.fetchFrame p f) s = .next t
      ∧ (∀ b, b ∈ t.recon.resend ↔ b ∈ s.recon.resend ∨ b ∈ f.buckets)
      ∧ t = { s with recon.resend := t.recon.resend }) ∧
    (¬ accepted → exec (.fetchFrame p f) s = .next s))

/-! ### Timers -/

/-- R167: the adoption window closes by expiry. -/
def Obligations.WindowsCloseByExpiry : Prop :=
  ∀ (g : GroupId) (s : State), s.phase = .running → (s.group g).adoptionTimer = true →
    (s.group g).adoptionOpen = true →
    exec (.adoptionWindowExpiry g) s = .next { s with
      own.groups := s.own.groups.set g { s.group g with adoptionOpen := false, adoptionTimer := false }
      xlate := s.xlate.set g { s.xlate.get g with quarantine := [] }
      port.flags := raiseFlag .adoptEnd s.port.flags }

/-- R90, R91, R130, R132, R160, R182: the timers of the station, of the journal and of the lines; and what the loss of a
station brings: PRESENCE (R134), the loss of an owner (R142) and of a successor (R155). A stall, or the end of the partner's
presence, while a slot with a pending mark fails its check bits enters FAULT (`IntegrityFailureEntersFault`, log 20). A dead
timer runs only at an active station (`StepsKeepSilence`). -/
def Obligations.StationTimersExpire : Prop :=
  ∀ s : State, s.phase = .running →
    let clears : Prop := ∀ x, x ∈ s.table → x.2.entry.pending.isSome = true → x.2.intact = true
    (s.presence.beaconTimer = true →
      ∃ t, exec .beaconTimerExpiry s = .next t ∧ t.bus.beaconSlot = some t.beacon
        ∧ t = { s with bus.beaconSlot := t.bus.beaconSlot, bus.transmitting := t.bus.transmitting }) ∧
    (∀ p, (s.peer p).deadTimer = true →
      ∃ t, exec (.deadTimerExpiry p) s = .next t ∧
        (s.presentPartner = none ∨ t.presentPartner = s.presentPartner ∨ clears →
        ((s.peer p).state = .present ∨ (s.peer p).state = .surplus → (t.peer p).state = .lost)
        ∧ ((s.peer p).state ≠ .present → (s.peer p).state ≠ .surplus → (t.peer p).state = (s.peer p).state)
        ∧ (t.peer p).deadTimer = false ∧ (t.peer p).lastBeacon = (s.peer p).lastBeacon
        ∧ (s.presentPartner.isSome = true → t.presentPartner ≠ s.presentPartner →
            t.journal = ⟨[], s.journal.next, s.journal.next, s.journal.next, false, false⟩
              ∧ t.recon.synced = Four.all false
              ∧ ∀ k, t.entryAt k = (s.entryAt k).map fun e => { e with pending := none })
        ∧ (s.presentPartner = some p → t.presentPartner ≠ some p)
        ∧ (s.presentPartner = none ∨ t.presentPartner = s.presentPartner →
            t.table = s.table ∧ t.journal = s.journal)
        ∧ (t.port.flags.getLsbD 5 = true ↔
            s.port.flags.getLsbD 5 = true ∨ ∃ q, (t.peer q).state ≠ (s.peer q).state)
        ∧ (∀ g, s.life.active = true → (s.peer p).state = .present →
            (∀ q, (t.peer q).state = .present → (t.peer q).showsHeld g = false) →
            let r := s.group g
            let mayHold : Prop := s.straps.role = .firewall ∧ (t.life = .member ∨ t.life = .isolated)
              ∧ s.port.isSealed = true ∧ s.port.setup.groups.get g = true ∧ r.health ≠ 0 ∧ r.hold = false
              ∧ s.port.lapsed = false ∧ t.quorumPresent = true
            (r.state = .following → r.owner = some p →
              (t.group g).owner = none ∧ ((t.group g).state = .vacant ∨ (t.group g).state = .claiming)
                ∧ (t.group g).epoch = r.epoch ∧ t.recon.synced.get g = false) ∧
            (r.state = .yielding → r.successor = some p →
              (mayHold → s.port.setup.preempt.get g = false ∨ s.port.setup.preemptDelay.get g ≠ 0 →
                (t.group g).state = .holding ∧ (t.group g).owner = some s.me
                ∧ (t.group g).tenure = some .resumed ∧ t.port.flags.getLsbD 1 = true) ∧
              (¬ mayHold → (t.group g).state = .vacant ∧ (t.group g).owner = none ∧ (t.group g).backoff = true
                ∧ t.port.flags.getLsbD 2 = true)))
        ∧ t = { s with
            table := t.table, xlate := t.xlate, journal := t.journal, receive.expectation := t.receive.expectation
            recon := { t.recon with digestTimer := s.recon.digestTimer, sweep := s.recon.sweep }
            bus.control := t.bus.control, bus.transmitting := t.bus.transmitting, bus.digest := t.bus.digest
            presence.records := t.presence.records, presence.partner := t.presence.partner
            presence.witness := t.presence.witness, presence.watched := t.presence.watched
            presence.life := t.presence.life
            own.groups := t.own.groups, own.quorumTimer := t.own.quorumTimer
            port.flags := t.port.flags, port.busCapture := t.port.busCapture })) ∧
    (s.presence.listenTimer = true → s.life = .listen →
      ∃ t, exec .listenTimerExpiry s = .next t ∧ t.presence.listenTimer = false
        ∧ (t.life = .isolated ↔ ∀ p, (s.peer p).state ≠ .present)
        ∧ (t.life = .member ↔ ∃ p, (s.peer p).state = .present)
        ∧ t = { s with
            presence.life := t.life, presence.listenTimer := false, own.groups := t.own.groups, bus := t.bus
            recon.synced := t.recon.synced, port.flags := t.port.flags
            port.busCapture := t.port.busCapture }) ∧
    (s.journal.receiptTimer = true →
      ∃ t, exec .receiptTimerExpiry s = .next t ∧ t.journal.receiptTimer = false
        ∧ ((∃ r, r ∈ s.journal.records ∧ r.sent = true) → t.journal.sendPoint = s.journal.oldest)
        ∧ ((∀ r, r ∈ s.journal.records → r.sent = false) → t.journal.sendPoint = s.journal.sendPoint)
        ∧ t = { s with journal.receiptTimer := false, journal.sendPoint := t.journal.sendPoint }) ∧
    (s.journal.stallTimer = true → clears →
      ∃ t, exec .stallTimerExpiry s = .next t
        ∧ t.journal = ⟨[], s.journal.next, s.journal.next, s.journal.next, false, false⟩
        ∧ t.port.flags = raiseFlag .lag s.port.flags
        ∧ (∀ k x, s.table.slot k = some x → x.intact = true →
            t.table.slot k = some ⟨{ x.entry with pending := none }, true⟩)
        ∧ (∀ g, t.group g = if (s.group g).state = .yielding then { s.group g with drainSpoiled := true }
            else s.group g)
        ∧ (s.mayPass = true → t.recon.passRunning = true ∧ t.recon.passStart = some s.journal.next
            ∧ t.recon.resend = allBuckets)
        ∧ t = { s with
            journal := t.journal, table := t.table, own.groups := t.own.groups, recon := t.recon
            port.flags := t.port.flags }) ∧
    (∀ g, (s.group g).lineTimer = true →
      exec (.lineInhibitionExpiry g) s = .next { s with
        own.groups := s.own.groups.set g { s.group g with lineTimer := false, lineReported := true }
        port.flags := raiseFlag .bus s.port.flags
        port.busCapture := recordIn s.port.busCapture
          { kind := 0x08, source := stationByte s.me, item := 0, second := BitVec.ofNat 32 g.val } })

/-- R143 to R146, R151 to R154, R164, R165, R173, R199: the timers of the ownership controller and the host watch, each with
what it may change: claims that follow hand frames to the control queue (R143, R121), and the end of a tenure closes its window
and its quarantine (R151, R76). The entry to HOLDING sets the quarantine and makes the last-seen block absent (R74, R73), starts
a pass (R106) and takes the group out of the synced set with its change of owner known (R109). -/
def Obligations.OwnershipTimersExpire : Prop :=
  ∀ s : State, s.phase = .running →
    let claims (t : State) : State :=
      { s with
        own.groups := t.own.groups, bus.control := t.bus.control, bus.transmitting := t.bus.transmitting
        recon.synced := t.recon.synced, port.flags := t.port.flags, port.busCapture := t.port.busCapture }
    let leaves (t : State) : State :=
      { claims t with own.quorumTimer := t.own.quorumTimer, xlate := t.xlate }
    (∀ g, (s.group g).claimWait = true → (s.group g).state = .claiming →
      ∃ t, exec (.claimWaitExpiry g) s = .next t
        ∧ (t.group g).state = .holding ∧ (t.group g).owner = some s.me ∧ (t.group g).claimEpoch = none
        ∧ (∀ e, (s.group g).claimEpoch = some e → (t.group g).epoch = serialMax (s.group g).epoch e)
        ∧ (t.group g).adoptionOpen = true ∧ (t.group g).adoptionTimer = true ∧ (t.group g).backoff = false
        ∧ (t.group g).tenure = some (match (s.group g).handoverNote with
            | none => .claimed
            | some true => .handedDrained
            | some false => .handedUndrained)
        ∧ (∀ l, (s.xlate.get g).lastSeen = some l → (t.xlate.get g).quarantine = [l, l + 1]
            ∧ (t.xlate.get g).cursor.toNat = 4096 + 1024 * (l + 2).val)
        ∧ ((s.xlate.get g).lastSeen = none → (t.xlate.get g).quarantine = []
            ∧ (t.xlate.get g).cursor = (s.xlate.get g).cursor)
        ∧ (t.xlate.get g).lastSeen = none ∧ (t.xlate.get g).occupied = (s.xlate.get g).occupied
        ∧ (∀ g', t.recon.synced.get g' =
            (s.recon.synced.get g' && (decide (g' ≠ g) || decide ((s.group g).owner = some s.me))))
        ∧ (if s.straps.role = .firewall ∧ s.life.active = true ∧ s.partnerPresent = true then
            t.recon.passRunning = true ∧ t.recon.passStart = some s.journal.next ∧ t.recon.resend = allBuckets
          else t.recon = { s.recon with synced := t.recon.synced })
        ∧ t.port.flags = raiseFlag .takeover s.port.flags
        ∧ (∀ g', g' ≠ g → t.group g' = s.group g' ∧ t.xlate.get g' = s.xlate.get g')
        ∧ t = { s with
            own.groups := t.own.groups, xlate := t.xlate, port.flags := t.port.flags
            recon.synced := t.recon.synced, recon.passRunning := t.recon.passRunning
            recon.passStart := t.recon.passStart, recon.resend := t.recon.resend }) ∧
    (∀ g, (s.group g).backoff = true → (s.group g).state = .vacant → s.eligible g = true → s.mayOutbid g = true →
      s.bus.control = [] →
      ∃ t, exec (.claimBackoffExpiry g) s = .next t ∧ (t.group g).state = .claiming ∧ (t.group g).owner = none
        ∧ (t.group g).claimEpoch = some ((s.group g).epoch + 1) ∧ (t.group g).backoff = false
        ∧ .claim ⟨g, (s.group g).epoch + 1, .vacant, s.port.setup.priority.get g, (s.group g).health⟩
            ∈ t.bus.control
        ∧ t = claims t) ∧
    (∀ g p, (s.group g).preempt = true → s.preemptCondition g = true → s.presentPartner = some p →
      ∃ t, exec (.preemptDelayExpiry g) s = .next t
        ∧ (s.journal.holdsGroup g = true → (t.group g).state = .yielding ∧ (t.group g).successor = some p
            ∧ (t.group g).drain = true ∧ (t.group g).preempt = false)
        ∧ (s.journal.holdsGroup g = false → (t.group g).state = .following ∧ (t.group g).owner = some p
            ∧ t.port.flags.getLsbD 2 = true
            ∧ (s.bus.control = [] → .yield ⟨g, (s.group g).epoch, p, true⟩ ∈ t.bus.control))
        ∧ t = leaves t) ∧
    (∀ g p, (s.group g).drain = true → (s.group g).state = .yielding → (s.group g).successor = some p →
      ∃ t, exec (.drainTimerExpiry g) s = .next t ∧ (t.group g).state = .following ∧ (t.group g).owner = some p
        ∧ (t.group g).tenure = none ∧ (t.group g).adoptionOpen = false ∧ t.port.flags.getLsbD 2 = true
        ∧ (s.bus.control = [] → .yield ⟨g, (s.group g).epoch, p, false⟩ ∈ t.bus.control)
        ∧ t = leaves t) ∧
    (s.own.quorumTimer = true →
      ∃ t, exec .quorumTimerExpiry s = .next t ∧ t.own.quorumTimer = false
        ∧ (∀ g, s.holds g = true → (t.group g).state = .vacant ∧ (t.group g).owner = none
            ∧ (t.group g).backoff = true ∧ t.drive g = false ∧ t.port.flags.getLsbD 2 = true)
        ∧ t = leaves t) ∧
    (s.port.hostWatch = true →
      ∃ t, exec .hostWatchExpiry s = .next t ∧ t.port.lapsed = true ∧ t.port.hostWatch = false
        ∧ t.port.flags.getLsbD 11 = true ∧ (∀ g, t.eligible g = false)
        ∧ (∀ g, (s.group g).state = .claiming → (t.group g).state = .vacant)
        ∧ (∀ g, (s.group g).state = .holding →
            (∀ p, s.presentPartner = some p → (s.peer p).showsEligible g = true →
              (t.group g).state = .yielding ∧ (t.group g).successor = some p
                ∨ (t.group g).state = .following ∧ (t.group g).owner = some p) ∧
            ((∀ p, s.presentPartner = some p → (s.peer p).showsEligible g = false) →
              (t.group g).state = .vacant ∧ (t.group g).owner = none))
        ∧ t = { leaves t with port.lapsed := true, port.hostWatch := false })
end

