-- ==== Sys2Proof/Laws/State.lean ====
section
/-!
SUPPORT. What the plainest updates of the state leave alone, field by field, and the parts of a field they change.
-/

namespace Sys2Proof.Machine

open Sys2Proof

/-! ### raise -/

@[simp] theorem raise_straps (e : Event) (s : State) : (raise e s).straps = s.straps := rfl
@[simp] theorem raise_phase (e : Event) (s : State) : (raise e s).phase = s.phase := rfl
@[simp] theorem raise_engine (e : Event) (s : State) : (raise e s).engine = s.engine := rfl
@[simp] theorem raise_table (e : Event) (s : State) : (raise e s).table = s.table := rfl
@[simp] theorem raise_clock (e : Event) (s : State) : (raise e s).clock = s.clock := rfl
@[simp] theorem raise_scan (e : Event) (s : State) : (raise e s).scan = s.scan := rfl
@[simp] theorem raise_xlate (e : Event) (s : State) : (raise e s).xlate = s.xlate := rfl
@[simp] theorem raise_journal (e : Event) (s : State) : (raise e s).journal = s.journal := rfl
@[simp] theorem raise_receive (e : Event) (s : State) : (raise e s).receive = s.receive := rfl
@[simp] theorem raise_recon (e : Event) (s : State) : (raise e s).recon = s.recon := rfl
@[simp] theorem raise_bus (e : Event) (s : State) : (raise e s).bus = s.bus := rfl
@[simp] theorem raise_presence (e : Event) (s : State) : (raise e s).presence = s.presence := rfl
@[simp] theorem raise_own (e : Event) (s : State) : (raise e s).own = s.own := rfl
@[simp] theorem raise_freeCount (e : Event) (s : State) : (raise e s).freeCount = s.freeCount := rfl
@[simp] theorem raise_pending (e : Event) (s : State) : (raise e s).pending = s.pending := rfl

/-! ### captureBus -/

@[simp] theorem captureBus_straps (c : Capture) (s : State) : (captureBus c s).straps = s.straps := rfl
@[simp] theorem captureBus_phase (c : Capture) (s : State) : (captureBus c s).phase = s.phase := rfl
@[simp] theorem captureBus_engine (c : Capture) (s : State) : (captureBus c s).engine = s.engine := rfl
@[simp] theorem captureBus_table (c : Capture) (s : State) : (captureBus c s).table = s.table := rfl
@[simp] theorem captureBus_clock (c : Capture) (s : State) : (captureBus c s).clock = s.clock := rfl
@[simp] theorem captureBus_scan (c : Capture) (s : State) : (captureBus c s).scan = s.scan := rfl
@[simp] theorem captureBus_xlate (c : Capture) (s : State) : (captureBus c s).xlate = s.xlate := rfl
@[simp] theorem captureBus_journal (c : Capture) (s : State) : (captureBus c s).journal = s.journal := rfl
@[simp] theorem captureBus_receive (c : Capture) (s : State) : (captureBus c s).receive = s.receive := rfl
@[simp] theorem captureBus_recon (c : Capture) (s : State) : (captureBus c s).recon = s.recon := rfl
@[simp] theorem captureBus_bus (c : Capture) (s : State) : (captureBus c s).bus = s.bus := rfl
@[simp] theorem captureBus_presence (c : Capture) (s : State) : (captureBus c s).presence = s.presence := rfl
@[simp] theorem captureBus_own (c : Capture) (s : State) : (captureBus c s).own = s.own := rfl
@[simp] theorem captureBus_freeCount (c : Capture) (s : State) : (captureBus c s).freeCount = s.freeCount := rfl
@[simp] theorem captureBus_pending (c : Capture) (s : State) : (captureBus c s).pending = s.pending := rfl

/-! ### captureTable -/

@[simp] theorem captureTable_straps (c : Capture) (s : State) : (captureTable c s).straps = s.straps := rfl
@[simp] theorem captureTable_phase (c : Capture) (s : State) : (captureTable c s).phase = s.phase := rfl
@[simp] theorem captureTable_engine (c : Capture) (s : State) : (captureTable c s).engine = s.engine := rfl
@[simp] theorem captureTable_table (c : Capture) (s : State) : (captureTable c s).table = s.table := rfl
@[simp] theorem captureTable_clock (c : Capture) (s : State) : (captureTable c s).clock = s.clock := rfl
@[simp] theorem captureTable_scan (c : Capture) (s : State) : (captureTable c s).scan = s.scan := rfl
@[simp] theorem captureTable_xlate (c : Capture) (s : State) : (captureTable c s).xlate = s.xlate := rfl
@[simp] theorem captureTable_journal (c : Capture) (s : State) : (captureTable c s).journal = s.journal := rfl
@[simp] theorem captureTable_receive (c : Capture) (s : State) : (captureTable c s).receive = s.receive := rfl
@[simp] theorem captureTable_recon (c : Capture) (s : State) : (captureTable c s).recon = s.recon := rfl
@[simp] theorem captureTable_bus (c : Capture) (s : State) : (captureTable c s).bus = s.bus := rfl
@[simp] theorem captureTable_presence (c : Capture) (s : State) : (captureTable c s).presence = s.presence := rfl
@[simp] theorem captureTable_own (c : Capture) (s : State) : (captureTable c s).own = s.own := rfl
@[simp] theorem captureTable_freeCount (c : Capture) (s : State) : (captureTable c s).freeCount = s.freeCount := rfl
@[simp] theorem captureTable_pending (c : Capture) (s : State) : (captureTable c s).pending = s.pending := rfl

/-! ### captureRequest -/

@[simp] theorem captureRequest_straps (c : Capture) (s : State) : (captureRequest c s).straps = s.straps := rfl
@[simp] theorem captureRequest_phase (c : Capture) (s : State) : (captureRequest c s).phase = s.phase := rfl
@[simp] theorem captureRequest_engine (c : Capture) (s : State) : (captureRequest c s).engine = s.engine := rfl
@[simp] theorem captureRequest_table (c : Capture) (s : State) : (captureRequest c s).table = s.table := rfl
@[simp] theorem captureRequest_clock (c : Capture) (s : State) : (captureRequest c s).clock = s.clock := rfl
@[simp] theorem captureRequest_scan (c : Capture) (s : State) : (captureRequest c s).scan = s.scan := rfl
@[simp] theorem captureRequest_xlate (c : Capture) (s : State) : (captureRequest c s).xlate = s.xlate := rfl
@[simp] theorem captureRequest_journal (c : Capture) (s : State) : (captureRequest c s).journal = s.journal := rfl
@[simp] theorem captureRequest_receive (c : Capture) (s : State) : (captureRequest c s).receive = s.receive := rfl
@[simp] theorem captureRequest_recon (c : Capture) (s : State) : (captureRequest c s).recon = s.recon := rfl
@[simp] theorem captureRequest_bus (c : Capture) (s : State) : (captureRequest c s).bus = s.bus := rfl
@[simp] theorem captureRequest_presence (c : Capture) (s : State) : (captureRequest c s).presence = s.presence := rfl
@[simp] theorem captureRequest_own (c : Capture) (s : State) : (captureRequest c s).own = s.own := rfl
@[simp] theorem captureRequest_freeCount (c : Capture) (s : State) : (captureRequest c s).freeCount = s.freeCount := rfl
@[simp] theorem captureRequest_pending (c : Capture) (s : State) : (captureRequest c s).pending = s.pending := rfl

/-! ### busFault -/

@[simp] theorem busFault_straps (c : Capture) (s : State) : (busFault c s).straps = s.straps := rfl
@[simp] theorem busFault_phase (c : Capture) (s : State) : (busFault c s).phase = s.phase := rfl
@[simp] theorem busFault_engine (c : Capture) (s : State) : (busFault c s).engine = s.engine := rfl
@[simp] theorem busFault_table (c : Capture) (s : State) : (busFault c s).table = s.table := rfl
@[simp] theorem busFault_clock (c : Capture) (s : State) : (busFault c s).clock = s.clock := rfl
@[simp] theorem busFault_scan (c : Capture) (s : State) : (busFault c s).scan = s.scan := rfl
@[simp] theorem busFault_xlate (c : Capture) (s : State) : (busFault c s).xlate = s.xlate := rfl
@[simp] theorem busFault_journal (c : Capture) (s : State) : (busFault c s).journal = s.journal := rfl
@[simp] theorem busFault_receive (c : Capture) (s : State) : (busFault c s).receive = s.receive := rfl
@[simp] theorem busFault_recon (c : Capture) (s : State) : (busFault c s).recon = s.recon := rfl
@[simp] theorem busFault_bus (c : Capture) (s : State) : (busFault c s).bus = s.bus := rfl
@[simp] theorem busFault_presence (c : Capture) (s : State) : (busFault c s).presence = s.presence := rfl
@[simp] theorem busFault_own (c : Capture) (s : State) : (busFault c s).own = s.own := rfl
@[simp] theorem busFault_freeCount (c : Capture) (s : State) : (busFault c s).freeCount = s.freeCount := rfl
@[simp] theorem busFault_pending (c : Capture) (s : State) : (busFault c s).pending = s.pending := rfl

/-! ### writeEntry -/

@[simp] theorem writeEntry_straps (h : Handle) (e : Entry) (s : State) : (writeEntry h e s).straps = s.straps := rfl
@[simp] theorem writeEntry_phase (h : Handle) (e : Entry) (s : State) : (writeEntry h e s).phase = s.phase := rfl
@[simp] theorem writeEntry_port (h : Handle) (e : Entry) (s : State) : (writeEntry h e s).port = s.port := rfl
@[simp] theorem writeEntry_engine (h : Handle) (e : Entry) (s : State) : (writeEntry h e s).engine = s.engine := rfl
@[simp] theorem writeEntry_clock (h : Handle) (e : Entry) (s : State) : (writeEntry h e s).clock = s.clock := rfl
@[simp] theorem writeEntry_scan (h : Handle) (e : Entry) (s : State) : (writeEntry h e s).scan = s.scan := rfl
@[simp] theorem writeEntry_xlate (h : Handle) (e : Entry) (s : State) : (writeEntry h e s).xlate = s.xlate := rfl
@[simp] theorem writeEntry_journal (h : Handle) (e : Entry) (s : State) : (writeEntry h e s).journal = s.journal := rfl
@[simp] theorem writeEntry_receive (h : Handle) (e : Entry) (s : State) : (writeEntry h e s).receive = s.receive := rfl
@[simp] theorem writeEntry_recon (h : Handle) (e : Entry) (s : State) : (writeEntry h e s).recon = s.recon := rfl
@[simp] theorem writeEntry_bus (h : Handle) (e : Entry) (s : State) : (writeEntry h e s).bus = s.bus := rfl
@[simp] theorem writeEntry_presence (h : Handle) (e : Entry) (s : State) : (writeEntry h e s).presence = s.presence := rfl
@[simp] theorem writeEntry_own (h : Handle) (e : Entry) (s : State) : (writeEntry h e s).own = s.own := rfl
@[simp] theorem writeEntry_freeCount (h : Handle) (e : Entry) (s : State) : (writeEntry h e s).freeCount = s.freeCount := rfl
@[simp] theorem writeEntry_pending (h : Handle) (e : Entry) (s : State) : (writeEntry h e s).pending = s.pending := rfl

/-! ### mapPool -/

@[simp] theorem mapPool_straps (g : GroupId) (f : Pool → Pool) (s : State) : (mapPool g f s).straps = s.straps := rfl
@[simp] theorem mapPool_phase (g : GroupId) (f : Pool → Pool) (s : State) : (mapPool g f s).phase = s.phase := rfl
@[simp] theorem mapPool_port (g : GroupId) (f : Pool → Pool) (s : State) : (mapPool g f s).port = s.port := rfl
@[simp] theorem mapPool_engine (g : GroupId) (f : Pool → Pool) (s : State) : (mapPool g f s).engine = s.engine := rfl
@[simp] theorem mapPool_table (g : GroupId) (f : Pool → Pool) (s : State) : (mapPool g f s).table = s.table := rfl
@[simp] theorem mapPool_clock (g : GroupId) (f : Pool → Pool) (s : State) : (mapPool g f s).clock = s.clock := rfl
@[simp] theorem mapPool_scan (g : GroupId) (f : Pool → Pool) (s : State) : (mapPool g f s).scan = s.scan := rfl
@[simp] theorem mapPool_journal (g : GroupId) (f : Pool → Pool) (s : State) : (mapPool g f s).journal = s.journal := rfl
@[simp] theorem mapPool_receive (g : GroupId) (f : Pool → Pool) (s : State) : (mapPool g f s).receive = s.receive := rfl
@[simp] theorem mapPool_recon (g : GroupId) (f : Pool → Pool) (s : State) : (mapPool g f s).recon = s.recon := rfl
@[simp] theorem mapPool_bus (g : GroupId) (f : Pool → Pool) (s : State) : (mapPool g f s).bus = s.bus := rfl
@[simp] theorem mapPool_presence (g : GroupId) (f : Pool → Pool) (s : State) : (mapPool g f s).presence = s.presence := rfl
@[simp] theorem mapPool_own (g : GroupId) (f : Pool → Pool) (s : State) : (mapPool g f s).own = s.own := rfl
@[simp] theorem mapPool_freeCount (g : GroupId) (f : Pool → Pool) (s : State) : (mapPool g f s).freeCount = s.freeCount := rfl
@[simp] theorem mapPool_pending (g : GroupId) (f : Pool → Pool) (s : State) : (mapPool g f s).pending = s.pending := rfl

/-! ### mapGroup -/

@[simp] theorem mapGroup_straps (g : GroupId) (f : GroupRecord → GroupRecord) (s : State) : (mapGroup g f s).straps = s.straps := rfl
@[simp] theorem mapGroup_phase (g : GroupId) (f : GroupRecord → GroupRecord) (s : State) : (mapGroup g f s).phase = s.phase := rfl
@[simp] theorem mapGroup_port (g : GroupId) (f : GroupRecord → GroupRecord) (s : State) : (mapGroup g f s).port = s.port := rfl
@[simp] theorem mapGroup_engine (g : GroupId) (f : GroupRecord → GroupRecord) (s : State) : (mapGroup g f s).engine = s.engine := rfl
@[simp] theorem mapGroup_table (g : GroupId) (f : GroupRecord → GroupRecord) (s : State) : (mapGroup g f s).table = s.table := rfl
@[simp] theorem mapGroup_clock (g : GroupId) (f : GroupRecord → GroupRecord) (s : State) : (mapGroup g f s).clock = s.clock := rfl
@[simp] theorem mapGroup_scan (g : GroupId) (f : GroupRecord → GroupRecord) (s : State) : (mapGroup g f s).scan = s.scan := rfl
@[simp] theorem mapGroup_xlate (g : GroupId) (f : GroupRecord → GroupRecord) (s : State) : (mapGroup g f s).xlate = s.xlate := rfl
@[simp] theorem mapGroup_journal (g : GroupId) (f : GroupRecord → GroupRecord) (s : State) : (mapGroup g f s).journal = s.journal := rfl
@[simp] theorem mapGroup_receive (g : GroupId) (f : GroupRecord → GroupRecord) (s : State) : (mapGroup g f s).receive = s.receive := rfl
@[simp] theorem mapGroup_recon (g : GroupId) (f : GroupRecord → GroupRecord) (s : State) : (mapGroup g f s).recon = s.recon := rfl
@[simp] theorem mapGroup_bus (g : GroupId) (f : GroupRecord → GroupRecord) (s : State) : (mapGroup g f s).bus = s.bus := rfl
@[simp] theorem mapGroup_presence (g : GroupId) (f : GroupRecord → GroupRecord) (s : State) : (mapGroup g f s).presence = s.presence := rfl
@[simp] theorem mapGroup_freeCount (g : GroupId) (f : GroupRecord → GroupRecord) (s : State) : (mapGroup g f s).freeCount = s.freeCount := rfl
@[simp] theorem mapGroup_pending (g : GroupId) (f : GroupRecord → GroupRecord) (s : State) : (mapGroup g f s).pending = s.pending := rfl

/-! ### handBeacon -/

@[simp] theorem handBeacon_straps (s : State) : (handBeacon s).straps = s.straps := rfl
@[simp] theorem handBeacon_phase (s : State) : (handBeacon s).phase = s.phase := rfl
@[simp] theorem handBeacon_port (s : State) : (handBeacon s).port = s.port := rfl
@[simp] theorem handBeacon_engine (s : State) : (handBeacon s).engine = s.engine := rfl
@[simp] theorem handBeacon_table (s : State) : (handBeacon s).table = s.table := rfl
@[simp] theorem handBeacon_clock (s : State) : (handBeacon s).clock = s.clock := rfl
@[simp] theorem handBeacon_scan (s : State) : (handBeacon s).scan = s.scan := rfl
@[simp] theorem handBeacon_xlate (s : State) : (handBeacon s).xlate = s.xlate := rfl
@[simp] theorem handBeacon_journal (s : State) : (handBeacon s).journal = s.journal := rfl
@[simp] theorem handBeacon_receive (s : State) : (handBeacon s).receive = s.receive := rfl
@[simp] theorem handBeacon_recon (s : State) : (handBeacon s).recon = s.recon := rfl
@[simp] theorem handBeacon_presence (s : State) : (handBeacon s).presence = s.presence := rfl
@[simp] theorem handBeacon_own (s : State) : (handBeacon s).own = s.own := rfl
@[simp] theorem handBeacon_freeCount (s : State) : (handBeacon s).freeCount = s.freeCount := rfl
@[simp] theorem handBeacon_pending (s : State) : (handBeacon s).pending = s.pending := rfl

/-! ### The parts they change -/

@[simp] theorem raise_flags (e : Event) (s : State) : (raise e s).port.flags = raiseFlag e s.port.flags := rfl
@[simp] theorem raise_responses (e : Event) (s : State) : (raise e s).port.responses = s.port.responses := rfl
@[simp] theorem raise_requests (e : Event) (s : State) : (raise e s).port.requests = s.port.requests := rfl
@[simp] theorem raise_setup (e : Event) (s : State) : (raise e s).port.setup = s.port.setup := rfl
@[simp] theorem raise_isSealed (e : Event) (s : State) : (raise e s).port.isSealed = s.port.isSealed := rfl
@[simp] theorem raise_lapsed (e : Event) (s : State) : (raise e s).port.lapsed = s.port.lapsed := rfl
@[simp] theorem busFault_flags (c : Capture) (s : State) :
    (busFault c s).port.flags = raiseFlag .bus s.port.flags := rfl
@[simp] theorem busFault_busCapture (c : Capture) (s : State) :
    (busFault c s).port.busCapture = recordIn s.port.busCapture c := rfl
@[simp] theorem writeEntry_table (h : Handle) (e : Entry) (s : State) :
    (writeEntry h e s).table = s.table.put h ⟨e, true⟩ := rfl
@[simp] theorem mapPool_xlate (g : GroupId) (f : Pool → Pool) (s : State) :
    (mapPool g f s).xlate = s.xlate.set g (f (s.xlate.get g)) := rfl
@[simp] theorem mapGroup_groups (g : GroupId) (f : GroupRecord → GroupRecord) (s : State) :
    (mapGroup g f s).own.groups = s.own.groups.set g (f (s.group g)) := rfl
@[simp] theorem mapGroup_quorumTimer (g : GroupId) (f : GroupRecord → GroupRecord) (s : State) :
    (mapGroup g f s).own.quorumTimer = s.own.quorumTimer := rfl
@[simp] theorem mapGroup_foreignDrive (g : GroupId) (f : GroupRecord → GroupRecord) (s : State) :
    (mapGroup g f s).own.foreignDrive = s.own.foreignDrive := rfl
@[simp] theorem handBeacon_beaconSlot (s : State) : (handBeacon s).bus.beaconSlot = some s.beacon := rfl

/-! ### Four like things -/

@[simp] theorem Four.get_set_same {α : Type} (f : Four α) (i : Fin 4) (x : α) : (f.set i x).get i = x := by
  match i with
  | 0 | 1 | 2 | 3 => rfl

theorem Four.get_set_other {α : Type} (f : Four α) {i j : Fin 4} (x : α) (h : j ≠ i) :
    (f.set i x).get j = f.get j := by
  match i, j with
  | 0, 0 | 1, 1 | 2, 2 | 3, 3 => exact absurd rfl h
  | 0, 1 | 0, 2 | 0, 3 | 1, 0 | 1, 2 | 1, 3 | 2, 0 | 2, 1 | 2, 3 | 3, 0 | 3, 1 | 3, 2 => rfl

theorem Four.get_set {α : Type} (f : Four α) (i j : Fin 4) (x : α) :
    (f.set i x).get j = if j = i then x else f.get j := by
  by_cases h : j = i
  · rw [if_pos h, h, Four.get_set_same]
  · rw [if_neg h, Four.get_set_other f x h]

@[simp] theorem Four.get_all {α : Type} (x : α) (i : Fin 4) : (Four.all x).get i = x := by
  match i with
  | 0 | 1 | 2 | 3 => rfl

@[simp] theorem Four.get_build {α : Type} (f : Fin 4 → α) (i : Fin 4) : (Four.build f).get i = f i := by
  match i with
  | 0 | 1 | 2 | 3 => rfl

/-- Two fours with the same members are one. -/
theorem Four.ext_get {α : Type} {a b : Four α} (h : ∀ i, a.get i = b.get i) : a = b := by
  cases a
  cases b
  have h0 := h 0
  have h1 := h 1
  have h2 := h 2
  have h3 := h 3
  simp only [Four.get] at h0 h1 h2 h3
  rw [h0, h1, h2, h3]

@[simp] theorem mapGroup_group_same (g : GroupId) (f : GroupRecord → GroupRecord) (s : State) :
    (mapGroup g f s).group g = f (s.group g) := Four.get_set_same _ _ _

theorem mapGroup_group_other {g k : GroupId} (f : GroupRecord → GroupRecord) (s : State) (h : k ≠ g) :
    (mapGroup g f s).group k = s.group k := Four.get_set_other _ _ h

/-! ### A command while the part runs -/

theorem whenLive_running (f : State → State) (s : State) (h : s.phase = .running) : whenLive f s = f s := if_pos h

theorem whenLive_reset (f : State → State) (s : State) (h : s.phase ≠ .running) : whenLive f s = s := if_neg h

end Sys2Proof.Machine
end

