-- ==== Sys2Proof/Laws/Ownership.lean ====
section
/-!
SUPPORT. What the operations of the ownership controller can change, once for all of them, and which group records each
of them leaves alone.
-/

namespace Sys2Proof.Machine

open Sys2Proof

/-! ### Frames -/

/-- `t` is `s` but for the group records, the frames waiting, the synced set, and the BUS flag with its capture: what a
claim, its abandonment and the settling of the groups may change. -/
def ClaimFrame (s t : State) : Prop :=
  ∃ groups bus synced flags capture, t = { s with
    own.groups := groups, bus := bus, recon.synced := synced, port.flags := flags, port.busCapture := capture }

/-- `t` is `s` but for what the ownership controller may change. -/
def OwnershipFrame (s t : State) : Prop :=
  ∃ groups timer bus recon xlate flags capture, t = { s with
    own.groups := groups, own.quorumTimer := timer, bus := bus, recon := recon, xlate := xlate
    port.flags := flags, port.busCapture := capture }

theorem ClaimFrame.refl (s : State) : ClaimFrame s s := ⟨_, _, _, _, _, rfl⟩

theorem ClaimFrame.trans {s t u : State} (a : ClaimFrame s t) (b : ClaimFrame t u) : ClaimFrame s u := by
  obtain ⟨_, _, _, _, _, rfl⟩ := a
  obtain ⟨_, _, _, _, _, rfl⟩ := b
  exact ⟨_, _, _, _, _, rfl⟩

theorem OwnershipFrame.refl (s : State) : OwnershipFrame s s := ⟨_, _, _, _, _, _, _, rfl⟩

theorem OwnershipFrame.trans {s t u : State} (a : OwnershipFrame s t) (b : OwnershipFrame t u) :
    OwnershipFrame s u := by
  obtain ⟨_, _, _, _, _, _, _, rfl⟩ := a
  obtain ⟨_, _, _, _, _, _, _, rfl⟩ := b
  exact ⟨_, _, _, _, _, _, _, rfl⟩

theorem ClaimFrame.ownership {s t : State} (a : ClaimFrame s t) : OwnershipFrame s t := by
  obtain ⟨_, _, _, _, _, rfl⟩ := a
  exact ⟨_, _, _, _, _, _, _, rfl⟩

/-- A fold of operations that keep a relation to their argument keeps it. -/
theorem foldl_keeps {α β : Type} (R : β → β → Prop) (refl : ∀ s, R s s) (trans : ∀ {s t u}, R s t → R t u → R s u)
    (f : β → α → β) (each : ∀ s a, R s (f s a)) (l : List α) (s : β) : R s (l.foldl f s) := by
  induction l generalizing s with
  | nil => exact refl s
  | cons a l ih => exact trans (each s a) (ih (f s a))

/-! ### The operations -/

theorem mapGroup_frame (g : GroupId) (f : GroupRecord → GroupRecord) (s : State) : ClaimFrame s (mapGroup g f s) :=
  ⟨_, _, _, _, _, rfl⟩

theorem setOwner_frame (g : GroupId) (o : Option Station) (s : State) : ClaimFrame s (setOwner g o s) := by
  unfold setOwner
  split
  · exact .refl s
  · exact ⟨_, _, _, _, _, rfl⟩

theorem raiseEpoch_frame (g : GroupId) (e : Epoch) (s : State) : ClaimFrame s (raiseEpoch g e s) :=
  mapGroup_frame g _ s

theorem handControl_frame (f : ControlFrame) (s : State) : ClaimFrame s (handControl f s) := by
  unfold handControl
  split <;> exact ⟨_, _, _, _, _, rfl⟩

theorem abandonClaim_frame (g : GroupId) (state : GroupState) (owner : Option Station) (s : State) :
    ClaimFrame s (abandonClaim g state owner s) := by
  unfold abandonClaim
  refine ClaimFrame.trans ?_ (setOwner_frame g owner _)
  exact ⟨_, _, _, _, _, rfl⟩

theorem startClaim_frame (g : GroupId) (cause : ClaimCause) (epoch : Epoch) (note : Option Bool) (s : State) :
    ClaimFrame s (startClaim g cause epoch note s) := by
  have first := (mapGroup_frame g (fun r =>
    { r with state := .claiming, claimEpoch := some epoch, claimWait := false, handoverNote := note }) s).trans
      (setOwner_frame g none _)
  unfold startClaim
  dsimp only
  split
  · refine first.trans ?_
    exact ⟨_, _, _, _, _, rfl⟩
  · refine ClaimFrame.trans ?_ (abandonClaim_frame g _ _ _)
    refine first.trans ?_
    exact ⟨_, _, _, _, _, rfl⟩

theorem followLine_frame (g : GroupId) (s : State) : ClaimFrame s (followLine g s) := by
  unfold followLine
  split <;> exact mapGroup_frame g _ s

theorem settleGroup_frame (s : State) (g : GroupId) : ClaimFrame s (settleGroup s g) := by
  have abandon : ClaimFrame s
      (if (s.group g).state = .claiming && !s.eligible g then abandonClaim g .vacant none s else s) := by
    split
    · exact abandonClaim_frame g _ _ s
    · exact .refl s
  unfold settleGroup
  dsimp only
  generalize (if (s.group g).state = .claiming && !s.eligible g then abandonClaim g .vacant none s else s) = t
    at abandon ⊢
  refine ClaimFrame.trans ?_ (followLine_frame g _)
  split
  · exact abandon.trans (startClaim_frame g _ _ _ _)
  · exact abandon

theorem settle_frame (s : State) : ClaimFrame s (settle s) :=
  foldl_keeps ClaimFrame .refl .trans settleGroup settleGroup_frame four s

theorem raise_frame (e : Event) (s : State) : OwnershipFrame s (raise e s) := ⟨_, _, _, _, _, _, _, rfl⟩

theorem cancelQuorumTimer_frame (s : State) : OwnershipFrame s (cancelQuorumTimer s) := by
  unfold cancelQuorumTimer
  split <;> exact ⟨_, _, _, _, _, _, _, rfl⟩

theorem closeWindow_frame (g : GroupId) (s : State) : OwnershipFrame s (closeWindow g s) := ⟨_, _, _, _, _, _, _, rfl⟩

theorem openWindow_frame (g : GroupId) (s : State) : OwnershipFrame s (openWindow g s) := ⟨_, _, _, _, _, _, _, rfl⟩

theorem openQuarantine_frame (g : GroupId) (s : State) : OwnershipFrame s (openQuarantine g s) :=
  ⟨_, _, _, _, _, _, _, rfl⟩

theorem startPass_frame (s : State) : OwnershipFrame s (startPass s) := by
  unfold startPass
  split <;> exact ⟨_, _, _, _, _, _, _, rfl⟩

theorem leaveHolding_frame (g : GroupId) (state : GroupState) (owner : Option Station) (s : State) :
    OwnershipFrame s (leaveHolding g state owner s) := by
  unfold leaveHolding
  refine OwnershipFrame.trans ?_ (raise_frame _ _)
  refine OwnershipFrame.trans ?_ (cancelQuorumTimer_frame _)
  refine OwnershipFrame.trans ?_ (closeWindow_frame _ _)
  refine OwnershipFrame.trans ?_ (setOwner_frame _ _ _).ownership
  exact (mapGroup_frame _ _ _).ownership

theorem release_frame (g : GroupId) (s : State) : OwnershipFrame s (release g s) :=
  (leaveHolding_frame g _ _ s).trans (mapGroup_frame g _ _).ownership

theorem enterHolding_frame (g : GroupId) (tenure : Tenure) (s : State) : OwnershipFrame s (enterHolding g tenure s) := by
  unfold enterHolding
  refine OwnershipFrame.trans ?_ (startPass_frame _)
  refine OwnershipFrame.trans ?_ (raise_frame _ _)
  refine OwnershipFrame.trans ?_ (openQuarantine_frame _ _)
  refine OwnershipFrame.trans ?_ (openWindow_frame _ _)
  refine OwnershipFrame.trans ?_ (setOwner_frame _ _ _).ownership
  exact (mapGroup_frame _ _ _).ownership

theorem endDrain_frame (g : GroupId) (drained : Bool) (s : State) : OwnershipFrame s (endDrain g drained s) := by
  unfold endDrain
  split
  · exact .refl s
  · exact (handControl_frame _ s).ownership.trans (leaveHolding_frame g _ _ _)

theorem drainTest_frame (g : GroupId) (s : State) : OwnershipFrame s (drainTest g s) := by
  unfold drainTest
  split
  · exact endDrain_frame g _ s
  · exact .refl s

theorem enterYielding_frame (g : GroupId) (p : Station) (s : State) : OwnershipFrame s (enterYielding g p s) :=
  (mapGroup_frame g _ s).ownership.trans (drainTest_frame g _)

theorem reactLoss_frame (g : GroupId) (s : State) : OwnershipFrame s (reactLoss g s) := by
  unfold reactLoss
  split
  · split
    · exact release_frame g s
    · split
      · exact enterYielding_frame g _ s
      · exact release_frame g s
  · exact .refl s

theorem followHolder_frame (g : GroupId) (s : State) : ClaimFrame s (followHolder g s) := by
  unfold followHolder
  split
  · refine ClaimFrame.trans ?_ (raiseEpoch_frame _ _ _)
    refine ClaimFrame.trans ?_ (setOwner_frame _ _ _)
    exact mapGroup_frame _ _ _
  · refine ClaimFrame.trans ?_ (raiseEpoch_frame _ _ _)
    refine ClaimFrame.trans ?_ (setOwner_frame _ _ _)
    exact mapGroup_frame _ _ _
  · exact .refl s

theorem followOrLose_frame (g : GroupId) (source : Option Station) (s : State) :
    ClaimFrame s (followOrLose g source s) := by
  unfold followOrLose
  refine ClaimFrame.trans ?_ (followHolder_frame _ _)
  split
  · refine ClaimFrame.trans ?_ (setOwner_frame _ _ _)
    exact mapGroup_frame _ _ _
  · exact .refl s

theorem resolveDual_frame (g : GroupId) (source : Option Station) (s : State) :
    OwnershipFrame s (resolveDual g source s) := by
  unfold resolveDual
  split
  · exact .refl s
  · split
    · split
      · refine OwnershipFrame.trans ?_ (raise_frame _ _)
        refine OwnershipFrame.trans ?_ (raiseEpoch_frame _ _ _).ownership
        exact leaveHolding_frame _ _ _ _
      · refine OwnershipFrame.trans ?_ (startPass_frame _)
        refine OwnershipFrame.trans ?_ (openWindow_frame _ _)
        exact raise_frame _ _
    · exact .refl s

theorem giveUpYield_frame (g : GroupId) (s : State) : OwnershipFrame s (giveUpYield g s) := by
  unfold giveUpYield
  split
  · split
    · exact enterHolding_frame g _ s
    · exact release_frame g s
  · exact .refl s

theorem yieldToHolder_frame (g : GroupId) (source : Option Station) (s : State) :
    ClaimFrame s (yieldToHolder g source s) := by
  unfold yieldToHolder
  split
  · split
    · exact (abandonClaim_frame g _ _ s).trans (raiseEpoch_frame g _ _)
    · exact .refl s
  · exact .refl s

theorem takeEpoch_frame (g : GroupId) (source : Option Station) (s : State) : ClaimFrame s (takeEpoch g source s) := by
  unfold takeEpoch
  split
  · exact raiseEpoch_frame g _ s
  · exact raiseEpoch_frame g _ s
  · exact raiseEpoch_frame g _ s
  · exact .refl s

theorem preemptTest_frame (g : GroupId) (s : State) : OwnershipFrame s (preemptTest g s) := by
  unfold preemptTest
  split
  · split
    · exact .refl s
    · split
      · exact enterYielding_frame g _ s
      · exact (mapGroup_frame g _ s).ownership
  · exact (mapGroup_frame g _ s).ownership

theorem visitGroup_frame (source : Option Station) (partner : Bool) (s : State) (g : GroupId) :
    OwnershipFrame s (visitGroup source partner s g) := by
  have first := ((resolveDual_frame g source s).trans (giveUpYield_frame g _)).trans
    (((yieldToHolder_frame g source _).trans (takeEpoch_frame g source _)).trans
      (followOrLose_frame g source _)).ownership
  unfold visitGroup
  dsimp only
  generalize followOrLose g source _ = t at first ⊢
  have second : OwnershipFrame s (if partner then preemptTest g t else t) := by
    split
    · exact first.trans (preemptTest_frame g t)
    · exact first
  generalize (if partner then preemptTest g t else t) = u at second ⊢
  split
  · exact second.trans (drainTest_frame g _)
  · exact second

theorem visitGroups_frame (source : Option Station) (partner : Bool) (s : State) :
    OwnershipFrame s (visitGroups source partner s) :=
  foldl_keeps OwnershipFrame .refl .trans _ (visitGroup_frame source partner) four s

/-- R27, R199: the taking of a request reaches the request queue, lapsed and the host watch, and what a cleared lapse
brings to the groups. -/
theorem takeRequest_frame (s : State) : ∃ u, ClaimFrame
    { s with port.requests := s.port.requests.tail, port.lapsed := false } u
      ∧ takeRequest s = { u with port.hostWatch := u.life.active && u.port.setup.hostWatch != 0 } := by
  unfold takeRequest
  dsimp only
  split
  · exact ⟨_, settle_frame _, rfl⟩
  · exact ⟨_, .refl _, rfl⟩

/-! ### Group records that an operation of one group leaves alone -/

theorem setOwner_group_other {g k : GroupId} (o : Option Station) (s : State) (ne : k ≠ g) :
    (setOwner g o s).group k = s.group k := by
  unfold setOwner
  split
  · rfl
  · exact Four.get_set_other s.own.groups _ ne

theorem setOwner_group_same (g : GroupId) (o : Option Station) (s : State) :
    (setOwner g o s).group g = { s.group g with owner := o } := by
  unfold setOwner
  split
  · rename_i eq
    rw [← eq]
  · exact Four.get_set_same s.own.groups g _

theorem handControl_group (f : ControlFrame) (s : State) (k : GroupId) : (handControl f s).group k = s.group k := by
  unfold handControl
  split <;> rfl

theorem abandonClaim_group_other {g k : GroupId} (state : GroupState) (owner : Option Station) (s : State)
    (ne : k ≠ g) : (abandonClaim g state owner s).group k = s.group k := by
  unfold abandonClaim
  rw [setOwner_group_other owner _ ne]
  exact Four.get_set_other s.own.groups _ ne

theorem abandonClaim_group_same (g : GroupId) (state : GroupState) (owner : Option Station) (s : State) :
    (abandonClaim g state owner s).group g =
      { s.group g with
        state := state, claimEpoch := none, claimWait := false, backoff := true, handoverNote := none
        owner := owner } := by
  unfold abandonClaim
  rw [setOwner_group_same]
  exact congrArg (fun r : GroupRecord => { r with owner := owner }) (Four.get_set_same s.own.groups g _)

theorem followLine_group_other {g k : GroupId} (s : State) (ne : k ≠ g) : (followLine g s).group k = s.group k := by
  unfold followLine
  split <;> exact Four.get_set_other s.own.groups _ ne

theorem startClaim_group_other {g k : GroupId} (cause : ClaimCause) (epoch : Epoch) (note : Option Bool) (s : State)
    (ne : k ≠ g) : (startClaim g cause epoch note s).group k = s.group k := by
  have first := fun f => (setOwner_group_other none (mapGroup g f s) ne).trans (mapGroup_group_other f s ne)
  unfold startClaim
  dsimp only
  split
  · exact first _
  · rw [abandonClaim_group_other .vacant none _ ne]
    exact first _

theorem settleGroup_group_other {g k : GroupId} (s : State) (ne : k ≠ g) :
    (settleGroup s g).group k = s.group k := by
  have abandon : (if (s.group g).state = .claiming && !s.eligible g then abandonClaim g .vacant none s
      else s).group k = s.group k := by
    split
    · exact abandonClaim_group_other _ _ s ne
    · rfl
  unfold settleGroup
  dsimp only
  rw [followLine_group_other _ ne]
  generalize (if (s.group g).state = .claiming && !s.eligible g then abandonClaim g .vacant none s else s) = t
    at abandon ⊢
  split
  · rw [startClaim_group_other _ _ _ _ ne]
    exact abandon
  · exact abandon

/-- A fold of operations of one group each, at one group: the operation of that group, on a state that differs from the
first only within the frame and not in the record of the group. -/
theorem foldl_group (R : State → State → Prop) (refl : ∀ s, R s s) (trans : ∀ {s t u}, R s t → R t u → R s u)
    (f : State → GroupId → State) (each : ∀ s g, R s (f s g))
    (other : ∀ {g k : GroupId} (s : State), k ≠ g → (f s g).group k = s.group k) (g : GroupId) (s : State) :
    ∃ u, R s u ∧ u.group g = s.group g ∧ (four.foldl f s).group g = (f u g).group g := by
  have skip : ∀ (l : List GroupId) (s : State), g ∉ l → (l.foldl f s).group g = s.group g := by
    intro l
    induction l with
    | nil => intro s _; rfl
    | cons a l ih =>
      intro s out
      rw [List.mem_cons, not_or] at out
      exact (ih (f s a) out.2).trans (other s out.1)
  have at_ : ∀ (before after : List GroupId), g ∉ before → g ∉ after →
      ∃ u, R s u ∧ u.group g = s.group g ∧ ((before ++ g :: after).foldl f s).group g = (f u g).group g := by
    intro before after out out'
    refine ⟨before.foldl f s, foldl_keeps R refl trans f each before s, skip before s out, ?_⟩
    rw [List.foldl_append]
    exact skip after _ out'
  match g with
  | 0 => exact at_ [] [1, 2, 3] (by decide) (by decide)
  | 1 => exact at_ [0] [2, 3] (by decide) (by decide)
  | 2 => exact at_ [0, 1] [3] (by decide) (by decide)
  | 3 => exact at_ [0, 1, 2] [] (by decide) (by decide)

/-- What `settle` leaves in the record of one group. -/
theorem settle_group (g : GroupId) (s : State) :
    ∃ u, ClaimFrame s u ∧ u.group g = s.group g ∧ (settle s).group g = (settleGroup u g).group g :=
  foldl_group ClaimFrame .refl .trans settleGroup settleGroup_frame (fun s ne => settleGroup_group_other s ne) g s

/-- R160: the following of the line writes its timer and its reported indication alone. -/
theorem followLine_group_same (g : GroupId) (s : State) :
    ∃ timer reported, (followLine g s).group g =
      { s.group g with lineTimer := timer, lineReported := reported } := by
  unfold followLine
  split
  · exact ⟨_, _, mapGroup_group_same g _ s⟩
  · exact ⟨_, _, mapGroup_group_same g _ s⟩

end Sys2Proof.Machine
end

