-- ==== Sys2Proof/Laws/Table.lean ====
section
/-!
SUPPORT. The session table and the occupancy lists as finite maps: what a read gives after a write, and that every
operation keeps the canonical form. What the searches of a bucket find (R18), and that the Resend Set rises.
-/

namespace Sys2Proof.Machine

open Sys2Proof

namespace Table

/-! ### Reading after writing -/

@[simp] theorem slot_nil (h : Handle) : slot [] h = none := rfl

theorem slot_put_same (t : Table) (h : Handle) (v : Slot) : slot (put t h v) h = some v := by
  induction t with
  | nil => simp [put, slot]
  | cons x t ih =>
    by_cases lt : h < x.1
    · simp [put, lt, slot]
    · by_cases eq : h = x.1
      · simp [put, eq, slot]
      · simp [put, lt, eq, slot, Ne.symm eq, ih]

theorem slot_put_other (t : Table) {h k : Handle} (v : Slot) (ne : k ≠ h) : slot (put t h v) k = slot t k := by
  induction t with
  | nil => simp [put, slot, Ne.symm ne]
  | cons x t ih =>
    by_cases lt : h < x.1
    · simp [put, lt, slot, Ne.symm ne]
    · by_cases eq : h = x.1
      · subst eq
        simp [put, slot, Ne.symm ne]
      · simp [put, lt, eq, slot, ih]

/-- A write of one slot, read at any slot. -/
theorem slot_put (t : Table) (h k : Handle) (v : Slot) : slot (put t h v) k = if k = h then some v else slot t k := by
  by_cases e : k = h
  · rw [if_pos e, e, slot_put_same]
  · rw [if_neg e, slot_put_other t v e]

theorem slot_free_same (t : Table) (h : Handle) : slot (free t h) h = none := by
  induction t with
  | nil => rfl
  | cons x t ih =>
    by_cases eq : x.1 = h
    · simpa [free, eq] using ih
    · have ih' : slot (List.filter (fun y => y.1 != h) t) h = none := ih
      simp [free, eq, slot, ih']

theorem slot_free_other (t : Table) {h k : Handle} (ne : k ≠ h) : slot (free t h) k = slot t k := by
  induction t with
  | nil => rfl
  | cons x t ih =>
    have ih' : slot (List.filter (fun y => y.1 != h) t) k = slot t k := ih
    by_cases eq : x.1 = h
    · simp [free, eq, slot, ih', Ne.symm ne]
    · by_cases ek : x.1 = k
      · simp [free, slot, ek, ne]
      · simp [free, slot, eq, ek, ih']

theorem slot_free (t : Table) (h k : Handle) : slot (free t h) k = if k = h then none else slot t k := by
  by_cases e : k = h
  · rw [if_pos e, e, slot_free_same]
  · rw [if_neg e, slot_free_other t e]

/-- A change of every slot in place. -/
theorem slot_map (t : Table) (f : Slot → Slot) (h : Handle) :
    slot (t.map fun x => (x.1, f x.2)) h = (slot t h).map f := by
  induction t with
  | nil => rfl
  | cons x t ih =>
    by_cases e : x.1 = h
    · simp [slot, e]
    · simpa [slot, e] using ih

/-! ### The canonical form -/

@[simp] theorem wf_nil : wf [] = true := rfl

/-- A handle below every listed one stays below them all after a write of a higher handle. -/
theorem below_put {t : Table} {a h : Handle} {v : Slot} (lt : a < h) (all : ∀ x ∈ t, a < x.1) :
    ∀ x ∈ put t h v, a < x.1 := by
  induction t with
  | nil =>
    intro x mem
    simp only [put, List.mem_singleton] at mem
    rw [mem]
    exact lt
  | cons y t ih =>
    intro x mem
    have ally := all y List.mem_cons_self
    have allt : ∀ z ∈ t, a < z.1 := fun z hz => all z (List.mem_cons_of_mem _ hz)
    unfold put at mem
    split at mem
    · rcases List.mem_cons.mp mem with e | m
      · rw [e]
        exact lt
      · exact all x m
    · split at mem
      · rcases List.mem_cons.mp mem with e | m
        · rw [e]
          exact lt
        · exact allt x m
      · rcases List.mem_cons.mp mem with e | m
        · rw [e]
          exact ally
        · exact ih allt x m

theorem wf_put (t : Table) (h : Handle) (v : Slot) (ok : wf t = true) : wf (put t h v) = true := by
  simp only [wf, decide_eq_true_eq] at ok ⊢
  induction t with
  | nil => simp [put]
  | cons x t ih =>
    have first := (List.pairwise_cons.mp ok).1
    have rest := (List.pairwise_cons.mp ok).2
    unfold put
    split
    · rename_i lt
      refine List.pairwise_cons.mpr ⟨fun y mem => ?_, ok⟩
      rcases List.mem_cons.mp mem with e | m
      · rw [e]
        exact lt
      · exact BitVec.lt_trans lt (first y m)
    · split
      · rename_i eq
        refine List.pairwise_cons.mpr ⟨fun y mem => ?_, rest⟩
        exact eq ▸ first y mem
      · rename_i lt eq
        refine List.pairwise_cons.mpr ⟨?_, ih rest⟩
        have above : x.1 < h := by
          have ne : x.1.toNat ≠ h.toNat := fun c => eq (BitVec.eq_of_toNat_eq c).symm
          simp only [BitVec.lt_def] at lt ⊢
          omega
        exact below_put above first

theorem wf_free (t : Table) (h : Handle) (ok : wf t = true) : wf (free t h) = true := by
  simp only [wf, decide_eq_true_eq] at ok ⊢
  exact ok.filter _

theorem wf_map (t : Table) (f : Slot → Slot) (ok : wf t = true) : wf (t.map fun x => (x.1, f x.2)) = true := by
  simp only [wf, decide_eq_true_eq] at ok ⊢
  exact List.pairwise_map.mpr ok

end Table

/-! ### Handles -/

theorem getLsbD_handleOf (b : Bucket) (w : Way) (i : Nat) :
    (handleOf b w).getLsbD i = if i < 2 then w.getLsbD i else b.getLsbD (i - 2) := BitVec.getLsbD_append

@[simp] theorem bucketOfHandle_handleOf (b : Bucket) (w : Way) : bucketOfHandle (handleOf b w) = b := by
  refine BitVec.eq_of_getLsbD_eq fun i hi => ?_
  rw [bucketOfHandle, BitVec.getLsbD_extractLsb', getLsbD_handleOf, if_neg (by omega)]
  simp [hi]

@[simp] theorem wayOfHandle_handleOf (b : Bucket) (w : Way) : wayOfHandle (handleOf b w) = w := by
  refine BitVec.eq_of_getLsbD_eq fun i hi => ?_
  rw [wayOfHandle, BitVec.getLsbD_extractLsb', getLsbD_handleOf]
  simp [hi]

theorem handleOf_parts (h : Handle) : handleOf (bucketOfHandle h) (wayOfHandle h) = h := by
  refine BitVec.eq_of_getLsbD_eq fun i hi => ?_
  rw [getLsbD_handleOf, bucketOfHandle, wayOfHandle, BitVec.getLsbD_extractLsb', BitVec.getLsbD_extractLsb']
  by_cases small : i < 2
  · simp [small]
  · have up : 2 + (i - 2) = i := by omega
    simp [small, up]
    omega

theorem handle_of_bucket {h : Handle} {b : Bucket} (eq : bucketOfHandle h = b) : handleOf b (wayOfHandle h) = h :=
  eq ▸ handleOf_parts h

theorem handleOf_lt (b : Bucket) {v w : Way} (lt : v < w) : handleOf b v < handleOf b w := by
  simp only [handleOf, BitVec.lt_def, BitVec.toNat_append] at *
  rw [← Nat.shiftLeft_add_eq_or_of_lt v.isLt, ← Nat.shiftLeft_add_eq_or_of_lt w.isLt]
  omega

theorem mem_ways (w : Way) : w ∈ ([0, 1, 2, 3] : List Way) := by revert w; decide

/-! ### The ways of a bucket -/

namespace Table

/-- R18: the slots of a bucket, and their order. -/
theorem mem_bucket (t : Table) (b : Bucket) (x : Handle × Slot) :
    x ∈ bucket t b ↔ bucketOfHandle x.1 = b ∧ t.slot x.1 = some x.2 := by
  simp only [bucket, List.mem_filterMap, Option.map_eq_some_iff]
  constructor
  · rintro ⟨w, _, y, here, rfl⟩
    exact ⟨bucketOfHandle_handleOf b w, here⟩
  · rintro ⟨eq, here⟩
    have h := handle_of_bucket eq
    exact ⟨wayOfHandle x.1, mem_ways _, x.2, by rw [h, here], by rw [h]⟩

theorem bucket_rising (t : Table) (b : Bucket) : (bucket t b).Pairwise fun x y => x.1 < y.1 := by
  refine List.Pairwise.filterMap _ (R := fun v w : Way => v < w) ?_ (by decide)
  intro v w lt x hx y hy
  obtain ⟨_, _, rfl⟩ := Option.map_eq_some_iff.mp hx
  obtain ⟨_, _, rfl⟩ := Option.map_eq_some_iff.mp hy
  exact handleOf_lt b lt

theorem freeWay_none (t : Table) (b : Bucket) :
    freeWay t b = none ↔ ∀ k, bucketOfHandle k = b → t.slot k ≠ none := by
  simp only [freeWay, List.find?_eq_none, List.mem_map, Option.isNone_iff_eq_none]
  constructor
  · intro all k eq
    exact all k ⟨wayOfHandle k, mem_ways _, handle_of_bucket eq⟩
  · rintro all _ ⟨w, _, rfl⟩
    exact all _ (bucketOfHandle_handleOf b w)

/-- The first that a search finds in a sorted list. -/
theorem find?_first {α : Type} {l : List α} {p : α → Bool} {r : α → α → Prop} (sorted : l.Pairwise r) {a : α}
    (found : l.find? p = some a) : a ∈ l ∧ p a = true ∧ ∀ x ∈ l, p x = true → x = a ∨ r a x := by
  induction l with
  | nil => cases found
  | cons y l ih =>
    rw [List.find?_cons] at found
    obtain ⟨below, sorted⟩ := List.pairwise_cons.mp sorted
    split at found
    · rename_i yes
      cases found
      refine ⟨List.mem_cons_self, yes, fun x mem _ => ?_⟩
      rcases List.mem_cons.mp mem with rfl | mem
      · exact Or.inl rfl
      · exact Or.inr (below x mem)
    · rename_i no
      obtain ⟨mem, yes, first⟩ := ih sorted found
      refine ⟨List.mem_cons_of_mem _ mem, yes, fun x mx px => ?_⟩
      rcases List.mem_cons.mp mx with rfl | mx
      · rw [no] at px
        cases px
      · exact first x mx px

/-- R18: the lowest-numbered free way. -/
theorem freeWay_some {t : Table} {b : Bucket} {h : Handle} (found : freeWay t b = some h) :
    bucketOfHandle h = b ∧ t.slot h = none ∧ ∀ k, bucketOfHandle k = b → t.slot k = none → h ≤ k := by
  have sorted : (([0, 1, 2, 3] : List Way).map (handleOf b)).Pairwise (· < ·) :=
    List.pairwise_map.mpr (List.Pairwise.imp (fun lt => handleOf_lt b lt) (by decide : List.Pairwise (· < ·) ([0, 1, 2, 3] : List Way)))
  obtain ⟨mem, yes, first⟩ := find?_first sorted found
  obtain ⟨w, _, rfl⟩ := List.mem_map.mp mem
  refine ⟨bucketOfHandle_handleOf b w, Option.isNone_iff_eq_none.mp yes, fun k eq none => ?_⟩
  rcases first k (List.mem_map.mpr ⟨_, mem_ways _, handle_of_bucket eq⟩) (by rw [none]; rfl) with rfl | lt
  · exact BitVec.le_refl _
  · exact BitVec.le_of_lt lt

theorem oldest_concat (l : List (Handle × Slot)) (x : Handle × Slot) :
    oldest (l ++ [x]) = match oldest l with
      | none => some x
      | some y => if x.2.entry.stamp < y.2.entry.stamp then some x else some y := by
  rw [oldest, List.foldl_append]
  rfl

/-- R18: the oldest stamp, the lower way between equal ones. -/
theorem oldest_spec (l : List (Handle × Slot)) (sorted : l.Pairwise fun x y => x.1 < y.1) :
    match oldest l with
    | none => l = []
    | some x => x ∈ l ∧ ∀ y ∈ l, x.2.entry.stamp < y.2.entry.stamp ∨
        (x.2.entry.stamp = y.2.entry.stamp ∧ x.1 ≤ y.1) := by
  induction l using List.reverseRecOn with
  | nil => rfl
  | append_singleton l x ih =>
    obtain ⟨sorted, _, below⟩ := List.pairwise_append.mp sorted
    have ih := ih sorted
    rw [oldest_concat]
    cases best : oldest l with
    | none =>
      rw [best] at ih
      subst ih
      simp
    | some y =>
      rw [best] at ih
      obtain ⟨mem, least⟩ := ih
      have lt := below y mem x (List.mem_singleton.mpr rfl)
      dsimp only
      by_cases younger : x.2.entry.stamp < y.2.entry.stamp
      · rw [if_pos younger]
        refine ⟨by simp, fun z mz => ?_⟩
        rcases List.mem_append.mp mz with mz | mz
        · refine Or.inl ?_
          rcases least z mz with lt | ⟨eq, _⟩
          · exact BitVec.lt_trans younger lt
          · rw [← eq]
            exact younger
        · rw [List.mem_singleton.mp mz]
          exact Or.inr ⟨rfl, BitVec.le_refl _⟩
      · rw [if_neg younger]
        refine ⟨by simp [mem], fun z mz => ?_⟩
        rcases List.mem_append.mp mz with mz | mz
        · exact least z mz
        · rw [List.mem_singleton.mp mz]
          by_cases older : y.2.entry.stamp < x.2.entry.stamp
          · exact Or.inl older
          · refine Or.inr ⟨BitVec.le_antisymm (BitVec.not_lt.mp younger) (BitVec.not_lt.mp older), BitVec.le_of_lt lt⟩

end Table

/-! ### Occupancy lists -/

theorem holderOf_addPort_same (p : Port) (h : Handle) (l : List (Port × Handle)) :
    holderOf p (addPort p h l) = some h := by
  induction l with
  | nil => simp [addPort, holderOf]
  | cons x l ih =>
    unfold addPort
    split
    · simp [holderOf]
    · split
      · simp [holderOf]
      · rename_i ne
        simp only [holderOf] at ih ⊢
        rw [List.find?_cons_of_neg (by simpa using Ne.symm ne)]
        exact ih

theorem holderOf_addPort_other {p q : Port} (h : Handle) (l : List (Port × Handle)) (ne : q ≠ p) :
    holderOf q (addPort p h l) = holderOf q l := by
  induction l with
  | nil => simp [addPort, holderOf, Ne.symm ne]
  | cons x l ih =>
    unfold addPort
    split
    · simp [holderOf, Ne.symm ne]
    · split
      · rename_i eq
        have nx : ¬ x.1 = q := fun c => ne (c ▸ eq.symm)
        simp [holderOf, Ne.symm ne, nx]
      · simp only [holderOf, List.find?_cons] at ih ⊢
        split
        · rfl
        · exact ih

theorem holderOf_dropPort_same (p : Port) (l : List (Port × Handle)) : holderOf p (dropPort p l) = none := by
  simp [holderOf, dropPort, List.find?_filter]

theorem holderOf_dropPort_other {p q : Port} (l : List (Port × Handle)) (ne : q ≠ p) :
    holderOf q (dropPort p l) = holderOf q l := by
  induction l with
  | nil => rfl
  | cons x l ih =>
    have ih' : holderOf q (List.filter (fun y => y.1 != p) l) = holderOf q l := ih
    by_cases eq : x.1 = p
    · have nx : ¬ x.1 = q := fun c => ne (c ▸ eq)
      simp only [holderOf, dropPort] at ih' ⊢
      simp only [List.filter_cons, eq, bne_self_eq_false, Bool.false_eq_true, if_false]
      rw [ih', List.find?_cons_of_neg (by simpa using nx)]
    · simp only [holderOf, dropPort] at ih' ⊢
      simp only [List.filter_cons, bne_iff_ne, ne_eq, eq, not_false_eq_true, if_true, List.find?_cons]
      split
      · rfl
      · exact ih'

/-! ### Sets of buckets -/

theorem mem_addBucket (b c : Bucket) (l : List Bucket) : c ∈ addBucket b l ↔ c = b ∨ c ∈ l := by
  induction l with
  | nil => simp [addBucket]
  | cons x l ih =>
    unfold addBucket
    split
    · simp
    · split
      · rename_i eq
        simp [eq]
      · simp only [List.mem_cons, ih]
        tauto

/-- R101: the Resend Set stays rising. -/
theorem addBucket_rising (b : Bucket) {l : List Bucket} (rising : l.Pairwise (· < ·)) :
    (addBucket b l).Pairwise (· < ·) := by
  induction l with
  | nil => exact List.pairwise_singleton _ _
  | cons x l ih =>
    obtain ⟨below, rest⟩ := List.pairwise_cons.mp rising
    unfold addBucket
    split
    · rename_i lt
      refine List.pairwise_cons.mpr ⟨fun y my => ?_, rising⟩
      rcases List.mem_cons.mp my with rfl | my
      · exact lt
      · exact BitVec.lt_trans lt (below y my)
    · split
      · exact rising
      · rename_i notLt ne
        refine List.pairwise_cons.mpr ⟨fun y my => ?_, ih rest⟩
        rcases (mem_addBucket b y l).mp my with rfl | my
        · exact BitVec.lt_def.mpr (Nat.lt_of_le_of_ne (BitVec.le_def.mp (BitVec.not_lt.mp notLt)) fun eq => ne (BitVec.eq_of_toNat_eq eq).symm)
        · exact below y my

theorem allBuckets_rising : allBuckets.Pairwise (· < ·) := by
  refine List.pairwise_map.mpr (List.Pairwise.imp_of_mem ?_ (List.pairwise_lt_range (n := 4096)))
  intro a b ma mb lt
  have ha := List.mem_range.mp ma
  have hb := List.mem_range.mp mb
  simp only [BitVec.lt_def, BitVec.toNat_ofNat]
  omega

end Sys2Proof.Machine
end

