-- ==== Sys2Proof/Laws/Ops.lean ====
section
/-!
SUPPORT. What the shared operations on the session table, the translation unit, the journal and the requests can change,
once for all of them, and what they leave in each slot.
-/

namespace Sys2Proof.Machine

open Sys2Proof

/-! ### The frame of a bucket operation -/

/-- `t` is `s` but for the table, the translation unit, the journal, the Resend Set and the event flags: what the offers,
insertions, removals and displacements of a bucket operation may change. -/
def TableFrame (s t : State) : Prop :=
  ∃ table xlate journal resend flags, t = { s with
    table := table, xlate := xlate, journal := journal, recon.resend := resend, port.flags := flags }

theorem TableFrame.refl (s : State) : TableFrame s s := ⟨_, _, _, _, _, rfl⟩

theorem TableFrame.trans {s t u : State} (a : TableFrame s t) (b : TableFrame t u) : TableFrame s u := by
  obtain ⟨_, _, _, _, _, rfl⟩ := a
  obtain ⟨_, _, _, _, _, rfl⟩ := b
  exact ⟨_, _, _, _, _, rfl⟩

theorem writeEntry_tableFrame (h : Handle) (e : Entry) (s : State) : TableFrame s (writeEntry h e s) :=
  ⟨_, _, _, _, _, rfl⟩

theorem mapPool_tableFrame (g : GroupId) (f : Pool → Pool) (s : State) : TableFrame s (mapPool g f s) :=
  ⟨_, _, _, _, _, rfl⟩

theorem releasePort_tableFrame (e : Entry) (s : State) : TableFrame s (releasePort e s) := by
  unfold releasePort
  split
  · exact .refl s
  · exact mapPool_tableFrame _ _ s

theorem joinPort_tableFrame (h : Handle) (e : Entry) (s : State) : TableFrame s (joinPort h e s) := by
  unfold joinPort
  split
  · exact .refl s
  · exact mapPool_tableFrame _ _ s

theorem movePort_tableFrame (h : Handle) (old new : Entry) (s : State) : TableFrame s (movePort h old new s) := by
  unfold movePort
  split
  · exact .refl s
  · exact (releasePort_tableFrame old s).trans (joinPort_tableFrame h new _)

theorem moveCursor_tableFrame (g : GroupId) (p : Port) (s : State) : TableFrame s (moveCursor g p s) :=
  mapPool_tableFrame _ _ s

theorem removeEntry_tableFrame (h : Handle) (s : State) : TableFrame s (removeEntry h s) := by
  unfold removeEntry
  split
  · exact .refl s
  · rename_i e _
    exact (releasePort_tableFrame e s).trans ⟨_, _, _, _, _, rfl⟩

theorem insertEntry_tableFrame (h : Handle) (e : Entry) (s : State) : TableFrame s (insertEntry h e s) := by
  have written := (joinPort_tableFrame h e s).trans
    (writeEntry_tableFrame h { e with pending := s.journal.unsentOf e.key e.incarnation } _)
  unfold insertEntry
  dsimp only
  split
  · exact written
  · exact written.trans ⟨_, _, _, _, _, rfl⟩

theorem insertAt_tableFrame (p : Place) (e : Entry) (s : State) : TableFrame s (insertAt p e s) := by
  unfold insertAt
  split
  · exact insertEntry_tableFrame _ e s
  · exact (removeEntry_tableFrame _ s).trans (insertEntry_tableFrame _ e _)
  · exact .refl s

theorem displace_tableFrame (holder : Option Handle) (s : State) : TableFrame s (displace holder s) := by
  unfold displace
  split
  · exact removeEntry_tableFrame _ s
  · exact .refl s

theorem offer_tableFrame (h : Handle) (s : State) : TableFrame s (offer h s).1 := by
  unfold offer
  split
  · exact .refl s
  · split
    · exact .refl s
    · split
      · exact ⟨_, _, _, _, _, rfl⟩
      · split <;> exact ⟨_, _, _, _, _, rfl⟩

theorem updateEntry_tableFrame (h : Handle) (old new : Entry) (s : State) :
    TableFrame s (updateEntry h old new s) := by
  unfold updateEntry
  dsimp only
  split
  · exact (writeEntry_tableFrame h new s).trans (offer_tableFrame h _)
  · exact writeEntry_tableFrame h new s

/-! ### The slots after an operation -/

theorem entryAt_writeEntry (h k : Handle) (e : Entry) (s : State) :
    (writeEntry h e s).entryAt k = if k = h then some e else s.entryAt k := by
  unfold State.entryAt
  rw [writeEntry_table, Table.slot_put]
  split <;> rfl

theorem releasePort_table (e : Entry) (s : State) : (releasePort e s).table = s.table := by
  unfold releasePort
  split <;> rfl

theorem joinPort_table (h : Handle) (e : Entry) (s : State) : (joinPort h e s).table = s.table := by
  unfold joinPort
  split <;> rfl

theorem movePort_table (h : Handle) (old new : Entry) (s : State) : (movePort h old new s).table = s.table := by
  unfold movePort
  split
  · rfl
  · rw [joinPort_table, releasePort_table]

theorem entryAt_of_table {s t : State} (eq : t.table = s.table) (k : Handle) : t.entryAt k = s.entryAt k := by
  unfold State.entryAt
  rw [eq]

/-- R22: the slot is free, and every other slot is as it was. -/
theorem entryAt_removeEntry (h k : Handle) (s : State) :
    (removeEntry h s).entryAt k = if k = h then none else s.entryAt k := by
  unfold removeEntry
  split
  · rename_i none
    split
    · rename_i eq
      rw [eq, none]
    · rfl
  · unfold State.entryAt
    dsimp only
    rw [releasePort_table, Table.slot_free]
    split <;> rfl

/-- R18, R8: the slot holds the entry, with the pending mark that the journal gives it. -/
theorem entryAt_insertEntry (h k : Handle) (e : Entry) (s : State) :
    (insertEntry h e s).entryAt k =
      if k = h then some { e with pending := s.journal.unsentOf e.key e.incarnation } else s.entryAt k := by
  have written := entryAt_writeEntry h k { e with pending := s.journal.unsentOf e.key e.incarnation } (joinPort h e s)
  rw [entryAt_of_table (joinPort_table h e s) k] at written
  unfold insertEntry
  dsimp only
  split <;> exact written

theorem entryAt_displace (holder : Option Handle) (k : Handle) (s : State) :
    (displace holder s).entryAt k = if holder = some k then none else s.entryAt k := by
  unfold displace
  cases holder with
  | none => simp
  | some h =>
    rw [entryAt_removeEntry]
    simp only [Option.some.injEq]
    exact if_congr eq_comm rfl rfl

/-- R81 to R83: an offer changes no slot but the entry's own, and there the confirmation and the pending mark alone. -/
theorem entryAt_offer_other {h k : Handle} (s : State) (ne : k ≠ h) : (offer h s).1.entryAt k = s.entryAt k := by
  unfold offer
  split
  · rfl
  · split
    · rfl
    · split
      · exact (entryAt_writeEntry h k _ _).trans (if_neg ne)
      · split
        · rfl
        · exact (entryAt_writeEntry h k _ _).trans (if_neg ne)

theorem entryAt_offer_same {h : Handle} {e : Entry} (s : State) (here : s.entryAt h = some e) :
    ∃ confirmation pending,
      (offer h s).1.entryAt h = some { e with confirmation := confirmation, pending := pending } := by
  unfold offer
  rw [here]
  dsimp only
  split
  · exact ⟨_, _, here⟩
  · split
    · exact ⟨_, _, (entryAt_writeEntry h h _ _).trans (if_pos rfl)⟩
    · split
      · exact ⟨_, _, here⟩
      · exact ⟨_, _, (entryAt_writeEntry h h _ _).trans (if_pos rfl)⟩

/-- R81 to R83: what an offer leaves, by the first case that applies. -/
theorem offer_offered {h : Handle} {e : Entry} (s : State) (here : s.entryAt h = some e) :
    s.offered (offer h s).1 s.journal h e := by
  have written (e' : Entry) (u : State) : (writeEntry h e' u).entryAt h = some e' :=
    (entryAt_writeEntry h h e' u).trans (if_pos rfl)
  unfold State.offered offer
  rw [here]
  dsimp only
  by_cases accepted : s.holds e.group = true ∧ s.partnerPresent = true
  · obtain ⟨held, present⟩ := accepted
    simp only [held, present, Bool.not_true, Bool.or_self, Bool.false_eq_true, if_false]
    cases e.pending with
    | some q =>
      refine ⟨fun no => (no ⟨trivial, trivial⟩).elim, fun p _ eq => ?_, nofun, nofun⟩
      cases eq
      exact ⟨written _ _, rfl, rfl, rfl⟩
    | none =>
      refine ⟨fun no => (no ⟨trivial, trivial⟩).elim, nofun, fun _ _ full => ?_, fun _ _ room => ?_⟩
      · have full : s.journal.full = true := decide_eq_true full
        simp only [full, if_true]
        exact ⟨here, rfl, rfl, rfl⟩
      · have room : s.journal.full = false := decide_eq_false (Nat.not_le.mpr room)
        simp only [room, Bool.false_eq_true, if_false]
        exact ⟨written _ _, rfl, rfl, rfl⟩
  · have no : (!s.holds e.group || !s.partnerPresent) = true := by
      rw [Bool.or_eq_true, Bool.not_eq_true', Bool.not_eq_true']
      cases held : s.holds e.group with
      | false => exact Or.inl rfl
      | true =>
        refine Or.inr ?_
        cases present : s.partnerPresent with
        | false => rfl
        | true => exact (accepted ⟨held, present⟩).elim
    rw [if_pos no]
    exact ⟨fun _ => ⟨here, rfl, rfl, rfl⟩, fun _ yes => (accepted yes).elim, fun yes => (accepted yes).elim,
      fun yes => (accepted yes).elim⟩

theorem entryAt_updateEntry_other {h k : Handle} (old new : Entry) (s : State) (ne : k ≠ h) :
    (updateEntry h old new s).entryAt k = s.entryAt k := by
  have written := (entryAt_writeEntry h k new s).trans (if_neg ne)
  unfold updateEntry
  dsimp only
  split
  · rw [entryAt_offer_other _ ne, written]
  · exact written

/-- The slot holds the new content, but for the confirmation and the pending mark that the offer may write. -/
theorem entryAt_updateEntry_same (h : Handle) (old new : Entry) (s : State) :
    ∃ confirmation pending,
      (updateEntry h old new s).entryAt h = some { new with confirmation := confirmation, pending := pending } := by
  have written := (entryAt_writeEntry h h new s).trans (if_pos rfl)
  unfold updateEntry
  dsimp only
  split
  · exact entryAt_offer_same _ written
  · exact ⟨_, _, written⟩

/-! ### Finding a slot and a port -/

/-- A candidate of an insertion policy in bucket `b` (R18). -/
def Candidate (t : Table) (b : Bucket) (may : Entry → Bool) (h : Handle) (x : Slot) : Prop :=
  bucketOfHandle h = b ∧ t.slot h = some x ∧ x.entry.pending = none ∧ may x.entry = true

theorem mem_candidates (t : Table) (b : Bucket) (may : Entry → Bool) (x : Handle × Slot) :
    x ∈ (t.bucket b).filter (fun x => x.2.entry.pending.isNone && may x.2.entry) ↔ Candidate t b may x.1 x.2 := by
  rw [List.mem_filter, Table.mem_bucket, Bool.and_eq_true, Option.isNone_iff_eq_none]
  exact and_assoc

/-- R18: the slot that an insertion policy finds. -/
theorem placeIn_spec (t : Table) (b : Bucket) (may : Entry → Bool) :
    match placeIn t b may with
    | .free h => bucketOfHandle h = b ∧ t.slot h = none ∧ ∀ k, bucketOfHandle k = b → t.slot k = none → h ≤ k
    | .evict h => (∀ k, bucketOfHandle k = b → t.slot k ≠ none) ∧ ∃ x, Candidate t b may h x ∧
        ∀ k y, Candidate t b may k y → x.entry.stamp < y.entry.stamp ∨ (x.entry.stamp = y.entry.stamp ∧ h ≤ k)
    | .full => (∀ k, bucketOfHandle k = b → t.slot k ≠ none) ∧ ∀ k y, ¬ Candidate t b may k y := by
  unfold placeIn
  cases free : t.freeWay b with
  | some h => exact Table.freeWay_some free
  | none =>
    have full := (Table.freeWay_none t b).mp free
    have least := Table.oldest_spec _ ((Table.bucket_rising t b).filter fun x => x.2.entry.pending.isNone && may x.2.entry)
    dsimp only
    cases best : Table.oldest ((t.bucket b).filter fun x => x.2.entry.pending.isNone && may x.2.entry) with
    | some x =>
      rw [best] at least
      exact ⟨full, x.2, (mem_candidates t b may x).mp least.1,
        fun k y cand => least.2 (k, y) ((mem_candidates t b may (k, y)).mpr cand)⟩
    | none =>
      rw [best] at least
      refine ⟨full, fun k y cand => ?_⟩
      have mem := (mem_candidates t b may (k, y)).mpr cand
      rw [least] at mem
      cases mem

/-- R71: the search finds the first port from `p` on that is neither taken nor quarantined. -/
theorem searchPort_some (occupied : List (Port × Handle)) (quarantine : List Block) (fuel : Nat) (p r : Port) :
    searchPort occupied quarantine fuel p = some r ↔
      ∃ n < fuel, r = portAfter^[n] p ∧ (holderOf r occupied).isSome = false ∧ quarantine.contains (blockOf r) = false ∧
        ∀ m < n, (holderOf (portAfter^[m] p) occupied).isSome = true
          ∨ quarantine.contains (blockOf (portAfter^[m] p)) = true := by
  induction fuel generalizing p with
  | zero => simp [searchPort]
  | succ fuel ih =>
    unfold searchPort
    by_cases taken : ((holderOf p occupied).isSome || quarantine.contains (blockOf p)) = true
    · rw [if_pos taken, ih]
      constructor
      · rintro ⟨n, lt, eq, free, out, all⟩
        refine ⟨n + 1, by omega, eq, free, out, fun m lm => ?_⟩
        match m with
        | 0 => simpa using taken
        | m + 1 => exact all m (by omega)
      · rintro ⟨n, lt, rfl, free, out, all⟩
        rcases n with _ | n
        · rw [Function.iterate_zero_apply] at free out
          rw [free, out] at taken
          exact Bool.noConfusion taken
        · exact ⟨n, by omega, rfl, free, out, fun m lm => all (m + 1) (by omega)⟩
    · rw [if_neg taken]
      constructor
      · intro eq
        cases eq
        simp only [Bool.or_eq_true, not_or, Bool.not_eq_true] at taken
        exact ⟨0, by omega, rfl, taken.1, taken.2, fun m lm => by omega⟩
      · rintro ⟨n, lt, rfl, free, out, all⟩
        rcases n with _ | n
        · rfl
        · exact (taken (Bool.or_eq_true_iff.mpr (all 0 (by omega)))).elim

theorem searchPort_none (occupied : List (Port × Handle)) (quarantine : List Block) (fuel : Nat) (p : Port) :
    searchPort occupied quarantine fuel p = none ↔
      ∀ n < fuel, (holderOf (portAfter^[n] p) occupied).isSome = true
        ∨ quarantine.contains (blockOf (portAfter^[n] p)) = true := by
  induction fuel generalizing p with
  | zero => simp [searchPort]
  | succ fuel ih =>
    unfold searchPort
    by_cases taken : ((holderOf p occupied).isSome || quarantine.contains (blockOf p)) = true
    · rw [if_pos taken, ih]
      constructor
      · intro all n lt
        match n with
        | 0 => simpa using taken
        | n + 1 => exact all n (by omega)
      · exact fun all n lt => all (n + 1) (by omega)
    · rw [if_neg taken]
      simp only [reduceCtorEq, false_iff, not_forall]
      exact ⟨0, by omega, by simpa using taken⟩

/-! ### A clear of the journal -/

/-- R92: a clear of the journal changes no slot but its pending mark. -/
theorem slot_journalClear (s : State) (h : Handle) :
    (journalClear s).table.slot h = (s.table.slot h).map Slot.withoutPending :=
  Table.slot_map s.table Slot.withoutPending h

/-! ### The form of the table -/

theorem wf_writeEntry (h : Handle) (e : Entry) (s : State) (ok : s.table.wf = true) :
    (writeEntry h e s).table.wf = true :=
  Table.wf_put s.table h _ ok

theorem wf_removeEntry (h : Handle) (s : State) (ok : s.table.wf = true) : (removeEntry h s).table.wf = true := by
  unfold removeEntry
  split
  · exact ok
  · exact Table.wf_free _ h ((congrArg Table.wf (releasePort_table _ s)).trans ok)

theorem wf_insertEntry (h : Handle) (e : Entry) (s : State) (ok : s.table.wf = true) :
    (insertEntry h e s).table.wf = true := by
  have written := wf_writeEntry h { e with pending := s.journal.unsentOf e.key e.incarnation } (joinPort h e s)
    ((congrArg Table.wf (joinPort_table h e s)).trans ok)
  unfold insertEntry
  dsimp only
  split <;> exact written

theorem wf_displace (holder : Option Handle) (s : State) (ok : s.table.wf = true) :
    (displace holder s).table.wf = true := by
  unfold displace
  split
  · exact wf_removeEntry _ s ok
  · exact ok

theorem wf_insertAt (p : Place) (e : Entry) (s : State) (ok : s.table.wf = true) :
    (insertAt p e s).table.wf = true := by
  unfold insertAt
  split
  · exact wf_insertEntry _ e s ok
  · exact wf_insertEntry _ e _ (wf_removeEntry _ s ok)
  · exact ok

theorem wf_offer (h : Handle) (s : State) (ok : s.table.wf = true) : (offer h s).1.table.wf = true := by
  unfold offer
  split
  · exact ok
  · split
    · exact ok
    · split
      · exact wf_writeEntry h _ _ ok
      · split
        · exact ok
        · exact wf_writeEntry h _ _ ok

theorem wf_updateEntry (h : Handle) (old new : Entry) (s : State) (ok : s.table.wf = true) :
    (updateEntry h old new s).table.wf = true := by
  unfold updateEntry
  dsimp only
  split
  · exact wf_offer h _ (wf_writeEntry h new s ok)
  · exact wf_writeEntry h new s ok

theorem wf_journalClear (s : State) (ok : s.table.wf = true) : (journalClear s).table.wf = true :=
  Table.wf_map s.table Slot.withoutPending ok

/-! ### The journal -/

theorem append_length (j : Journal) (body : RecordBody) (slot : Option Handle) :
    (j.append body slot).records.length = j.records.length + 1 := by
  simp [Journal.append]

theorem mapRecord_length (j : Journal) (q : Seq) (f : JournalRecord → JournalRecord) :
    (j.mapRecord q f).records.length = j.records.length := by
  simp [Journal.mapRecord]

/-- A rewrite that keeps every sequence keeps the sequences of the journal. -/
theorem mapRecord_seq (j : Journal) (q : Seq) (f : JournalRecord → JournalRecord) (keep : ∀ r, (f r).seq = r.seq) :
    (j.mapRecord q f).records.map (·.seq) = j.records.map (·.seq) := by
  simp only [Journal.mapRecord, List.map_map]
  refine List.map_congr_left fun r _ => ?_
  dsimp only [Function.comp_apply]
  split
  · exact keep r
  · rfl

/-! ### Verification and FAULT -/

theorem bucketOperation_sound (c : Client) (b : Bucket) (f : State → State) (s : State) (ok : s.table.sound b = true) :
    bucketOperation c b f s = f s := if_pos ok

theorem bucketOperation_unsound (c : Client) (b : Bucket) (f : State → State) (s : State)
    (bad : s.table.sound b = false) : bucketOperation c b f s = integrityFailure c b s := by
  unfold bucketOperation
  rw [bad]
  rfl

/-- R185: a station that is not active stays as it is. -/
theorem enterFault_inactive (k : FaultKind) (s : State) (rest : s.life.active = false) : enterFault k s = s := by
  unfold enterFault
  rw [rest]
  rfl

theorem raiseLines_life (s : State) : (raiseLines s).life = s.life := by
  unfold raiseLines raiseIf
  split <;> rfl

theorem raiseLines_presence (s : State) : (raiseLines s).presence = s.presence := by
  unfold raiseLines raiseIf
  split <;> rfl

theorem answerRejoin_presence (k : FaultKind) (s : State) : (answerRejoin k s).presence = s.presence := by
  unfold answerRejoin
  split
  · unfold respond
    dsimp only
    split <;> rfl
  · rfl

/-- R184: the presence unit on entry to FAULT. -/
theorem enterFault_presence (k : FaultKind) (s : State) (active : s.life.active = true) :
    (enterFault k s).presence = { s.presence with
      records := Four.build fun p => { s.peer p with deadTimer := false }
      beaconTimer := false
      life := .fault
      faultKind := k
      listenTimer := false
      heldAtFault := s.heldSet } := by
  unfold enterFault
  rw [active]
  exact (answerRejoin_presence k _).trans (raiseLines_presence _)

theorem raiseLines_table (s : State) : (raiseLines s).table = s.table := by
  unfold raiseLines raiseIf
  split <;> rfl

theorem answerRejoin_table (k : FaultKind) (s : State) : (answerRejoin k s).table = s.table := by
  unfold answerRejoin
  split
  · unfold respond
    dsimp only
    split <;> rfl
  · rfl

/-- R184: the table on entry to FAULT is kept but for the pending marks that the clear makes absent. -/
theorem enterFault_table (k : FaultKind) (s : State) (active : s.life.active = true) :
    (enterFault k s).table = (journalClear s).table := by
  unfold enterFault
  rw [active]
  exact (answerRejoin_table k _).trans (raiseLines_table _)

theorem wf_enterFault (k : FaultKind) (s : State) (ok : s.table.wf = true) : (enterFault k s).table.wf = true := by
  cases active : s.life.active with
  | false => rwa [enterFault_inactive k s active]
  | true => rw [enterFault_table k s active]; exact wf_journalClear s ok

/-! ### The verification of a clear -/

theorem failedClear_none (t : Table) : t.failedClear = none ↔ ∀ x ∈ t, x.2.resistsClear = false := by
  simp [Table.failedClear]

/-- R92: a clear at which every slot with a pending mark verifies. -/
theorem verifyClear_sound (s : State) (ok : s.table.failedClear = none) : verifyClear s = s := by
  unfold verifyClear
  rw [ok]

/-- R92, R87: a clear at which a slot fails. -/
theorem verifyClear_failed (s : State) (b : Bucket) (bad : s.table.failedClear = some b) :
    verifyClear s = integrityFailure .composition b s := by
  unfold verifyClear
  rw [bad]

theorem wf_verifyClear (s : State) (ok : s.table.wf = true) : (verifyClear s).table.wf = true := by
  unfold verifyClear
  split
  · exact ok
  · exact wf_enterFault _ _ ok

/-! ### Requests and frames -/

/-- R27: a request of its kind is taken. -/
theorem onRequest_taken (k : BitVec 7) (f : Request → State → State) (s : State) (r : Request)
    (run : s.phase = .running) (head : s.nextRequest = some r) (kind : r.kind = k) :
    onRequest k f s = f r (takeRequest s) := by
  unfold onRequest
  rw [whenLive_running _ s run, head]
  exact if_pos kind

/-- A request of another kind waits. -/
theorem onRequest_other (k : BitVec 7) (f : Request → State → State) (s : State) (r : Request)
    (run : s.phase = .running) (head : s.nextRequest = some r) (kind : r.kind ≠ k) : onRequest k f s = s := by
  unfold onRequest
  rw [whenLive_running _ s run, head]
  exact if_neg kind

/-- R128: the end of a transmission that is taken. -/
theorem onTransmission_taken (f : State → State) (s : State) (run : s.phase = .running) (takes : s.takesFrames = true) :
    onTransmission f s = f s := by
  unfold State.takesFrames at takes
  simp only [Bool.and_eq_true, Bool.not_eq_true'] at takes
  unfold onTransmission
  rw [whenLive_running _ s run, takes.2, takes.1]
  rfl

/-- R181: the end of a transmission that began in SETUP. -/
theorem onTransmission_straddling (f : State → State) (s : State) (run : s.phase = .running)
    (began : s.bus.straddling = true) : onTransmission f s = { s with bus.straddling := false } := by
  unfold onTransmission
  rw [whenLive_running _ s run, began]
  rfl

/-- R119, R128: a station that is not active takes no transmission. -/
theorem onTransmission_inactive (f : State → State) (s : State) (run : s.phase = .running)
    (rest : s.life.active = false) (clear : s.bus.straddling = false) : onTransmission f s = s := by
  unfold onTransmission
  rw [whenLive_running _ s run, clear, rest]
  rfl

/-- R128, R129: a frame of another station reaches its block. -/
theorem onFrame_other (kind : Byte) (source : Station) (f : State → State) (s : State) (run : s.phase = .running)
    (takes : s.takesFrames = true) (ne : source ≠ s.me) : onFrame kind source f s = f s := by
  unfold onFrame
  rw [onTransmission_taken _ s run takes]
  exact if_neg ne

/-- R129: a frame that bears this station's own number. -/
theorem onFrame_own (kind : Byte) (f : State → State) (s : State) (run : s.phase = .running)
    (takes : s.takesFrames = true) : onFrame kind s.me f s = duplicateNumber kind s := by
  unfold onFrame
  rw [onTransmission_taken _ s run takes]
  exact if_pos rfl

/-! ### The arbiter -/

/-- R25: the grant of a client while none of higher priority waits. -/
theorem whenGranted_free (k : Client) (f : State → State) (s : State) (free : s.higherWaits k = false) :
    whenGranted k f s = f s := by
  unfold whenGranted
  rw [free]
  rfl

/-- R25: a client waits while one of higher priority does. -/
theorem whenGranted_waiting (k : Client) (f : State → State) (s : State) (higher : s.higherWaits k = true) :
    whenGranted k f s = s := by
  unfold whenGranted
  rw [higher]
  rfl

/-- R25: the request engine's work while receive apply does not wait. -/
theorem whenEngineGranted_free (f : State → State) (s : State) (free : s.higherWaits .request = false) :
    whenEngineGranted f s = f s := by
  unfold whenEngineGranted
  rw [whenGranted_free _ _ _ free]
  exact ite_self _

/-- R27: work that makes no bucket operation needs no grant. -/
theorem whenEngineGranted_tableless (f : State → State) (s : State) (none : s.engineWaits = false) :
    whenEngineGranted f s = f s := by
  unfold whenEngineGranted
  rw [none]
  rfl

/-- R25: receive apply stands highest. -/
theorem higherWaits_receiveApply (s : State) : s.higherWaits .receiveApply = false := rfl

theorem higherWaits_request (s : State) : s.higherWaits .request = s.joinWaits := by
  simp [State.higherWaits, Client.all, Client.code, State.waits]

theorem higherWaits_reader (s : State) : s.higherWaits .reader = (s.joinWaits || s.engineWaits) := by
  simp [State.higherWaits, Client.all, Client.code, State.waits]

theorem higherWaits_aging (s : State) : s.higherWaits .aging = (s.joinWaits || s.engineWaits || s.readerWaits) := by
  simp [State.higherWaits, Client.all, Client.code, State.waits, Bool.or_assoc]

theorem higherWaits_cursor (s : State) :
    s.higherWaits .cursor = (s.joinWaits || s.engineWaits || s.readerWaits || s.agingWaits) := by
  simp [State.higherWaits, Client.all, Client.code, State.waits, Bool.or_assoc]

/-! ### The records of a frame -/

/-- `t` is `s` but for the receive half, the receipt, the last-seen blocks, and the TABLE flag with its capture: what the
taking of records may change. -/
def TakeFrame (s t : State) : Prop :=
  ∃ receive xlate receipt transmitting flags capture, t = { s with
    receive := receive, xlate := xlate, bus.receiptSlot := receipt, bus.transmitting := transmitting
    port.flags := flags, port.tableCapture := capture }

theorem TakeFrame.refl (s : State) : TakeFrame s s := ⟨_, _, _, _, _, _, rfl⟩

theorem TakeFrame.trans {s t u : State} (a : TakeFrame s t) (b : TakeFrame t u) : TakeFrame s u := by
  obtain ⟨_, _, _, _, _, _, rfl⟩ := a
  obtain ⟨_, _, _, _, _, _, rfl⟩ := b
  exact ⟨_, _, _, _, _, _, rfl⟩

theorem finishDelta_frame (s : State) : TakeFrame s (finishDelta s) := by
  unfold finishDelta placeReceipt
  dsimp only
  split <;> exact ⟨_, _, _, _, _, _, rfl⟩

theorem noteBlock_frame (c : EntryContent) (s : State) : TakeFrame s (noteBlock c s) := by
  unfold noteBlock
  split
  · exact .refl s
  · exact ⟨_, _, _, _, _, _, rfl⟩

theorem takeRecords_frame (source : Station) (l : List WireRecord) (s : State) :
    TakeFrame s (takeRecords source l s) := by
  induction l generalizing s with
  | nil => exact finishDelta_frame s
  | cons r rest ih =>
    unfold takeRecords
    split
    · exact finishDelta_frame s
    · split
      · exact ih s
      · split
        · exact finishDelta_frame s
        · split
          · split
            · exact TakeFrame.trans ⟨_, _, _, _, _, _, rfl⟩ (ih _)
            · split
              · exact TakeFrame.trans ⟨_, _, _, _, _, _, rfl⟩ (ih _)
              · exact TakeFrame.trans ⟨_, _, _, _, _, _, rfl⟩ (noteBlock_frame _ _)
          · exact ⟨_, _, _, _, _, _, rfl⟩
          · exact ⟨_, _, _, _, _, _, rfl⟩

theorem recordDone_frame (source : Station) (r : WireRecord) (rest : List WireRecord) (s : State) :
    TakeFrame s (recordDone source r rest s) := by
  unfold recordDone
  dsimp only
  have advanced : TakeFrame s (if s.receive.expectation = some r.seq then
      { s with receive.expectation := some (r.seq + 1) } else s) := by
    split <;> exact ⟨_, _, _, _, _, _, rfl⟩
  split
  · exact advanced.trans (finishDelta_frame _)
  · exact advanced.trans ⟨_, _, _, _, _, _, rfl⟩

/-- R95: while a record is in hand, no further one is taken. -/
theorem takeDelta_inHand (s : State) (source : Station) (rest : List WireRecord)
    (hand : s.receive.taking = some ⟨source, rest, true⟩) : takeDelta s = s := by
  unfold takeDelta
  rw [hand]

/-- R25, R95: between two records, the taking of the frame goes on. -/
theorem takeDelta_between (s : State) (source : Station) (rest : List WireRecord)
    (between : s.receive.taking = some ⟨source, rest, false⟩) : takeDelta s = takeRecords source rest s := by
  unfold takeDelta
  rw [between]

end Sys2Proof.Machine
end

