-- ==== Sys2Proof/Tests/Slice0.lean ====
section
/-!
SUPPORT. Tests of the model: the refusals of WellFormed, the manual's worked examples and boundary values, one step at a
time, and for every obligation with hypotheses a state and operands that meet them, clause by clause.
-/

namespace Sys2Proof.Tests

open Sys2Proof Sys2Proof.Machine

set_option Elab.async false

/-! ### WellFormed -/

def streamKey : Key := ⟨.v4 0x0A010005 0xC0000208, 6, 49152, 443⟩
def datagramKey : Key := ⟨.v4 0x0A010005 0xC0000208, 17, 49152, 443⟩

def streamContent : EntryContent :=
  ⟨streamKey, 1, 0, { opened := true }, some Sides.unseen, none, false, 0, 1⟩

def passEndRecord : WireRecord := ⟨7, .passEnd (Four.all false) 1⟩

def observation : Observation :=
  ⟨streamKey, 1, 0, .fromInitiator, { finI := true }, some ⟨600, some 20, 9⟩⟩

theorem test_wellFormed_delta : Instr.wellFormed (.deltaFrame 1 ⟨1, [⟨1, .entry streamContent⟩]⟩) = true := by decide

theorem test_illFormed_delta_empty : Instr.wellFormed (.deltaFrame 1 ⟨1, []⟩) = false := by decide

theorem test_illFormed_delta_nine : Instr.wellFormed (.deltaFrame 1 ⟨1, List.replicate 9 passEndRecord⟩) = false := by
  decide

theorem test_illFormed_entry_not_opened :
    Instr.wellFormed (.deltaFrame 1 ⟨1, [⟨1, .entry { streamContent with marks := { answered := true } }⟩]⟩)
      = false := by decide

theorem test_illFormed_entry_stream :
    Instr.wellFormed (.deltaFrame 1 ⟨1, [⟨1, .entry { streamContent with key := datagramKey }⟩]⟩) = false := by decide

theorem test_illFormed_entry_port :
    Instr.wellFormed (.deltaFrame 1 ⟨1, [⟨1, .entry { streamContent with translation := some 4095 }⟩]⟩) = false := by
  decide

theorem test_illFormed_fetch :
    Instr.wellFormed (.fetchFrame 1 ⟨Four.all true, []⟩) = false
      ∧ Instr.wellFormed (.fetchFrame 1 ⟨Four.all true, List.replicate 17 5⟩) = false := by decide

theorem test_illFormed_digest :
    Instr.wellFormed (.digestFrame 1 ⟨Four.all true, 16, List.replicate 15 0⟩) = false
      ∧ Instr.wellFormed (.digestFrame 1 ⟨Four.all true, 17, List.replicate 16 0⟩) = false := by decide

theorem test_illFormed_relay :
    Instr.wellFormed (.relayFrame 1 { observation with side := none }) = false
      ∧ Instr.wellFormed (.relayFrame 1 { observation with key := datagramKey }) = false := by decide

/-- The table gives no row bits, so no word spells a command. -/
theorem test_decode_none : decodeTableWord 32 0 = none ∧ State.reset.withFetchWord 32 0 = State.reset := ⟨rfl, rfl⟩

/-! ### Conventions -/

theorem test_serial_boundaries :
    serialBefore (5 : Seq) 5 = false ∧ serialBefore (5 : Seq) 6 = true ∧ serialBefore (0 : Seq) 0x7FFFFFFF = true
      ∧ serialBefore (0 : Seq) 0x80000000 = false ∧ serialBefore (0x80000000 : Seq) 0 = false
      ∧ serialBefore (0xFFFFFFFF : Seq) 0 = true ∧ serialMax (0xFFFE : Epoch) 1 = 1
      ∧ serialBefore (0 : Byte) 127 = true ∧ serialBefore (0 : Byte) 128 = false := by decide

/-- The units 4, 6, 0A01, 0005, C000, 0208, C000, 01BB combine to 09B5, which lies below 4,096. -/
theorem test_bucket_fold : bucketOf streamKey = 0x9B5 := by decide

/-- The unit F000 of a port reaches the low bits by the shift: 1 XOR F000 gives F00E with the family and protocol. -/
theorem test_bucket_fold_shift : bucketOf ⟨.v4 0 0, 17, 0xF000, 0⟩ = 0x01A := by decide

/-- Handles (R2) and the ports and blocks of section 4.1. -/
theorem test_handles_and_blocks :
    handleOf 4095 3 = 16383 ∧ bucketOfHandle 16383 = 4095 ∧ wayOfHandle 6 = 2 ∧ blockOf 23800 = 19
      ∧ blockOf 4096 = 0 ∧ blockOf 65535 = 59 ∧ blockAfter 59 = 0 ∧ firstPortOf 21 = 25600
      ∧ portAfter 65535 = 4096 := by decide

theorem test_derived_states :
    derivedState {} = .new ∧ derivedState { opened := true, answered := true } = .answered
      ∧ derivedState { established := true } = .established ∧ derivedState { finR := true } = .closing
      ∧ derivedState { finI := true, finR := true } = .closed ∧ derivedState { aborted := true } = .closed
      ∧ derivedState { aborted := true, retired := true } = .retired := by decide

/-! ### Frames -/

def shown : BeaconGroup := ⟨.vacant, 5, none, 4, 9, false, true⟩

/-- A BEACON of station 1 that hears stations 0 and 1, wants nothing, and shows every group synced and eligible. -/
def beaconOne : Beacon :=
  ⟨.firewall, .member, 7, ⟨true, true, false, false⟩, some 500, false, none, 40, 50, Four.all true, Four.all shown⟩

/-- The bytes of a CLAIM, field by field as R123 and R127 lay them out. -/
theorem test_claim_bytes :
    (frameBytes ⟨1, .claim ⟨2, 0x0102, .yielded, 6, 9⟩⟩).take 10 = [0x02, 1, 0, 6, 2, 0x01, 0x02, 1, 6, 9] := by
  decide +kernel

/-- The bytes of an ENTRY record of a datagram key, from the layout of R125. -/
theorem test_entry_bytes :
    recordBytes ⟨0x01020304, .entry ⟨datagramKey, 3, 2, { opened := true, retired := true }, none, some 4096, true,
        0x0105, 1⟩⟩
      = [0x01, 1, 2, 3, 4, 3, 4, 17, 2, 0x41, 0x03, 1, 1, 5, 0x10, 0, 0xC0, 0, 1, 0xBB, 0x0A, 1, 0, 5, 0xC0, 0, 2, 8] := by
  decide +kernel

theorem test_beacon_is_heard : hear (frameBytes ⟨1, .beacon beaconOne⟩) = .valid ⟨1, .beacon beaconOne⟩ := by
  decide +kernel

theorem test_receipt_is_heard : hear (frameBytes ⟨3, .receipt 0xFFFFFFFF⟩) = .valid ⟨3, .receipt 0xFFFFFFFF⟩ := by
  decide +kernel

/-- R128: the five tests, each on a transmission that passes the tests before it. -/
theorem test_invalid_frames :
    hear [5, 1, 0, 4, 0, 0, 0] = .invalid 0x01 1 5
      ∧ hear [5, 1, 0, 0, 0, 0, 0, 0] = .invalid 0x02 1 5
      ∧ hear ([0x0A, 1, 0, 0] ++ bytes32 (crc [0x0A, 1, 0, 0])) = .invalid 0x03 1 0x0A
      ∧ hear ([0x05, 4, 0, 0] ++ bytes32 (crc [0x05, 4, 0, 0])) = .invalid 0x04 4 5
      ∧ hear ([0x05, 1, 0, 0] ++ bytes32 (crc [0x05, 1, 0, 0])) = .invalid 0x01 1 5 := by decide +kernel

/-! ### The join and the window tests -/

def establishedMarks : Marks := { opened := true, answered := true, established := true }

/-- The entry of the example of section 1.6, and the record 840. -/
def exampleEntry : Entry :=
  ⟨streamKey, 2, 3, establishedMarks,
    some ⟨⟨some 1000500, some 70001, 64240⟩, ⟨some 70001, some 1000400, 65535⟩⟩, none, false, 5000, 0, some (0, 812),
    none⟩

def exampleRecord : EntryContent :=
  ⟨streamKey, 2, 3, { establishedMarks with finI := true },
    some ⟨⟨some 1000501, some 70001, 62000⟩, ⟨some 70001, some 1000500, 65000⟩⟩, none, false, 2, 0⟩

theorem test_join_example :
    mergeEntry exampleEntry exampleRecord 0 840 5010 = { exampleEntry with
      marks := { establishedMarks with finI := true }
      stream := some ⟨⟨some 1000501, some 70001, 62000⟩, ⟨some 70001, some 1000500, 65000⟩⟩
      stamp := 5008
      confirmation := some (0, 840) } := by decide

/-- The side records and the four checks of the example of section 2.3. -/
def exampleSides : Sides := ⟨⟨some 5000000, some 800000, 32768⟩, ⟨some 800000, some 4990000, 20000⟩⟩

def checkOne : Packet := ⟨.fromInitiator, false, false, false, false, 5000000, some 800000, 1400, 32000⟩
def checkTwo : Packet := { checkOne with seq := 5009500 }
def checkThree : Packet := ⟨.fromResponder, false, false, false, false, 800000, some 5001400, 0, 30000⟩

theorem test_window_example :
    windowTests exampleSides checkOne = true
      ∧ passSides exampleSides checkOne = { exampleSides with initiator := ⟨some 5001400, some 800000, 32000⟩ }
      ∧ windowTests (passSides exampleSides checkOne) checkTwo = false
      ∧ windowTests (passSides exampleSides checkOne) checkThree = true
      ∧ (passSides (passSides exampleSides checkOne) checkThree).responder = ⟨some 800000, some 5001400, 30000⟩
      ∧ windowTests (passSides (passSides exampleSides checkOne) checkThree) checkTwo = true := by decide

/-- Each window test at its limit and one past it. -/
theorem test_window_limits :
    upperTest ⟨none, some 100, 0⟩ { checkOne with seq := 101, length := 0 } = true
      ∧ upperTest ⟨none, some 100, 0⟩ { checkOne with seq := 102, length := 0 } = false
      ∧ lowerTest ⟨some 2000000, none, 0⟩ { checkOne with seq := 951424, length := 0 } = true
      ∧ lowerTest ⟨some 2000000, none, 0⟩ { checkOne with seq := 951423, length := 0 } = false
      ∧ ackTest ⟨some 799999, none, 0⟩ checkOne = true ∧ ackTest ⟨some 799998, none, 0⟩ checkOne = false := by decide

/-! ### States -/

/-- A setup with every group and translation enabled. -/
def officeSetup : Setup := { Setup.defaults with groups := Four.all true, translate := Four.all true }

/-- Station 0, a sealed firewall in MEMBER; station 1 is its partner and PRESENT; every group VACANT with health 9. -/
def office : State := { State.reset with
  port.setup := officeSetup
  port.isSealed := true
  presence := { Presence.reset ⟨.power, Four.all false, .none⟩ with
    records := (Four.all Peer.reset).set 1 ⟨.present, some .firewall, true, some beaconOne⟩
    partner := some 1
    fingerprint := some 7
    life := .member
    beaconTimer := true }
  own.groups := Four.all { GroupRecord.reset with state := .vacant, health := 9, epoch := 5 } }

/-- The station in a state for group `g`. -/
def inState (g : GroupId) (f : GroupRecord → GroupRecord) (s : State) : State := mapGroup g f s

/-- The station HOLDING group `g`. -/
def holding (g : GroupId) (s : State) : State :=
  mapGroup g (fun r => { r with state := .holding, owner := some 0, tenure := some .claimed }) s

def following (g : GroupId) (s : State) : State :=
  mapGroup g (fun r => { r with state := .following, owner := some 1 }) s

def claiming (g : GroupId) (s : State) : State :=
  mapGroup g (fun r => { r with state := .claiming, claimEpoch := some 6, claimWait := true }) s

def yielding (g : GroupId) (s : State) : State :=
  mapGroup g (fun r => { r with
    state := .yielding, owner := some 0, successor := some 1, drain := true, adoptionOpen := true }) s

/-- The office of a witness, station 3; stations 0 and 1 are designated, and station 1 is PRESENT. -/
def witnessOffice : State := { office with
  straps := ⟨3, .witness, false⟩
  presence.partner := none
  presence.watched := ⟨true, true, false, false⟩
  receive.want := false }

def inLife (l : Life) (s : State) : State := { s with presence.life := l }

/-- The table holds `e` alone, at way 0 of its bucket, its check bits verifying or not. -/
def withEntry (e : Entry) (intact : Bool) (s : State) : State :=
  { s with table := [(handleOf (bucketOf e.key) 0, ⟨e, intact⟩)] }

/-- A live stream entry of group 1, written by station 0. -/
def liveEntry : Entry :=
  ⟨streamKey, 1, 0, establishedMarks, some exampleSides, none, false, 0, 0, none, none⟩

def retiredEntryOne : Entry := { liveEntry with marks := { establishedMarks with retired := true } }

def asked (r : Request) (s : State) : State := { s with port.requests := [r] }

/-- A request record on `streamKey` with a kind and group in word 0 and flags in word 1. -/
def keyRequest (w0 w1 seq ack : Word) : Request :=
  #v[w0, w1, 0xC00001BB, seq, ack, 1400, 32000, 0x0A010005, 0, 0, 0, 0xC0000208, 0, 0, 0, 0]

/-- A CHECK of group 1, tag 9, of a packet FROM_INITIATOR that opens. -/
def openingCheck : Request := keyRequest 0x01090104 0x06000100 5000000 800000
/-- A CHECK of group 1, tag 9, of a packet FROM_INITIATOR with an acknowledgement. -/
def dataCheck : Request := keyRequest 0x01090104 0x06000001 5000000 800000
/-- The same, past the upper limit of the example's windows. -/
def lateCheck : Request := keyRequest 0x01090104 0x06000001 5009500 800000
def adoptRequest : Request := keyRequest 0x02090104 0x06000000 902000 41500
def retireRequest : Request := keyRequest 0x03090004 0x06000000 0 0
def lookupRequest : Request := keyRequest 0x04090004 0x06000000 0 0

/-- A request whose word 0 alone is read, or words 0 and 1. -/
def shortRequest (w0 w1 : Word) : Request := #v[w0, w1, 0, 0, 0, 0, 0, 0, 0, 0, 0, 0, 0, 0, 0, 0]

/-- A SETUP of the defaults with every group enabled. -/
def setupRequest : Request :=
  #v[0x20090000, 0x0F000001, 0x04040404, 0x00050005, 0x00050005, 0x0064001E, 0x003C0000, 0x001E001E, 0x0E10003C,
    0x0078000A, 0, 0, 0, 0, 0, 0]

def keepWords : Request := shortRequest 0x23000000 0

/-- The state that a step leaves; the part never stops. -/
def after (c : Instr) (s : State) : State :=
  match exec c s with
  | .next t => t
  | .fault _ | .refused _ => s

/-! ### Resets, lines and the window -/

theorem test_power_reset :
    let t := after (.powerReset ⟨2, .witness, true⟩) (holding 1 office)
    t.straps = ⟨2, .witness, true⟩ ∧ t.life = .setup ∧ t.receive.want = false ∧ t.presence.cause.kind = .power
      ∧ t.drive 1 = false := by decide

theorem test_pin_reset :
    let t := after .pinResetAssert (holding 1 office)
    t.phase = .pin ⟨false, true, false, false⟩ .none ∧ t.drive 1 = false
      ∧ (after (.pinResetRelease ⟨0, .firewall, false⟩) t).causeWord = 0x40000002 := by decide +kernel

/-- R186: a POWER reset takes the place of a PIN reset in effect. -/
theorem test_power_over_pin :
    let t := after .powerResetOnset (after .pinResetAssert office)
    t.phase = .power ∧ after (.pinResetRelease ⟨0, .firewall, false⟩) t = t := by decide +kernel

theorem test_line_readback :
    let t := after (.groupLineReadback 2 true) office
    office.eligible 2 = true ∧ t.eligible 2 = false ∧ t.port.flags = 0x40
      ∧ (after (.groupLineReadback 1 true) (holding 1 office)).port.flags = 0 := by decide +kernel

theorem test_window_reset : State.reset.readWord 0x00 = 0x62300000 ∧ State.reset.readWord 0x04 = 0
    ∧ State.reset.readWord 0x2C = 0x00001C00 ∧ State.reset.readWord 0x28 = 0 := by decide +kernel

theorem test_window_office :
    (holding 1 office).readWord 0x00 = 0x62308200 ∧ (holding 1 office).readWord 0x04 = 0x40000000
      ∧ (holding 1 office).readWord 0x30 = 0x00058249 ∧ office.readWord 0x08 = 0x0000007F := by decide +kernel

theorem test_post : (after (.post 0) { office with port.staging := keepWords }).port.requests = [keepWords]
    ∧ (after (.post 0) { office with port.requests := List.replicate 16 keepWords }).readWord 0x54 = 0x80200000 := by
  decide +kernel

theorem test_events_and_irq :
    let t := raise .fault (raise .split { office with port.mask := 0x8 })
    t.irq = true ∧ (after (.eventsWrite 0x8) t).irq = false ∧ (after (.eventsWrite 0x8) t).eventFlags = 0x10000
      ∧ (after (.maskWrite 0x10000) (after (.eventsWrite 0x8) t)).irq = true := by decide +kernel

/-- R204: the ways of a bucket in a circle. -/
theorem test_cursor_advances :
    (after .cursorData23Read { office with port.cursorHandle := 7 }).port.cursorHandle = 4
      ∧ (after (.cursorWrite 0xFFFFC005) office).readWord 0x24 = 0x80000005 := by decide +kernel

/-- R203: words 0, 2, 18 and 21 of the snapshot of an entry: group 1, family 4, protocol 6; ports; stamp; occupied, state. -/
theorem test_cursor_snapshot :
    let h := handleOf (bucketOf streamKey) 0
    let t := after .cursorSnapshot (withEntry { liveEntry with stamp := 77 } true
      { office with port.cursorHandle := h, port.cursorPending := true })
    t.readWord 0xA0 = 0x01040600 ∧ t.readWord 0xE8 = 77 ∧ t.readWord 0xF4 = 0x818026D4 ∧ t.readWord 0xFC = 1 := by
  decide +kernel

theorem test_clear :
    let t := after (.clear 1) (busFault { kind := 1, source := 2, item := 3 } office)
    t.readWord 0x3C = 0 ∧ t.port.flags = 0x8000 := by decide +kernel

theorem test_register_write :
    (after (.registerWrite 0x9C .word 5) office).port.staging[15] = 5
      ∧ after (.registerWrite 0x9C .half 5) office = office ∧ after (.registerWrite 0x9D .word 5) office = office := by
  decide +kernel

/-- A word at the offset of a register has the effect of that register's own command (log 24). -/
theorem test_register_write_routed :
    let s := busFault { kind := 1, source := 2, item := 3 } office
    (after (.registerWrite 0x14 .word 0x8000) s).port.flags = 0 ∧ (after (.registerWrite 0x18 .word 5) s).port.mask = 5
      ∧ (after (.registerWrite 0x1C .word 0) s).port.requests.length = 1
      ∧ (after (.registerWrite 0x24 .word 77) s).port.cursorHandle = 77
      ∧ (after (.registerWrite 0x28 .word 1) s).port.busCapture = none := by decide +kernel

/-! ### Requests -/

/-- R34: a creation takes a port at the cursor, is journaled, and answers PASS with its handle, state and port. -/
theorem test_check_creates :
    let t := after .check (asked (keyRequest 0x01090104 0x06000102 5000000 800000) (holding 1 office))
    let h := handleOf 0x9B5 0
    (t.entryAt h).map (fun e => (e.translation, e.pending, e.confirmation)) = some (some 4096, some 1, some (0, 1))
      ∧ t.portHolder 1 4096 = some h ∧ (t.xlate.get 1).cursor = 4097 ∧ t.journal.records.length = 1
      ∧ t.responseWord 0 = 0x81090001 ∧ t.responseWord 1 = 0xC10026D4 ∧ t.responseWord 2 = 0x80001000 := by
  decide +kernel

theorem test_check_drops :
    let t := after .check (asked lateCheck (withEntry liveEntry true (holding 1 office)))
    t.responseWord 0 = 0x81090005 ∧ t.table = (withEntry liveEntry true office).table := by decide +kernel

theorem test_adopt :
    let t := after .adopt (asked adoptRequest (holding 1 (inState 1 (fun r => { r with adoptionOpen := true }) office)))
    (t.entryAt (handleOf 0x9B5 0)).map (fun e => (e.adopted, e.stream)) =
        some (true, some ⟨⟨some 902000, some 41500, 32000⟩, ⟨some 41500, none, 0⟩⟩)
      ∧ (after .adopt (asked adoptRequest (holding 1 office))).responseWord 0 = 0x82090600 := by decide +kernel

theorem test_retire :
    let t := after .retire (asked retireRequest (withEntry liveEntry true (holding 1 office)))
    (t.entryAt (handleOf 0x9B5 0)).map (·.derived) = some .retired ∧ t.responseWord 1 = 0xC60026D4
      ∧ (after .retire (asked retireRequest (withEntry liveEntry true office))).responseWord 0 = 0x83090500 := by
  decide +kernel

theorem test_lookup :
    let t := after .lookup (asked lookupRequest (withEntry { liveEntry with confirmation := some (1, 840) } true office))
    t.responseWord 3 = 0x01000740 ∧ t.responseWord 4 = 1 ∧ t.responseWord 5 = 840 := by decide +kernel

/-- R161, R143: health that rises from 0 lets a VACANT station claim. -/
theorem test_health :
    let s := inState 1 (fun r => { r with health := 0 }) { office with straps.station := 0 }
    let t := after .health (asked (shortRequest 0x10090100 0x000000FF) s)
    (t.group 1).state = .claiming ∧ (t.group 1).claimEpoch = some 6 ∧ t.responseWord 3 = 0x03000F00
      ∧ .claim ⟨1, 6, .vacant, 4, 15⟩ ∈ t.bus.control := by decide +kernel

/-- R162, R152, R172: a HOLD at a holder whose journal is empty and whose partner is synced hands over at once. -/
theorem test_hold :
    let t := after .hold (asked (shortRequest 0x11090100 0) (holding 1 office))
    (t.group 1).state = .following ∧ (t.group 1).owner = some 1 ∧ .yield ⟨1, 5, 1, true⟩ ∈ t.bus.control
      ∧ t.drive 1 = false ∧ t.port.flags = 0x4 := by decide +kernel

theorem test_unhold :
    let s := inState 1 (fun r => { r with hold := true }) (yielding 1 office)
    let t := after .unhold (asked (shortRequest 0x12090100 0) s)
    s.drive 1 = false ∧ t.drive 1 = true ∧ (t.group 1).state = .yielding := by decide +kernel

theorem test_resync :
    (after .resync (asked (shortRequest 0x13090000 0) (holding 1 office))).recon.passStart = some 1
      ∧ (after .resync (asked (shortRequest 0x13090000 0) office)).responseWord 0 = 0x93090500 := by decide +kernel

theorem test_setup :
    let t := after .setup (asked setupRequest State.reset)
    t.port.setup = { Setup.defaults with groups := Four.all true }
      ∧ (after .setup (asked (setupRequest.set 6 0x003C0009) State.reset)).responseWord 7 = 0x00060000 := by
  decide +kernel

theorem test_seal :
    let t := after .seal (asked (shortRequest 0x21090000 0) { State.reset with port.setup := officeSetup })
    t.life = .listen ∧ t.presence.fingerprint = some officeSetup.fingerprint ∧ (t.group 3).state = .vacant
      ∧ t.bus.beaconSlot.map (fun b => (b.want, b.needSince, b.life)) = some (true, none, .listen) := by
  decide +kernel

/-- R197, R138: a SETUP takes effect at SEAL, which raises QUORUM where solo takeover makes quorum present. -/
theorem test_solo_takes_effect_at_seal :
    let s := after .setup (asked setupRequest State.reset)
    let t := after .seal (asked (shortRequest 0x21090000 0) s)
    s.readWord 0x08 = 0x20 ∧ t.readWord 0x08 = 0x60 ∧ t.eventFlags = 0x11
      ∧ (after .seal (asked (shortRequest 0x21090000 0) { s with straps.mem3 := true })).eventFlags = 0x1 := by
  decide +kernel

theorem test_rejoin :
    let t := after .rejoin (asked (shortRequest 0x22090000 0) (holding 1 office))
    t.causeWord = 0x80000002 ∧ (t.group 1).state = .vacant ∧ (t.group 1).epoch = 5 ∧ t.engine.inProgress = some 9
      ∧ t.port.responses = [] := by decide +kernel

theorem test_rejoin_clear :
    let t := after .rejoinClear (withEntry liveEntry true { office with engine.inProgress := some 9 })
    t.life = .listen ∧ t.table = [] ∧ t.presence.records = Four.all Peer.reset ∧ t.responseWord 0 = 0xA2090000 := by
  decide +kernel

/-- R109: at the acceptance the synced set loses the groups whose owner known ends; R156: a YIELD heard before the clear
starts a claim. -/
theorem test_between_acceptance_and_clear :
    let t := after .rejoin (asked (shortRequest 0x22090000 0) { following 1 office with recon.synced := Four.all true })
    let u := after (.yieldFrame 1 ⟨1, 5, 0, true⟩) t
    t.recon.synced = ⟨true, false, true, true⟩ ∧ (t.group 1).state = .vacant ∧ (u.group 1).state = .claiming
      ∧ ((after .rejoinClear u).group 1).state = .vacant := by decide +kernel

theorem test_keep :
    (after .keep (asked keepWords State.reset)).responseWord 0 = 0xA3000000
      ∧ (after .keep (asked keepWords (inLife .fault office))).responseWord 0 = 0xA3000200 := by decide +kernel

theorem test_unknown_kind :
    let t := after .unknownKind (asked (shortRequest 0x05090000 0) (inLife .fault office))
    t.responseWord 0 = 0x85090300 ∧ t.responseWord 7 = 0x00001800 ∧ t.readWord 0x5C = 0x00001800 := by decide +kernel

/-! ### Aging -/

/-- R56: an age tick starts a pass, and during a pass sets the flag; the end of that pass starts the next. -/
theorem test_age_tick :
    let t := after .ageTick office
    t.clock = ⟨0, 0, 1⟩ ∧ t.scan = ⟨true, 0, false⟩ ∧ (after .ageTick t).scan = ⟨true, 0, true⟩
      ∧ AgingScan.advance ⟨true, 4095, true⟩ = ⟨true, 0, false⟩
      ∧ AgingScan.advance ⟨true, 4095, false⟩ = ⟨false, 0, false⟩ := by decide

/-- R59: an idle time equal to the limit is kept; one over it retires. R60: a tombstone goes one over its hold. -/
theorem test_aging_visit :
    let at_ (e : Entry) (now : BitVec 32) : Option Entry :=
      (after .agingVisit (withEntry e true { holding 1 office with
        clock.tick := now, scan := ⟨true, 0x9B5, false⟩ })).entryAt (handleOf 0x9B5 0)
    at_ liveEntry 3600 = some liveEntry ∧ (at_ liveEntry 3601).map (·.derived) = some .retired
      ∧ at_ retiredEntryOne 60 = some retiredEntryOne ∧ at_ retiredEntryOne 61 = none
      ∧ at_ { retiredEntryOne with pending := some 4 } 61 = some { retiredEntryOne with pending := some 4 } := by
  decide +kernel

/-! ### The journal -/

def recordOf (q : Seq) (sent : Bool) : JournalRecord := ⟨q, sent, .passEnd (Four.all false) 1, none⟩

/-- The journal of the example of section 5.5 after its second DELTA: 500, 501 and 502, all carried. -/
def exampleJournal : Journal := ⟨[recordOf 500 true, recordOf 501 true, recordOf 502 true], 500, 503, 503, true, true⟩

/-- RECEIPT 500 goes back; RECEIPT 503 empties the journal; 499 and 504 are ignored. -/
theorem test_receipt_example :
    exampleJournal.receipt 500 = { exampleJournal with sendPoint := 500 }
      ∧ exampleJournal.receipt 503 = ⟨[], 503, 503, 503, true, false⟩
      ∧ exampleJournal.admits 499 = false ∧ exampleJournal.admits 504 = false ∧ exampleJournal.admits 503 = true := by
  decide

/-- R89, last sentence: after a go-back, a receipt beyond the send point carries it along. -/
theorem test_receipt_carries :
    { exampleJournal with sendPoint := 500 }.receipt 502 = ⟨[recordOf 502 true], 502, 502, 503, true, true⟩ := by
  decide

theorem test_receipt_frame :
    let t := after (.receiptFrame 1 502) { office with journal := exampleJournal }
    t.journal = ⟨[recordOf 502 true], 502, 502, 503, true, true⟩
      ∧ after (.receiptFrame 2 502) { office with journal := exampleJournal }
          = { office with journal := exampleJournal } := by decide +kernel

/-- R81 to R83: append, rewrite, overflow, and no partner. -/
theorem test_offer :
    let s := withEntry liveEntry true (holding 1 office)
    let h := handleOf 0x9B5 0
    (offer h s).2 = some 1 ∧ (offer h (offer h s).1).1 = (offer h s).1
      ∧ (offer h { s with journal := { exampleJournal with records := List.replicate 1024 (recordOf 1 true) } }).1.recon.resend
          = [0x9B5]
      ∧ offer h { s with presence.partner := none } = ({ s with presence.partner := none }, none) := by decide +kernel

/-- R86: a DELTA carries from the send point and marks what it carries; the pending mark of its entry is cleared. -/
theorem test_transmit_start :
    let t := after (.transmitStart 30) (after .check (asked openingCheck (holding 1 office)))
    t.bus.delta.map (fun d => (d.oldest, d.records.length)) = some (1, 1) ∧ t.journal.sendPoint = 2
      ∧ t.journal.outstanding = true ∧ (t.entryAt (handleOf 0x9B5 0)).map (·.pending) = some none
      ∧ after (.transmitStart 29) (after .check (asked openingCheck (holding 1 office)))
          = after .check (asked openingCheck (holding 1 office)) := by decide +kernel

/-- R144: the claim wait starts when the CLAIM has been transmitted. -/
theorem test_transmitted :
    let s := inState 1 (fun r => { r with state := .claiming, claimEpoch := some 6 })
      { office with
        bus.control := [.claim ⟨1, 6, .vacant, 4, 9⟩]
        bus.transmitting := some ⟨.claim ⟨1, 6, .vacant, 4, 9⟩, true⟩ }
    ((after .transmitted s).group 1).claimWait = true ∧ (after .transmitted s).bus.control = [] := by decide +kernel

/-- R118, R145: the sixteenth collision discards a CLAIM and abandons its claim; an earlier one keeps it. -/
theorem test_collision :
    let s (n : Nat) := inState 1 (fun r => { r with state := .claiming, claimEpoch := some 6 })
      { office with
        bus.control := [.claim ⟨1, 6, .vacant, 4, 9⟩]
        bus.transmitting := some ⟨.claim ⟨1, 6, .vacant, 4, 9⟩, true⟩
        bus.collisions := n }
    ((after .collision (s 14)).group 1).state = .claiming ∧ (after .collision (s 14)).bus.collisions = 15
      ∧ ((after .collision (s 15)).group 1).state = .vacant
      ∧ .claim ⟨1, 6, .vacant, 4, 9⟩ ∉ (after .collision (s 15)).bus.control
      ∧ (after .collision (s 15)).readWord 0x3C = 0x80060002 := by decide +kernel

/-- R123: the bytes on the medium bear this station's number. -/
theorem test_sent_bytes :
    let s : State := { office with straps.station := 2, bus.transmitting := some ⟨.receipt 0x01020304, true⟩ }
    (s.sentBytes.getD []).take 8 = [5, 2, 0, 4, 1, 2, 3, 4] ∧ office.sentBytes = none := by decide +kernel

/-- R181: the end of a transmission that began before the acceptance of SEAL is passed over, and the next frame is taken. -/
theorem test_straddling :
    let s := after .defer { State.reset with port.setup := officeSetup }
    let t := after .seal (asked (shortRequest 0x21090000 0) s)
    let u := after (.beaconFrame 1 beaconOne) t
    t.bus.straddling = true ∧ u = { t with bus.straddling := false }
      ∧ ((after (.beaconFrame 1 beaconOne) u).peer 1).state = .mismatched := by decide +kernel

theorem test_defer : (after .defer { office with bus.beaconSlot := some beaconOne }).bus.deferred = true
    ∧ after .defer office = office := by decide +kernel

/-! ### Frames heard -/

theorem test_invalid_frame :
    (after (.invalidFrame [5, 1, 0, 4, 0, 0, 0]) office).readWord 0x3C = 0x80010105
      ∧ after (.invalidFrame [5, 1]) State.reset = State.reset := by decide +kernel

/-- R131, R98: the first BEACON of a partner makes its record PRESENT and sets want; another fingerprint is MISMATCHED. -/
theorem test_beacon_frame :
    let s := { office with presence.records := Four.all Peer.reset, presence.partner := none, presence.life := .isolated }
    let t := after (.beaconFrame 1 beaconOne) s
    (t.peer 1).state = .present ∧ t.life = .member ∧ t.receive.expectation = some 50 ∧ t.receive.needSince = some 50
      ∧ ((after (.beaconFrame 1 { beaconOne with fingerprint := 8 }) s).peer 1).state = .mismatched := by
  decide +kernel

/-- R129: a frame that bears this station's own number. -/
theorem test_duplicate :
    let t := after (.beaconFrame 0 beaconOne) (holding 1 office)
    t.life = .fault ∧ t.presence.faultKind = .duplicate ∧ t.presence.heldAtFault = ⟨false, true, false, false⟩
      ∧ t.readWord 0x3C = 0x80050001 ∧ t.drive 1 = false := by decide +kernel

/-- The two stations of the example of section 8.5: the lower claim is contested, the higher one is followed. -/
theorem test_claim_frame :
    let s := claiming 1 office
    let c : Claim := ⟨1, 6, .vacant, 4, 9⟩
    .contest ⟨1, 6, 1, .higherClaim, 5⟩ ∈ (after (.claimFrame 1 c) s).bus.control
      ∧ ((after (.claimFrame 1 { c with health := 10 }) s).group 1).owner = some 1
      ∧ ((after (.claimFrame 1 { c with health := 10 }) s).group 1).state = .following := by decide +kernel

/-- R149: a witness lets the first claim through, replaces it by a higher one, and contests a stale one. -/
theorem test_witness_claim :
    let s := { witnessOffice with
      presence.records := witnessOffice.presence.records.set 0 ⟨.present, some .firewall, true, some beaconOne⟩ }
    let t := after (.claimFrame 1 ⟨1, 6, .vacant, 4, 9⟩) s
    (t.group 1).owner = some 1 ∧ (t.group 1).epoch = 6
      ∧ ((after (.claimFrame 0 ⟨1, 6, .vacant, 4, 9⟩) t).group 1).owner = some 0
      ∧ (after (.claimFrame 0 ⟨1, 5, .vacant, 4, 9⟩) t).bus.control = [.contest ⟨1, 5, 0, .staleEpoch, 6⟩] := by
  decide +kernel

theorem test_contest_frame :
    let t := after (.contestFrame 1 ⟨1, 6, 0, .ownerAlive, 8⟩) (claiming 1 office)
    (t.group 1).state = .vacant ∧ (t.group 1).backoff = true ∧ (t.group 1).epoch = 8
      ∧ after (.contestFrame 1 ⟨1, 7, 0, .ownerAlive, 8⟩) (claiming 1 office) = claiming 1 office := by decide +kernel

/-- R156: a witness that a YIELD names raises its epoch known, in FOLLOWING or VACANT alone, and claims nothing. -/
theorem test_yield_at_witness :
    let s (epoch : Epoch) (t : State) : GroupRecord := (after (.yieldFrame 1 ⟨1, epoch, 3, true⟩) t).group 1
    (s 9 witnessOffice).epoch = 9 ∧ (s 9 witnessOffice).yieldNote = some ⟨1, 3, 9⟩ ∧ (s 9 witnessOffice).state = .vacant
      ∧ (s 4 witnessOffice).epoch = 5 ∧ (s 9 (inState 1 (fun r => { r with state := .disabled }) witnessOffice)).epoch = 5
      ∧ ((after (.yieldFrame 1 ⟨1, 9, 0, true⟩) witnessOffice).group 1).epoch = 5 := by decide +kernel

theorem test_yield_frame :
    let t := after (.yieldFrame 1 ⟨1, 12, 0, true⟩) (following 1 office)
    (t.group 1).state = .claiming ∧ (t.group 1).claimEpoch = some 13 ∧ (t.group 1).handoverNote = some true := by
  decide +kernel

/-! ### The receive side -/

def bucketEndRecord : WireRecord := ⟨7072, .bucketEnd 5 (Four.all true) 7072⟩

/-- The catch-up of the example of section 5.6, up to a BUCKET_END that waits in hand. -/
theorem test_delta_take :
    let s := { office with receive := { office.receive with expectation := some 7040, want := false } }
    let t := after .deltaTake (after (.deltaFrame 1 ⟨7072, [bucketEndRecord]⟩) s)
    t.receive.expectation = some 7072 ∧ t.receive.needSince = some 7072 ∧ t.receive.want = true
      ∧ t.receive.taking = some ⟨1, [bucketEndRecord], true⟩ := by decide +kernel

/-- A gap finishes the frame with a receipt. -/
theorem test_delta_gap :
    let s := { office with receive := { office.receive with expectation := some 500, want := false } }
    let t := after .deltaTake (after (.deltaFrame 1 ⟨500, [{ passEndRecord with seq := 502 }]⟩) s)
    t.receive.expectation = some 500 ∧ t.bus.receiptSlot = some 500 ∧ t.receive.taking = none := by decide +kernel

def joinState (c : EntryContent) : State :=
  { following 1 office with
    receive := { office.receive with expectation := some 840, taking := some ⟨1, [⟨840, .entry c⟩], true⟩ } }

theorem test_entry_join :
    let t := after .entryJoin (joinState { streamContent with translation := some 30000 })
    (t.entryAt (handleOf 0x9B5 0)).map (·.confirmation) = some (some (1, 840))
      ∧ t.portHolder 1 30000 = some (handleOf 0x9B5 0) ∧ t.receive.expectation = some 841
      ∧ t.bus.receiptSlot = some 841 := by decide +kernel

/-- R68: a join displaces the copy that holds its port. -/
theorem test_entry_join_displaces :
    let old : Entry := { liveEntry with key := datagramKey, stream := none, translation := some 30000 }
    let s := withEntry old true (joinState { streamContent with translation := some 30000 })
    let t := after .entryJoin { s with xlate := s.xlate.set 1 ⟨[(30000, handleOf (bucketOf datagramKey) 0)], 4096, none, []⟩ }
    t.entryAt (handleOf (bucketOf datagramKey) 0) = none ∧ t.portHolder 1 30000 = some (handleOf 0x9B5 0) := by
  decide +kernel

theorem test_purge_handover :
    let s := { office with receive := { office.receive with expectation := some 7072, taking := some ⟨1, [bucketEndRecord], true⟩ } }
    (after .purgeHandover s).recon.purge = [.bucketEnd 1 5 (Four.all true) 7072]
      ∧ (after .purgeHandover s).receive.expectation = some 7073 := by decide +kernel

/-- R105: a confirmation at the opening sequence is kept; one before it, or of another station, is purged. -/
theorem test_purge :
    let s (c : Option (Station × Seq)) := withEntry { liveEntry with confirmation := c } true
      { following 1 office with recon.purge := [.bucketEnd 1 0x9B5 (Four.all true) 9590] }
    (after .purge (s (some (1, 9590)))).table ≠ [] ∧ (after .purge (s (some (1, 9589)))).table = []
      ∧ (after .purge (s (some (0, 9600)))).table = [] ∧ (after .purge (s none)).table = [] := by decide +kernel

theorem test_pass_end_take :
    let s := { following 1 office with
      receive := { office.receive with needSince := some 11024 }
      recon.purge := [.passEnd 1 ⟨false, true, false, false⟩ 11024] }
    let t := after .passEndTake s
    t.recon.synced = ⟨false, true, false, false⟩ ∧ t.receive.want = false ∧ t.port.flags = 0x200 := by decide +kernel

theorem test_relay :
    let t := after (.relayFrame 1 observation) (holding 1 office)
    t.engine.relaySlot = some observation ∧ (after (.relayFrame 1 observation) t).port.flags = 0x4000 := by
  decide +kernel

theorem test_relay_apply :
    let t := after .relayApply (withEntry liveEntry true
      { holding 1 office with engine.relaySlot := some { observation with marks := { answered := true, finI := true } } })
    (t.entryAt (handleOf 0x9B5 0)).map (fun e => (e.marks, e.pending)) =
      some ({ establishedMarks with finI := true }, some 1) := by decide +kernel

/-- R3, R96: an ill-formed ENTRY is captured, of a held group too, and the record is counted. -/
theorem test_malformed_record :
    let c : EntryContent := { streamContent with key := { streamKey with protocol := 47 }, stream := none }
    let s := { holding 1 office with
      receive := { office.receive with expectation := some 840, waiting := [⟨1, ⟨840, [⟨840, .entry c⟩]⟩⟩] } }
    let t := after .deltaTake s
    illFormed c.key = true ∧ t.receive.expectation = some 841 ∧ t.port.flags = 0x2000
      ∧ t.readWord 0x48 = 0x80120101 ∧ t.readWord 0x4C = 840 := by decide +kernel

/-- R25: a visit, a request of the table and the cursor wait while the join of a record in hand waits. -/
theorem test_arbiter :
    let s := { withEntry liveEntry true (joinState streamContent) with
      scan := ⟨true, 0x9B5, false⟩
      port.cursorPending := true
      port.requests := [lookupRequest] }
    let t := after .entryJoin s
    after .agingVisit s = s ∧ after .cursorSnapshot s = s ∧ after .lookup s = s ∧ t ≠ s
      ∧ after .agingVisit t = t ∧ (after .lookup t).port.requests = []
      ∧ (after .agingVisit (after .lookup t)).scan.position = 0x9B6 := by decide +kernel

/-- R25: between the joins of two records of one frame a request, a visit and the cursor are granted; DELTA_TAKE takes the next
record in hand, and its join finishes the frame. -/
theorem test_between_records :
    let r : WireRecord := ⟨841, .entry { streamContent with incarnation := 1 }⟩
    let s : State := { joinState streamContent with
      receive.taking := some ⟨1, [⟨840, .entry streamContent⟩, r], true⟩
      scan := ⟨true, 0x9B5, false⟩
      port.cursorPending := true
      port.requests := [lookupRequest] }
    let between := after .entryJoin s
    let looked := after .lookup between
    let visited := after .agingVisit looked
    let next := after .deltaTake between
    let done := after .entryJoin next
    between.receive.taking = some ⟨1, [r], false⟩ ∧ between.receive.expectation = some 841
      ∧ between.bus.receiptSlot = none ∧ after .entryJoin between = between
      ∧ looked.port.requests = [] ∧ visited.scan.position = 0x9B6
      ∧ (after .cursorSnapshot { visited with scan := ⟨false, 0, false⟩ }).port.cursorPending = false
      ∧ next.receive.taking = some ⟨1, [r], true⟩ ∧ after .lookup next = next ∧ after .deltaTake next = next
      ∧ done.receive.taking = none ∧ done.receive.expectation = some 842 ∧ done.bus.receiptSlot = some 842 := by
  decide +kernel

/-! ### Reconciliation -/

theorem test_re_journal :
    let t := after .reJournal (withEntry liveEntry true { holding 1 office with recon.resend := [0x9B5, 0x9B6] })
    t.recon.resend = [0x9B6] ∧ t.journal.records.map (·.seq) = [1, 2]
      ∧ t.journal.records.map (·.body) =
          [.entry (contentOf 0 liveEntry), .bucketEnd 0x9B5 ⟨false, true, false, false⟩ 1] := by decide +kernel

theorem test_pass_end_append :
    let t := after .passEndAppend { holding 1 office with recon := { office.recon with passRunning := true, passStart := some 1 } }
    t.recon.lastCompleted = some 1 ∧ t.recon.passRunning = false ∧ t.port.flags = 0x400 := by decide +kernel

theorem test_digest_timer :
    (after .digestTimerExpiry (holding 1 office)).recon.preparing = some ⟨⟨false, true, false, false⟩, 0, []⟩
      ∧ (after .digestTimerExpiry office).recon.preparing = none := by decide +kernel

theorem test_digest_prepare :
    let t := after .digestPrepare { holding 1 office with
      recon.preparing := some ⟨⟨false, true, false, false⟩, 4080, List.replicate 15 0⟩ }
    t.recon.ready.map (·.digests.length) = some 16 ∧ t.recon.sweep = 0 := by decide +kernel

theorem test_digest_frame :
    let d : Digest := ⟨⟨false, true, false, false⟩, 16, List.replicate 16 0⟩
    (after (.digestFrame 1 d) (following 1 office)).recon.comparing = some ⟨⟨false, true, false, false⟩, 16, d.digests⟩
      ∧ (after (.digestFrame 1 d) office).recon.comparing = none := by decide +kernel

theorem test_digest_compare :
    let s (w : Word) := { following 1 office with recon.comparing := some ⟨Four.all true, 16, [w, 0]⟩ }
    (after .digestCompare (s 0)).recon.fetch = none
      ∧ (after .digestCompare (s 1)).recon.fetch = some ⟨Four.all true, [16]⟩ := by decide +kernel

theorem test_fetch_frame :
    let f : Fetch := ⟨⟨false, true, false, false⟩, [9, 3]⟩
    (after (.fetchFrame 1 f) (holding 1 office)).recon.resend = [3, 9]
      ∧ (after (.fetchFrame 1 f) office).recon.resend = [] := by decide +kernel

/-! ### Timers -/

theorem test_beacon_timer : (after .beaconTimerExpiry office).bus.beaconSlot = some office.beacon := by decide +kernel

/-- R132, R92, R183, R142: the owner falls silent; the follower, alone but with quorum by solo takeover, claims. -/
theorem test_dead_timer :
    let t := after (.deadTimerExpiry 1) (following 1 office)
    (t.peer 1).state = .lost ∧ t.life = .isolated ∧ (t.group 1).state = .claiming ∧ (t.group 1).owner = none
      ∧ t.port.flags = 0x20 := by decide +kernel

theorem test_listen_timer :
    let s := { inLife .listen office with presence.listenTimer := true }
    (after .listenTimerExpiry s).life = .member
      ∧ (after .listenTimerExpiry { s with presence.records := Four.all Peer.reset }).life = .isolated := by
  decide +kernel

theorem test_receipt_timer :
    (after .receiptTimerExpiry { office with journal := exampleJournal }).journal
      = { exampleJournal with sendPoint := 500, receiptTimer := false } := by decide +kernel

theorem test_stall_timer :
    let t := after .stallTimerExpiry { yielding 1 office with journal := exampleJournal }
    t.journal = ⟨[], 503, 503, 503, false, false⟩ ∧ (t.group 1).drainSpoiled = true ∧ t.recon.passStart = some 503
      ∧ t.port.flags = 0x100 := by decide +kernel

/-- A station whose journal waits, with a pending mark in a slot whose check bits verify or fail. -/
def marked (intact : Bool) : State :=
  { withEntry { liveEntry with pending := some 502 } intact (yielding 1 office) with
    journal := exampleJournal, recon.synced := Four.all true }

/-- R91, R92, R87: a stall, and the end of the partner's presence, whose clear finds a slot that fails: the slot stays, and
the station enters FAULT with the composition and the bucket in the TABLE capture. -/
theorem test_failed_clear :
    let stalled := after .stallTimerExpiry (marked false)
    let lost := after (.deadTimerExpiry 1) (marked false)
    let mismatched := after (.beaconFrame 1 { beaconOne with fingerprint := 8 }) (marked false)
    let whole := after .stallTimerExpiry (marked true)
    (∀ t ∈ [stalled, lost, mismatched],
        t.life = .fault ∧ t.presence.faultKind = .integrity ∧ t.presence.heldAtFault = ⟨false, true, false, false⟩
          ∧ t.table = (marked false).table ∧ t.readWord 0x48 = 0x80110006 ∧ t.readWord 0x50 = 0x9B5
          ∧ t.journal.records = [] ∧ t.recon.passRunning = false ∧ (t.group 1).state = .vacant)
      ∧ stalled.port.flags = 0x10100 ∧ lost.port.flags = 0x10020 ∧ (lost.peer 1).state = .lost
      ∧ stalled.recon.synced = Four.all true ∧ lost.recon.synced = Four.all false
      ∧ whole.life = .member ∧ (whole.entryAt (handleOf 0x9B5 0)).map (·.pending) = some none
      ∧ whole.recon.passRunning = true := by decide +kernel

/-- The takeover of the example of section 4.6. -/
theorem test_claim_wait :
    let s := claiming 2 office
    let t := after (.claimWaitExpiry 2) { s with xlate := s.xlate.set 2 ⟨[], 4096, some 19, []⟩ }
    (t.group 2).state = .holding ∧ (t.group 2).epoch = 6 ∧ (t.group 2).tenure = some .claimed
      ∧ t.xlate.get 2 = ⟨[], 25600, none, [19, 20]⟩ ∧ t.drive 2 = true := by decide +kernel

/-- R74: the last two blocks of the pool. -/
theorem test_quarantine_wraps :
    let q (l : Block) := (openQuarantine 0 { office with xlate := office.xlate.set 0 ⟨[], 9, some l, []⟩ }).xlate.get 0
    q 57 = ⟨[], firstPortOf 59, none, [57, 58]⟩ ∧ q 58 = ⟨[], 4096, none, [58, 59]⟩
      ∧ q 59 = ⟨[], 5120, none, [59, 0]⟩ := by decide +kernel

/-- The allocation example of section 4.4, and the quarantine passed over. -/
theorem test_allocation :
    let s (cursor : Port) (q : List Block) := { office with xlate := office.xlate.set 0 ⟨[(4096, 1), (65534, 2)], cursor, none, q⟩ }
    (s 65533 []).freePort 0 = some 65533 ∧ (s 65534 []).freePort 0 = some 65535
      ∧ (s 4096 []).freePort 0 = some 4097 ∧ (s 64512 [59]).freePort 0 = some 4097 := by decide +kernel

/-- R143: after the backoff a VACANT station claims at once, unless an eligible partner of higher precedence is there. -/
theorem test_claim_backoff :
    let s := inState 1 (fun r => { r with backoff := true }) office
    ((after (.claimBackoffExpiry 1) s).group 1).state = .claiming
      ∧ ((after (.claimBackoffExpiry 1) (inState 1 (fun r => { r with health := 8 }) s)).group 1).state = .vacant := by
  decide +kernel

def preempted : State :=
  inState 1 (fun r => { r with preempt := true })
    (holding 1 { office with port.setup := { officeSetup with preempt := Four.all true, priority := Four.all 3 } })

theorem test_preempt_delay :
    let t := after (.preemptDelayExpiry 1) preempted
    preempted.preemptCondition 1 = true ∧ (t.group 1).state = .following
      ∧ .yield ⟨1, 5, 1, true⟩ ∈ t.bus.control := by decide +kernel

theorem test_drain_timer :
    let t := after (.drainTimerExpiry 1) (yielding 1 office)
    (t.group 1).state = .following ∧ .yield ⟨1, 5, 1, false⟩ ∈ t.bus.control ∧ (t.group 1).adoptionOpen = false := by
  decide +kernel

theorem test_adoption_window :
    let s := inState 1 (fun r => { r with adoptionOpen := true, adoptionTimer := true }) (holding 1 office)
    let t := after (.adoptionWindowExpiry 1) { s with xlate := s.xlate.set 1 ⟨[], 4096, none, [19, 20]⟩ }
    (t.group 1).adoptionOpen = false ∧ (t.xlate.get 1).quarantine = [] ∧ t.port.flags = 0x1000 := by decide +kernel

theorem test_quorum_timer :
    let t := after .quorumTimerExpiry { holding 1 office with own.quorumTimer := true, straps.mem3 := true }
    (t.group 1).state = .vacant ∧ (t.group 1).backoff = true ∧ t.port.flags = 0x4 := by decide +kernel

theorem test_line_inhibition :
    let t := after (.lineInhibitionExpiry 2) (inState 2 (fun r => { r with lineTimer := true }) office)
    t.readWord 0x3C = 0x80080000 ∧ t.readWord 0x40 = 2 ∧ (t.group 2).lineReported = true := by decide +kernel

theorem test_host_watch :
    let t := after .hostWatchExpiry { holding 1 office with
      port.hostWatch := true
      journal := ⟨[⟨1, true, .entry streamContent, none⟩], 1, 2, 2, true, true⟩ }
    t.port.lapsed = true ∧ (t.group 1).state = .yielding ∧ (t.group 1).successor = some 1 ∧ t.eligible 1 = false
      ∧ t.port.flags = 0x800 := by decide +kernel

/-- Log 9: an empty queue lets a period pass. -/
theorem test_idle :
    idle { office with clock := ⟨24999, 999, 41⟩ } = { office with clock := ⟨0, 0, 42⟩, scan := ⟨true, 0, false⟩ } := by
  decide +kernel

/-! ### The hypotheses of the statements are met -/

def queued (c : Instr) (s : State) : State := { s with pending := [c] }

theorem test_meets_StepRunsTheFrontCommand :
    { office with pending := [.ageTick, .post 0] }.pending = Instr.ageTick :: [.post 0] := rfl

theorem test_meets_EmptyQueueLetsAPeriodPass :
    let s (prescaler millis : Nat) : State := { office with clock := ⟨prescaler, millis, 7⟩ }
    (after .powerResetOnset office).pending = [] ∧ (after .powerResetOnset office).phase ≠ .running
      ∧ (s 24998 999).pending = [] ∧ (s 24998 999).phase = .running ∧ (s 24998 999).clock.prescaler + 1 < 25000
      ∧ 25000 ≤ (s 24999 998).clock.prescaler + 1 ∧ (s 24999 998).clock.millis + 1 < 1000
      ∧ 25000 ≤ (s 24999 999).clock.prescaler + 1 ∧ 1000 ≤ (s 24999 999).clock.millis + 1 := by decide +kernel

theorem test_meets_StepsKeepCapacities :
    (queued .ageTick office).bounded ∧ ∃ t, step (queued .ageTick office) = .next t :=
  ⟨⟨by decide, by decide, by decide, by decide, by decide, by decide, by decide, by decide, nofun, by decide, by decide⟩,
    _, rfl⟩

/-- The holder of group 1, with one entry that holds port 30,000. -/
def translating : State :=
  let h := handleOf (bucketOf streamKey) 0
  let s := withEntry { liveEntry with translation := some 30000 } true (holding 1 office)
  queued .agingVisit { s with
    scan := ⟨true, 0x9B5, false⟩
    xlate := s.xlate.set 1 ⟨[(30000, h)], 30001, none, []⟩ }

theorem slot_translating {h : Handle} {x : Slot} (here : translating.table.slot h = some x) :
    h = handleOf (bucketOf streamKey) 0 ∧ x = ⟨{ liveEntry with translation := some 30000 }, true⟩ := by
  change (if _ = h then _ else none) = some x at here
  split at here
  · rename_i eq
    exact ⟨eq.symm, (Option.some.inj here).symm⟩
  · cases here

theorem test_meets_StepsKeepTableShape :
    translating.table.shaped ∧ ∃ t, step translating = .next t := by
  refine ⟨⟨by decide, fun h x here => ?_, fun h k x y one two _ => ?_⟩, _, rfl⟩
  · obtain ⟨rfl, rfl⟩ := slot_translating here
    decide +kernel
  · rw [(slot_translating one).1, (slot_translating two).1]

theorem test_meets_StepsKeepPortsExact : translating.table.shaped ∧ translating.exactPorts := by
  refine ⟨test_meets_StepsKeepTableShape.1, fun g p h => ?_⟩
  constructor
  · intro held
    have only : g = 1 ∧ p = 30000 ∧ h = handleOf (bucketOf streamKey) 0 := by
      fin_cases g
      · cases held
      · obtain ⟨x, found, rfl⟩ := Option.map_eq_some_iff.mp held
        have mem : x ∈ [(30000, handleOf (bucketOf streamKey) 0)] := List.mem_of_find?_eq_some found
        have eq : (x.1 == p) = true := List.find?_some (p := fun y : Port × Handle => y.1 == p) found
        obtain rfl := List.mem_singleton.mp mem
        exact ⟨rfl, (beq_iff_eq.mp eq).symm, rfl⟩
      · cases held
      · cases held
    obtain ⟨rfl, rfl, rfl⟩ := only
    exact ⟨{ liveEntry with translation := some 30000 }, by decide +kernel⟩
  · rintro ⟨e, here, rfl, port⟩
    obtain ⟨x, slot, rfl⟩ := Option.map_eq_some_iff.mp here
    obtain ⟨rfl, rfl⟩ := slot_translating slot
    cases port
    decide +kernel

theorem test_meets_StepsKeepJournalOrder :
    let s := queued (.receiptFrame 1 502) { office with journal := exampleJournal }
    s.journal.ordered ∧ ∃ t, step s = .next t := by
  refine ⟨⟨by decide, by decide, ?_, 3, ?_, by decide, by decide⟩, _, rfl⟩
  · intro i r here
    match i with
    | 0 | 1 | 2 => cases here; decide
    | n + 3 => cases here
  · intro i r here
    match i with
    | 0 | 1 | 2 => cases here; decide
    | n + 3 => cases here

/-- A duplicate number has put the station into FAULT. -/
def faulted : State := after (.beaconFrame 0 beaconOne) (holding 1 office)

theorem test_meets_StepsKeepSilence :
    faulted.quiet ∧ faulted.life.active = false ∧ ∃ t, step (queued .ageTick faulted) = .next t := by
  refine ⟨?_, by decide +kernel, _, rfl⟩
  unfold State.quiet State.atRest Bus.silent
  decide +kernel

theorem test_meets_StepsKeepWitnessInert :
    witnessOffice.witnessInert ∧ witnessOffice.straps.role = .witness ∧ ∃ t, step (queued .ageTick witnessOffice) = .next t := by
  refine ⟨?_, rfl, _, rfl⟩
  unfold State.witnessInert
  decide +kernel

theorem test_meets_ResponseFlagIsALevel :
    office.levelClear ∧ ∃ t, step (queued (.post 0) office) = .next t := by
  refine ⟨?_, _, rfl⟩
  unfold State.levelClear
  decide +kernel

theorem test_meets_ComposedFramesAreHeard :
    office.bus.transmitting = none
      ∧ { office with bus.transmitting := some ⟨.receipt 5, false⟩ }.bus.transmitting = some ⟨.receipt 5, false⟩
      ∧ (Payload.receipt 5).wellFormed = true ∧ (Frame.mk 1 (.beacon beaconOne)).wellFormed = true
      ∧ (Frame.mk 3 (.delta ⟨0xFFFFFFFF, List.replicate 8 ⟨0, .entry streamContent⟩⟩)).wellFormed = true
      ∧ (Frame.mk 0 (.fetch ⟨Four.all true, List.replicate 16 4095⟩)).wellFormed = true
      ∧ (Frame.mk 0 (.digest ⟨Four.all true, 4080, List.replicate 16 0⟩)).wellFormed = true
      ∧ (Frame.mk 2 (.relay observation)).wellFormed = true := by decide +kernel

theorem test_meets_PostQueuesOrOverruns :
    let s (n : Nat) : State := { office with port.requests := List.replicate n keepWords }
    (s 15).phase = .running ∧ (s 15).port.requests.length < 16 ∧ 16 ≤ (s 16).port.requests.length := by decide +kernel

/-- The hypotheses of WindowWrites, PopEventsAndMask, ClearEmptiesCaptures, ResetsSilenceTheStation and AgeTickCounts. -/
theorem test_meets_window_statements :
    office.phase = .running ∧ (after .pinResetAssert office).phase ≠ .running
      ∧ (0x0F : Byte).toNat < 0x10 ∧ 0x2C ≤ (0x2C : Byte).toNat ∧ (0x5F : Byte).toNat < 0x60
      ∧ 0xA0 ≤ (0xA0 : Byte).toNat ∧ 0xA0 ≤ (0xFF : Byte).toNat ∧ AccessSize.half ≠ .word := by decide +kernel

/-- The responses that the reads of the RESPONSE words are about: with an entry's summary, with a group's view, and with an
offending field. -/
theorem test_meets_PopEventsAndMask :
    let head (i : Instr) (r : Request) (s : State) : Option Response := (after i (asked r s)).port.responses.head?
    let one := head .lookup lookupRequest (withEntry { liveEntry with confirmation := some (1, 840), translation := some 30000 } true office)
    let two := head .unhold (shortRequest 0x12090100 0) office
    let three := head .unknownKind (shortRequest 0x05090000 0) office
    office.port.responses = []
      ∧ (one.any fun r => r.handle.isSome && r.state.isSome && r.port.isSome && r.offending.isNone)
      ∧ ((one.bind (·.summary)).any fun x => x.confirmation.isSome)
      ∧ (two.any fun r => r.summary.isNone && r.view.isSome) ∧ (three.any fun r => r.offending.isSome) := by
  decide +kernel

/-- A capture that is empty and one that is taken; a group with an owner known and one without; a partner and none. -/
theorem test_meets_window_reads :
    office.port.busCapture = none ∧ (busFault { kind := 1, source := 2, item := 3 } office).port.busCapture ≠ none
      ∧ office.port.requests.length ≤ 16 ∧ office.port.responses.length ≤ 16 ∧ office.table.length ≤ 16384
      ∧ office.journal.occupancy ≤ 1024 ∧ office.recon.resend.length ≤ 4096
      ∧ (office.group 1).owner = none ∧ ((following 1 office).group 1).owner = some 1
      ∧ office.presentPartner = some 1 ∧ State.reset.presentPartner = none := by decide +kernel

theorem test_meets_CursorShowsASlot :
    let s : State := { withEntry liveEntry true office with port.cursorHandle := handleOf 0x9B5 3, port.cursorPending := true }
    let bad : State := { withEntry liveEntry false office with port.cursorHandle := handleOf 0x9B5 3, port.cursorPending := true }
    office.port.cursorPending = false ∧ s.port.cursorPending = true ∧ s.table.sound (bucketOfHandle s.port.cursorHandle) = true
      ∧ bad.port.cursorPending = true ∧ bad.table.sound (bucketOfHandle bad.port.cursorHandle) = false
      ∧ s.higherWaits .cursor = false ∧ bad.higherWaits .cursor = false
      ∧ (inLife .fault bad).higherWaits .cursor = false
      ∧ bad.life.active = true ∧ (inLife .fault bad).life.active = false
      ∧ s.port.snapshot.entry = none
      ∧ (after .cursorSnapshot { s with port.cursorHandle := handleOf 0x9B5 0 }).port.snapshot.entry = some liveEntry := by
  decide +kernel

theorem test_meets_ResetReleases :
    let s := after .pinResetAssert (holding 1 office)
    s.phase = .pin ⟨false, true, false, false⟩ .none ∧ (∀ g, s.own.foreignDrive.get g = false)
      ∧ { s with own.foreignDrive := Four.all true }.own.foreignDrive.get 1 = true := by decide +kernel

/-- A claim that a line driven from outside ends, and one that the loss of an input has ended already; a VACANT station that
may claim when the line is let go, and one that finds it on; and a station in another state. -/
theorem test_meets_ReadbackMovesForeignAssertion :
    let able (s : State) : Bool := decide (s.straps.role = .firewall ∧ s.life = .member) && s.port.isSealed
      && s.port.setup.groups.get 1 && decide ((s.group 1).health ≠ 0) && !(s.group 1).hold && !s.port.lapsed
      && s.quorumPresent
    let held := inState 1 (fun r => { r with hold := true }) (claiming 1 office)
    let driven : State := { office with own.foreignDrive := Four.all true }
    able office ∧ able (claiming 1 office) ∧ ((claiming 1 office).group 1).state = .claiming
      ∧ able held = false ∧ (held.group 1).state = .claiming
      ∧ able driven ∧ (driven.group 1).state = .vacant ∧ (driven.group 1).backoff = false ∧ driven.mayOutbid 1 = true
      ∧ driven.bus.control = [] ∧ ((holding 1 office).group 1).state = .holding := by decide +kernel

/-- One state for each row of the table of drives. -/
theorem test_meets_DriveFollowsItsTable :
    let s := yielding 2 (holding 1 (inState 3 (fun r => { r with hold := true }) office))
    s.straps.role = .firewall ∧ s.phase = .running ∧ s.drive 0 = false ∧ s.drive 1 = true ∧ s.drive 2 = true
      ∧ s.drive 3 = false ∧ faulted.straps.role = .firewall ∧ faulted.life = .fault := by decide +kernel

theorem test_meets_TakingAndAnswering :
    let lapsing : State := { office with port.lapsed := true }
    let joining := joinState streamContent
    office.port.lapsed = false ∧ lapsing.port.lapsed = true ∧ lapsing.bus.control = []
      ∧ { lapsing with port.lapsed := false }.mayClaim 1 = true ∧ joining.joinWaits = true
      ∧ grantOf .agingVisit = some .aging ∧ joining.higherWaits .aging = true
      ∧ grantOf .cursorSnapshot = some .cursor ∧ grantOf .reJournal = some .reader ∧ grantOf .check = some .request
      ∧ (asked dataCheck joining).engineWaits = true ∧ (asked dataCheck joining).higherWaits .request = true
      ∧ (asked dataCheck office).higherWaits .reader = true
      ∧ { office with recon.purge := [.bucketEnd 1 5 (Four.all true) 9] }.higherWaits .aging = true
      ∧ { office with scan := ⟨true, 5, false⟩ }.higherWaits .cursor = true := by decide +kernel

/-- A record in hand makes receive apply wait; one not yet in hand does not. -/
theorem test_joins_wait_in_hand :
    let s (inHand : Bool) : State :=
      { office with receive.taking := some ⟨1, [⟨840, .entry streamContent⟩], inHand⟩ }
    (s true).joinWaits = true ∧ (s false).joinWaits = false := by decide +kernel

/-- The request engine takes `r` next. -/
def asks (s : State) (r : Request) : Bool := decide (s.phase = .running ∧ s.nextRequest = some r)

theorem test_meets_SessionRequestsAreTestedFirst :
    asks (asked dataCheck State.reset) dataCheck ∧ dataCheck.kind = 0x01 ∧ adoptRequest.kind = 0x02 ∧ retireRequest.kind = 0x03
      ∧ lookupRequest.kind = 0x04
      ∧ (takeRequest (asked dataCheck State.reset)).life = .setup ∧ (takeRequest (asked dataCheck faulted)).life = .fault
      ∧ (takeRequest (asked dataCheck office)).life.active = true
      ∧ checkOffence (dataCheck.set 0 0x01090404) = some ⟨0, 8⟩ ∧ checkOffence (dataCheck.set 14 1) = some ⟨14, 0⟩
      ∧ adoptOffence (Four.all true) (adoptRequest.set 15 0x80000FFF) = some ⟨15, 0⟩
      ∧ adoptOffence (Four.all false) (adoptRequest.set 15 0x80001000) = some ⟨15, 0⟩
      ∧ keyOffence (lookupRequest.set 0 0x04090005) = some ⟨0, 0⟩ := by decide +kernel

/-- Every field at a value in its range and at one out of it; and a request with two fields out of range, of which the first
is named. -/
theorem test_meets_first_offence :
    let names (r : Request) (o : Option FieldName) : Bool := decide (checkOffence r = o)
    let adopts (w : Word) (o : Option FieldName) : Bool :=
      decide (adoptOffence ⟨false, true, false, false⟩ (adoptRequest.set 15 w) = o)
    names (dataCheck.set 0 0x01090304) none ∧ names (dataCheck.set 0 0x01090404) (some ⟨0, 8⟩)
      ∧ names (dataCheck.set 0 0x01090103) (some ⟨0, 0⟩) ∧ names (dataCheck.set 0 0x01090106) none
      ∧ names (dataCheck.set 1 0x06010001) none ∧ names (dataCheck.set 1 0x06020001) (some ⟨1, 16⟩)
      ∧ names (dataCheck.set 1 0x2F000001) (some ⟨2, 16⟩) ∧ names ((dataCheck.set 1 0x2F000001).set 2 0) none
      ∧ names (dataCheck.set 1 0x11000001) none ∧ names ((dataCheck.set 1 0x11000001).set 6 0xC0000000) none
      ∧ names (dataCheck.set 6 0x40000000) (some ⟨6, 0⟩) ∧ names (dataCheck.set 6 0x3FFFFFFF) none
      ∧ names (dataCheck.set 8 1) (some ⟨8, 0⟩) ∧ names ((dataCheck.set 0 0x01090106).set 8 1) none
      ∧ names ((dataCheck.set 14 1).set 9 1) (some ⟨9, 0⟩)
      ∧ adopts 0x80000FFF (some ⟨15, 0⟩) ∧ adopts 0x80001000 none ∧ adopts 0x00000001 none := by decide +kernel

/-! #### Session requests -/

def slotOne : Handle := handleOf (bucketOf streamKey) 0

/-- A key of the bucket of `streamKey`, another for every `n`. -/
def neighbour (n : Port) : Key := { streamKey with iPort := streamKey.iPort ^^^ n, rPort := streamKey.rPort ^^^ n }

/-- Four live entries fill the bucket of `streamKey`, which is not among them. -/
def crowded (s : State) : State :=
  let x (w : Way) : Handle × Slot :=
    (handleOf (bucketOf streamKey) w, ⟨{ liveEntry with key := neighbour (w.setWidth 16 + 1) }, true⟩)
  { s with table := [x 0, x 1, x 2, x 3] }

theorem test_crowded : ∀ w : Way, bucketOf (neighbour (w.setWidth 16 + 1)) = bucketOf streamKey := by decide +kernel

/-- The holder of group 1, its adoption open or not. -/
def owner (adoption : Bool) : State := inState 1 (fun r => { r with adoptionOpen := adoption }) (holding 1 office)

/-- What the statements about a key ask before its bucket is read. -/
def reaches (s : State) (r : Request) : Bool :=
  asks s r && !s.higherWaits .request && (takeRequest s).life.active && (takeRequest s).table.sound (bucketOf r.key)

/-- The entry that the key of `r` finds. -/
def found (s : State) (r : Request) (e : Entry) : Bool :=
  reaches s r && decide ((takeRequest s).table.find r.key = some (slotOne, e))

def absent (s : State) (r : Request) : Bool := reaches s r && decide ((takeRequest s).table.find r.key = none)

def checkable (r : Request) : Bool := decide (r.kind = 0x01 ∧ checkOffence r = none)

def ownerChecks (s : State) (r : Request) : Bool := checkable r && (takeRequest s).holds r.group

/-- A retired or closed entry meets a packet that creates. -/
def renews (e : Entry) (r : Request) : Bool := e.isEnded && Packet.creates r.key r.packet

/-- The opening CHECK with translate-on-create. -/
def translatedCheck : Request := keyRequest 0x01090104 0x06000102 5000000 800000

/-- A search that meets quarantined blocks only finds no port. -/
theorem searchPort_quarantined (q : List Block) (all : ∀ b : Block, q.contains b = true) (fuel : Nat) (p : Port) :
    searchPort [] q fuel p = none := by
  induction fuel generalizing p with
  | zero => rfl
  | succ n ih => simp only [searchPort, all, Bool.or_true, if_true, ih]

/-- The owner of group 1 with no port left. A table of 16,384 entries leaves no such pool in a run. -/
def portless : State :=
  let s := asked translatedCheck (owner false)
  { s with xlate := s.xlate.set 1 ⟨[], 4096, none, List.finRange 60⟩ }

theorem test_meets_OwnerChecksAnAbsentKey :
    (∀ a, let s := asked dataCheck (owner a)
      ownerChecks s dataCheck ∧ absent s dataCheck ∧ ((takeRequest s).group 1).adoptionOpen = a
        ∧ Packet.creates dataCheck.key dataCheck.packet = false)
    ∧ (let s := asked openingCheck (crowded (owner false))
      ownerChecks s openingCheck ∧ absent s openingCheck ∧ Packet.creates openingCheck.key openingCheck.packet
        ∧ ownerPlace (takeRequest s).table (bucketOf openingCheck.key) = .full)
    ∧ (ownerChecks portless translatedCheck ∧ absent portless translatedCheck
        ∧ (ownerPlace (takeRequest portless).table (bucketOf translatedCheck.key)).handle = some slotOne
        ∧ (translatedCheck.translateOnCreate && (takeRequest portless).port.setup.translate.get 1) = true)
    ∧ (let s := asked translatedCheck (owner true)
      ownerChecks s translatedCheck ∧ absent s translatedCheck ∧ Packet.creates translatedCheck.key translatedCheck.packet
        ∧ (ownerPlace (takeRequest s).table (bucketOf translatedCheck.key)).handle = some slotOne
        ∧ (takeRequest s).freePort 1 = some 4096 ∧ openingCheck.translateOnCreate = false) := by decide +kernel

theorem test_meets_no_port : (takeRequest portless).freePort 1 = none :=
  searchPort_quarantined (List.finRange 60) (by decide) _ _

/-- Every port of the pool is taken, as the statement says it. -/
theorem test_meets_all_taken (n : Nat) (lt : n < Config.poolPorts) :
    (holderOf (portAfter^[n] 4096) []).isSome = true
      ∨ (List.finRange 60).contains (blockOf (portAfter^[n] 4096)) = true :=
  (searchPort_none [] (List.finRange 60) Config.poolPorts 4096).mp test_meets_no_port n lt

/-- The port that an allocation takes: at the cursor; after a held port at the end of the range; after a quarantined block. -/
theorem test_meets_allocations :
    let h := slotOne
    let port (occupied : List (Port × Handle)) (q : List Block) (cursor : Port) : Option Port :=
      searchPort occupied q Config.poolPorts cursor
    port [] [] 4096 = some 4096 ∧ port [(65535, h)] [] 65535 = some 4096
      ∧ port [(4096, h), (65535, h)] [] 65535 = some 4097 ∧ port [] [0] 5119 = some 5120 := by decide +kernel

/-- The slots that an insertion at the owner takes: the lowest free way; the oldest retired entry without a pending mark, the
lower way between equal stamps; and none. -/
theorem test_meets_places :
    let b := bucketOf streamKey
    let put (w : Way) (e : Entry) (s : State) : State :=
      { s with table := s.table.put (handleOf b w) ⟨{ e with key := neighbour (w.setWidth 16 + 1) }, true⟩ }
    let full := crowded (owner false)
    let tombs := put 1 retiredEntryOne (put 2 retiredEntryOne full)
    let older := put 3 retiredEntryOne (put 1 { retiredEntryOne with stamp := 1 } full)
    let marked_ := put 0 { retiredEntryOne with pending := some 500 } full
    ownerPlace [] b = .free slotOne ∧ ownerPlace (full.table.free (handleOf b 2)) b = .free (handleOf b 2)
      ∧ ownerPlace tombs.table b = .evict (handleOf b 1) ∧ ownerPlace older.table b = .evict (handleOf b 3)
      ∧ ownerPlace marked_.table b = .full ∧ ownerPlace full.table b = .full := by decide +kernel

/-- What `placeIn_spec` makes of the first and the last of them. -/
theorem test_meets_place_clauses :
    (∀ k, bucketOfHandle k = bucketOf streamKey → Table.slot [] k = none → slotOne ≤ k)
      ∧ (∀ k, bucketOfHandle k = bucketOf streamKey → (crowded (owner false)).table.slot k ≠ none)
      ∧ ∀ k y, ¬ Candidate (crowded (owner false)).table (bucketOf streamKey) Entry.isRetired k y := by
  have first := placeIn_spec [] (bucketOf streamKey) Entry.isRetired
  have last := placeIn_spec (crowded (owner false)).table (bucketOf streamKey) Entry.isRetired
  rw [show placeIn [] (bucketOf streamKey) Entry.isRetired = .free slotOne from by decide +kernel] at first
  rw [show placeIn (crowded (owner false)).table (bucketOf streamKey) Entry.isRetired = .full from by decide +kernel] at last
  exact ⟨first.2.2, last⟩

/-- R8: a never-transmitted record of the key that a creation writes, and one that has been transmitted. -/
theorem test_meets_unsent_record :
    let j (sent : Bool) : Journal := ⟨[⟨500, sent, .entry streamContent, none⟩], 500, 501, 500, false, false⟩
    (j false).unsentOf streamKey 0 = some 500 ∧ (j true).unsentOf streamKey 0 = none
      ∧ (j false).unsentOf streamKey 1 = none := by decide

theorem test_meets_OwnerChecksAnEntry :
    let s (e : Entry) (r : Request) : State := asked r (withEntry e true (owner false))
    let met (e : Entry) (r : Request) : Bool := ownerChecks (s e r) r && found (s e r) r e
    met { liveEntry with group := 2 } dataCheck
      ∧ met retiredEntryOne openingCheck ∧ renews retiredEntryOne openingCheck
      ∧ met retiredEntryOne dataCheck ∧ Packet.creates dataCheck.key dataCheck.packet = false
      ∧ met liveEntry lateCheck ∧ renews liveEntry lateCheck = false ∧ liveEntry.isRetired = false
      ∧ windowTests liveEntry.sides lateCheck.packet = false
      ∧ met liveEntry dataCheck ∧ renews liveEntry dataCheck = false
      ∧ windowTests liveEntry.sides dataCheck.packet = true := by decide +kernel

/-- A loose check: an entry of another origin, at an owner whose adoption is open, past the window. -/
theorem test_meets_loose_check :
    let e : Entry := { liveEntry with origin := 1 }
    let s := asked lateCheck (withEntry e true (owner true))
    ownerChecks s lateCheck ∧ found s lateCheck e ∧ ((takeRequest s).group 1).adoptionOpen = true
      ∧ (takeRequest s).me ≠ e.origin := by decide +kernel

/-- A check that leaves its entry as it was: the stamp, the origin, the marks and the windows are the entry's already. -/
theorem test_meets_unchanged_entry :
    let r : Request := (dataCheck.set 5 0).set 6 32768
    let s := asked r (withEntry liveEntry true (owner false))
    ownerChecks s r ∧ found s r liveEntry ∧ windowTests liveEntry.sides r.packet = true
      ∧ passedEntry liveEntry (takeRequest s).now (takeRequest s).me r.packet = liveEntry
      ∧ passedEntry liveEntry (takeRequest s).now (takeRequest s).me dataCheck.packet ≠ liveEntry := by decide +kernel

theorem test_meets_CopyChecksWriteNothing :
    let s (e : Entry) (r : Request) : State := asked r (withEntry e true (following 1 office))
    let met (e : Entry) (r : Request) : Bool :=
      checkable r && found (s e r) r e && decide (((takeRequest (s e r)).group 1).state = .following)
    let off := asked dataCheck (inState 1 (fun r => { r with state := .disabled }) office)
    asks off dataCheck ∧ (takeRequest off).life.active ∧ ((takeRequest off).group 1).state = .disabled
      ∧ { office with bus.relays := List.replicate 7 observation }.bus.relays.length < 8
      ∧ absent (asked dataCheck office) dataCheck ∧ ((takeRequest (asked dataCheck office)).group 1).state = .vacant
      ∧ ((takeRequest (asked dataCheck (claiming 1 office))).group 1).state = .claiming
      ∧ met { liveEntry with group := 2 } dataCheck
      ∧ met retiredEntryOne openingCheck ∧ renews retiredEntryOne openingCheck
      ∧ met retiredEntryOne dataCheck ∧ met liveEntry lateCheck ∧ met liveEntry dataCheck := by decide +kernel

/-- ADOPT of `streamKey` with port 30,000. -/
def portAdopt : Request := adoptRequest.set 15 0x80007530

/-- The open owner; an entry of another key holds port 30,000 in another bucket. -/
def portHeld (e : Entry) : State :=
  let x : Entry := { e with key := datagramKey, stream := none, translation := some 30000 }
  let s := withEntry x true (owner true)
  asked portAdopt { s with xlate := s.xlate.set 1 ⟨[(30000, handleOf (bucketOf datagramKey) 0)], 4096, none, []⟩ }

theorem test_meets_AdoptByItsSteps :
    let adopts (s : State) : Bool :=
      reaches s adoptRequest && decide (adoptOffence (takeRequest s).port.setup.translate adoptRequest = none)
    let at_ (s : State) : GroupRecord := (takeRequest s).group 1
    let off := asked adoptRequest (inState 1 (fun r => { r with state := .disabled }) office)
    let closed := asked adoptRequest (owner false)
    let there := asked adoptRequest (withEntry liveEntry true (owner true))
    let full := asked adoptRequest (crowded (owner true))
    let open_ := asked adoptRequest (owner true)
    adoptRequest.kind = 0x02 ∧ adoptRequest.givenPort = none
      ∧ adopts off ∧ (at_ off).state = .disabled
      ∧ adopts (asked adoptRequest office) ∧ (at_ (asked adoptRequest office)).state = .vacant
      ∧ adopts closed ∧ (at_ closed).state = .holding ∧ (at_ closed).adoptionOpen = false
      ∧ adopts there ∧ found there adoptRequest liveEntry ∧ (at_ there).adoptionOpen = true
      ∧ adopts full ∧ absent full adoptRequest
      ∧ ownerPlace (takeRequest full).table (bucketOf adoptRequest.key) = .full
      ∧ adopts open_ ∧ absent open_ adoptRequest
      ∧ (ownerPlace (takeRequest open_).table (bucketOf adoptRequest.key)).handle = some slotOne := by decide +kernel

/-- The holder of a given port: live, or a tombstone that the adoption displaces. -/
theorem test_meets_adopt_port :
    let k := handleOf (bucketOf datagramKey) 0
    let met (e : Entry) : Bool :=
      let u := takeRequest (portHeld e)
      absent (portHeld e) portAdopt && u.holds 1 && (u.group 1).adoptionOpen
        && decide (adoptOffence u.port.setup.translate portAdopt = none ∧ portAdopt.givenPort = some 30000
          ∧ u.portHolder 1 30000 = some k ∧ (u.entryAt k).map Entry.isRetired = some e.isRetired)
    let u := takeRequest (portHeld retiredEntryOne)
    met liveEntry ∧ liveEntry.isRetired = false ∧ met retiredEntryOne ∧ u.portConflict (some k) = false
      ∧ badHolder u.table (some k) = none
      ∧ (ownerPlace (tableWithout u.table (bucketOf portAdopt.key) (some k)) (bucketOf portAdopt.key)).handle
          = some slotOne := by decide +kernel

/-- The holder of the given port stands in the bucket of the new key, which is full: its way is free for the adoption. -/
theorem test_meets_adopt_displaces_in_bucket :
    let k := handleOf (bucketOf streamKey) 2
    let s := crowded (owner true)
    let t : State := asked portAdopt { s with
      table := s.table.put k ⟨{ retiredEntryOne with key := neighbour 3, translation := some 30000 }, true⟩
      xlate := s.xlate.set 1 ⟨[(30000, k)], 4096, none, []⟩ }
    let u := takeRequest t
    absent t portAdopt ∧ u.holds 1 ∧ (u.group 1).adoptionOpen = true ∧ u.portHolder 1 30000 = some k
      ∧ (u.entryAt k).map Entry.isRetired = some true ∧ u.table.sound (bucketOfHandle k) = true
      ∧ (([0, 1, 2, 3] : List Way).all fun w => (u.entryAt (handleOf (bucketOf streamKey) w)).isSome)
      ∧ ownerPlace (tableWithout u.table (bucketOf streamKey) (some k)) (bucketOf streamKey) = .free k := by decide +kernel

theorem test_meets_RetireByItsSteps :
    let s (e : Entry) (t : State) : State := asked retireRequest (withEntry e true t)
    let off := inState 1 (fun r => { r with state := .disabled }) office
    retireRequest.kind = 0x03 ∧ keyOffence retireRequest = none ∧ absent (asked retireRequest office) retireRequest
      ∧ found (s liveEntry off) retireRequest liveEntry ∧ ((takeRequest (s liveEntry off)).group 1).state = .disabled
      ∧ found (s liveEntry office) retireRequest liveEntry ∧ (takeRequest (s liveEntry office)).holds 1 = false
      ∧ found (s retiredEntryOne (owner false)) retireRequest retiredEntryOne
      ∧ found (s liveEntry (owner false)) retireRequest liveEntry
      ∧ (takeRequest (s liveEntry (owner false))).holds 1 = true := by decide +kernel

theorem test_meets_LookupReads :
    lookupRequest.kind = 0x04 ∧ keyOffence lookupRequest = none ∧ absent (asked lookupRequest office) lookupRequest
      ∧ found (asked lookupRequest (withEntry liveEntry true office)) lookupRequest liveEntry := by decide +kernel

/-! #### Other requests -/

theorem test_meets_GroupRequests :
    let r (w0 : Word) : Request := shortRequest w0 0
    (r 0x10090100).kind = 0x10 ∧ (r 0x11090100).kind = 0x11 ∧ (r 0x12090100).kind = 0x12
      ∧ asks (asked (r 0x11090100) State.reset) (r 0x11090100)
      ∧ (takeRequest (asked (r 0x11090100) State.reset)).life = .setup
      ∧ asks (asked (r 0x11090100) faulted) (r 0x11090100) ∧ (takeRequest (asked (r 0x11090100) faulted)).life = .fault
      ∧ asks (asked (r 0x11090400) office) (r 0x11090400) ∧ 3 < (r 0x11090400).groupByte.toNat
      ∧ (r 0x11090300).groupByte.toNat ≤ 3 ∧ asks (asked (r 0x11090300) witnessOffice) (r 0x11090300)
      ∧ witnessOffice.life.active ∧ (takeRequest (asked (r 0x11090300) witnessOffice)).straps.role = .witness
      ∧ ((takeRequest (asked (r 0x11090300) (inState 3 (fun x => { x with state := .disabled }) office))).group 3).state
          = .disabled
      ∧ ((takeRequest (asked (r 0x11090300) office)).group 3).state ≠ .disabled ∧ office.straps.role = .firewall := by
  decide +kernel

/-- R152: a HOLD and a HEALTH of 0 of group 1, at a CLAIMING station, and at a holder whose partner is eligible and synced,
not synced, or not eligible, with a record of the group in the journal and with none. -/
theorem test_meets_hold_at_owner :
    let r : Request := shortRequest 0x11090100 0
    let u (s : State) : State := takeRequest (asked r s)
    let shows (b : Beacon) : State := { holding 1 office with
      presence.records := office.presence.records.set 1 ⟨.present, some .firewall, true, some b⟩ }
    let journaled : State := { holding 1 office with
      journal := ⟨[⟨1, true, .entry streamContent, none⟩], 1, 2, 2, true, true⟩ }
    asks (asked r office) r ∧ (u office).life.active ∧ r.group = 1 ∧ ((u office).group 1).hold = false
      ∧ (shortRequest 0x10090100 0x0000000A).score = 10 ∧ (shortRequest 0x10090100 0).score = 0
      ∧ ((u (claiming 1 office)).group 1).state = .claiming ∧ ((u (holding 1 office)).group 1).state = .holding
      ∧ (u (holding 1 office)).presentPartner = some 1 ∧ ((u (holding 1 office)).peer 1).showsEligible 1 = true
      ∧ (u (holding 1 office)).journal.holdsGroup 1 = false ∧ ((u (holding 1 office)).peer 1).showsSynced 1 = true
      ∧ (u (holding 1 office)).bus.control = [] ∧ (u journaled).journal.holdsGroup 1 = true
      ∧ ((u (shows { beaconOne with synced := Four.all false })).peer 1).showsSynced 1 = false
      ∧ ((u (shows { beaconOne with groups := Four.all { shown with eligible := false } })).peer 1).showsEligible 1
          = false := by decide +kernel

theorem test_meets_ResyncByItsSteps :
    let r : Request := shortRequest 0x13090000 0
    let u (s : State) : State := takeRequest (asked r s)
    r.kind = 0x13 ∧ asks (asked r office) r ∧ (u State.reset).life = .setup ∧ (u faulted).life = .fault
      ∧ (u { office with recon.passRunning := true }).recon.passRunning = true ∧ (u office).life.active
      ∧ (u office).recon.passRunning = false ∧ (u office).heldSet = Four.all false
      ∧ (u (holding 1 office)).holds 1 = true ∧ (u (holding 1 office)).presentPartner.isSome
      ∧ (u (holding 1 { office with presence.partner := none })).presentPartner = none := by decide +kernel

theorem test_meets_SetupAndSeal :
    let bad : Request := setupRequest.set 6 0x003C0009
    let r : Request := shortRequest 0x21090000 0
    setupRequest.kind = 0x20 ∧ bad.kind = 0x20 ∧ r.kind = 0x21
      ∧ asks (asked setupRequest office) setupRequest ∧ (takeRequest (asked setupRequest office)).port.isSealed = true
      ∧ asks (asked bad State.reset) bad ∧ (takeRequest (asked bad State.reset)).port.isSealed = false
      ∧ setupOffence bad = some ⟨6, 0⟩ ∧ setupOffence (setupRequest.set 6 0x0001000A) = none
      ∧ setupOffence (setupRequest.set 6 0xFFFF2711) = some ⟨6, 0⟩ ∧ setupOffence setupRequest = none
      ∧ setupOffence (setupRequest.set 2 0x07000707) = none ∧ setupOffence (setupRequest.set 2 0x07080807) = some ⟨2, 16⟩
      ∧ setupOffence (setupRequest.set 4 0x02580259) = some ⟨4, 0⟩ ∧ setupOffence (setupRequest.set 5 0x00140078) = none
      ∧ setupOffence (setupRequest.set 5 0x03E90079) = some ⟨5, 16⟩ ∧ setupOffence (setupRequest.set 5 0x03E80000) = some ⟨5, 0⟩
      ∧ setupOffence ((setupRequest.set 9 0).set 7 0xFFFF0001) = some ⟨9, 16⟩
      ∧ asks (asked r office) r ∧ (takeRequest (asked r office)).life ≠ .setup
      ∧ (takeRequest (asked r State.reset)).life = .setup ∧ (takeRequest (asked r State.reset)).port.isSealed = false
      ∧ State.reset.straps.mem3 = false ∧ State.reset.port.setup.solo = true := by decide +kernel

theorem test_meets_RejoinByItsSteps :
    let r : Request := shortRequest 0x22090000 0
    let u (s : State) : State := takeRequest (asked r s)
    r.kind = 0x22 ∧ asks (asked r office) r ∧ (u State.reset).life = .setup
      ∧ (u faulted).life = .fault ∧ (u faulted).presence.faultKind = .duplicate
      ∧ (u (after .agingVisit (withEntry liveEntry false { office with scan := ⟨true, 0x9B5, false⟩ }))).presence.faultKind
          = .integrity
      ∧ (u office).life = .member ∧ (after .rejoin (asked r office)).engine.inProgress = some 9
      ∧ (after .rejoin (asked r office)).phase = .running := by decide +kernel

/-- At the clear of a REJOIN: quorum by a PRESENT station alone, which the clear ends, and by solo takeover, which it does
not. -/
theorem test_meets_rejoin_clear :
    let s (solo : Bool) : State := { office with engine.inProgress := some 9, port.setup.solo := solo }
    (s false).phase = .running ∧ (s false).engine.inProgress = some 9
      ∧ (s false).quorumPresent = true ∧ (after .rejoinClear (s false)).quorumPresent = false
      ∧ (after .rejoinClear (s true)).quorumPresent = true := by decide +kernel

theorem test_meets_KeepAndUnknownKinds :
    let r (w0 : Word) : Request := shortRequest w0 0
    asks (asked keepWords faulted) keepWords ∧ keepWords.kind = 0x23 ∧ (takeRequest (asked keepWords faulted)).life = .fault
      ∧ (takeRequest (asked keepWords State.reset)).life ≠ .fault
      ∧ (r 0).kind ∉ knownKinds ∧ (r 0x05000000).kind ∉ knownKinds ∧ (r 0x0F000000).kind ∉ knownKinds
      ∧ (r 0x14000000).kind ∉ knownKinds ∧ (r 0x24000000).kind ∉ knownKinds ∧ (r 0x7F000000).kind ∉ knownKinds := by
  decide +kernel

/-! #### Aging -/

/-- The clauses of a visit, each with an entry idle for the limit or for one second more. -/
theorem test_meets_AgingVisitsABucket :
    let s (e : Entry) (now : BitVec 32) (t : State) : State :=
      { withEntry e true t with clock.tick := now, scan := ⟨true, 0x9B5, false⟩ }
    let idle (e : Entry) (now : BitVec 32) : Nat := now.toNat - e.stamp.toNat
    let met (e : Entry) (now : BitVec 32) (t : State) : Bool :=
      decide ((s e now t).phase = .running ∧ (s e now t).entryAt slotOne = some e) && (s e now t).scan.running
        && (s e now t).agingPermitted && !(s e now t).higherWaits .aging && (s e now t).table.sound 0x9B5
    bucketOfHandle slotOne = 0x9B5
      ∧ met liveEntry 3600 office ∧ idle liveEntry 3600 = office.port.setup.idleLimit liveEntry
      ∧ met retiredEntryOne 61 office ∧ idle retiredEntryOne 61 = office.port.setup.idleLimit retiredEntryOne + 1
      ∧ retiredEntryOne.pending = none
      ∧ met { retiredEntryOne with pending := some 4 } 61 office
      ∧ met liveEntry 3601 office ∧ office.holds 1 = false
      ∧ met liveEntry 3601 (holding 1 office) ∧ (holding 1 office).holds 1 = true := by decide +kernel

/-- Two live entries idle past their limit at ways 0 and 1: the second is offered after the first. -/
theorem test_meets_aging_in_order :
    let s : State := { crowded (holding 1 office) with clock.tick := 3601, scan := ⟨true, 0x9B5, false⟩ }
    let t := after .agingVisit s
    s.scan.running ∧ s.agingPermitted ∧ s.higherWaits .aging = false ∧ s.table.sound 0x9B5 = true
      ∧ (([0, 1, 2, 3] : List Way).map fun w => (t.entryAt (handleOf 0x9B5 w)).bind (·.pending))
          = [some 1, some 2, some 3, some 4]
      ∧ t.journal.records.map (·.seq) = [1, 2, 3, 4] := by decide +kernel

/-- A bucket that fails before each client: a join, the four requests, an observation, a purge, a comparison, a preparation,
a re-journal and a visit. -/
theorem test_meets_IntegrityFailureEntersFault :
    let s := withEntry liveEntry false (owner true)
    let meets (t : State) : Bool := decide (t.phase = .running) && t.life.active && !t.table.sound 0x9B5
    let asksIt (r : Request) : Bool := meets (asked r s) && asks (asked r s) r && !(asked r s).higherWaits .request
      && decide ((takeRequest s).table.sound (bucketOf r.key) = false)
    let reads (x : Recon) : Bool := meets { s with recon := x } && !{ s with recon := x }.higherWaits .reader
    bucketOf streamKey = 0x9B5 ∧ meets { s with receive.taking := some ⟨1, [⟨840, .entry streamContent⟩], true⟩ }
      ∧ asksIt dataCheck ∧ checkOffence dataCheck = none ∧ ((takeRequest s).group 1).state ≠ .disabled
      ∧ asksIt adoptRequest ∧ adoptOffence (takeRequest s).port.setup.translate adoptRequest = none
      ∧ (takeRequest s).holds 1 = true ∧ ((takeRequest s).group 1).adoptionOpen = true
      ∧ asksIt retireRequest ∧ asksIt lookupRequest ∧ keyOffence lookupRequest = none
      ∧ { s with engine.relaySlot := some observation }.higherWaits .request = false
      ∧ bucketOf observation.key = 0x9B5 ∧ s.holds observation.group = true ∧ s.engine.inProgress = none
      ∧ reads { s.recon with purge := [.bucketEnd 1 0x9B5 (Four.all true) 9] }
      ∧ reads { s.recon with comparing := some ⟨Four.all true, 0x9B5, [0]⟩ } ∧ s.purgeWaits = false
      ∧ reads { s.recon with preparing := some ⟨Four.all true, 0x9B0, List.replicate 5 0⟩ }
      ∧ reads { s.recon with resend := [0x9B5] } ∧ { s with recon.resend := [0x9B5] }.mayRejournal = true
      ∧ s.recon.comparing = none ∧ s.recon.preparing = none
      ∧ meets { s with scan := ⟨true, 0x9B5, false⟩ } ∧ s.agingPermitted = true
      ∧ { s with scan := ⟨true, 0x9B5, false⟩ }.higherWaits .aging = false := by decide +kernel

/-- The sixth: the pending mark of a record that a DELTA is to carry, in a slot that fails. -/
theorem test_meets_integrity_composition :
    let u := after .check (asked openingCheck (holding 1 office))
    let s : State := { u with table := u.table.map fun x => (x.1, { x.2 with intact := false }) }
    s.phase = .running ∧ s.life.active ∧ s.bus.transmitting = none ∧ s.readyClass = some 3 ∧ 30 + 2 * s.me.val ≤ 30
      ∧ s.deltaReady ∧ s.digestReady = false ∧ s.bus.delta = none
      ∧ (s.journal.carried.any fun r => !r.sent && decide (r.slot = some slotOne)
          && (s.table.slot slotOne).any fun x => !x.intact && decide (x.entry.pending = some r.seq)) := by decide +kernel

/-- The seventh: a pending mark in a slot that fails, at a stall and where the partner's presence ends. -/
theorem test_meets_integrity_clear :
    let s := marked false
    s.phase = .running ∧ s.life.active ∧ s.takesFrames ∧ (1 : Station) ≠ s.me ∧ s.journal.stallTimer = true
      ∧ s.table.find? (fun y => y.2.entry.pending.isSome && !y.2.intact)
          = some (slotOne, ⟨{ liveEntry with pending := some 502 }, false⟩)
      ∧ (s.peer 1).deadTimer = true ∧ s.presentPartner = some 1
      ∧ (after (.beaconFrame 1 { beaconOne with fingerprint := 8 }) s).presentPartner = none := by decide +kernel

/-! #### The medium -/

def exampleClaim : Claim := ⟨1, 6, .vacant, 4, 9⟩

theorem test_meets_StartsTakeTheSelectedFrame :
    let b (f : Bus → Bus) : State := { office with bus := f office.bus }
    let claim := b fun x => { x with control := [.claim exampleClaim] }
    let relay := b fun x => { x with relays := [observation] }
    office.phase = .running ∧ office.life.active ∧ office.bus.transmitting = none ∧ office.readyClass = none
      ∧ claim.readyClass = some 1 ∧ 9 < 10 * 1 + 2 * office.me.val ∧ 10 + 2 * office.me.val ≤ 10
      ∧ (b fun x => { x with beaconSlot := some beaconOne }).readyClass = some 1
      ∧ (b fun x => { x with receiptSlot := some 5 }).readyClass = some 2
      ∧ (b fun x => { x with fetch := some ⟨Four.all true, [5]⟩ }).readyClass = some 2
      ∧ { office with recon.fetch := some ⟨Four.all true, [5]⟩ }.readyClass = some 2
      ∧ relay.readyClass = some 2 ∧ relay.bus.control = [] ∧ relay.bus.beaconSlot = none ∧ relay.bus.receiptSlot = none
      ∧ 19 < 10 * 2 + 2 * relay.me.val ∧ 20 + 2 * relay.me.val ≤ 20 := by decide +kernel

/-- A station with a DIGEST that waits, and whose journal holds one record that no DELTA has carried. -/
def replicating : State :=
  let s := after .check (asked openingCheck (holding 1 office))
  { s with recon.ready := some ⟨Four.all true, 0, List.replicate 16 0⟩ }

theorem test_meets_DeltasAreComposed :
    let s := replicating
    let later : State := { s with bus.lastClass3 := some .delta }
    s.phase = .running ∧ s.life.active ∧ s.bus.transmitting = none ∧ s.readyClass = some 3 ∧ 30 + 2 * s.me.val ≤ 30
      ∧ s.deltaReady ∧ s.digestReady ∧ s.bus.lastClass3 ≠ some .delta ∧ s.bus.delta = none
      ∧ { s with bus.delta := some ⟨1, [bucketEndRecord]⟩ }.deltaReady
      ∧ (s.table.all fun x => x.2.intact) ∧ later.digestReady ∧ later.bus.lastClass3 = some .delta ∧ later.bus.digest = none
      ∧ later.recon.ready ≠ none ∧ { later with bus.digest := later.recon.ready }.digestReady := by decide +kernel

theorem test_meets_composed_journal : replicating.journal.ordered := by
  refine ⟨by decide +kernel, by decide +kernel, ?_, 0, ?_, by decide +kernel, by decide +kernel⟩
  · intro i r here
    match i with
    | 0 => cases here; decide +kernel
    | n + 1 => cases here
  · intro i r here
    match i with
    | 0 => cases here; decide +kernel
    | n + 1 => cases here

/-- Every kind of frame in transmission, and the collision counts on both sides of the limit. -/
theorem test_meets_TransmissionsEnd :
    let t (p : Payload) (n : Nat) : State :=
      { claiming 1 office with bus := { office.bus with transmitting := some ⟨p, true⟩, collisions := n } }
    { office with bus.receiptSlot := some 5 }.contends = some 2
      ∧ State.reset.life = .setup ∧ (t (.beacon beaconOne) 14).bus.transmitting = some ⟨.beacon beaconOne, true⟩
      ∧ { office with bus.transmitting := some ⟨.fetch ⟨Four.all true, [5]⟩, false⟩ }.bus.transmitting
          = some ⟨.fetch ⟨Four.all true, [5]⟩, false⟩
      ∧ (t (.contest ⟨1, 6, 1, .higherClaim, 5⟩) 0).bus.transmitting = some ⟨.contest ⟨1, 6, 1, .higherClaim, 5⟩, true⟩
      ∧ (t (.claim { exampleClaim with epoch := 7 }) 0).bus.transmitting = some ⟨.claim { exampleClaim with epoch := 7 }, true⟩
      ∧ ((t (.claim { exampleClaim with epoch := 7 }) 0).group 1).claimEpoch ≠ some 7
      ∧ (t (.claim exampleClaim) 15).bus.transmitting = some ⟨.claim exampleClaim, true⟩
      ∧ ((t (.claim exampleClaim) 15).group 1).state = .claiming ∧ ((t (.claim exampleClaim) 15).group 1).claimEpoch = some 6
      ∧ (t (.receipt 5) 14).bus.collisions < 15 ∧ (t (.receipt 5) 15).bus.collisions = 15
      ∧ kindCode (.receipt 5) ≠ 0x02 ∧ (t (.receipt 5) 15).phase = .running
      ∧ (t (.claim exampleClaim) 15).bus.control.length ≤ 1
      ∧ { t (.claim exampleClaim) 15 with port.busCapture := none }.port.busCapture = none := by decide +kernel

/-- A station that takes frames, one in SETUP that a transmission straddles, one in SETUP or FAULT, and one at which a
REJOIN is in progress. -/
theorem test_meets_InvalidAndDuplicateFrames :
    let straddled : State := { office with bus.straddling := true }
    office.phase = .running ∧ office.takesFrames ∧ office.engine.inProgress = none
      ∧ hear [5, 1, 0, 4, 0, 0, 0] = .invalid 0x01 1 5 ∧ straddled.bus.straddling = true
      ∧ (office.bus.straddling = false ∧ faulted.bus.straddling = false ∧ faulted.life.active = false)
      ∧ { office with engine.inProgress := some 9 }.takesFrames
      ∧ { office with engine.inProgress := some 9 }.engine.inProgress = some 9 := by decide +kernel

/-! #### Presence -/

/-- A beacon of the partner, of another fingerprint, and of a station number above, at a station in MEMBER and in LISTEN. -/
theorem test_meets_BeaconsUpdateTheRecord :
    let listening := inLife .listen office
    office.phase = .running ∧ office.takesFrames ∧ (1 : Station) ≠ office.me ∧ office.life ≠ .listen
      ∧ listening.takesFrames ∧ office.presence.fingerprint = some beaconOne.fingerprint
      ∧ office.presence.fingerprint ≠ some { beaconOne with fingerprint := 8 }.fingerprint
      ∧ office.straps.role = .firewall ∧ witnessOffice.straps.role = .witness
      ∧ (let alone : State := { office with presence.records := Four.all Peer.reset, port.setup.solo := false }
        alone.quorumPresent ≠ (after (.beaconFrame 1 beaconOne) alone).quorumPresent)
      ∧ office.presence.partner = some 1 ∧ (office.peer 1).lastBeacon = some beaconOne
      ∧ { beaconOne with heard := Four.all false }.heard.get office.me ≠ beaconOne.heard.get office.me := by decide +kernel

/-- What a group's record and the partner's BEACON show where no third station shows the group held: a group to follow, an
owner lost, a claim that gives way, a dual ownership both ways, and a successor that can take no more, at a station that may
hold and at one with a hold. -/
theorem test_meets_beacon_groups :
    let b (x : BeaconGroup) : Beacon := { beaconOne with groups := Four.all x }
    let heard (x : BeaconGroup) (s : State) : Bool :=
      decide ((∀ q, q ≠ 1 → ((after (.beaconFrame 1 (b x)) s).peer q).state ≠ .present)
        ∧ ((after (.beaconFrame 1 (b x)) s).peer 1).state = .present)
    let held (e : Epoch) : BeaconGroup := { shown with state := .holding, epoch := e }
    let gone : BeaconGroup := { shown with eligible := false }
    let onHold := inState 1 (fun r => { r with hold := true }) (yielding 1 office)
    heard (held 6) office ∧ (office.group 1).state = .vacant ∧ (held 6).state.held = true
      ∧ heard shown (following 1 office) ∧ ((following 1 office).group 1).owner = some 1 ∧ keepsOwner shown.state = false
      ∧ heard (held 6) (claiming 1 office) ∧ ((claiming 1 office).group 1).claimEpoch = some 6
      ∧ serialBefore (held 6).epoch (6 : Epoch) = false
      ∧ heard (held 6) (holding 1 office) ∧ (holding 1 office).holds 1 = true
      ∧ standingHigher (held 6).epoch ⟨4, 9, 1⟩ ((holding 1 office).group 1).epoch ((holding 1 office).precedence 1) = true
      ∧ standingHigher (held 4).epoch ⟨4, 9, 1⟩ ((holding 1 office).group 1).epoch ((holding 1 office).precedence 1) = false
      ∧ heard gone (yielding 1 office) ∧ ((yielding 1 office).group 1).successor = some 1 ∧ gone.state.held = false
      ∧ (after (.beaconFrame 1 (b gone)) (yielding 1 office)).quorumPresent = true
      ∧ (after (.beaconFrame 1 (b gone)) (yielding 1 office)).life = .member
      ∧ heard gone onHold ∧ (onHold.group 1).hold = true ∧ ((yielding 1 office).group 1).hold = false := by decide +kernel

/-- The designation: a partner of a lower number than the one PRESENT, a LOST one that stays designated, a record that no BEACON
has reached, and the two firewalls that a witness watches. -/
theorem test_meets_designation :
    let above : State := { office with straps := ⟨2, .firewall, false⟩ }
    let t := after (.beaconFrame 0 beaconOne) above
    let lost : State := { office with presence.records := office.presence.records.set 1 ⟨.lost, some .firewall, false, none⟩ }
    let u := after (.beaconFrame 2 beaconOne) lost
    let v := after (.beaconFrame 1 beaconOne) { witnessOffice with
      presence.records := witnessOffice.presence.records.set 0 ⟨.lost, some .firewall, false, none⟩ }
    above.presentPartner = some 1 ∧ t.presentPartner = some 0 ∧ (t.peer 1).state = .surplus
      ∧ (∀ x, x ∈ above.table → x.2.entry.pending.isSome = true → x.2.intact = true)
      ∧ u.presence.partner = some 1 ∧ (u.peer 1).state = .lost ∧ (u.peer 2).state = .surplus ∧ (u.peer 3).state = .absent
      ∧ v.presence.watched = ⟨true, true, false, false⟩ ∧ (v.peer 0).state = .lost ∧ (v.peer 1).state = .present
      ∧ (after (.beaconFrame 1 beaconOne) office).presentPartner = office.presentPartner
      ∧ office.port.setup.preempt.get 1 = false ∧ office.port.setup.preemptDelay.get 1 = 5 := by decide +kernel

/-- The expectation against a beacon that shows 40 as its oldest and 50 as its next sequence. -/
theorem test_meets_PartnerBeaconsMoveTheExpectation :
    let s (x : Option Seq) : State := { office with receive.expectation := x }
    (after (.beaconFrame 1 beaconOne) office).presentPartner = some 1 ∧ office.presentPartner = some 1
      ∧ beaconOne.next = 50 ∧ beaconOne.oldest = 40 ∧ (s none).receive.expectation = none
      ∧ serialBefore beaconOne.next 51 = true ∧ serialBefore beaconOne.next 50 = false
      ∧ serialBefore 39 beaconOne.oldest = true ∧ serialBefore 40 beaconOne.oldest = false
      ∧ beaconOne.receipt = some 500 ∧ { office with journal := exampleJournal }.journal.admits 500 = true
      ∧ office.recon.passRunning = false ∧ office.recon.lastCompleted = none
      ∧ { beaconOne with want := true, needSince := some 9 }.needSince = some 9 := by decide +kernel

/-! #### Ownership frames -/

/-- The four hypotheses of the statements about a frame of station 1. -/
def hearsOne (s : State) : Bool :=
  decide (s.phase = .running ∧ (1 : Station) ≠ s.me ∧ (s.peer 1).state = .present) && s.takesFrames

theorem test_meets_FirewallsJudgeClaims :
    let full : State := { office with bus.control := List.replicate 3 (.claim { exampleClaim with group := 2 }) }
    let yielded := inState 1 (fun r => { r with successor := some 2 }) (yielding 1 office)
    hearsOne office ∧ office.straps.role = .firewall ∧ full.bus.control.length < 4
      ∧ ((holding 1 office).group 1).state = .holding ∧ hearsOne (holding 1 office)
      ∧ (yielded.group 1).state = .yielding ∧ (yielded.group 1).successor ≠ some 1
      ∧ ((yielding 1 office).group 1).successor = some 1
      ∧ serialBefore (office.group 1).epoch exampleClaim.epoch = true
      ∧ serialBefore (office.group 1).epoch { exampleClaim with epoch := 5 }.epoch = false
      ∧ serialBefore ((yielding 1 office).group 1).epoch { exampleClaim with epoch := 4 }.epoch = false
      ∧ (office.group 1).state = .vacant ∧ office.mayClaim 1 = true
      ∧ (inState 1 (fun r => { r with backoff := true }) office).mayClaim 1 = false
      ∧ ((claiming 1 office).group 1).claimEpoch = some 6
      ∧ standingHigher 6 ⟨4, 10, 1⟩ 6 ((claiming 1 office).precedence 1) = true
      ∧ standingHigher 6 ⟨4, 9, 1⟩ 6 ((claiming 1 office).precedence 1) = false := by decide +kernel

/-- The rules of a witness in turn, for a CLAIM of station 1: another station is shown holding; a note that it outranks;
a stale epoch and the one after it. -/
theorem test_meets_WitnessesJudgeClaims :
    let s (shows : GroupState) (note : Option ClaimNote) : State :=
      let held : Beacon := { beaconOne with groups := Four.all { shown with state := shows } }
      inState 1 (fun r => { r with claimNote := note }) { witnessOffice with
        presence.records := witnessOffice.presence.records.set 0 ⟨.present, some .firewall, true, some held⟩ }
    let n : ClaimNote := ⟨0, 5, ⟨4, 9, 0⟩⟩
    hearsOne (s .vacant none) ∧ (s .vacant none).straps.role = .witness ∧ (s .vacant none).bus.control.length < 4
      ∧ (∀ g, ((s .vacant none).group g).state ≠ .claiming)
      ∧ ((s .vacant none).group 1).state ≠ .disabled
      ∧ ((s .holding none).peer 0).state = .present ∧ ((s .holding none).peer 0).showsHeld 1 = true
      ∧ (∀ q, ((s .vacant none).peer q).showsHeld 1 = false)
      ∧ ((s .vacant (some n)).group 1).claimNote = some n ∧ n.epoch = ((s .vacant (some n)).group 1).epoch
      ∧ Precedence.higher ⟨4, 10, 1⟩ n.precedence = true
      ∧ serialBefore ((s .vacant none).group 1).epoch 5 = false
      ∧ serialBefore ((s .vacant none).group 1).epoch 6 = true := by decide +kernel

theorem test_meets_ContestsAbandonClaims :
    let c : Contest := ⟨1, 6, 0, .higherClaim, 5⟩
    hearsOne (claiming 1 office) ∧ c.claimant = (claiming 1 office).me ∧ ((claiming 1 office).group 1).state = .claiming
      ∧ ((claiming 1 office).group 1).claimEpoch = some c.epoch ∧ { c with claimant := 1 }.claimant ≠ office.me
      ∧ (office.group 1).state ≠ .claiming ∧ ((claiming 1 office).group 1).claimEpoch ≠ some 7 := by decide +kernel

theorem test_meets_YieldsHandOver :
    let y : Yield := ⟨1, 5, 0, true⟩
    (hearsOne witnessOffice ∧ witnessOffice.straps.role = .witness ∧ { y with successor := 3 }.successor = witnessOffice.me
        ∧ (witnessOffice.group 1).state = .vacant ∧ ((following 1 witnessOffice).group 1).state = .following
        ∧ y.successor ≠ witnessOffice.me)
      ∧ hearsOne office ∧ office.straps.role = .firewall
      ∧ y.successor = office.me ∧ { y with successor := 2 }.successor ≠ office.me
      ∧ ((holding 1 office).group 1).state = .holding ∧ ((following 1 office).group 1).state = .following
      ∧ office.eligible 1 = true ∧ office.bus.control.length < 4
      ∧ (inState 1 (fun r => { r with hold := true }) office).eligible 1 = false
      ∧ (office.peer 2).state ≠ .present ∧ (2 : Station) ≠ office.me ∧ office.takesFrames := by decide +kernel

/-! #### Replication -/

/-- RECEIPT 502 and RECEIPT 500 at a station that yields group 1 to a partner it shows synced; 504 and 499 are not
admitted. -/
theorem test_meets_ReceiptsAreJudged :
    let s : State := { yielding 1 office with journal := exampleJournal }
    hearsOne s ∧ s.presentPartner = some 1 ∧ s.presentPartner ≠ some 2 ∧ s.journal.admits 504 = false
      ∧ s.journal.admits 499 = false ∧ s.journal.admits 502 = true ∧ s.journal.admits s.journal.oldest = true
      ∧ (502 : Seq) ≠ s.journal.oldest ∧ (s.group 1).state = .yielding ∧ (s.group 1).successor = some 1
      ∧ (s.group 1).drainSpoiled = false ∧ (after (.receiptFrame 1 502) s).journal.holdsGroup 1 = false
      ∧ (s.peer 1).showsSynced 1 = true ∧ s.bus.control = [] := by decide +kernel

theorem test_meets_receipt_journal : { yielding 1 office with journal := exampleJournal }.journal.ordered :=
  test_meets_StepsKeepJournalOrder.1

theorem test_meets_OffersFollowTheirCases :
    let s (e : Entry) (n : Nat) : State := { withEntry e true (holding 1 office) with
      journal := { exampleJournal with records := List.replicate n (recordOf 1 true) } }
    (withEntry liveEntry true office).entryAt slotOne = some liveEntry ∧ (withEntry liveEntry true office).holds 1 = false
      ∧ (s { liveEntry with pending := some 1 } 1).entryAt slotOne = some { liveEntry with pending := some 1 }
      ∧ (s liveEntry 1023).entryAt slotOne = some liveEntry ∧ (s liveEntry 1023).holds 1 = true
      ∧ (s liveEntry 1023).partnerPresent = true ∧ (s liveEntry 1023).journal.records.length < 1024
      ∧ 1024 ≤ (s liveEntry 1024).journal.records.length := by decide +kernel

/-- The receipts that R88 ignores and the ones that it admits, at both ends of each range, and at half the range. -/
theorem test_meets_receipt_ranges :
    let end_ : Seq := match (exampleJournal.records.filter (·.sent)).getLast? with
      | some x => x.seq + 1
      | none => exampleJournal.oldest
    let ignored (n : Seq) : Bool := serialBefore n exampleJournal.oldest || serialBefore end_ n
      || n == exampleJournal.oldest + 0x80000000
    end_ = 503 ∧ ignored 499 ∧ ignored 500 = false ∧ ignored 503 = false ∧ ignored 504
      ∧ serialBefore (500 + 0x80000000 : Seq) 500 = false ∧ ignored (500 + 0x80000000) ∧ ignored (500 + 0x80000001)
      ∧ ignored (503 + 0x80000000) := by decide

/-- A frame whose taking goes on with its second record, at the expectation and with none; and one with a record in hand. -/
theorem test_meets_taking_goes_on :
    let s (x : Option Seq) (inHand : Bool) : State := { following 1 office with
      receive := { office.receive with taking := some ⟨1, [⟨841, .entry streamContent⟩], inHand⟩, expectation := x } }
    (s none false).phase = .running ∧ (s none false).receive.expectation = none
      ∧ (s (some 841) false).receive.expectation = some 841
      ∧ (s (some 841) false).receive.taking = some ⟨1, [⟨841, .entry streamContent⟩], false⟩
      ∧ (s (some 841) true).receive.taking = some ⟨1, [⟨841, .entry streamContent⟩], true⟩
      ∧ (after .deltaTake (s (some 841) false)).receive.taking = some ⟨1, [⟨841, .entry streamContent⟩], true⟩
      ∧ (after .deltaTake (s (some 842) false)).receive.taking = none := by decide +kernel

/-- What the taking of the next record finds: no record; one before the expectation, one after it and one at half the range;
an ill-formed key, a held group, a group not held, with a port and without; and a BUCKET_END. -/
theorem test_meets_records_in_turn :
    let s (l : List WireRecord) (t : State) : State := { t with
      receive := { office.receive with taking := some ⟨1, l, false⟩, expectation := some 841 } }
    let rest (l : List WireRecord) (t : State) : Option Taking := (after .deltaTake (s l t)).receive.taking
    let r (q : Seq) : WireRecord := ⟨q, .entry streamContent⟩
    let bad : WireRecord := ⟨841, .entry { streamContent with key := { streamKey with protocol := 47 } }⟩
    let ported : WireRecord := ⟨841, .entry { streamContent with translation := some 30000 }⟩
    (s [] office).receive.taking = some ⟨1, [], false⟩ ∧ (after .deltaTake (s [] office)).bus.receiptSlot = some 841
      ∧ serialBefore (840 : Seq) 841 = true ∧ rest [r 840, r 841] office = some ⟨1, [r 841], true⟩
      ∧ serialBefore (842 : Seq) 841 = false ∧ rest [r 842] office = none
      ∧ serialBefore (841 + 0x80000000 : Seq) 841 = false ∧ rest [r (841 + 0x80000000)] office = none
      ∧ illFormed { streamKey with protocol := 47 } = true ∧ rest [bad, r 842] office = some ⟨1, [r 842], true⟩
      ∧ illFormed streamKey = false ∧ (holding 1 office).holds 1 = true ∧ rest [r 841, bucketEndRecord] (holding 1 office) = none
      ∧ office.holds 1 = false ∧ rest [ported] office = some ⟨1, [ported], true⟩
      ∧ ((after .deltaTake (s [ported] office)).xlate.get 1).lastSeen = some (blockOf 30000)
      ∧ rest [⟨841, bucketEndRecord.body⟩] office = some ⟨1, [⟨841, bucketEndRecord.body⟩], true⟩ := by decide +kernel

/-- The second frame finds room, the third does not; a frame ahead of the expectation, at it, and after none. -/
theorem test_meets_DeltasAreTaken :
    let d : AcceptedDelta := ⟨1, ⟨840, [⟨840, .entry { streamContent with translation := some 30000 }⟩]⟩⟩
    let s (n : Nat) (x : Option Seq) : State := { following 1 office with
      receive := { office.receive with waiting := List.replicate n d, expectation := x } }
    hearsOne (s 1 none) ∧ (s 1 none).straps.role = .firewall ∧ (s 1 none).presentPartner = some 1
      ∧ (s 1 none).receive.frames < 2 ∧ 2 ≤ (s 2 none).receive.frames ∧ witnessOffice.straps.role = .witness
      ∧ office.presentPartner ≠ some 2 ∧ (s 1 none).receive.taking = none ∧ (s 1 none).receive.waiting = [d]
      ∧ serialBefore 839 d.content.oldest = true ∧ serialBefore 840 d.content.oldest = false
      ∧ (s 1 (some 839)).receive.expectation = some 839
      ∧ (after .deltaTake (s 1 (some 840))).receive.taking = some ⟨1, d.content.records, true⟩
      ∧ (after .deltaTake (s 1 (some 841))).receive.taking = none ∧ illFormed streamKey = false
      ∧ illFormed { streamKey with protocol := 47 } = true ∧ (holding 1 office).holds 1 = true ∧ (following 1 office).holds 1 = false := by
  decide +kernel

theorem test_meets_JoinsByIncarnation :
    let s (e : Entry) : State := withEntry e true (joinState { streamContent with incarnation := 1 })
    let empty := joinState streamContent
    empty.phase = .running ∧ empty.life.active ∧ empty.receive.taking = some ⟨1, [⟨840, .entry streamContent⟩], true⟩
      ∧ empty.receive.expectation = some 840 ∧ empty.table.sound (bucketOf streamKey) = true
      ∧ empty.table.find streamKey = none ∧ streamContent.translation.bind (empty.portHolder 1) = none
      ∧ empty.table.freeWay (bucketOf streamKey) = some slotOne
      ∧ (∀ i : Fin 3, (s { liveEntry with incarnation := BitVec.ofNat 8 i.val }).table.find streamKey
            = some (slotOne, { liveEntry with incarnation := BitVec.ofNat 8 i.val })
          ∧ (s { liveEntry with incarnation := BitVec.ofNat 8 i.val }).table.sound (bucketOf streamKey) = true
          ∧ (s { liveEntry with incarnation := BitVec.ofNat 8 i.val }).otherHolder (some slotOne) streamContent = none)
      ∧ serialBefore (1 : Byte) 2 = true ∧ serialBefore (0 : Byte) 1 = true := by decide +kernel

/-- A full bucket: its one retired entry, its one entry of a group not held, and none that may go; a record at exactly half
the range; and a port that an entry of another bucket holds. -/
theorem test_meets_full_bucket :
    let b := bucketOf streamKey
    let full (e : Entry) : State :=
      let s := crowded (holding 1 (joinState { streamContent with group := 2 }))
      { s with table := s.table.put slotOne ⟨{ e with key := neighbour 1 }, true⟩ }
    let may (f : Entry → Bool) (s : State) : List Handle :=
      [0, 1, 2, 3].filterMap fun w =>
        match s.entryAt (handleOf b w) with
        | some e => if f e = true ∧ e.pending = none then some (handleOf b w) else none
        | none => none
    let notHeld (s : State) (e : Entry) : Bool := !s.holds e.group
    let met (s : State) : Bool := s.table.sound b && decide (s.table.find streamKey = none ∧ s.table.freeWay b = none)
    met (full retiredEntryOne) ∧ may Entry.isRetired (full retiredEntryOne) = [slotOne]
      ∧ met (full { liveEntry with group := 3 }) ∧ may Entry.isRetired (full { liveEntry with group := 3 }) = []
      ∧ may (notHeld (full liveEntry)) (full { liveEntry with group := 3 }) = [slotOne]
      ∧ met (full liveEntry) ∧ may (notHeld (full liveEntry)) (full liveEntry) = []
      ∧ (let e : Entry := { liveEntry with incarnation := 128 }
        (withEntry e true (joinState streamContent)).table.find streamKey = some (slotOne, e))
      ∧ serialBefore (128 : Byte) 0 = false
      ∧ (let d := handleOf (bucketOf datagramKey) 0
        let s := { portHeld liveEntry with receive := (joinState { streamContent with translation := some 30000 }).receive }
        s.table.find streamKey = none ∧ s.portHolder 1 30000 = some d ∧ s.table.sound (bucketOfHandle d) = true
          ∧ (tableWithout s.table b (some d)).freeWay b = some slotOne) := by decide +kernel

/-- The purge queue with room for one more item and with none; a copy before, at and after the opening sequence. -/
theorem test_meets_PurgesRemoveStaleCopies :
    let item : PurgeItem := .bucketEnd 1 0x9B5 (Four.all true) 9590
    let s (n : Nat) : State := { following 1 office with
      receive := { office.receive with expectation := some 7072, taking := some ⟨1, [bucketEndRecord], true⟩ }
      recon.purge := List.replicate n item }
    let t := withEntry { liveEntry with confirmation := some (1, 9589) } true (s 1)
    (s 3).phase = .running ∧ (s 3).receive.taking = some ⟨1, [bucketEndRecord], true⟩
      ∧ (purgeItemOf 1 bucketEndRecord.body).isSome ∧ (s 3).recon.purge.length < 4 ∧ 4 ≤ (s 4).recon.purge.length
      ∧ (s 3).receive.expectation = some bucketEndRecord.seq ∧ { t with receive.taking := none }.higherWaits .reader = false
      ∧ { t with receive.taking := none }.recon.purge = [item] ∧ t.table.sound 0x9B5 = true
      ∧ t.entryAt slotOne = some { liveEntry with confirmation := some (1, 9589) } ∧ t.holds 1 = false
      ∧ serialBefore (9589 : Seq) 9590 = true ∧ serialBefore (9590 : Seq) 9590 = false := by decide +kernel

/-- A station on a pass: at a bucket of its list, with the list empty, and its journal at the two limits. -/
theorem test_meets_PassesRunAndEnd :
    let s (n : Nat) (l : List Bucket) : State := { withEntry liveEntry true (holding 1 office) with
      journal := { exampleJournal with records := List.replicate n (recordOf 1 true), next := 500 + BitVec.ofNat 32 n }
      recon := { office.recon with resend := l, passRunning := true, passStart := some 500 } }
    let a := s 767 [0x9B5, 0x9B6]
    a.phase = .running ∧ a.recon.resend = 0x9B5 :: [0x9B6] ∧ a.recon.resend.Pairwise (· < ·) ∧ a.partnerPresent = true ∧ a.journal.occupancy < 768
      ∧ a.life.active ∧ a.higherWaits .reader = false ∧ a.purgeWaits = false ∧ a.recon.comparing = none ∧ a.recon.preparing = none
      ∧ a.table.sound 0x9B5 = true ∧ a.heldSet ≠ Four.all false ∧ office.heldSet = Four.all false
      ∧ a.entryAt slotOne = some liveEntry ∧ liveEntry.pending = none
      ∧ (s 1023 []).recon.passRunning = true ∧ (s 1023 []).recon.resend = [] ∧ (s 1023 []).recon.passStart = some 500
      ∧ (s 1023 []).journal.records.length < 1024 ∧ 1024 ≤ (s 1024 []).journal.records.length := by decide +kernel

/-- An ordered journal with room, at a station that re-journals the bucket of its one entry. -/
theorem test_meets_rejournal_ordered :
    let s : State := { withEntry liveEntry true (holding 1 office) with recon.resend := [0x9B5] }
    (s.phase = .running ∧ s.recon.resend = [0x9B5] ∧ s.recon.resend.Pairwise (· < ·) ∧ s.higherWaits .reader = false ∧ s.partnerPresent = true ∧ s.journal.occupancy < 768 ∧ s.life.active
      ∧ s.purgeWaits = false ∧ s.recon.comparing = none ∧ s.recon.preparing = none ∧ s.table.sound 0x9B5 = true
      ∧ s.heldSet ≠ Four.all false ∧ s.entryAt slotOne = some liveEntry ∧ s.holds 1 = true) ∧ s.journal.ordered := by
  have none_there (i : Nat) (r : JournalRecord) (here : office.journal.records[i]? = some r) : False := by
    rw [show office.journal.records = [] from rfl] at here
    cases here
  exact ⟨by decide +kernel, by decide, by decide, fun i r here => (none_there i r here).elim, 0,
    fun i r here => (none_there i r here).elim, by decide, by decide⟩

/-- PASS_END 11,023 comes before the need, 11,024 answers it; and a receiver without a need. -/
theorem test_meets_pass_end_take :
    let s (n : Option Seq) : State := { following 1 office with
      receive := { office.receive with needSince := n }
      recon.purge := [.passEnd 1 ⟨false, true, false, false⟩ 11023] }
    (s none).phase = .running ∧ (s none).recon.purge = [.passEnd 1 ⟨false, true, false, false⟩ 11023]
      ∧ (s none).receive.needSince = none ∧ serialBefore (11023 : Seq) 11024 = true
      ∧ serialBefore (11023 : Seq) 11023 = false := by decide +kernel

theorem test_meets_RelaysReachTheOwner :
    let s (t : State) : State := { t with engine.relaySlot := some observation }
    let o (e : Entry) : State := s (withEntry e true (holding 1 office))
    hearsOne office ∧ office.presentPartner = some 1 ∧ office.presentPartner ≠ some 2 ∧ office.engine.relaySlot = none
      ∧ (s office).engine.relaySlot ≠ none ∧ (s office).engine.inProgress = none ∧ (s office).holds 1 = false
      ∧ (s (holding 1 office)).holds 1 = true ∧ (s (holding 1 office)).table.find streamKey = none
      ∧ (o liveEntry).table.sound (bucketOf streamKey) = true ∧ (o liveEntry).higherWaits .request = false
      ∧ (o { liveEntry with group := 2 }).table.find streamKey = some (slotOne, { liveEntry with group := 2 })
      ∧ (o { liveEntry with incarnation := 1 }).table.find streamKey = some (slotOne, { liveEntry with incarnation := 1 })
      ∧ (o liveEntry).table.find streamKey = some (slotOne, liveEntry)
      ∧ observation.side ≠ none ∧ isStream streamKey = true
      ∧ liveEntry.marks = { liveEntry.marks with established := liveEntry.marks.established || false } := by decide +kernel

/-- An observation that changes the entry's marks, one that changes its side alone, and one that changes neither. -/
theorem test_meets_relay_changes :
    let new (o : Observation) : Entry := observedEntry liveEntry o 0 0
    let same : Observation := { observation with marks := {}, side := some ⟨4990000, none, 20000⟩ }
    (new observation).marks ≠ liveEntry.marks
      ∧ (new { observation with marks := {}, side := some ⟨6000000, none, 9⟩ }).marks = liveEntry.marks
      ∧ (new { observation with marks := {}, side := some ⟨6000000, none, 9⟩ }).stream ≠ liveEntry.stream
      ∧ (new same).marks = liveEntry.marks ∧ (new same).stream = liveEntry.stream := by decide +kernel

theorem test_meets_DigestsFindMismatches :
    let prep (n : Nat) (t : State) : State :=
      { t with recon.preparing := some ⟨⟨false, true, false, false⟩, 0, List.replicate n 0⟩ }
    let cmp (w : Word) (f : Option Fetch) : State :=
      { following 1 office with recon.comparing := some ⟨Four.all true, 16, [w]⟩, recon.fetch := f }
    let b (n : Nat) : Fetch := ⟨Four.all true, (List.range n).map (BitVec.ofNat 12)⟩
    let due (t : State) : State := { t with recon.digestTimer := true }
    (due office).recon.digestTimer = true ∧ (due office).sweeps = false ∧ (due (holding 1 office)).sweeps = true
      ∧ (holding 1 office).recon.preparing = none ∧ (holding 1 office).recon.ready = none
      ∧ (prep 14 office).purgeWaits = false ∧ (prep 14 office).recon.comparing = none
      ∧ (prep 14 office).higherWaits .reader = false ∧ (cmp 0 none).higherWaits .reader = false
      ∧ (prep 14 office).table.sound 14 = true ∧ (prep 15 office).partnerPresent = true
      ∧ (prep 15 { office with presence.partner := none }).partnerPresent = false
      ∧ hearsOne (following 1 office) ∧ (following 1 office).life = .member ∧ (following 1 office).presentPartner = some 1
      ∧ ((following 1 office).group 1).owner = some 1 ∧ (following 1 office).recon.comparing = none
      ∧ (cmp 0 none).table.sound 16 = true ∧ (cmp 0 none).purgeWaits = false
      ∧ bucketDigest [] 16 (Four.all true) = 0 ∧ bucketDigest [] 16 (Four.all true) ≠ 1
      ∧ (16 : Bucket) ∉ (b 15).buckets ∧ (b 15).buckets.length < 16 ∧ 16 ≤ (b 16).buckets.length
      ∧ (16 : Bucket) ∈ (b 17).buckets ∧ (⟨Four.all false, [3]⟩ : Fetch).groups ≠ Four.all true
      ∧ hearsOne (holding 1 office) ∧ (holding 1 office).holds 1 = true := by decide +kernel

/-! #### Timers -/

theorem test_meets_WindowsCloseByExpiry :
    let s := inState 1 (fun r => { r with adoptionOpen := true, adoptionTimer := true }) (holding 1 office)
    s.phase = .running ∧ (s.group 1).adoptionTimer = true ∧ (s.group 1).adoptionOpen = true := by decide +kernel

theorem test_meets_StationTimersExpire :
    let stalled : State := { yielding 1 (withEntry liveEntry true office) with journal := exampleJournal }
    office.phase = .running ∧ office.presence.beaconTimer = true ∧ (office.peer 1).deadTimer = true
      ∧ (office.peer 1).state = .present ∧ office.presentPartner = some 1
      ∧ { inLife .listen office with presence.listenTimer := true }.life = .listen
      ∧ (∀ q, ((after (.deadTimerExpiry 1) office).peer q).state ≠ .present) ∧ (office.peer 2).state ≠ .present
      ∧ ((following 1 office).group 1).owner = some 1 ∧ ((yielding 1 office).group 1).successor = some 1
      ∧ (∀ x, x ∈ (marked true).table → x.2.entry.pending.isSome = true → x.2.intact = true)
      ∧ (marked true).presentPartner = some 1 ∧ (marked true).journal.stallTimer = true
      ∧ office.port.setup.preempt.get 1 = false ∧ (after (.deadTimerExpiry 1) (yielding 1 office)).quorumPresent = true
      ∧ (after (.deadTimerExpiry 1) office).presentPartner = none
      ∧ (let s : State := { office with presence.records := office.presence.records.set 2 ⟨.surplus, some .firewall, true, none⟩ }
        (s.peer 2).deadTimer = true ∧ (after (.deadTimerExpiry 2) s).presentPartner = s.presentPartner)
      ∧ (after (.deadTimerExpiry 1) (yielding 1 { office with straps.mem3 := true })).quorumPresent = false
      ∧ exampleJournal.receiptTimer = true ∧ (exampleJournal.records.any (·.sent))
      ∧ { exampleJournal with records := [recordOf 500 false] }.records.all (!·.sent)
      ∧ stalled.journal.stallTimer = true ∧ (stalled.group 1).state = .yielding ∧ stalled.mayPass = true
      ∧ (stalled.table.slot slotOne).map (·.intact) = some true
      ∧ ((inState 2 (fun r => { r with lineTimer := true }) office).group 2).lineTimer = true := by decide +kernel

theorem test_meets_OwnershipTimersExpire :
    let journaled : State := { preempted with journal := ⟨[⟨1, true, .entry streamContent, none⟩], 1, 2, 2, true, true⟩ }
    let alone : State := holding 1 { office with presence.partner := none }
    (claiming 2 office).phase = .running ∧ ((claiming 2 office).group 2).claimWait = true
      ∧ ((claiming 2 office).group 2).state = .claiming
      ∧ (claiming 2 office).partnerPresent = true ∧ (claiming 2 { office with presence.partner := none }).partnerPresent = false
      ∧ ((claiming 2 office).xlate.get 2).lastSeen = none
      ∧ ({ claiming 2 office with xlate := office.xlate.set 2 ⟨[], 4096, some 58, []⟩ }.xlate.get 2).lastSeen = some 58
      ∧ (let s := inState 1 (fun r => { r with backoff := true }) office
        (s.group 1).state = .vacant ∧ s.eligible 1 = true ∧ s.mayOutbid 1 = true ∧ s.bus.control = [])
      ∧ (preempted.group 1).preempt = true ∧ preempted.preemptCondition 1 = true ∧ preempted.presentPartner = some 1
      ∧ preempted.journal.holdsGroup 1 = false ∧ journaled.preemptCondition 1 = true ∧ journaled.journal.holdsGroup 1 = true
      ∧ ((yielding 1 office).group 1).drain = true ∧ ((yielding 1 office).group 1).successor = some 1
      ∧ { holding 1 office with own.quorumTimer := true }.holds 1 = true
      ∧ { holding 1 office with port.hostWatch := true }.presentPartner = some 1
      ∧ ((holding 1 office).peer 1).showsEligible 1 = true ∧ alone.presentPartner = none := by decide +kernel

end Sys2Proof.Tests
end

