-- ==== Sys2Proof/Proofs/SessionRequests.lean ====
section
/-!
PROOFS. The taking of a session request (R27, R28): what it leaves of a group, its grant, its tests and its response; the
window tests (R38) and LOOKUP (R51).
-/

namespace Sys2Proof.Machine

open Sys2Proof

/-! ### The taking of a request, at one group -/

/-- Two records of a group that agree on being DISABLED, on being held and on the adoption window: what R32 and R48 ask of a
group, and what no claim changes. -/
def SameOffice (a b : GroupRecord) : Prop :=
  (b.state = .disabled ↔ a.state = .disabled) ∧ b.state.held = a.state.held ∧ b.adoptionOpen = a.adoptionOpen

/-- The group states between which claims begin and end. -/
def Claimable (g : GroupState) : Prop := g = .vacant ∨ g = .claiming

theorem SameOffice.refl (a : GroupRecord) : SameOffice a a := ⟨Iff.rfl, rfl, rfl⟩

theorem SameOffice.trans {a b c : GroupRecord} (ab : SameOffice a b) (bc : SameOffice b c) : SameOffice a c :=
  ⟨bc.1.trans ab.1, bc.2.1.trans ab.2.1, bc.2.2.trans ab.2.2⟩

/-- A claim moves a group between VACANT and CLAIMING. -/
theorem SameOffice.of_claimable {a b : GroupRecord} (before : Claimable a.state)
    (after : Claimable b.state) (window : b.adoptionOpen = a.adoptionOpen) : SameOffice a b := by
  refine ⟨?_, ?_, window⟩ <;> rcases before with ea | ea <;> rcases after with eb | eb <;> simp [ea, eb, GroupState.held]

theorem startClaim_group_same (g : GroupId) (cause : ClaimCause) (epoch : Epoch) (note : Option Bool) (s : State) :
    Claimable ((startClaim g cause epoch note s).group g).state
      ∧ ((startClaim g cause epoch note s).group g).adoptionOpen = (s.group g).adoptionOpen := by
  unfold startClaim
  dsimp only
  generalize claimed : setOwner g none (mapGroup g _ s) = t
  have group : (t.group g).state = .claiming ∧ (t.group g).adoptionOpen = (s.group g).adoptionOpen := by
    rw [← claimed, setOwner_group_same, mapGroup_group_same]
    exact ⟨rfl, rfl⟩
  split
  · exact ⟨Or.inr group.1, group.2⟩
  · rw [abandonClaim_group_same]
    exact ⟨Or.inl rfl, group.2⟩

theorem settleGroup_office (s : State) (g : GroupId) : SameOffice (s.group g) ((settleGroup s g).group g) := by
  have abandoned : SameOffice (s.group g) ((if (s.group g).state = .claiming && !s.eligible g
      then abandonClaim g .vacant none s else s).group g) := by
    split
    · rename_i claims
      simp only [Bool.and_eq_true, decide_eq_true_eq] at claims
      rw [abandonClaim_group_same]
      exact .of_claimable (Or.inr claims.1) (Or.inl rfl) rfl
    · exact .refl _
  unfold settleGroup
  dsimp only
  generalize (if (s.group g).state = .claiming && !s.eligible g then abandonClaim g .vacant none s else s) = t
    at abandoned ⊢
  have claimed : SameOffice (t.group g) ((if t.mayClaim g
      then startClaim g .vacant ((t.group g).epoch + 1) none t else t).group g) := by
    split
    · rename_i may
      simp only [State.mayClaim, Bool.and_eq_true, decide_eq_true_eq] at may
      obtain ⟨after, window⟩ := startClaim_group_same g .vacant ((t.group g).epoch + 1) none t
      exact .of_claimable (Or.inl may.1.1.1) after window
    · exact .refl _
  obtain ⟨timer, reported, line⟩ := followLine_group_same g
    (if t.mayClaim g then startClaim g .vacant ((t.group g).epoch + 1) none t else t)
  rw [line]
  exact abandoned.trans claimed

/-- R27, R199: a request's taking makes and ends claims only. -/
theorem takeRequest_office (s : State) (g : GroupId) : SameOffice (s.group g) ((takeRequest s).group g) := by
  have watch (t : State) : (restartHostWatch t).group g = t.group g := rfl
  unfold takeRequest
  dsimp only
  rw [watch]
  split
  · obtain ⟨u, _, same, settled⟩ := settle_group g { s with port.requests := s.port.requests.tail, port.lapsed := false }
    have before : u.group g = s.group g := same
    rw [settled, ← before]
    exact settleGroup_office u g
  · exact .refl _

theorem takeRequest_holds (s : State) (g : GroupId) : (takeRequest s).holds g = s.holds g :=
  (takeRequest_office s g).2.1

theorem takeRequest_adoptionOpen (s : State) (g : GroupId) :
    ((takeRequest s).group g).adoptionOpen = (s.group g).adoptionOpen :=
  (takeRequest_office s g).2.2

theorem takeRequest_disabled (s : State) (g : GroupId) :
    ((takeRequest s).group g).state = .disabled ↔ (s.group g).state = .disabled :=
  (takeRequest_office s g).1

theorem takeRequest_life (s : State) : (takeRequest s).life = s.life := by
  obtain ⟨_, ⟨_, _, _, _, _, rfl⟩, eq⟩ := takeRequest_frame s
  rw [eq]
  rfl

theorem takeRequest_setup (s : State) : (takeRequest s).port.setup = s.port.setup := by
  obtain ⟨_, ⟨_, _, _, _, _, rfl⟩, eq⟩ := takeRequest_frame s
  rw [eq]

/-! ### The grant of a session request -/

/-- R27: the engine's next work is the oldest request. -/
theorem engineWaits_request {s : State} {r : Request} (head : s.nextRequest = some r) :
    s.engineWaits = s.reachesTable r := by
  have idle : s.engine.inProgress = none ∧ s.engine.relaySlot = none := by
    unfold State.nextRequest at head
    split at head
    · rename_i free
      simp only [Bool.and_eq_true, Option.isNone_iff_eq_none] at free
      exact free.1
    · cases head
  unfold State.engineWaits
  rw [idle.1, idle.2, head]

theorem reachesTable_inactive (s : State) (r : Request) (rest : s.life.active = false) : s.reachesTable r = false := by
  unfold State.reachesTable
  rw [rest]
  rfl

theorem reachesTable_check (s : State) {r : Request} (kind : r.kind = 0x01) :
    s.reachesTable r = (s.life.active && ((checkOffence r).isNone && decide ((s.group r.group).state ≠ .disabled))) := by
  simp [State.reachesTable, kind]

theorem reachesTable_adopt (s : State) {r : Request} (kind : r.kind = 0x02) :
    s.reachesTable r = (s.life.active && ((adoptOffence s.port.setup.translate r).isNone && s.holds r.group
      && (s.group r.group).adoptionOpen)) := by
  simp [State.reachesTable, kind]

theorem reachesTable_key (s : State) {r : Request} (kind : r.kind = 0x03 ∨ r.kind = 0x04) :
    s.reachesTable r = (s.life.active && (keyOffence r).isNone) := by
  rcases kind with kind | kind <;> simp [State.reachesTable, kind]

/-- The grant that a request at the front may need is there, or it needs none. -/
def State.grantsRequest (s : State) : Prop := s.higherWaits .request = false ∨ s.engineWaits = false

theorem taken_granted (k : BitVec 7) (f : Request → State → State) {s : State} {r : Request} (run : s.phase = .running)
    (head : s.nextRequest = some r) (kind : r.kind = k) (granted : s.grantsRequest) :
    whenEngineGranted (onRequest k f) s = f r (takeRequest s) := by
  have taken := onRequest_taken k f s r run head kind
  rcases granted with free | tableless
  · rw [whenEngineGranted_free _ s free, taken]
  · rw [whenEngineGranted_tableless _ s tableless, taken]

/-- R32: a CHECK whose grant is there. -/
theorem exec_check {s : State} {r : Request} (run : s.phase = .running) (head : s.nextRequest = some r)
    (kind : r.kind = 0x01) (granted : s.grantsRequest) :
    exec .check s = .next (sessionRequest r (checkOffence r) (checkByState r) (takeRequest s)) :=
  congrArg Host.Outcome.next (taken_granted _ _ run head kind granted)

/-- R48: an ADOPT whose grant is there. -/
theorem exec_adopt {s : State} {r : Request} (run : s.phase = .running) (head : s.nextRequest = some r)
    (kind : r.kind = 0x02) (granted : s.grantsRequest) :
    exec .adopt s = .next (sessionRequest r (adoptOffence (takeRequest s).port.setup.translate r) (adoptByState r)
      (takeRequest s)) :=
  congrArg Host.Outcome.next (taken_granted _ _ run head kind granted)

/-- R50: a RETIRE whose grant is there. -/
theorem exec_retire {s : State} {r : Request} (run : s.phase = .running) (head : s.nextRequest = some r)
    (kind : r.kind = 0x03) (granted : s.grantsRequest) :
    exec .retire s = .next (sessionRequest r (keyOffence r)
      (requestOperation r (bucketOf r.key) (retireInBucket r)) (takeRequest s)) :=
  congrArg Host.Outcome.next (taken_granted _ _ run head kind granted)

/-- R51: a LOOKUP whose grant is there. -/
theorem exec_lookup {s : State} {r : Request} (run : s.phase = .running) (head : s.nextRequest = some r)
    (kind : r.kind = 0x04) (granted : s.grantsRequest) :
    exec .lookup s = .next (sessionRequest r (keyOffence r)
      (requestOperation r (bucketOf r.key) (lookupInBucket r)) (takeRequest s)) :=
  congrArg Host.Outcome.next (taken_granted _ _ run head kind granted)

/-! ### The tests of a session request -/

theorem sessionRequest_setup (r : Request) (offence : Option FieldName) (f : State → State) (s : State)
    (life : s.life = .setup) : sessionRequest r offence f s = answer r .notReady s := by
  unfold sessionRequest
  rw [life]

theorem sessionRequest_fault (r : Request) (offence : Option FieldName) (f : State → State) (s : State)
    (life : s.life = .fault) : sessionRequest r offence f s = answer r .faulted s := by
  unfold sessionRequest
  rw [life]

theorem sessionRequest_offence (r : Request) (o : FieldName) (f : State → State) (s : State)
    (active : s.life.active = true) : sessionRequest r (some o) f s = badRequest r o s := by
  unfold sessionRequest
  cases life : s.life <;> simp [life, Life.active] at active ⊢

/-- R28: an active station, and no field out of range. -/
theorem sessionRequest_proceeds (r : Request) (f : State → State) (s : State) (active : s.life.active = true) :
    sessionRequest r none f s = f s := by
  unfold sessionRequest
  cases life : s.life <;> simp [life, Life.active] at active ⊢

theorem requestOperation_sound (r : Request) (b : Bucket) (f : State → State) (s : State)
    (ok : s.table.sound b = true) : requestOperation r b f s = f s := if_pos ok

/-- R193: a response with status OK takes the tail of its queue and is not captured. -/
theorem respond_ok (x : Response) (s : State) (ok : x.status = .ok) :
    respond x s = { s with port.responses := s.port.responses ++ [x] } := by
  unfold respond
  exact if_pos ok

/-! ### The window tests -/

theorem upperTest_iff (o : Side) (p : Packet) : upperTest o p = true ↔
    ∀ a, o.ack = some a →
      serialBefore (a + (if o.window = 0 then 1 else o.window.setWidth 32)) p.endSeq = false := by
  unfold upperTest
  cases o.ack <;> simp

theorem lowerTest_iff (d : Side) (p : Packet) : lowerTest d p = true ↔
    ∀ e, d.edge = some e → serialBefore p.endSeq (e - 1048576) = false := by
  unfold lowerTest Config.lowerWindow
  cases d.edge <;> simp

theorem ackTest_iff (o : Side) (p : Packet) : ackTest o p = true ↔
    ∀ a e, p.ack = some a → o.edge = some e → serialBefore (e + 1) a = false := by
  unfold ackTest
  cases p.ack <;> cases o.edge <;> simp

/-- Settles O27: each of the three tests is its own clause. -/
theorem windowTestsAreTheThreeTests : Obligations.WindowTestsAreTheThreeTests := by
  intro x p d o
  unfold windowTests
  rw [Bool.and_eq_true, Bool.and_eq_true, upperTest_iff, lowerTest_iff, ackTest_iff, and_assoc]
  rfl

/-! ### LOOKUP -/

/-- Settles O31: the two cases of the key in the table. -/
theorem lookupReads : Obligations.LookupReads := by
  intro s r run head kind u free active fields sound
  have taken : exec .lookup s = .next (lookupInBucket r u) := by
    rw [exec_lookup run head kind (Or.inl free), fields, sessionRequest_proceeds r _ _ active,
      requestOperation_sound r _ _ _ sound]
  refine ⟨fun absent => ?_, fun h e found => ?_⟩
  · rw [taken, lookupInBucket, absent]
  · rw [taken, lookupInBucket, found]
    rfl

end Sys2Proof.Machine
end

