-- ==== Sys2Proof/Proofs/RequestFields.lean ====
section
/-!
PROOFS. The fields of a session request out of range (R30, R48, R194), and the tests that come first (R28).
-/

namespace Sys2Proof.Machine

open Sys2Proof

/-! ### Fields out of range -/

theorem word_ne_zero (w : Word) : (w != 0) = (w.extractLsb' 16 16 != 0 || w.extractLsb' 0 16 != 0) := by
  have zero : w = 0 ↔ w.extractLsb' 16 16 = 0 ∧ w.extractLsb' 0 16 = 0 := by
    refine ⟨fun eq => eq ▸ ⟨rfl, rfl⟩, fun ⟨high, low⟩ => BitVec.eq_of_toNat_eq ?_⟩
    have high : (w.extractLsb' 16 16).toNat = 0 := congrArg BitVec.toNat high
    have low : (w.extractLsb' 0 16).toNat = 0 := congrArg BitVec.toNat low
    rw [BitVec.extractLsb'_toNat, Nat.shiftRight_eq_div_pow] at high low
    have lt := w.isLt
    change w.toNat = 0
    omega
  rw [Bool.eq_iff_iff, Bool.or_eq_true]
  simp only [bne_iff_ne, ne_eq, zero]
  tauto

/-- The word of the ports as a whole (R3, R30). -/
theorem illFormed_key (r : Request) :
    illFormed r.key = (r[1].extractLsb' 24 8 != 6 && r[1].extractLsb' 24 8 != 17 && r[2] != 0) := by
  rw [word_ne_zero]
  rfl

/-- R48: the field of the given port as the word of the request has it. -/
theorem adoptOffence_word (translate : GroupSet) (r : Request) :
    adoptOffence translate r = firstOffence (groupOffence r ++ familyOffence r ++ directionOffence r ++ portOffence r
      ++ windowOffence r ++ addressOffence r ++ [(r[15].getLsbD 31 &&
        (decide ((r[15].extractLsb' 0 16).toNat < 4096) || !translate.get r.group), ⟨15, 0⟩)]) := by
  unfold adoptOffence Request.givenPort
  cases r[15].getLsbD 31 <;> rfl

/-! ### The tests of a session request -/

/-- R28: the three tests, for a request whose meaning is a session request with this offence, and which does not reach the
table where there is one. -/
theorem tested_first {s : State} {r : Request} {i : Instr} {offence : Option FieldName} {f : State → State}
    (head : s.nextRequest = some r)
    (meaning : s.grantsRequest → exec i s = .next (sessionRequest r offence f (takeRequest s)))
    (stops : offence.isNone = false → s.reachesTable r = false) :
    ((takeRequest s).life = .setup → exec i s = .next (answer r .notReady (takeRequest s))) ∧
    ((takeRequest s).life = .fault → exec i s = .next (answer r .faulted (takeRequest s))) ∧
    (∀ o, (takeRequest s).life.active = true → offence = some o →
      exec i s = .next (badRequest r o (takeRequest s))) := by
  have waits := engineWaits_request head
  have inactive (rest : (takeRequest s).life.active = false) : s.grantsRequest := by
    rw [takeRequest_life] at rest
    exact Or.inr (waits.trans (reachesTable_inactive s r rest))
  refine ⟨fun life => ?_, fun life => ?_, fun o active offends => ?_⟩
  · rw [meaning (inactive (by rw [life]; rfl)), sessionRequest_setup r _ _ _ life]
  · rw [meaning (inactive (by rw [life]; rfl)), sessionRequest_fault r _ _ _ life]
  · rw [meaning (Or.inr (waits.trans (stops (by rw [offends]; rfl)))), offends,
      sessionRequest_offence r o _ _ active]

/-- Settles O24: for each kind the fields are the model's, and a request with an offence needs no grant. -/
theorem sessionRequestsAreTestedFirst : Obligations.SessionRequestsAreTestedFirst := by
  intro s r i offence fields run head u v4 protocol group family direction ports window addresses given packet kinds
  have named : offence = firstOffence fields := by
    have ports_eq : portOffence r = ports := by
      unfold portOffence
      rw [illFormed_key]
    have key_eq : keyOffence r = firstOffence (family ++ ports ++ addresses) := by
      rw [← ports_eq]
      rfl
    rcases kinds with ⟨_, _, rfl, rfl⟩ | ⟨_, _, rfl, rfl⟩ | ⟨_, _, rfl, rfl⟩ | ⟨_, _, rfl, rfl⟩
    · unfold checkOffence
      rw [ports_eq]
      rfl
    · rw [adoptOffence_word, ports_eq]
      rfl
    · exact key_eq
    · exact key_eq
  have tests : (u.life = .setup → exec i s = .next (answer r .notReady u)) ∧
      (u.life = .fault → exec i s = .next (answer r .faulted u)) ∧
      (∀ o, u.life.active = true → offence = some o → exec i s = .next (badRequest r o u)) := by
    rcases kinds with ⟨rfl, kind, rfl, _⟩ | ⟨rfl, kind, rfl, _⟩ | ⟨rfl, kind, rfl, _⟩ | ⟨rfl, kind, rfl, _⟩
    · refine tested_first head (exec_check run head kind) fun offends => ?_
      rw [reachesTable_check s kind, offends, Bool.false_and, Bool.and_false]
    · refine tested_first head (exec_adopt run head kind) fun offends => ?_
      rw [takeRequest_setup] at offends
      rw [reachesTable_adopt s kind, offends, Bool.false_and, Bool.false_and, Bool.and_false]
    · refine tested_first head (exec_retire run head kind) fun offends => ?_
      rw [reachesTable_key s (Or.inl kind), offends, Bool.and_false]
    · refine tested_first head (exec_lookup run head kind) fun offends => ?_
      rw [reachesTable_key s (Or.inr kind), offends, Bool.and_false]
  obtain ⟨setup, fault, bad⟩ := tests
  refine ⟨setup, fault, fun o active found => bad o active ?_, named⟩
  rw [named, firstOffence, found]
  rfl

end Sys2Proof.Machine
end

