-- ==== Sys2Proof/Proofs/ChangedEntries.lean ====
section
/-!
PROOFS. A changed entry and its offer (R42, R81 to R83), and RETIRE (R50).
-/

namespace Sys2Proof.Machine

open Sys2Proof

/-! ### The frame of a changed entry -/

/-- `t` is `s` but for the table, the journal, the Resend Set and the event flags: what the write of an existing entry and
its offer may change. -/
def ChangeFrame (s t : State) : Prop :=
  ∃ table journal resend flags, t = { s with
    table := table, journal := journal, recon.resend := resend, port.flags := flags }

theorem writeEntry_changeFrame (h : Handle) (e : Entry) (s : State) : ChangeFrame s (writeEntry h e s) :=
  ⟨_, _, _, _, rfl⟩

theorem ChangeFrame.trans {s t u : State} (a : ChangeFrame s t) (b : ChangeFrame t u) : ChangeFrame s u := by
  obtain ⟨_, _, _, _, rfl⟩ := a
  obtain ⟨_, _, _, _, rfl⟩ := b
  exact ⟨_, _, _, _, rfl⟩

/-- An offer reaches no more than the update of an entry does: not the translation unit. -/
theorem offer_changeFrame (h : Handle) (s : State) : ChangeFrame s (offer h s).1 := by
  unfold offer
  split
  · exact ⟨_, _, _, _, rfl⟩
  · split
    · exact ⟨_, _, _, _, rfl⟩
    · split
      · exact ⟨_, _, _, _, rfl⟩
      · split <;> exact ⟨_, _, _, _, rfl⟩

theorem updateEntry_changeFrame (h : Handle) (old new : Entry) (s : State) :
    ChangeFrame s (updateEntry h old new s) := by
  unfold updateEntry
  dsimp only
  split
  · exact (writeEntry_changeFrame h new s).trans (offer_changeFrame h _)
  · exact writeEntry_changeFrame h new s

/-! ### A written entry and its offer -/

theorem entryAt_writeEntry_same (h : Handle) (e : Entry) (s : State) : (writeEntry h e s).entryAt h = some e :=
  (entryAt_writeEntry h h e s).trans (if_pos rfl)

/-- R81 to R83: the offer of an entry just written, in the terms of the state before the write. -/
theorem offered_writeEntry (h : Handle) (e : Entry) (s : State) :
    s.offered (offer h (writeEntry h e s)).1 s.journal h e :=
  offer_offered (writeEntry h e s) (entryAt_writeEntry_same h e s)

/-- R42: the entry of slot `h` becomes `new`: a changed entry is offered, one left as it was is not, and no other slot is
reached. -/
def Updated (s t : State) (h : Handle) (old new : Entry) : Prop :=
  (∀ k, k ≠ h → t.entryAt k = s.entryAt k)
    ∧ (new ≠ old → s.offered t s.journal h new)
    ∧ (new = old → t.entryAt h = some old ∧ t.journal = s.journal ∧ t.recon.resend = s.recon.resend
        ∧ t.port.flags = s.port.flags)

/-- R42: of two contents with the same key, confirmation and pending mark, the eight fields are all that can differ. -/
theorem changed_iff {old new : Entry} (key : new.key = old.key) (confirmation : new.confirmation = old.confirmation)
    (pending : new.pending = old.pending) : changed old new = true ↔ new ≠ old := by
  obtain ⟨_, _, _, _, _, _, _, _, _, _, _⟩ := old
  obtain ⟨_, _, _, _, _, _, _, _, _, _, _⟩ := new
  simp only at key confirmation pending
  subst key confirmation pending
  rw [changed, decide_eq_true_eq, ne_comm]
  simp only [ne_eq, Entry.mk.injEq, true_and, and_true, not_and_or]
  tauto

theorem updateEntry_updated (h : Handle) {old new : Entry} (s : State) (differs : changed old new = true ↔ new ≠ old) :
    Updated s (updateEntry h old new s) h old new := by
  refine ⟨fun k ne => entryAt_updateEntry_other old new s ne, fun ne => ?_, fun eq => ?_⟩
  · unfold updateEntry
    dsimp only
    rw [if_pos (differs.mpr ne)]
    exact offered_writeEntry h new s
  · unfold updateEntry
    dsimp only
    rw [if_neg fun yes => differs.mp yes eq, eq]
    exact ⟨entryAt_writeEntry_same h old s, rfl, rfl, rfl⟩

/-- The answer of a request that updates an entry: its response alone comes to the update. -/
theorem respond_updateEntry (h : Handle) {old new : Entry} (x : Response) (s : State) (ok : x.status = .ok)
    (differs : changed old new = true ↔ new ≠ old) :
    let t := respond x (updateEntry h old new s)
    Updated s t h old new ∧ t.port.responses = s.port.responses ++ [x] ∧ t = { s with
      table := t.table, journal := t.journal, recon.resend := t.recon.resend
      port.flags := t.port.flags, port.responses := t.port.responses } := by
  have updated := updateEntry_updated h s differs
  obtain ⟨table, journal, resend, flags, frame⟩ := updateEntry_changeFrame h old new s
  intro t
  have answered : t = { updateEntry h old new s with port.responses := (updateEntry h old new s).port.responses ++ [x] } :=
    respond_ok x _ ok
  rw [frame] at updated answered
  rw [answered]
  exact ⟨updated, rfl, rfl⟩

/-! ### RETIRE -/

theorem isRetired_iff (e : Entry) : e.isRetired = true ↔ e.marks.retired = true := by
  unfold Entry.isRetired Entry.derived derivedState
  cases e.marks.retired with
  | true => simp
  | false => grind

/-- Settles O30: the steps in order, and a live entry becomes a tombstone by an update. -/
theorem retireByItsSteps : Obligations.RetireByItsSteps := by
  intro s r run head kind u free active fields sound
  have taken : exec .retire s = .next (retireInBucket r u) := by
    rw [exec_retire run head kind (Or.inl free), fields, sessionRequest_proceeds r _ _ active,
      requestOperation_sound r _ _ _ sound]
  rw [taken]
  unfold retireInBucket
  refine ⟨fun absent => by rw [absent], fun h e found => ?_⟩
  rw [found]
  dsimp only
  refine ⟨fun off => by rw [if_pos off], fun on away => ?_, fun held retired => ?_, fun held live => ?_⟩
  · rw [if_neg on, if_pos (by rw [away]; rfl)]
  all_goals
    have on : (u.group e.group).state ≠ .disabled := fun off => by
      rw [State.holds, off] at held
      cases held
    rw [if_neg on, if_neg (by rw [held]; nofun)]
  · rw [if_pos retired]
  · rw [if_neg (by rw [live]; nofun)]
    have ne : retiredEntry e u.now u.me ≠ e := fun eq => by
      have retired : e.marks.retired = true := (congrArg (·.marks.retired) eq).symm
      rw [(isRetired_iff e).mpr retired] at live
      cases live
    obtain ⟨⟨others, offered, _⟩, responses, frame⟩ := respond_updateEntry h
      (slotResponse r .ok h (retiredEntry e u.now u.me)) u rfl
      (changed_iff (old := e) (new := retiredEntry e u.now u.me) rfl rfl rfl)
    exact ⟨_, rfl, offered ne, others, responses, frame⟩

end Sys2Proof.Machine
end

