-- ==== Sys2Proof/Proofs/Checks.lean ====
section
/-!
PROOFS. CHECK of an entry at its owner (R36 to R42) and at a station without ownership (R43 to R45), and the relay
observations that reach the owner (R46, R47).
-/

namespace Sys2Proof.Machine

open Sys2Proof

/-! ### The key of an entry found -/

theorem find_key {t : Table} {k : Key} {h : Handle} {e : Entry} (found : t.find k = some (h, e)) : e.key = k := by
  obtain ⟨x, first, eq⟩ := Option.map_eq_some_iff.mp found
  cases eq
  simpa using List.find?_some first

/-! ### The group state that governs a CHECK -/

/-- R32: HOLDING and YIELDING. -/
theorem checkByState_owner (r : Request) (s : State) (held : s.holds r.group = true) :
    checkByState r s = requestOperation r (bucketOf r.key) (ownerCheck r) s := by
  unfold State.holds at held
  unfold checkByState
  cases state : (s.group r.group).state <;> simp [state, GroupState.held] at held ⊢

/-- R32, R44: FOLLOWING, VACANT and CLAIMING; only a following firewall relays. -/
theorem checkByState_copy (r : Request) (s : State)
    (copy : (s.group r.group).state = .following ∨ (s.group r.group).state = .vacant
      ∨ (s.group r.group).state = .claiming) :
    checkByState r s = requestOperation r (bucketOf r.key)
      (copyCheck r (decide ((s.group r.group).state = .following ∧ s.straps.role = .firewall))) s := by
  unfold checkByState
  rcases copy with state | state | state <;> simp [state]

theorem checkByState_disabled (r : Request) (s : State) (off : (s.group r.group).state = .disabled) :
    checkByState r s = answer r .groupDisabled s := by
  unfold checkByState
  rw [off]

/-- R33: a CHECK that comes to its bucket operation at the owner. -/
theorem exec_check_owner {s : State} {r : Request} (run : s.phase = .running) (head : s.nextRequest = some r)
    (kind : r.kind = 0x01) (free : s.higherWaits .request = false) (active : (takeRequest s).life.active = true)
    (fields : checkOffence r = none) (held : (takeRequest s).holds r.group = true)
    (sound : (takeRequest s).table.sound (bucketOf r.key) = true) :
    exec .check s = .next (ownerCheck r (takeRequest s)) := by
  rw [exec_check run head kind (Or.inl free), fields, sessionRequest_proceeds r _ _ active,
    checkByState_owner r _ held, requestOperation_sound r _ _ _ sound]

/-! ### What a packet writes -/

/-- R20, R41: the marks that a creating packet opens an entry with. -/
theorem openedEntry_marks {k j : Key} {p : Packet} (creates : Packet.creates j p = true) :
    Marks.openedOnly.union (addedMarks k Marks.openedOnly p)
      = { opened := true, finI := isStream k && p.finishes, aborted := p.aborts } := by
  simp only [Packet.creates, Bool.and_eq_true, decide_eq_true_eq] at creates
  cases stream : isStream k <;> simp [Marks.union, Marks.openedOnly, addedMarks, stream, creates.1]

/-- R39: at the owner a check is loose by the adoption window of its own group. -/
theorem loose_owner (s : State) {g : GroupId} {e : Entry} (same : e.group = g) (held : s.holds g = true) :
    s.loose e = ((s.group g).adoptionOpen && decide (e.origin ≠ s.me)) := by
  unfold State.loose
  rw [same, held, Bool.true_and]

/-- Settles O26: the branches of the check in their order; the two that write an entry update it. -/
theorem ownerChecksAnEntry : Obligations.OwnerChecksAnEntry := by
  intro s r h e run head kind u loose written free active fields held sound found
  have taken := exec_check_owner run head kind free active fields held sound
  have writes {new : Entry} {v : Verdict} (differs : changed e new = true ↔ new ≠ e)
      (check : ownerCheck r u = respond (entryResponse r .ok v h new) (updateEntry h e new u)) :
      ∃ t, written t new v := by
    obtain ⟨⟨others, offered, kept⟩, responses, frame⟩ :=
      respond_updateEntry h (entryResponse r .ok v h new) u rfl differs
    exact ⟨_, by rw [taken, check], others, offered, kept, responses, frame⟩
  have owner : ownerCheck r u = if e.group ≠ r.group then respond (entryResponse r .ok .dropState h e) u
      else if e.isEnded && Packet.creates r.key r.packet then
        respond (entryResponse r .ok .pass h (newIncarnation e u.now u.me r.packet))
          (updateEntry h e (newIncarnation e u.now u.me r.packet) u)
      else checkLive r h e u := by
    unfold ownerCheck
    rw [found]
  have live (same : e.group = r.group) (old : (e.isEnded && Packet.creates r.key r.packet) = false) :
      ownerCheck r u = checkLive r h e u := by
    rw [owner, if_neg (not_not_intro same), if_neg (by rw [old]; nofun)]
  refine ⟨fun other => ?_, fun same creates => ?_, fun same no retired => ?_, fun same old alive strict stream out => ?_,
    fun same old alive passes => ?_⟩
  · rw [taken, owner, if_pos other]
  · have marks := openedEntry_marks (k := e.key) (Bool.and_eq_true_iff.mp creates).2
    have grown : newIncarnation e u.now u.me r.packet ≠ e := fun eq => by
      have eq : e.incarnation + 1 = e.incarnation := congrArg Entry.incarnation eq
      bv_omega
    have differs : changed e (newIncarnation e u.now u.me r.packet) = true ↔ newIncarnation e u.now u.me r.packet ≠ e := by
      refine iff_of_true (decide_eq_true (Or.inr (Or.inl fun eq => grown ?_))) grown
      have eq : e.incarnation = e.incarnation + 1 := eq
      bv_omega
    have writes := writes (v := .pass) differs (by rw [owner, if_neg (not_not_intro same), if_pos creates])
    unfold newIncarnation openedEntry at writes
    rw [marks] at writes
    exact writes
  · rw [taken, live same (by rw [no, Bool.and_false])]
    unfold checkLive
    rw [if_pos retired]
  · have on_window : u.loose e = loose := loose_owner u same held
    rw [taken, live same old]
    unfold checkLive
    rw [if_neg (by rw [alive]; nofun), on_window, strict, stream, out]
    rfl
  · have on_window : u.loose e = loose := loose_owner u same held
    have in_order : (!loose && isStream e.key && !windowTests e.sides r.packet) = false := by
      have dual : ∀ a b c : Bool, (a || !b || c) = true → (!a && b && !c) = false := by decide
      exact dual _ _ _ passes
    refine writes (new := passedEntry e u.now u.me r.packet) (changed_iff rfl rfl rfl) ?_
    rw [live same old]
    unfold checkLive
    rw [if_neg (by rw [alive]; nofun), on_window, in_order]
    rfl

/-! ### A CHECK on the copy -/

/-- R44, log 21: the observation of a packet, in the terms of the request's key. -/
theorem observationOf_found {r : Request} {e : Entry} (key : e.key = r.key) :
    observationOf r e = { key := r.key, group := r.group, incarnation := e.incarnation, direction := r.direction
                          marks := addedMarks r.key e.marks r.packet
                          side := if isStream r.key then
                              some ⟨r.packet.seq + r.packet.length.setWidth 32, r.packet.ack, r.packet.window⟩
                            else none } := by
  unfold observationOf
  rw [key]
  rfl

/-- Settles O28: a DISABLED group needs no grant; the copy is read branch by branch. -/
theorem copyChecksWriteNothing : Obligations.CopyChecksWriteNothing := by
  intro s r run head kind u g active fields
  refine ⟨fun off => ?_, fun free copy sound => ?_⟩
  · have tableless : s.engineWaits = false := by
      rw [engineWaits_request head, reachesTable_check s kind,
        decide_eq_false (not_not_intro ((takeRequest_disabled s r.group).mp off)), Bool.and_false, Bool.and_false]
    rw [exec_check run head kind (Or.inr tableless), fields, sessionRequest_proceeds r _ _ active,
      checkByState_disabled r _ off]
  · have taken : exec .check s = .next (copyCheck r (decide (g = .following ∧ u.straps.role = .firewall)) u) := by
      rw [exec_check run head kind (Or.inl free), fields, sessionRequest_proceeds r _ _ active,
        checkByState_copy r _ copy, requestOperation_sound r _ _ _ sound]
    rw [taken]
    unfold copyCheck
    refine ⟨fun absent => by rw [absent], fun h e found => ?_⟩
    intro observed
    have relayed : observationOf r e = observed := observationOf_found (find_key found)
    rw [found]
    dsimp only
    refine ⟨fun other => by rw [if_pos other], fun same creates => ?_, fun same no retired => ?_,
      fun same old alive out => ?_, fun same old alive passes => ?_⟩
    all_goals rw [if_neg (not_not_intro same)]
    · rw [if_pos creates]
    · rw [if_neg (by rw [no, Bool.and_false]; nofun), if_pos retired]
    · rw [if_neg (by rw [old]; nofun), if_neg (by rw [alive]; nofun), if_pos out]
    · rw [if_neg (by rw [old]; nofun), if_neg (by rw [alive]; nofun), if_neg (by rw [passes]; nofun)]
      simp only [decide_eq_true_eq, relayed]
      rfl

/-! ### Relay observations -/

/-- R17, R41: only these four marks are taken over. -/
theorem union_observedMarks (m o : Marks) : m.union (observedMarks o) = { m with
    established := m.established || o.established, finI := m.finI || o.finI, finR := m.finR || o.finR
    aborted := m.aborted || o.aborted } := by
  simp [Marks.union, observedMarks]

/-- R46: a relay frame of another station. -/
theorem exec_relayFrame (p : Station) (o : Observation) {s : State} (run : s.phase = .running)
    (takes : s.takesFrames = true) (ne : p ≠ s.me) : exec (.relayFrame p o) s = .next (acceptRelay p o s) :=
  congrArg Host.Outcome.next (onFrame_other 0x07 p _ s run takes ne)

/-- R47: the engine takes the observation that waits, if it has the grant or needs none. -/
theorem exec_relayApply {s : State} {o : Observation} (run : s.phase = .running) (idle : s.engine.inProgress = none)
    (waiting : s.engine.relaySlot = some o) (granted : s.grantsRequest) :
    exec .relayApply s = .next (if s.holds o.group
      then bucketOperation .request (bucketOf o.key) (joinObservation o) { s with engine.relaySlot := none }
      else { s with engine.relaySlot := none }) := by
  have applied : applyRelay s = if s.holds o.group
      then bucketOperation .request (bucketOf o.key) (joinObservation o) { s with engine.relaySlot := none }
      else { s with engine.relaySlot := none } := by
    unfold applyRelay
    rw [idle, waiting]
    rfl
  refine congrArg Host.Outcome.next ((whenLive_running _ s run).trans ?_)
  rcases granted with free | tableless
  · rw [whenEngineGranted_free _ s free, applied]
  · rw [whenEngineGranted_tableless _ s tableless, applied]

/-- R17, R47: an observation joined to its entry; the offer follows a change of marks or stream alone. -/
theorem joinObservation_found {s : State} {o : Observation} {h : Handle} {e : Entry}
    (found : s.table.find o.key = some (h, e)) (group : e.group = o.group) (incarnation : e.incarnation = o.incarnation) :
    joinObservation o s =
      if (observedEntry e o s.now s.me).marks ≠ e.marks ∨ (observedEntry e o s.now s.me).stream ≠ e.stream
      then (offer h (writeEntry h (observedEntry e o s.now s.me) s)).1
      else writeEntry h (observedEntry e o s.now s.me) s := by
  unfold joinObservation
  rw [found]
  exact if_neg (not_or.mpr ⟨not_not_intro group, not_not_intro incarnation⟩)

/-- What the application of an observation leaves, where the entry of slot `h` becomes `new`. -/
theorem offerIf_written (c : Prop) [Decidable c] (h : Handle) (new : Entry) (s : State) :
    let t := if c then (offer h (writeEntry h new s)).1 else writeEntry h new s
    (∀ k, k ≠ h → t.entryAt k = s.entryAt k) ∧ (c → s.offered t s.journal h new)
      ∧ (¬ c → t.entryAt h = some new ∧ t.journal = s.journal ∧ t.recon.resend = s.recon.resend
          ∧ t.port.flags = s.port.flags)
      ∧ ChangeFrame s t := by
  have others (k : Handle) (ne : k ≠ h) : (writeEntry h new s).entryAt k = s.entryAt k :=
    (entryAt_writeEntry h k new s).trans (if_neg ne)
  by_cases holds : c
  · simp only [if_pos holds]
    exact ⟨fun k ne => (entryAt_offer_other _ ne).trans (others k ne), fun _ => offered_writeEntry h new s,
      fun no => (no holds).elim, (writeEntry_changeFrame h new s).trans (offer_changeFrame h _)⟩
  · simp only [if_neg holds]
    exact ⟨others, fun yes => (holds yes).elim, fun _ => ⟨entryAt_writeEntry_same h new s, rfl, rfl, rfl⟩,
      writeEntry_changeFrame h new s⟩

/-- Settles O56: the frame by its source and the relay slot, the application by ownership and by the entry it names. -/
theorem relaysReachTheOwner : Obligations.RelaysReachTheOwner := by
  refine ⟨fun p o s run takes ne => ?_, fun s o run idle waiting => ?_⟩
  · rw [exec_relayFrame p o run takes ne]
    unfold acceptRelay State.fromPartner
    refine ⟨fun away => ?_, fun partner empty => ?_, fun partner full => ?_⟩
    · rw [decide_eq_false away]
      rfl
    · rw [decide_eq_true partner, empty]
      rfl
    · rw [decide_eq_true partner, Option.isNone_eq_false_iff.mpr (Option.isSome_iff_ne_none.mpr full)]
      rfl
  intro u
  refine ⟨fun away => ?_, fun held free sound => ?_⟩
  · have tableless : s.engineWaits = false := by
      unfold State.engineWaits
      rw [idle, waiting]
      exact away
    rw [exec_relayApply run idle waiting (Or.inr tableless), if_neg (by rw [away]; nofun)]
  have taken : exec .relayApply s = .next (joinObservation o u) := by
    rw [exec_relayApply run idle waiting (Or.inl free), if_pos held]
    exact congrArg Host.Outcome.next (bucketOperation_sound _ _ _ u sound)
  rw [taken]
  refine ⟨fun absent => ?_, fun h e found other => ?_, fun h e found group incarnation => ?_⟩
  · unfold joinObservation
    rw [show u.table.find o.key = none from absent]
  · unfold joinObservation
    rw [show u.table.find o.key = some (h, e) from found]
    exact congrArg Host.Outcome.next (if_pos other)
  · intro new
    have joined := joinObservation_found (s := u) found group incarnation
    have entry : observedEntry e o u.now u.me = new := by
      unfold observedEntry
      rw [union_observedMarks]
      rfl
    rw [entry] at joined
    rw [joined]
    obtain ⟨others, offered, kept, _, _, _, _, frame⟩ :=
      offerIf_written (new.marks ≠ e.marks ∨ new.stream ≠ e.stream) h new u
    refine ⟨_, rfl, others, offered, fun marks stream => kept ?_, ?_⟩
    · exact not_or.mpr ⟨not_not_intro marks, not_not_intro stream⟩
    · rw [frame]

end Sys2Proof.Machine
end

