-- ==== Sys2Proof/Proofs/Placement.lean ====
section
/-!
PROOFS. The placing of a new entry (R18 to R23): the slot it takes, the port it joins, and what its offer leaves.
-/

namespace Sys2Proof.Machine

open Sys2Proof

/-! ### The slot a creation takes -/

/-- R18: the slot of a new entry by its rule: the lowest free one, or else that of the oldest candidate, the lower one
between equal stamps. -/
def BestPlace (free : Handle → Prop) (candidate : Handle → Entry → Prop) (h : Handle) : Prop :=
  (free h ∧ ∀ k, free k → h ≤ k) ∨
  ((∀ k, ¬ free k) ∧ ∃ e, candidate h e ∧
    ∀ k e', candidate k e' → e.stamp < e'.stamp ∨ (e.stamp = e'.stamp ∧ h ≤ k))

/-- R18: two candidates that are each the oldest are one. -/
theorem oldest_unique {h k : Handle} {a b : BitVec 32} (ab : a < b ∨ (a = b ∧ h ≤ k)) (ba : b < a ∨ (b = a ∧ k ≤ h)) :
    h = k := by
  simp only [BitVec.lt_def, BitVec.le_def] at ab ba
  refine BitVec.eq_of_toNat_eq ?_
  rcases ab with lt | ⟨rfl, le⟩ <;> rcases ba with lt' | ⟨eq, le'⟩
  · omega
  · rw [eq] at lt
    omega
  · omega
  · omega

section
variable {t : Table} {b : Bucket} {free : Handle → Prop} {candidate : Handle → Entry → Prop}
  (frees : ∀ k, free k ↔ bucketOfHandle k = b ∧ t.slot k = none)
  (candidates : ∀ k e, candidate k e ↔ ∃ x, Candidate t b Entry.isRetired k x ∧ x.entry = e)
include frees candidates

/-- R19: the owner's policy finds the slot of the rule. -/
theorem ownerPlace_best {h : Handle} (best : BestPlace free candidate h) : (ownerPlace t b).handle = some h := by
  have spec := placeIn_spec t b Entry.isRetired
  change (placeIn t b Entry.isRetired).handle = some h
  cases found : placeIn t b Entry.isRetired with
  | free k =>
    rw [found] at spec
    obtain ⟨bucket, empty, lowest⟩ := spec
    have here := (frees k).mpr ⟨bucket, empty⟩
    rcases best with ⟨mine, least⟩ | ⟨none, _⟩
    · obtain ⟨mb, me⟩ := (frees h).mp mine
      exact congrArg some (BitVec.le_antisymm (lowest h mb me) (least k here))
    · exact (none k here).elim
  | evict k =>
    rw [found] at spec
    obtain ⟨occupied, x, cand, oldest⟩ := spec
    rcases best with ⟨mine, _⟩ | ⟨_, e, mine, least⟩
    · obtain ⟨mb, me⟩ := (frees h).mp mine
      exact (occupied h mb me).elim
    · obtain ⟨y, candy, rfl⟩ := (candidates h e).mp mine
      exact congrArg some (oldest_unique (oldest h y candy) (least k x.entry ((candidates k _).mpr ⟨x, cand, rfl⟩)))
  | full =>
    rw [found] at spec
    obtain ⟨occupied, no⟩ := spec
    rcases best with ⟨mine, _⟩ | ⟨_, e, mine, _⟩
    · obtain ⟨mb, me⟩ := (frees h).mp mine
      exact (occupied h mb me).elim
    · obtain ⟨y, candy, _⟩ := (candidates h e).mp mine
      exact (no h y candy).elim

/-- R19: the owner's policy finds no slot where there is none. -/
theorem ownerPlace_full (noFree : ∀ k, ¬ free k) (noCandidate : ∀ k e, ¬ candidate k e) :
    (ownerPlace t b).handle = none := by
  have spec := placeIn_spec t b Entry.isRetired
  change (placeIn t b Entry.isRetired).handle = none
  cases found : placeIn t b Entry.isRetired with
  | free k =>
    rw [found] at spec
    exact (noFree k ((frees k).mpr ⟨spec.1, spec.2.1⟩)).elim
  | evict k =>
    rw [found] at spec
    obtain ⟨_, x, cand, _⟩ := spec
    exact (noCandidate k x.entry ((candidates k _).mpr ⟨x, cand, rfl⟩)).elim
  | full => rfl

end

theorem entryAt_none (s : State) (k : Handle) : s.entryAt k = none ↔ s.table.slot k = none := Option.map_eq_none_iff

/-- R18, R19: a retired entry without a pending mark, in the terms of the state. -/
theorem candidate_entryAt (s : State) (b : Bucket) (k : Handle) (e : Entry) :
    (bucketOfHandle k = b ∧ s.entryAt k = some e ∧ e.isRetired = true ∧ e.pending = none) ↔
      ∃ x, Candidate s.table b Entry.isRetired k x ∧ x.entry = e := by
  unfold Candidate State.entryAt
  rw [Option.map_eq_some_iff]
  constructor
  · rintro ⟨bucket, ⟨x, here, rfl⟩, retired, unmarked⟩
    exact ⟨x, ⟨bucket, here, unmarked, retired⟩, rfl⟩
  · rintro ⟨x, ⟨bucket, here, unmarked, retired⟩, rfl⟩
    exact ⟨bucket, ⟨x, here, rfl⟩, retired, unmarked⟩

/-! ### The frame of a placement -/

/-- `t` is `s` but for the table, the journal and the occupancy sets: what removals and insertions may change. The cursors,
quarantines and last-seen blocks stay. -/
def PlaceFrame (s t : State) : Prop :=
  ∃ table xlate journal, t = { s with table := table, xlate := xlate, journal := journal }
    ∧ ∀ g, ∃ occupied, xlate.get g = { s.xlate.get g with occupied := occupied }

theorem PlaceFrame.of_table (s : State) (table : Table) (journal : Journal) :
    PlaceFrame s { s with table := table, journal := journal } := ⟨_, _, _, rfl, fun _ => ⟨_, rfl⟩⟩

theorem PlaceFrame.refl (s : State) : PlaceFrame s s := .of_table s s.table s.journal

theorem PlaceFrame.trans {s t u : State} (a : PlaceFrame s t) (b : PlaceFrame t u) : PlaceFrame s u := by
  obtain ⟨_, _, _, rfl, first⟩ := a
  obtain ⟨_, _, _, rfl, second⟩ := b
  refine ⟨_, _, _, rfl, fun g => ?_⟩
  obtain ⟨_, eq⟩ := first g
  obtain ⟨occupied, eq'⟩ := second g
  exact ⟨occupied, eq'.trans (congrArg (fun p : Pool => { p with occupied := occupied }) eq)⟩

theorem PlaceFrame.pool {s t : State} (a : PlaceFrame s t) (g : GroupId) :
    (t.xlate.get g).cursor = (s.xlate.get g).cursor ∧ (t.xlate.get g).quarantine = (s.xlate.get g).quarantine
      ∧ (t.xlate.get g).lastSeen = (s.xlate.get g).lastSeen := by
  obtain ⟨_, xlate, _, rfl, pools⟩ := a
  obtain ⟨_, eq⟩ := pools g
  change (xlate.get g).cursor = _ ∧ (xlate.get g).quarantine = _ ∧ (xlate.get g).lastSeen = _
  rw [eq]
  exact ⟨rfl, rfl, rfl⟩

/-- R66: a change of the occupancy set of one group. -/
theorem mapOccupied_placeFrame (g : GroupId) (f : List (Port × Handle) → List (Port × Handle)) (s : State) :
    PlaceFrame s (mapPool g (fun x => { x with occupied := f x.occupied }) s) := by
  refine ⟨_, _, _, rfl, fun k => ?_⟩
  rw [Four.get_set]
  split
  · rename_i eq
    exact ⟨_, by rw [eq]⟩
  · exact ⟨_, rfl⟩

theorem releasePort_placeFrame (e : Entry) (s : State) : PlaceFrame s (releasePort e s) := by
  unfold releasePort
  split
  · exact .refl s
  · exact mapOccupied_placeFrame _ _ s

theorem joinPort_placeFrame (h : Handle) (e : Entry) (s : State) : PlaceFrame s (joinPort h e s) := by
  unfold joinPort
  split
  · exact .refl s
  · exact mapOccupied_placeFrame _ _ s

theorem removeEntry_placeFrame (h : Handle) (s : State) : PlaceFrame s (removeEntry h s) := by
  unfold removeEntry
  split
  · exact .refl s
  · exact (releasePort_placeFrame _ s).trans (.of_table _ _ _)

theorem displace_placeFrame (holder : Option Handle) (s : State) : PlaceFrame s (displace holder s) := by
  unfold displace
  split
  · exact removeEntry_placeFrame _ s
  · exact .refl s

theorem insertEntry_placeFrame (h : Handle) (e : Entry) (s : State) : PlaceFrame s (insertEntry h e s) := by
  unfold insertEntry
  dsimp only
  split <;> exact (joinPort_placeFrame h e s).trans (.of_table _ _ _)

/-! ### The journal and the port of a placed entry -/

theorem releasePort_journal (e : Entry) (s : State) : (releasePort e s).journal = s.journal := by
  unfold releasePort
  split <;> rfl

theorem joinPort_journal (h : Handle) (e : Entry) (s : State) : (joinPort h e s).journal = s.journal := by
  unfold joinPort
  split <;> rfl

theorem removeEntry_journal (h : Handle) (s : State) : (removeEntry h s).journal = s.journal := by
  unfold removeEntry
  split
  · rfl
  · exact releasePort_journal _ s

theorem displace_journal (holder : Option Handle) (s : State) : (displace holder s).journal = s.journal := by
  unfold displace
  split
  · exact removeEntry_journal _ s
  · rfl

/-- R8, R82: the record that a new entry in slot `h` takes up refers to that slot. -/
def Journal.referring (j : Journal) (unsent : Option Seq) (h : Handle) : Journal :=
  { j with records := j.records.map fun x => if unsent = some x.seq then { x with slot := some h } else x }

theorem insertEntry_journal (h : Handle) (e : Entry) (s : State) :
    (insertEntry h e s).journal = s.journal.referring (s.journal.unsentOf e.key e.incarnation) h := by
  have joined := joinPort_journal h e s
  unfold insertEntry Journal.referring
  dsimp only
  cases s.journal.unsentOf e.key e.incarnation with
  | none => simpa using joined
  | some q =>
    dsimp only [writeEntry_journal]
    rw [joined]
    simp only [Journal.mapRecord, Option.some.injEq, eq_comm]

theorem portHolder_joinPort {h : Handle} {e : Entry} {p : Port} (s : State) (port : e.translation = some p) :
    (joinPort h e s).portHolder e.group p = some h := by
  unfold joinPort State.portHolder
  rw [port]
  dsimp only
  rw [mapPool_xlate, Four.get_set_same]
  exact holderOf_addPort_same p h _

theorem insertEntry_xlate (h : Handle) (e : Entry) (s : State) :
    (insertEntry h e s).xlate = (joinPort h e s).xlate := by
  unfold insertEntry
  dsimp only
  split <;> rfl

/-- R8, R18, R66: what a new entry in slot `h` leaves: its slot, its port, and the record it takes up. -/
structure Inserted (s t : State) (h : Handle) (e : Entry) : Prop where
  frame : PlaceFrame s t
  journal : t.journal = s.journal.referring (s.journal.unsentOf e.key e.incarnation) h
  slot : t.entryAt h = some { e with pending := s.journal.unsentOf e.key e.incarnation }
  others : ∀ k, k ≠ h → t.entryAt k = s.entryAt k
  port : ∀ p, e.translation = some p → t.portHolder e.group p = some h

theorem insertEntry_inserted (h : Handle) (e : Entry) (s : State) : Inserted s (insertEntry h e s) h e where
  frame := insertEntry_placeFrame h e s
  journal := insertEntry_journal h e s
  slot := (entryAt_insertEntry h h e s).trans (if_pos rfl)
  others k ne := (entryAt_insertEntry h k e s).trans (if_neg ne)
  port p port := by
    unfold State.portHolder
    rw [insertEntry_xlate]
    exact portHolder_joinPort s port

theorem insertAt_inserted {place : Place} {h : Handle} (placed : place.handle = some h) (e : Entry) (s : State) :
    Inserted s (insertAt place e s) h e := by
  cases place with
  | free k =>
    cases placed
    exact insertEntry_inserted h e s
  | evict k =>
    cases placed
    obtain ⟨frame, journal, slot, others, port⟩ := insertEntry_inserted h e (removeEntry h s)
    rw [removeEntry_journal] at journal slot
    exact ⟨(removeEntry_placeFrame h s).trans frame, journal, slot,
      fun k ne => (others k ne).trans ((entryAt_removeEntry h k s).trans (if_neg ne)), port⟩
  | full => cases placed

/-! ### A placed entry and its offer -/

/-- The answer of a request that creates an entry: the placement in slot `h`, its offer, and the response. The placement
comes on a state `s` in which the request, taken in `u`, has reached the table and the translation unit at most. -/
theorem respond_created {place : Place} {h : Handle} (placed : place.handle = some h) (e : Entry) (x : Response)
    {u s : State} (base : ∃ table xlate, s = { u with table := table, xlate := xlate }) (ok : x.status = .ok) :
    let unsent := u.journal.unsentOf e.key e.incarnation
    let t := respond x (offer h (insertAt place e s)).1
    u.offered t (u.journal.referring unsent h) h { e with pending := unsent }
      ∧ (∀ k, k ≠ h → t.entryAt k = s.entryAt k)
      ∧ (∀ p, e.translation = some p → t.portHolder e.group p = some h)
      ∧ (∀ g, (t.xlate.get g).cursor = (s.xlate.get g).cursor ∧ (t.xlate.get g).quarantine = (s.xlate.get g).quarantine
          ∧ (t.xlate.get g).lastSeen = (s.xlate.get g).lastSeen)
      ∧ t.port.responses = u.port.responses ++ [x]
      ∧ t = { u with
          table := t.table, xlate := t.xlate, journal := t.journal, recon.resend := t.recon.resend
          port.flags := t.port.flags, port.responses := t.port.responses } := by
  obtain ⟨frame, journal, slot, others, port⟩ := insertAt_inserted placed e s
  have offered := offer_offered _ slot
  have kept (k : Handle) (ne : k ≠ h) : (offer h (insertAt place e s)).1.entryAt k = s.entryAt k :=
    (entryAt_offer_other _ ne).trans (others k ne)
  have pools := frame.pool
  obtain ⟨_, _, _, _, offers⟩ := offer_changeFrame h (insertAt place e s)
  obtain ⟨_, _, _, inserts, _⟩ := frame
  intro unsent t
  have answered : t = { (offer h (insertAt place e s)).1 with
      port.responses := (offer h (insertAt place e s)).1.port.responses ++ [x] } := respond_ok x _ ok
  obtain ⟨_, _, rfl⟩ := base
  rw [journal] at offered
  rw [offers] at offered kept answered
  rw [inserts] at offered kept answered port pools
  rw [answered]
  exact ⟨offered, kept, port, pools, rfl, rfl⟩

end Sys2Proof.Machine
end

