-- ==== Sys2Proof/Proofs/Creation.lean ====
section
/-!
PROOFS. CHECK of an absent key at its owner (R34): the port it takes (R71), the record it takes up (R8), and the entry it
creates.
-/

namespace Sys2Proof.Machine

open Sys2Proof

/-! ### The port of an allocation -/

theorem portAfter_eq (p : Port) : portAfter p = if p = 65535 then 4096 else p + 1 := by
  unfold portAfter
  refine if_congr ⟨fun eq => BitVec.eq_of_toNat_eq eq, fun eq => ?_⟩ rfl rfl
  rw [eq]
  rfl

/-- R65: a port lies in one of the 60 blocks. -/
theorem blockOf_val (p : Port) : (blockOf p).val = (p.toNat - 4096) / 1024 := by
  have lt := p.isLt
  refine Nat.mod_eq_of_lt ?_
  simp only [Config.firstPort]
  omega

/-- R71: the port is occupied or quarantined in the pool of `g`. -/
def State.portTaken (s : State) (g : GroupId) (p : Port) : Prop :=
  (s.portHolder g p).isSome = true ∨ ∃ k, k ∈ (s.xlate.get g).quarantine ∧ k.val = (p.toNat - 4096) / 1024

theorem portTaken_iff (s : State) (g : GroupId) (p : Port) : s.portTaken g p ↔
    (holderOf p (s.xlate.get g).occupied).isSome = true ∨ (s.xlate.get g).quarantine.contains (blockOf p) = true := by
  refine or_congr Iff.rfl ?_
  rw [List.contains_iff_mem]
  constructor
  · rintro ⟨k, mem, eq⟩
    rwa [show blockOf p = k from Fin.ext ((blockOf_val p).trans eq.symm)]
  · exact fun mem => ⟨blockOf p, mem, blockOf_val p⟩

theorem freePort_none (s : State) (g : GroupId) :
    s.freePort g = none ↔ ∀ n < 61440, s.portTaken g (portAfter^[n] (s.xlate.get g).cursor) := by
  simp only [portTaken_iff]
  exact searchPort_none _ _ _ _

theorem freePort_some (s : State) (g : GroupId) (p : Port) :
    s.freePort g = some p ↔ ∃ n < 61440, p = portAfter^[n] (s.xlate.get g).cursor ∧ ¬ s.portTaken g p ∧
      ∀ m < n, s.portTaken g (portAfter^[m] (s.xlate.get g).cursor) := by
  simp only [portTaken_iff, not_or, Bool.not_eq_true, and_assoc]
  exact searchPort_some _ _ _ _ _

/-- The allocation cursor of group `g` moves past the port that a creation takes, if it takes one. -/
def takePort (g : GroupId) (port : Option Port) (s : State) : State :=
  match port with
  | none => s
  | some p => moveCursor g p s

/-- R71: the cursor of the one group. -/
theorem takePort_pool (g k : GroupId) (port : Option Port) (s : State) : (takePort g port s).xlate.get k =
    { s.xlate.get k with
      cursor := if k = g then port.elim (s.xlate.get k).cursor portAfter else (s.xlate.get k).cursor } := by
  cases port with
  | none => exact (congrArg (fun c => { s.xlate.get k with cursor := c }) (ite_self _)).symm
  | some p =>
    refine (Four.get_set s.xlate g k _).trans ?_
    by_cases eq : k = g
    · rw [if_pos eq, if_pos eq, eq]
      rfl
    · rw [if_neg eq, if_neg eq]

theorem takePort_base (g : GroupId) (port : Option Port) (s : State) :
    ∃ table xlate, takePort g port s = { s with table := table, xlate := xlate } := by
  cases port <;> exact ⟨_, _, rfl⟩

theorem takePort_table (g : GroupId) (port : Option Port) (s : State) : (takePort g port s).table = s.table := by
  cases port <;> rfl

/-! ### The record a creation takes up -/

/-- R8, R82: a never-transmitted record of this key and incarnation. -/
def Journal.Unsent (j : Journal) (k : Key) (incarnation : Byte) (x : JournalRecord) : Prop :=
  x ∈ j.records ∧ x.sent = false ∧ ∃ c, x.body = .entry c ∧ c.key = k ∧ c.incarnation = incarnation

theorem unsentOf_none {j : Journal} {k : Key} {incarnation : Byte} (none : j.unsentOf k incarnation = none)
    (x : JournalRecord) : ¬ j.Unsent k incarnation x := by
  rintro ⟨mem, sent, c, body, key, inc⟩
  have no := List.find?_eq_none.mp (Option.map_eq_none_iff.mp none) x mem
  rw [sent, body] at no
  simp [key, inc] at no

theorem unsentOf_some {j : Journal} {k : Key} {incarnation : Byte} {q : Seq} (some : j.unsentOf k incarnation = some q) :
    ∃ x, j.Unsent k incarnation x ∧ x.seq = q := by
  obtain ⟨x, found, eq⟩ := Option.map_eq_some_iff.mp some
  have yes := List.find?_some found
  have mem := List.mem_of_find?_eq_some found
  refine ⟨x, ⟨mem, ?_⟩, eq⟩
  cases body : x.body <;> simp [body] at yes
  obtain ⟨sent, key, inc⟩ := yes
  exact ⟨sent, _, rfl, key, inc⟩

/-! ### The creation -/

/-- R34 steps 3 to 6, over the placement and its offer. -/
theorem createByCheck_eq (r : Request) (place : Place) (h : Handle) (port : Option Port) (s : State) :
    createByCheck r place h port s =
      respond (entryResponse r .ok .pass h (openedEntry r.key r.group 0 port s.now s.me r.packet))
        (offer h (insertAt place (openedEntry r.key r.group 0 port s.now s.me r.packet)
          (takePort r.group port s))).1 := by
  cases port <;> rfl

/-- R34, R71: a creation that needs a port and finds none. -/
theorem checkCreates_noPort {r : Request} {s : State} {h : Handle}
    (place : (ownerPlace s.table (bucketOf r.key)).handle = some h)
    (translated : (r.translateOnCreate && s.port.setup.translate.get r.group) = true)
    (none : s.freePort r.group = none) : checkCreates r s = respond (verdictResponse r .dropNoPort) s := by
  unfold checkCreates
  dsimp only
  rw [place]
  dsimp only
  rw [if_pos translated, none]

/-- R34, R71: a creation with the port it finds. -/
theorem checkCreates_port {r : Request} {s : State} {h : Handle} {p : Port}
    (place : (ownerPlace s.table (bucketOf r.key)).handle = some h)
    (translated : (r.translateOnCreate && s.port.setup.translate.get r.group) = true)
    (found : s.freePort r.group = some p) :
    checkCreates r s = createByCheck r (ownerPlace s.table (bucketOf r.key)) h (some p) s := by
  unfold checkCreates
  dsimp only
  rw [place]
  dsimp only
  rw [if_pos translated, found]

theorem checkCreates_untranslated {r : Request} {s : State} {h : Handle}
    (place : (ownerPlace s.table (bucketOf r.key)).handle = some h)
    (untranslated : (r.translateOnCreate && s.port.setup.translate.get r.group) = false) :
    checkCreates r s = createByCheck r (ownerPlace s.table (bucketOf r.key)) h none s := by
  unfold checkCreates
  dsimp only
  rw [place]
  dsimp only
  rw [if_neg (by rw [untranslated]; nofun)]

/-- Settles O25: the slot and the port by their searches; the new entry is placed and offered. -/
theorem ownerChecksAnAbsentKey : Obligations.OwnerChecksAnAbsentKey := by
  intro s r run head kind u b free candidate place translated pool next taken allocates higher active fields held sound
    absent
  have checked : exec .check s = .next (ownerCheck r u) := exec_check_owner run head kind higher active fields held sound
  have frees (k : Handle) : free k ↔ bucketOfHandle k = b ∧ u.table.slot k = none :=
    and_congr_right fun _ => entryAt_none u k
  have candidates := candidate_entryAt u b
  have after : next = portAfter := funext fun p => (portAfter_eq p).symm
  have owner : ownerCheck r u = if Packet.creates r.key r.packet then checkCreates r u
      else respond (verdictResponse r (if (u.group r.group).adoptionOpen then .missAdoptable else .miss)) u := by
    unfold ownerCheck
    rw [absent]
  rw [checked, owner]
  refine ⟨fun no window => ?_, fun no window => ?_, fun creates noFree noCandidate => ?_,
    fun h creates best translates all => ?_, fun h port creates best allocation => ?_⟩
  · rw [no, window]
    rfl
  · rw [no, window]
    rfl
  · rw [if_pos creates]
    unfold checkCreates
    dsimp only
    rw [ownerPlace_full frees candidates noFree noCandidate]
  · rw [after] at all
    rw [if_pos creates, checkCreates_noPort (ownerPlace_best frees candidates best) translates
      ((freePort_none u r.group).mpr all)]
  · have placed := ownerPlace_best frees candidates best
    have created : checkCreates r u = createByCheck r (ownerPlace u.table b) h port u := by
      rcases allocation with ⟨translates, p, rfl, n, lt, is, open_, first⟩ | ⟨plain, rfl⟩
      · rw [after] at is first
        exact checkCreates_port placed translates ((freePort_some u r.group p).mpr ⟨n, lt, is, open_, first⟩)
      · exact checkCreates_untranslated placed plain
    rw [if_pos creates, created, createByCheck_eq]
    obtain ⟨offered, others, holder, pools, responses, frame⟩ :=
      respond_created placed (openedEntry r.key r.group 0 port u.now u.me r.packet)
        (entryResponse r .ok .pass h (openedEntry r.key r.group 0 port u.now u.me r.packet))
        (takePort_base r.group port u) rfl
    intro unsent names new journal
    have opened : { openedEntry r.key r.group 0 port u.now u.me r.packet with pending := unsent } = new := by
      unfold openedEntry
      rw [openedEntry_marks creates]
      rfl
    have answer : entryResponse r .ok .pass h (openedEntry r.key r.group 0 port u.now u.me r.packet)
        = entryResponse r .ok .pass h new := by
      rw [← opened]
      rfl
    refine ⟨unsentOf_none, fun q => unsentOf_some, _, rfl, opened ▸ offered, fun k ne => ?_, fun p eq => ⟨holder p eq, ?_⟩,
      fun g far => ?_, fun g => ?_, answer ▸ responses, frame⟩
    · exact (others k ne).trans (entryAt_of_table (takePort_table r.group port u) k)
    · rw [(pools r.group).1, takePort_pool, after, eq]
      exact if_pos rfl
    · rw [(pools g).1, takePort_pool]
      rcases far with ne | none
      · exact if_neg ne
      · rw [none]
        exact ite_self _
    · rw [(pools g).2.1, (pools g).2.2, takePort_pool]
      exact ⟨rfl, rfl⟩

end Sys2Proof.Machine
end

