-- ==== Sys2Proof/Proofs/Adopt.lean ====
section
/-!
PROOFS. ADOPT (R48, R49): the holder of the given port, the slot that its leaving may free, and the adopted entry.
-/

namespace Sys2Proof.Machine

open Sys2Proof

/-! ### The holder of the given port -/

theorem portConflict_live {s : State} {holder : Option Handle} {k : Handle} {e : Entry} (holds : holder = some k)
    (here : s.entryAt k = some e) (live : e.isRetired = false) : s.portConflict holder = true := by
  unfold State.portConflict
  rw [holds, Option.bind_some, here]
  dsimp only
  rw [live]
  rfl

/-- R70: a tombstone, or no entry, does not stand against an ADOPT. -/
theorem portConflict_displaced {s : State} {holder : Option Handle}
    (displaced : ∀ k e, holder = some k → s.entryAt k = some e → e.isRetired = true) :
    s.portConflict holder = false := by
  unfold State.portConflict
  cases found : holder.bind s.entryAt with
  | none => rfl
  | some e =>
    obtain ⟨k, holds, here⟩ := Option.bind_eq_some_iff.mp found
    dsimp only
    rw [displaced k e holds here]
    rfl

theorem badHolder_sound {t : Table} {holder : Option Handle}
    (sound : ∀ k, holder = some k → t.sound (bucketOfHandle k) = true) : badHolder t holder = none := by
  cases holder with
  | none => rfl
  | some k => exact if_pos (sound k rfl)

/-! ### The slot that an adopted entry takes -/

/-- R23: in its own bucket, the holder to be displaced has left. -/
theorem slot_tableWithout (t : Table) {b : Bucket} (holder : Option Handle) {k : Handle} (bucket : bucketOfHandle k = b) :
    (tableWithout t b holder).slot k = if holder = some k then none else t.slot k := by
  unfold tableWithout
  cases holder with
  | none => rfl
  | some h =>
    dsimp only
    split
    · rw [Table.slot_free]
      exact if_congr (by rw [Option.some.injEq, eq_comm]) rfl rfl
    · rename_i away
      refine (if_neg fun eq : some h = some k => away ?_).symm
      rw [Option.some.inj eq, bucket]

/-- R23: the slots that count as free. -/
theorem free_tableWithout (s : State) (b : Bucket) (holder : Option Handle) (k : Handle) :
    (bucketOfHandle k = b ∧ (s.entryAt k = none ∨ holder = some k)) ↔
      bucketOfHandle k = b ∧ (tableWithout s.table b holder).slot k = none := by
  refine and_congr_right fun bucket => ?_
  rw [slot_tableWithout s.table holder bucket, entryAt_none]
  split
  · rename_i holds
    exact iff_of_true (Or.inr holds) rfl
  · rename_i away
    exact or_iff_left away

/-- R19, R23: the tombstones that may be evicted beside the holder. -/
theorem candidate_tableWithout (s : State) (b : Bucket) (holder : Option Handle) (k : Handle) (e : Entry) :
    (bucketOfHandle k = b ∧ holder ≠ some k ∧ s.entryAt k = some e ∧ e.isRetired = true ∧ e.pending = none) ↔
      ∃ x, Candidate (tableWithout s.table b holder) b Entry.isRetired k x ∧ x.entry = e := by
  by_cases bucket : bucketOfHandle k = b
  · have slot := slot_tableWithout s.table holder bucket
    by_cases holds : holder = some k
    · rw [if_pos holds] at slot
      refine iff_of_false (fun yes => yes.2.1 holds) ?_
      rintro ⟨x, ⟨_, here, _⟩, _⟩
      rw [slot] at here
      cases here
    · rw [if_neg holds] at slot
      have plain := candidate_entryAt s b k e
      unfold Candidate at plain ⊢
      rw [slot, ← plain, and_iff_right holds]
  · refine iff_of_false (fun yes => bucket yes.1) ?_
    rintro ⟨x, ⟨here, _⟩, _⟩
    exact bucket here

/-! ### The adopted entry -/

theorem displace_base (holder : Option Handle) (s : State) :
    ∃ table xlate, displace holder s = { s with table := table, xlate := xlate } := by
  have journal := displace_journal holder s
  obtain ⟨_, _, _, frame, _⟩ := displace_placeFrame holder s
  rw [frame] at journal ⊢
  exact ⟨_, _, by rw [← show _ = s.journal from journal]⟩

/-- R49: the side records of an adopted stream. -/
theorem adoptedEntry_stream (r : Request) (now : BitVec 32) (me : Station) :
    (adoptedEntry r now me).stream =
      if isStream r.key = false then none
      else if r.direction = .fromInitiator then some ⟨⟨some r[3], some r[4], r.window⟩, ⟨some r[4], none, 0⟩⟩
      else some ⟨⟨some r[4], none, 0⟩, ⟨some r[3], some r[4], r.window⟩⟩ := by
  unfold adoptedEntry
  cases isStream r.key <;> cases r.direction <;> rfl

/-- R48 step 6: no slot for the adopted entry. -/
theorem adoptInBucket_full {r : Request} {s : State} {holder : Option Handle} (absent : s.table.find r.key = none)
    (holds : holder = r.givenPort.bind (s.portHolder r.group)) (agree : s.portConflict holder = false)
    (full : (ownerPlace (tableWithout s.table (bucketOf r.key) holder) (bucketOf r.key)).handle = none) :
    adoptInBucket r s = answer r .tableFull s := by
  subst holds
  unfold adoptInBucket
  rw [absent]
  dsimp only
  rw [if_neg (by rw [agree]; nofun), full]

/-- R49: the adopted entry is placed, after its port's holder has left, and offered. -/
theorem adoptInBucket_adopts {r : Request} {s : State} {holder : Option Handle} {h : Handle}
    (absent : s.table.find r.key = none) (holds : holder = r.givenPort.bind (s.portHolder r.group))
    (agree : s.portConflict holder = false)
    (placed : (ownerPlace (tableWithout s.table (bucketOf r.key) holder) (bucketOf r.key)).handle = some h)
    (sound : badHolder s.table holder = none) :
    adoptInBucket r s = respond (entryResponse r .ok .none h (adoptedEntry r s.now s.me))
      (offer h (insertAt (ownerPlace (tableWithout s.table (bucketOf r.key) holder) (bucketOf r.key))
        (adoptedEntry r s.now s.me) (displace holder s))).1 := by
  subst holds
  unfold adoptInBucket
  rw [absent]
  dsimp only
  rw [if_neg (by rw [agree]; nofun), placed, sound]

/-- R48: an ADOPT whose fields are in range and whose grant is there. -/
theorem exec_adopt_proceeds {s : State} {r : Request} (run : s.phase = .running) (head : s.nextRequest = some r)
    (kind : r.kind = 0x02) (granted : s.grantsRequest) (active : (takeRequest s).life.active = true)
    (fields : adoptOffence (takeRequest s).port.setup.translate r = none) :
    exec .adopt s = .next (adoptByState r (takeRequest s)) := by
  rw [exec_adopt run head kind granted, fields, sessionRequest_proceeds r _ _ active]

/-- R25, R48: an ADOPT refused by its first three steps needs no grant. -/
theorem adopt_tableless {s : State} {r : Request} (head : s.nextRequest = some r) (kind : r.kind = 0x02)
    (refused : ((takeRequest s).holds r.group && ((takeRequest s).group r.group).adoptionOpen) = false) :
    s.grantsRequest := by
  rw [takeRequest_holds, takeRequest_adoptionOpen] at refused
  refine Or.inr ?_
  rw [engineWaits_request head, reachesTable_adopt s kind, Bool.and_assoc, refused, Bool.and_false, Bool.and_false]

theorem holds_enabled {s : State} {g : GroupId} (held : s.holds g = true) : (s.group g).state ≠ .disabled := fun off => by
  rw [State.holds, off] at held
  cases held

/-- Settles O29: the steps in order; the slot is searched in the table that the displaced holder has left. -/
theorem adoptByItsSteps : Obligations.AdoptByItsSteps := by
  intro s r run head kind u b holder displaced free candidate place active fields
  have proceeds (granted : s.grantsRequest) : exec .adopt s = .next (adoptByState r u) :=
    exec_adopt_proceeds run head kind granted active fields
  refine ⟨fun off => ?_, fun on away => ?_, fun held closed => ?_, fun held opened higher sound => ?_⟩
  · have away : u.holds r.group = false := congrArg GroupState.held off
    rw [proceeds (adopt_tableless head kind (by rw [away, Bool.false_and]))]
    unfold adoptByState
    rw [if_pos off]
  · rw [proceeds (adopt_tableless head kind (by rw [away, Bool.false_and]))]
    unfold adoptByState
    rw [if_neg on, away]
    rfl
  · rw [proceeds (adopt_tableless head kind (by rw [closed, Bool.and_false]))]
    unfold adoptByState
    rw [if_neg (holds_enabled held), held, closed]
    rfl
  have taken : exec .adopt s = .next (adoptInBucket r u) := by
    rw [proceeds (Or.inl higher)]
    unfold adoptByState
    rw [if_neg (holds_enabled held), held, opened]
    exact congrArg Host.Outcome.next (requestOperation_sound r b _ u sound)
  refine ⟨fun h e found => ?_, fun absent => ?_⟩
  · rw [taken]
    unfold adoptInBucket
    rw [found]
  have frees : ∀ k, free k ↔ bucketOfHandle k = b ∧ (tableWithout u.table b holder).slot k = none :=
    free_tableWithout u b holder
  have candidates := candidate_tableWithout u b holder
  refine ⟨fun p k e given holds here live => ?_, fun gone noFree noCandidate => ?_, fun h gone intact best => ?_⟩
  · have holds : holder = some k := by
      change r.givenPort.bind _ = _
      rw [given]
      exact holds
    rw [taken]
    unfold adoptInBucket
    rw [absent]
    exact congrArg Host.Outcome.next (if_pos (portConflict_live holds here live))
  · rw [taken, adoptInBucket_full absent rfl (portConflict_displaced gone)
      (ownerPlace_full frees candidates noFree noCandidate)]
  · intro unsent new journal
    have placed := ownerPlace_best frees candidates best
    have adopted : { adoptedEntry r u.now u.me with pending := unsent } = new := by
      change ({ adoptedEntry r u.now u.me with stream := (adoptedEntry r u.now u.me).stream, pending := unsent } : Entry)
        = new
      rw [adoptedEntry_stream]
      rfl
    have answer : entryResponse r .ok .none h (adoptedEntry r u.now u.me) = entryResponse r .ok .none h new := by
      rw [← adopted]
      rfl
    obtain ⟨offered, others, port, pools, responses, frame⟩ :=
      respond_created placed (adoptedEntry r u.now u.me) (entryResponse r .ok .none h (adoptedEntry r u.now u.me))
        (displace_base holder u) rfl
    rw [taken, adoptInBucket_adopts absent rfl (portConflict_displaced gone) placed (badHolder_sound intact)]
    refine ⟨_, rfl, adopted ▸ offered, fun k ne away => ?_, fun k ne holds => ?_, port, fun g => ?_, answer ▸ responses,
      frame⟩
    · rw [others k ne, entryAt_displace, if_neg away]
    · rw [others k ne, entryAt_displace, if_pos holds]
    · obtain ⟨cursor, quarantine, lastSeen⟩ := (displace_placeFrame holder u).pool g
      exact ⟨(pools g).1.trans cursor, (pools g).2.1.trans quarantine, (pools g).2.2.trans lastSeen⟩

end Sys2Proof.Machine
end

