-- ==== Sys2Proof/Proofs/AgeClock.lean ====
section
/-!
PROOFS. The age clock: an age tick (R53, R54, R56), and the reference period that an empty queue lets pass (R52).
-/

namespace Sys2Proof.Machine

open Sys2Proof

/-! ### An age tick -/

/-- R54: aging is not permitted in a witness, nor in a station that is not active. -/
theorem agingPermitted_eq_false_iff (s : State) :
    s.agingPermitted = false ↔ s.straps.role = .witness ∨ s.life.active = false := by
  unfold State.agingPermitted
  cases s.straps.role <;> simp

/-- R53, R54, R56: what a tick makes of the scan, and that it leaves all but clock and scan alone. -/
theorem ageTick_eq (s : State) :
    ageTick s = { s with
      clock := ⟨0, 0, s.clock.tick + 1⟩
      scan :=
        if s.agingPermitted = false then s.scan
        else if s.scan.running then { s.scan with behind := true }
        else ⟨true, 0, s.scan.behind⟩ } := by
  have untouched : State.agingPermitted { s with clock := ⟨0, 0, s.clock.tick + 1⟩ } = s.agingPermitted := rfl
  unfold ageTick
  dsimp only
  rw [untouched]
  cases s.agingPermitted with
  | false => rfl
  | true => cases s.scan.running <;> rfl

theorem exec_ageTick {s : State} (run : s.phase = .running) : exec .ageTick s = .next (ageTick s) :=
  congrArg Host.Outcome.next (whenLive_running ageTick s run)

/-- Settles O37: the command runs the tick, whose scan is `ageTick_eq`'s. -/
theorem ageTickCounts : Obligations.AgeTickCounts := by
  intro s run permitted
  rw [exec_ageTick run, ageTick_eq]
  rfl

/-! ### A reference period -/

/-- R52: before the prescaler's wrap. -/
theorem referencePeriod_counts {s : State} (below : s.clock.prescaler + 1 < 25000) :
    referencePeriod s = { s with clock.prescaler := s.clock.prescaler + 1 } := if_pos below

/-- R52: a base tick, before the wrap of the millisecond count. -/
theorem referencePeriod_baseTick {s : State} (wraps : 25000 ≤ s.clock.prescaler + 1)
    (below : s.clock.millis + 1 < 1000) :
    referencePeriod s = { s with clock := ⟨0, s.clock.millis + 1, s.clock.tick⟩ } :=
  (if_neg (Nat.not_lt.mpr wraps)).trans (if_pos below)

/-- R52: both counts wrap. -/
theorem referencePeriod_ageTick {s : State} (wraps : 25000 ≤ s.clock.prescaler + 1)
    (full : 1000 ≤ s.clock.millis + 1) : referencePeriod s = ageTick s :=
  (if_neg (Nat.not_lt.mpr wraps)).trans (if_neg (Nat.not_lt.mpr full))

theorem step_empty {s : State} (empty : s.pending = []) : step s = .next (idle s) := by
  unfold step
  rw [empty]

theorem idle_running {s : State} (run : s.phase = .running) : idle s = referencePeriod s :=
  whenLive_running referencePeriod s run

/-- Settles O2: the four cases are a reset in effect and the three ways a reference period can go. -/
theorem emptyQueueLetsAPeriodPass : Obligations.EmptyQueueLetsAPeriodPass := by
  intro s empty
  rw [step_empty empty]
  refine ⟨fun reset => ?_, fun run below => ?_, fun run wraps below => ?_, fun run wraps full => ?_⟩
  · exact congrArg Host.Outcome.next (whenLive_reset referencePeriod s reset)
  · rw [idle_running run, referencePeriod_counts below]
  · rw [idle_running run, referencePeriod_baseTick wraps below]
  · rw [idle_running run, referencePeriod_ageTick wraps full, ageTick_eq]
    simp only [agingPermitted_eq_false_iff]

end Sys2Proof.Machine
end

