-- ==== Sys2Proof/Proofs/Ports.lean ====
section
/-!
PROOFS. Ports held and ports occupied (R66): what the operations of the translation unit and of the session table do to
both, and that they stay inverse to each other where an entry leaves a slot, enters a free one, or changes in its slot.
-/

namespace Sys2Proof.Machine

open Sys2Proof

/-! ### The port that a slot holds -/

/-- The translated port of an entry with the group in whose occupancy set it stands (R67). -/
def Entry.heldPort (e : Entry) : Option (GroupId × Port) := e.translation.map fun p => (e.group, p)

theorem heldPort_eq_some {e : Entry} {g : GroupId} {p : Port} :
    e.heldPort = some (g, p) ↔ e.group = g ∧ e.translation = some p := by
  simp [Entry.heldPort, and_comm]

theorem heldPort_congr {e f : Entry} (group : f.group = e.group) (port : f.translation = e.translation) :
    f.heldPort = e.heldPort := by
  unfold Entry.heldPort
  rw [group, port]

/-- R67: what `movePort` compares is the port held. -/
theorem heldPort_eq_iff {e f : Entry} :
    f.heldPort = e.heldPort ↔
      e.translation = f.translation ∧ (e.group = f.group ∨ e.translation = none) := by
  unfold Entry.heldPort
  cases e.translation <;> cases f.translation <;> simp
  exact ⟨fun ⟨group, port⟩ => ⟨port.symm, group.symm⟩, fun ⟨port, group⟩ => ⟨group.symm, port.symm⟩⟩

/-- The port that the entry in slot `h` holds, if there is one and it holds one. -/
def State.portAt (s : State) (h : Handle) : Option (GroupId × Port) := (s.entryAt h).bind Entry.heldPort

theorem portAt_of_entry {s : State} {h : Handle} {e : Entry} (here : s.entryAt h = some e) :
    s.portAt h = e.heldPort := by
  unfold State.portAt
  rw [here]
  rfl

theorem portAt_of_vacant {s : State} {h : Handle} (vacant : s.entryAt h = none) : s.portAt h = none := by
  unfold State.portAt
  rw [vacant]
  rfl

theorem portAt_of_table {s t : State} (table : t.table = s.table) (h : Handle) : t.portAt h = s.portAt h :=
  congrArg (·.bind Entry.heldPort) (entryAt_of_table table h)

/-- R66: the occupancy sets and the ports held are inverse to each other. -/
theorem exactPorts_iff (s : State) :
    s.exactPorts ↔ ∀ g p h, s.portHolder g p = some h ↔ s.portAt h = some (g, p) := by
  simp only [State.exactPorts, State.portAt, Option.bind_eq_some_iff, heldPort_eq_some]

/-! ### The slots, by the ports they hold -/

theorem portAt_writeEntry (h k : Handle) (e : Entry) (s : State) :
    (writeEntry h e s).portAt k = if k = h then e.heldPort else s.portAt k := by
  unfold State.portAt
  rw [entryAt_writeEntry]
  split <;> rfl

theorem portAt_removeEntry (h k : Handle) (s : State) :
    (removeEntry h s).portAt k = if k = h then none else s.portAt k := by
  unfold State.portAt
  rw [entryAt_removeEntry]
  split <;> rfl

theorem portAt_insertEntry (h k : Handle) (e : Entry) (s : State) :
    (insertEntry h e s).portAt k = if k = h then e.heldPort else s.portAt k := by
  unfold State.portAt
  rw [entryAt_insertEntry]
  split <;> rfl

/-! ### The occupancy sets -/

theorem portHolder_of_xlate {s t : State} (xlate : t.xlate = s.xlate) (g : GroupId) (p : Port) :
    t.portHolder g p = s.portHolder g p := by
  unfold State.portHolder
  rw [xlate]

theorem portHolder_mapPool (g k : GroupId) (f : Pool → Pool) (p : Port) (s : State) :
    (mapPool k f s).portHolder g p =
      if g = k then holderOf p (f (s.xlate.get k)).occupied else s.portHolder g p := by
  unfold State.portHolder
  rw [mapPool_xlate, Four.get_set]
  split <;> rfl

/-- R67. -/
theorem portHolder_releasePort (e : Entry) (g : GroupId) (p : Port) (s : State) :
    (releasePort e s).portHolder g p = if e.heldPort = some (g, p) then none else s.portHolder g p := by
  unfold releasePort
  cases port : e.translation with
  | none => rw [if_neg (by simp [Entry.heldPort, port])]
  | some q =>
    dsimp only
    rw [portHolder_mapPool]
    by_cases group : g = e.group
    · rw [if_pos group, group]
      by_cases same : p = q
      · rw [if_pos (heldPort_eq_some.mpr ⟨rfl, same ▸ port⟩), same, holderOf_dropPort_same]
      · rw [if_neg (by simp [Entry.heldPort, port, Ne.symm same]), holderOf_dropPort_other _ same]
        rfl
    · rw [if_neg group, if_neg fun held => group (heldPort_eq_some.mp held).1.symm]

/-- R67. -/
theorem portHolder_joinPort_eq (h : Handle) (e : Entry) (g : GroupId) (p : Port) (s : State) :
    (joinPort h e s).portHolder g p = if e.heldPort = some (g, p) then some h else s.portHolder g p := by
  unfold joinPort
  cases port : e.translation with
  | none => rw [if_neg (by simp [Entry.heldPort, port])]
  | some q =>
    dsimp only
    rw [portHolder_mapPool]
    by_cases group : g = e.group
    · rw [if_pos group, group]
      by_cases same : p = q
      · rw [if_pos (heldPort_eq_some.mpr ⟨rfl, same ▸ port⟩), same, holderOf_addPort_same]
      · rw [if_neg (by simp [Entry.heldPort, port, Ne.symm same]), holderOf_addPort_other h _ same]
        rfl
    · rw [if_neg group, if_neg fun held => group (heldPort_eq_some.mp held).1.symm]

/-- R22, R67: with the entry its port leaves the occupancy set. -/
theorem portHolder_removeEntry (h : Handle) (g : GroupId) (p : Port) (s : State) :
    (removeEntry h s).portHolder g p = if s.portAt h = some (g, p) then none else s.portHolder g p := by
  unfold removeEntry
  cases here : s.entryAt h with
  | none => rw [portAt_of_vacant here, if_neg nofun]
  | some e =>
    rw [portAt_of_entry here, ← portHolder_releasePort]
    rfl

/-! ### One slot changes -/

/-- Two states with the same occupancy sets, whose slots hold the same ports. -/
theorem exactPorts_congr {s t : State} (ok : s.exactPorts) (ports : ∀ g p, t.portHolder g p = s.portHolder g p)
    (slots : ∀ h, t.portAt h = s.portAt h) : t.exactPorts := by
  rw [exactPorts_iff] at ok ⊢
  intro g p h
  rw [ports, slots]
  exact ok g p h

theorem exactPorts_of_fields {s t : State} (ok : s.exactPorts) (table : t.table = s.table)
    (xlate : t.xlate = s.xlate) : t.exactPorts :=
  exactPorts_congr ok (portHolder_of_xlate xlate) (portAt_of_table table)

/-- An entry takes a slot that held no port; its own port was free. -/
theorem exactPorts_filled {s t : State} (ok : s.exactPorts) {h : Handle} {e : Entry} (vacant : s.portAt h = none)
    (free : ∀ g p, e.heldPort = some (g, p) → s.portHolder g p = none)
    (ports : ∀ g p, t.portHolder g p = if e.heldPort = some (g, p) then some h else s.portHolder g p)
    (slots : ∀ k, t.portAt k = if k = h then e.heldPort else s.portAt k) : t.exactPorts := by
  rw [exactPorts_iff] at ok ⊢
  intro g p k
  rw [ports, slots]
  by_cases holds : e.heldPort = some (g, p)
  · have unheld : s.portAt k ≠ some (g, p) := by
      rw [Ne, ← ok, free g p holds]
      nofun
    by_cases same : k = h
    · simp [holds, same]
    · simp [holds, same, Ne.symm same, unheld]
  · rw [if_neg holds, ok]
    by_cases same : k = h
    · simp [same, vacant, holds]
    · rw [if_neg same]

/-- R22, R66. -/
theorem exactPorts_removeEntry (h : Handle) {s : State} (ok : s.exactPorts) : (removeEntry h s).exactPorts := by
  rw [exactPorts_iff] at ok ⊢
  intro g p k
  rw [portHolder_removeEntry, portAt_removeEntry]
  by_cases same : k = h
  · subst same
    by_cases holds : s.portAt k = some (g, p)
    · simp [holds]
    · simp [holds, ok]
  · rw [if_neg same, ← ok g p k]
    by_cases holds : s.portAt h = some (g, p)
    · rw [if_pos holds, (ok g p h).mpr holds]
      simp [Ne.symm same]
    · rw [if_neg holds]

theorem exactPorts_displace (holder : Option Handle) {s : State} (ok : s.exactPorts) :
    (displace holder s).exactPorts := by
  cases holder with
  | none => exact ok
  | some h => exact exactPorts_removeEntry h ok

/-- R18, R66: an entry enters a free slot, with a free port if it has one. -/
theorem exactPorts_insertEntry {h : Handle} {e : Entry} {s : State} (ok : s.exactPorts) (vacant : s.entryAt h = none)
    (free : ∀ g p, e.heldPort = some (g, p) → s.portHolder g p = none) : (insertEntry h e s).exactPorts :=
  exactPorts_filled ok (portAt_of_vacant vacant) free
    (fun g p => (portHolder_of_xlate (insertEntry_xlate h e s) g p).trans (portHolder_joinPort_eq h e g p s))
    (fun k => portAt_insertEntry h k e s)

/-- An entry changes in its slot and keeps its port. -/
theorem exactPorts_writeEntry {h : Handle} {e new : Entry} {s : State} (ok : s.exactPorts)
    (here : s.entryAt h = some e) (port : new.heldPort = e.heldPort) : (writeEntry h new s).exactPorts := by
  refine exactPorts_congr ok (portHolder_of_xlate rfl) fun k => ?_
  rw [portAt_writeEntry]
  split
  · rename_i same
    rw [same, portAt_of_entry here, port]
  · rfl

/-! ### Free ports -/

/-- A removal frees its entry's port and leaves every free port free. -/
theorem portHolder_removeEntry_none {h : Handle} {g : GroupId} {p : Port} {s : State}
    (free : s.portHolder g p = none) : (removeEntry h s).portHolder g p = none := by
  rw [portHolder_removeEntry, free, ite_self]

/-- R23, R68: a displaced holder leaves its port free. -/
theorem portHolder_displace {g : GroupId} {p : Port} {s : State} (ok : s.exactPorts) :
    (displace (s.portHolder g p) s).portHolder g p = none := by
  cases holder : s.portHolder g p with
  | none => exact holder
  | some h =>
    exact (portHolder_removeEntry h g p s).trans (if_pos (((exactPorts_iff s).mp ok g p h).mp holder))

/-- R71: an allocation finds a port outside the occupancy set. -/
theorem portHolder_freePort {s : State} {g : GroupId} {p : Port} (found : s.freePort g = some p) :
    s.portHolder g p = none := by
  obtain ⟨_, _, _, free, _⟩ := (searchPort_some _ _ _ _ _).mp found
  exact Option.not_isSome_iff_eq_none.mp (Bool.eq_false_iff.mp free)

/-! ### A slot's entry changes its port -/

/-- R67, R68: an entry takes new content in its slot, through the translation unit; the new port is free or its own. -/
theorem exactPorts_movePort {h : Handle} {e new : Entry} {s : State} (ok : s.exactPorts)
    (here : s.entryAt h = some e)
    (free : ∀ g p, new.heldPort = some (g, p) → s.portHolder g p = none ∨ s.portHolder g p = some h) :
    (writeEntry h new (movePort h e new s)).exactPorts := by
  unfold movePort
  split
  · rename_i same
    exact exactPorts_writeEntry ok here (heldPort_eq_iff.mpr same)
  · rename_i moved
    have released (g : GroupId) (p : Port) :
        (releasePort e s).portHolder g p = (removeEntry h s).portHolder g p := by
      rw [portHolder_releasePort, portHolder_removeEntry, portAt_of_entry here]
    refine exactPorts_filled (exactPorts_removeEntry h ok) (h := h) (e := new)
      ((portAt_removeEntry h h s).trans (if_pos rfl)) (fun g p holds => ?_) (fun g p => ?_) (fun k => ?_)
    · rcases free g p holds with unheld | own
      · exact portHolder_removeEntry_none unheld
      · rw [portHolder_removeEntry, if_pos (((exactPorts_iff s).mp ok g p h).mp own)]
    · rw [← released, ← portHolder_joinPort_eq]
      rfl
    · rw [portAt_writeEntry, portAt_removeEntry,
        portAt_of_table ((joinPort_table h new _).trans (releasePort_table e s)) k]
      split <;> rfl

/-! ### A placed entry -/

theorem placeIn_free {t : Table} {b : Bucket} {may : Entry → Bool} {h : Handle} (found : placeIn t b may = .free h) :
    bucketOfHandle h = b ∧ t.slot h = none := by
  have spec := placeIn_spec t b may
  rw [found] at spec
  exact ⟨spec.1, spec.2.1⟩

/-- R21. -/
theorem followerPlace_free {t : Table} {b : Bucket} {holds : GroupId → Bool} {h : Handle}
    (found : (followerPlace t b holds).1 = .free h) : bucketOfHandle h = b ∧ t.slot h = none := by
  unfold followerPlace at found
  split at found
  · exact placeIn_free (may := fun e => !holds e.group) found
  · exact placeIn_free found

/-- R23: a slot that is free once the holder has left. -/
theorem entryAt_displace_free {s : State} {holder : Option Handle} {b : Bucket} {h : Handle}
    (free : bucketOfHandle h = b ∧ (tableWithout s.table b holder).slot h = none) :
    (displace holder s).entryAt h = none := by
  obtain ⟨_, vacant⟩ := (free_tableWithout s b holder h).mpr free
  rw [entryAt_displace]
  split
  · rfl
  · rename_i away
    exact vacant.resolve_right away

/-- R18, R66: an entry enters the slot that a policy found, after the eviction it names. -/
theorem exactPorts_insertAt {place : Place} {e : Entry} {s : State} (ok : s.exactPorts)
    (vacant : ∀ h, place = .free h → s.entryAt h = none)
    (free : ∀ g p, e.heldPort = some (g, p) → s.portHolder g p = none) : (insertAt place e s).exactPorts := by
  cases place with
  | free h => exact exactPorts_insertEntry ok (vacant h rfl) free
  | evict h =>
    exact exactPorts_insertEntry (exactPorts_removeEntry h ok) ((entryAt_removeEntry h h s).trans (if_pos rfl))
      fun g p holds => portHolder_removeEntry_none (free g p holds)
  | full => exact ok

/-! ### Offers and changed entries -/

/-- R81 to R83: an offer moves no port. -/
theorem exactPorts_offer (h : Handle) {s : State} (ok : s.exactPorts) : (offer h s).1.exactPorts := by
  have xlate : (offer h s).1.xlate = s.xlate := by
    obtain ⟨_, _, _, _, frame⟩ := offer_changeFrame h s
    rw [frame]
  refine exactPorts_congr ok (portHolder_of_xlate xlate) fun k => ?_
  by_cases same : k = h
  · subst same
    cases here : s.entryAt k with
    | none =>
      unfold offer
      rw [here]
    | some e =>
      obtain ⟨_, _, offered⟩ := entryAt_offer_same s here
      rw [portAt_of_entry here, portAt_of_entry offered]
      rfl
  · exact congrArg (·.bind Entry.heldPort) (entryAt_offer_other s same)

/-- R42: a changed entry that keeps its port is written and offered. -/
theorem exactPorts_updateEntry {h : Handle} {e new : Entry} {s : State} (ok : s.exactPorts)
    (here : s.entryAt h = some e) (port : new.heldPort = e.heldPort) : (updateEntry h e new s).exactPorts := by
  have written := exactPorts_writeEntry ok here port
  unfold updateEntry
  dsimp only
  split
  · exact exactPorts_offer h written
  · exact written

/-- R92: a clear of the journal moves no port. -/
theorem exactPorts_journalClear {s : State} (ok : s.exactPorts) : (journalClear s).exactPorts := by
  refine exactPorts_congr ok (portHolder_of_xlate rfl) fun h => ?_
  unfold State.portAt State.entryAt
  rw [slot_journalClear]
  cases s.table.slot h with
  | none => rfl
  | some x =>
    simp only [Option.map_some, Option.bind_some, Slot.withoutPending]
    split <;> rfl

end Sys2Proof.Machine
end

