-- ==== Sys2Proof/Proofs/PortsOfGroups.lean ====
section
/-!
PROOFS. The operations of the ownership controller, the responses, the journal, the entry to FAULT and the presence unit
leave the held ports and the occupancy sets exact (R66). Of these only the quarantine (R74, R76) reaches the translation
unit, and only the clear of the journal (R92) reaches the session table.
-/

namespace Sys2Proof.Machine

open Sys2Proof

/-! ### Flags and responses -/

theorem exactPorts_raise (e : Event) {s : State} (ok : s.exactPorts) : (raise e s).exactPorts := ok

theorem exactPorts_raiseIf (c : Bool) (e : Event) {s : State} (ok : s.exactPorts) : (raiseIf c e s).exactPorts := by
  unfold raiseIf
  split <;> exact ok

theorem exactPorts_respond (x : Response) {s : State} (ok : s.exactPorts) : (respond x s).exactPorts := by
  unfold respond
  dsimp only
  split <;> exact ok

theorem exactPorts_answer (r : Request) (status : Status) {s : State} (ok : s.exactPorts) :
    (answer r status s).exactPorts :=
  exactPorts_respond _ ok

/-! ### The ownership controller -/

theorem exactPorts_of_claimFrame {s t : State} (frame : ClaimFrame s t) (ok : s.exactPorts) : t.exactPorts := by
  obtain ⟨_, _, _, _, _, rfl⟩ := frame
  exact ok

/-- A change of the cursor, the last-seen block or the quarantine. -/
theorem exactPorts_mapPool {g : GroupId} {f : Pool → Pool} {s : State} (ok : s.exactPorts)
    (same : (f (s.xlate.get g)).occupied = (s.xlate.get g).occupied) : (mapPool g f s).exactPorts := by
  refine exactPorts_congr ok (fun k p => ?_) (portAt_of_table rfl)
  rw [portHolder_mapPool, same]
  split
  · rename_i group
    rw [group]
    rfl
  · rfl

/-- R76. -/
theorem exactPorts_closeWindow (g : GroupId) {s : State} (ok : s.exactPorts) : (closeWindow g s).exactPorts :=
  exactPorts_mapPool (exactPorts_of_claimFrame (mapGroup_frame g _ s) ok) rfl

/-- R74. -/
theorem exactPorts_openQuarantine (g : GroupId) {s : State} (ok : s.exactPorts) :
    (openQuarantine g s).exactPorts := by
  refine exactPorts_mapPool ok ?_
  split <;> rfl

theorem exactPorts_cancelQuorumTimer {s : State} (ok : s.exactPorts) : (cancelQuorumTimer s).exactPorts := by
  unfold cancelQuorumTimer
  split <;> exact ok

theorem exactPorts_startPass {s : State} (ok : s.exactPorts) : (startPass s).exactPorts := by
  unfold startPass
  split
  · exact exactPorts_of_fields ok rfl rfl
  · exact ok

theorem exactPorts_settle {s : State} (ok : s.exactPorts) : (settle s).exactPorts :=
  exactPorts_of_claimFrame (settle_frame s) ok

theorem exactPorts_leaveHolding (g : GroupId) (state : GroupState) (owner : Option Station) {s : State}
    (ok : s.exactPorts) : (leaveHolding g state owner s).exactPorts := by
  have left := exactPorts_of_claimFrame ((mapGroup_frame g (fun r =>
    { r with state := state, preempt := false, drain := false, successor := none, tenure := none }) s).trans
      (setOwner_frame g owner _)) ok
  exact exactPorts_raise .release (exactPorts_cancelQuorumTimer (exactPorts_closeWindow g left))

theorem exactPorts_release (g : GroupId) {s : State} (ok : s.exactPorts) : (release g s).exactPorts :=
  exactPorts_of_claimFrame (mapGroup_frame g _ _) (exactPorts_leaveHolding g .vacant none ok)

/-- R146. -/
theorem exactPorts_enterHolding (g : GroupId) (tenure : Tenure) {s : State} (ok : s.exactPorts) :
    (enterHolding g tenure s).exactPorts := by
  unfold enterHolding
  refine exactPorts_startPass (exactPorts_raise .takeover (exactPorts_openQuarantine g ?_))
  exact exactPorts_of_claimFrame
    (((mapGroup_frame g _ s).trans (setOwner_frame g (some s.me) _)).trans (mapGroup_frame g _ _)) ok

theorem exactPorts_endDrain (g : GroupId) (drained : Bool) {s : State} (ok : s.exactPorts) :
    (endDrain g drained s).exactPorts := by
  unfold endDrain
  split
  · exact ok
  · exact exactPorts_leaveHolding g _ _ (exactPorts_of_claimFrame (handControl_frame _ s) ok)

theorem exactPorts_drainTest (g : GroupId) {s : State} (ok : s.exactPorts) : (drainTest g s).exactPorts := by
  unfold drainTest
  split
  · exact exactPorts_endDrain g true ok
  · exact ok

theorem exactPorts_enterYielding (g : GroupId) (p : Station) {s : State} (ok : s.exactPorts) :
    (enterYielding g p s).exactPorts :=
  exactPorts_drainTest g (exactPorts_of_claimFrame (mapGroup_frame g _ s) ok)

theorem exactPorts_reactLoss (g : GroupId) {s : State} (ok : s.exactPorts) : (reactLoss g s).exactPorts := by
  unfold reactLoss
  split
  · split
    · exact exactPorts_release g ok
    · split
      · exact exactPorts_enterYielding g _ ok
      · exact exactPorts_release g ok
  · exact ok

theorem exactPorts_resolveDual (g : GroupId) (source : Option Station) {s : State} (ok : s.exactPorts) :
    (resolveDual g source s).exactPorts := by
  unfold resolveDual
  split
  · exact ok
  · split
    · split
      · exact exactPorts_raise .split
          (exactPorts_of_claimFrame (raiseEpoch_frame g _ _) (exactPorts_leaveHolding g .following _ ok))
      · exact exactPorts_startPass (exactPorts_of_claimFrame (mapGroup_frame g _ _) ok)
    · exact ok

theorem exactPorts_giveUpYield (g : GroupId) {s : State} (ok : s.exactPorts) : (giveUpYield g s).exactPorts := by
  unfold giveUpYield
  split
  · split
    · exact exactPorts_enterHolding g _ ok
    · exact exactPorts_release g ok
  · exact ok

theorem exactPorts_preemptTest (g : GroupId) {s : State} (ok : s.exactPorts) : (preemptTest g s).exactPorts := by
  unfold preemptTest
  split
  · split
    · exact ok
    · split
      · exact exactPorts_enterYielding g _ ok
      · exact exactPorts_of_claimFrame (mapGroup_frame g _ s) ok
  · exact exactPorts_of_claimFrame (mapGroup_frame g _ s) ok

theorem exactPorts_visitGroup (source : Option Station) (partner : Bool) (g : GroupId) {s : State}
    (ok : s.exactPorts) : (visitGroup source partner s g).exactPorts := by
  have followed := exactPorts_of_claimFrame
    (((yieldToHolder_frame g source _).trans (takeEpoch_frame g source _)).trans (followOrLose_frame g source _))
    (exactPorts_giveUpYield g (exactPorts_resolveDual g source ok))
  unfold visitGroup
  dsimp only
  generalize followOrLose g source _ = t at followed ⊢
  have tested : (if partner then preemptTest g t else t).exactPorts := by
    split
    · exact exactPorts_preemptTest g followed
    · exact followed
  generalize (if partner then preemptTest g t else t) = u at tested ⊢
  split
  · exact exactPorts_drainTest g tested
  · exact tested

/-- A fold of operations that each leave the ports exact. -/
theorem exactPorts_foldl {α : Type} {f : State → α → State} (each : ∀ s a, s.exactPorts → (f s a).exactPorts)
    (l : List α) {s : State} (ok : s.exactPorts) : (l.foldl f s).exactPorts :=
  foldl_keeps (fun s t => s.exactPorts → t.exactPorts) (fun _ ok => ok) (fun a b ok => b (a ok)) f each l s ok

theorem exactPorts_visitGroups (source : Option Station) (partner : Bool) {s : State} (ok : s.exactPorts) :
    (visitGroups source partner s).exactPorts :=
  exactPorts_foldl (fun _ g => exactPorts_visitGroup source partner g) four ok

theorem exactPorts_clearOwnership {s : State} (ok : s.exactPorts) : (clearOwnership s).exactPorts := by
  refine exactPorts_congr ok (fun g p => ?_) (portAt_of_table rfl)
  unfold State.portHolder clearOwnership
  rw [Four.get_build]

/-! ### The taking of a request -/

theorem exactPorts_takeRequest {s : State} (ok : s.exactPorts) : (takeRequest s).exactPorts := by
  obtain ⟨u, settled, taken⟩ := takeRequest_frame s
  rw [taken]
  exact exactPorts_of_fields (exactPorts_of_claimFrame settled (exactPorts_of_fields ok rfl rfl)) rfl rfl

/-! ### The entry to FAULT -/

/-- R184: a fault keeps the entries and the occupancy sets. -/
theorem exactPorts_enterFault (k : FaultKind) {s : State} (ok : s.exactPorts) : (enterFault k s).exactPorts := by
  unfold enterFault
  split
  · have columns : (faultColumns k s).exactPorts := exactPorts_clearOwnership (exactPorts_journalClear ok)
    have raised : (raise .fault (raiseLines (faultColumns k s))).exactPorts := exactPorts_raiseIf _ .line columns
    unfold answerRejoin
    split
    · exact exactPorts_respond _ raised
    · exact raised
  · exact ok

theorem exactPorts_integrityFailure (c : Client) (b : Bucket) {s : State} (ok : s.exactPorts) :
    (integrityFailure c b s).exactPorts :=
  exactPorts_enterFault .integrity (exactPorts_of_fields ok rfl rfl)

theorem exactPorts_verifyClear {s : State} (ok : s.exactPorts) : (verifyClear s).exactPorts := by
  unfold verifyClear
  split
  · exact ok
  · exact exactPorts_integrityFailure _ _ ok

/-! ### Receipts, BEACONs and the records -/

theorem exactPorts_judgeReceipt (n : Seq) {s : State} (ok : s.exactPorts) : (judgeReceipt n s).exactPorts := by
  unfold judgeReceipt
  split <;> exact ok

theorem exactPorts_partnerChange (before : Option Station) {s : State} (ok : s.exactPorts) :
    (partnerChange before s).exactPorts := by
  have ended : (if s.partnershipEnded before then partnerEnds s else s).exactPorts := by
    split
    · exact exactPorts_journalClear ok
    · exact ok
  unfold partnerChange
  dsimp only
  generalize (if s.partnershipEnded before then partnerEnds s else s) = t at ended ⊢
  split
  · exact ok
  · split <;> exact ended

theorem exactPorts_memberOrIsolated {s : State} (ok : s.exactPorts) : (memberOrIsolated s).exactPorts := by
  unfold memberOrIsolated
  dsimp only
  split
  · split <;> exact ok
  · split <;> exact ok
  · exact ok

theorem exactPorts_quorumChange (before : Bool) {s : State} (ok : s.exactPorts) :
    (quorumChange before s).exactPorts := by
  unfold quorumChange
  split
  · exact ok
  · exact exactPorts_of_fields (exactPorts_raiseIf _ .quorum ok) rfl rfl

theorem exactPorts_changeRecords (records : Four Peer) (heard : Bool) {s : State} (ok : s.exactPorts) :
    (changeRecords records heard s).exactPorts := by
  have told (raised : Bool) {u : State} (same : u.exactPorts) : (quorumChange s.quorumPresent
      (memberOrIsolated (partnerChange s.presentPartner (raiseIf raised .presence u)))).exactPorts :=
    exactPorts_quorumChange _ (exactPorts_memberOrIsolated (exactPorts_partnerChange _ (exactPorts_raiseIf _ _ same)))
  unfold changeRecords
  dsimp only
  split
  · exact exactPorts_verifyClear (told _ (exactPorts_of_fields ok rfl rfl))
  · exact told _ (exactPorts_of_fields ok rfl rfl)

theorem exactPorts_revisit (before : State) (source : Option Station) {s : State} (ok : s.exactPorts) :
    (revisit before source s).exactPorts := by
  unfold revisit
  dsimp only
  split
  · exact exactPorts_settle (exactPorts_visitGroups _ _ ok)
  · exact ok

theorem exactPorts_expectByBeacon (b : Beacon) {s : State} (ok : s.exactPorts) : (expectByBeacon b s).exactPorts := by
  unfold expectByBeacon
  split
  · exact ok
  · split
    · exact ok
    · split <;> exact ok

theorem exactPorts_partnerBeacon (b : Beacon) {s : State} (ok : s.exactPorts) : (partnerBeacon b s).exactPorts := by
  have asked {u : State} (same : u.exactPorts) : (let v := expectByBeacon b u
      if v.beaconAsksPass b then startPass v else v).exactPorts := by
    dsimp only
    split
    · exact exactPorts_startPass (exactPorts_expectByBeacon b same)
    · exact exactPorts_expectByBeacon b same
  unfold partnerBeacon
  cases b.receipt with
  | none => exact asked ok
  | some n => exact asked (exactPorts_judgeReceipt n ok)

/-- R131. -/
theorem exactPorts_takeBeacon (p : Station) (b : Beacon) {s : State} (ok : s.exactPorts) :
    (takeBeacon p b s).exactPorts := by
  unfold takeBeacon
  refine exactPorts_revisit s _ ?_
  split
  · exact exactPorts_partnerBeacon b (exactPorts_changeRecords _ _ ok)
  · exact exactPorts_changeRecords _ _ ok

/-- R132. -/
theorem exactPorts_loseRecord (p : Station) {s : State} (ok : s.exactPorts) : (loseRecord p s).exactPorts :=
  exactPorts_revisit s none (exactPorts_changeRecords _ false ok)

end Sys2Proof.Machine
end

