-- ==== Sys2Proof/Proofs/PortsOfEntries.lean ====
section
/-!
PROOFS. The bucket operations leave the held ports and the occupancy sets exact (R66): packet checks, ADOPT, RETIRE, the
joins of records and observations, purges, the aging scan, re-journal and the composition of a DELTA.
-/

namespace Sys2Proof.Machine

open Sys2Proof

/-! ### Entries found -/

theorem entryAt_slot {s : State} {h : Handle} {x : Slot} (here : s.table.slot h = some x) :
    s.entryAt h = some x.entry :=
  congrArg (Option.map Slot.entry) here

theorem entryAt_bucket {s : State} {b : Bucket} {x : Handle × Slot} (mem : x ∈ s.table.bucket b) :
    s.entryAt x.1 = some x.2.entry :=
  entryAt_slot ((Table.mem_bucket _ _ _).mp mem).2

/-- R14. -/
theorem entryAt_find {s : State} {k : Key} {h : Handle} {e : Entry} (found : s.table.find k = some (h, e)) :
    s.entryAt h = some e := by
  obtain ⟨x, first, eq⟩ := Option.map_eq_some_iff.mp found
  cases eq
  exact entryAt_bucket (List.mem_of_find?_eq_some first)

/-! ### Verification and grants -/

/-- An operation that leaves the ports exact. -/
def KeepsPorts (f : State → State) : Prop := ∀ ⦃s : State⦄, s.exactPorts → (f s).exactPorts

theorem keepsPorts_bucketOperation (c : Client) (b : Bucket) {f : State → State} (keeps : KeepsPorts f) :
    KeepsPorts (bucketOperation c b f) := by
  intro s ok
  unfold bucketOperation
  split
  · exact keeps ok
  · exact exactPorts_integrityFailure c b ok

theorem keepsPorts_requestOperation (r : Request) (b : Bucket) {f : State → State} (keeps : KeepsPorts f) :
    KeepsPorts (requestOperation r b f) := by
  intro s ok
  unfold requestOperation
  split
  · exact keeps ok
  · exact exactPorts_answer r .faulted (exactPorts_integrityFailure .request b ok)

theorem keepsPorts_sessionRequest (r : Request) (offence : Option FieldName) {f : State → State}
    (keeps : KeepsPorts f) : KeepsPorts (sessionRequest r offence f) := by
  intro s ok
  unfold sessionRequest
  split
  · exact exactPorts_answer r .notReady ok
  · exact exactPorts_answer r .faulted ok
  · exact exactPorts_respond _ ok
  · exact keeps ok

theorem keepsPorts_whenLive {f : State → State} (keeps : KeepsPorts f) : KeepsPorts (whenLive f) := by
  intro s ok
  unfold whenLive
  split
  · exact keeps ok
  · exact ok

theorem keepsPorts_whenGranted (c : Client) {f : State → State} (keeps : KeepsPorts f) :
    KeepsPorts (whenGranted c f) := by
  intro s ok
  unfold whenGranted
  split
  · exact ok
  · exact keeps ok

theorem keepsPorts_whenEngineGranted {f : State → State} (keeps : KeepsPorts f) :
    KeepsPorts (whenEngineGranted f) := by
  intro s ok
  unfold whenEngineGranted
  split
  · exact keepsPorts_whenGranted .request keeps ok
  · exact keeps ok

/-- R27. -/
theorem keepsPorts_onRequest (k : BitVec 7) {f : Request → State → State} (keeps : ∀ r, KeepsPorts (f r)) :
    KeepsPorts (onRequest k f) := by
  refine keepsPorts_whenLive fun s ok => ?_
  split
  · exact ok
  · split
    · exact keeps _ (exactPorts_takeRequest ok)
    · exact ok

/-! ### CHECK -/

theorem portHolder_takePort (g k : GroupId) (port : Option Port) (p : Port) (s : State) :
    (takePort g port s).portHolder k p = s.portHolder k p := by
  cases port with
  | none => rfl
  | some q =>
    refine (portHolder_mapPool k g _ p s).trans ?_
    split
    · rename_i group
      rw [group]
      rfl
    · rfl

theorem exactPorts_takePort (g : GroupId) (port : Option Port) {s : State} (ok : s.exactPorts) :
    (takePort g port s).exactPorts :=
  exactPorts_congr ok (fun k p => portHolder_takePort g k port p s) (portAt_of_table (takePort_table g port s))

/-- R34: the slot is free or falls vacant, and the port is one that an allocation found. -/
theorem exactPorts_createByCheck {r : Request} {place : Place} {h : Handle} {port : Option Port} {s : State}
    (ok : s.exactPorts) (vacant : ∀ k, place = .free k → s.entryAt k = none)
    (free : ∀ p, port = some p → s.portHolder r.group p = none) : (createByCheck r place h port s).exactPorts := by
  rw [createByCheck_eq]
  refine exactPorts_respond _ (exactPorts_offer h (exactPorts_insertAt (exactPorts_takePort r.group port ok)
    (fun k eq => ?_) fun g p holds => ?_))
  · rw [entryAt_of_table (takePort_table r.group port s)]
    exact vacant k eq
  · obtain ⟨rfl, given⟩ := heldPort_eq_some.mp holds
    rw [portHolder_takePort]
    exact free p given

theorem entryAt_ownerPlace {s : State} {b : Bucket} {h : Handle} (found : ownerPlace s.table b = .free h) :
    s.entryAt h = none :=
  (entryAt_none s h).mpr (placeIn_free found).2

theorem keepsPorts_checkCreates (r : Request) : KeepsPorts (checkCreates r) := by
  intro s ok
  unfold checkCreates
  dsimp only
  split
  · exact exactPorts_respond _ ok
  · split
    · split
      · exact exactPorts_respond _ ok
      · rename_i p found
        refine exactPorts_createByCheck ok (fun k => entryAt_ownerPlace) fun q eq => ?_
        cases eq
        exact portHolder_freePort found
    · exact exactPorts_createByCheck ok (fun k => entryAt_ownerPlace) nofun

theorem exactPorts_checkLive (r : Request) {h : Handle} {e : Entry} {s : State} (ok : s.exactPorts)
    (here : s.entryAt h = some e) : (checkLive r h e s).exactPorts := by
  unfold checkLive
  split
  · exact exactPorts_respond _ ok
  · split
    · exact exactPorts_respond _ ok
    · exact exactPorts_respond _ (exactPorts_updateEntry ok here (heldPort_congr rfl rfl))

theorem keepsPorts_ownerCheck (r : Request) : KeepsPorts (ownerCheck r) := by
  intro s ok
  unfold ownerCheck
  split
  · split
    · exact keepsPorts_checkCreates r ok
    · exact exactPorts_respond _ ok
  · rename_i h e found
    split
    · exact exactPorts_respond _ ok
    · split
      · exact exactPorts_respond _ (exactPorts_updateEntry ok (entryAt_find found) (heldPort_congr rfl rfl))
      · exact exactPorts_checkLive r ok (entryAt_find found)

theorem exactPorts_handRelay (o : Observation) {s : State} (ok : s.exactPorts) : (handRelay o s).exactPorts := by
  unfold handRelay
  split <;> exact ok

theorem keepsPorts_copyCheck (r : Request) (relays : Bool) : KeepsPorts (copyCheck r relays) := by
  intro s ok
  unfold copyCheck
  split
  · exact exactPorts_respond _ ok
  · split
    · exact exactPorts_respond _ ok
    · split
      · exact exactPorts_respond _ ok
      · split
        · exact exactPorts_respond _ ok
        · split
          · exact exactPorts_respond _ ok
          · cases relays with
            | false => exact exactPorts_respond _ ok
            | true => exact exactPorts_respond _ (exactPorts_handRelay _ ok)

/-- R32. -/
theorem keepsPorts_checkByState (r : Request) : KeepsPorts (checkByState r) := by
  intro s ok
  unfold checkByState
  split
  · exact exactPorts_answer r _ ok
  · exact keepsPorts_requestOperation r _ (keepsPorts_ownerCheck r) ok
  · exact keepsPorts_requestOperation r _ (keepsPorts_ownerCheck r) ok
  · exact keepsPorts_requestOperation r _ (keepsPorts_copyCheck r _) ok
  · exact keepsPorts_requestOperation r _ (keepsPorts_copyCheck r _) ok
  · exact keepsPorts_requestOperation r _ (keepsPorts_copyCheck r _) ok

/-! ### ADOPT, RETIRE and LOOKUP -/

/-- R49, R70: the given port's holder has left, so the adopted entry finds its port free. -/
theorem keepsPorts_adoptInBucket (r : Request) : KeepsPorts (adoptInBucket r) := by
  intro s ok
  unfold adoptInBucket
  split
  · exact exactPorts_respond _ ok
  · dsimp only
    split
    · exact exactPorts_answer r _ ok
    · split
      · exact exactPorts_answer r _ ok
      · exact exactPorts_answer r _ (exactPorts_integrityFailure _ _ ok)
      · refine exactPorts_respond _ (exactPorts_offer _ (exactPorts_insertAt (exactPorts_displace _ ok)
          (fun k free => entryAt_displace_free (placeIn_free free)) fun g p holds => ?_))
        obtain ⟨group, given⟩ := heldPort_eq_some.mp holds
        have port : r.givenPort = some p := given
        rw [← group, port]
        exact portHolder_displace ok

theorem keepsPorts_adoptByState (r : Request) : KeepsPorts (adoptByState r) := by
  intro s ok
  unfold adoptByState
  split
  · exact exactPorts_answer r _ ok
  · split
    · exact exactPorts_answer r _ ok
    · split
      · exact exactPorts_answer r _ ok
      · exact keepsPorts_requestOperation r _ (keepsPorts_adoptInBucket r) ok

theorem keepsPorts_retireInBucket (r : Request) : KeepsPorts (retireInBucket r) := by
  intro s ok
  unfold retireInBucket
  split
  · exact exactPorts_answer r _ ok
  · rename_i h e found
    split
    · exact exactPorts_answer r _ ok
    · split
      · exact exactPorts_respond _ ok
      · split
        · exact exactPorts_respond _ ok
        · exact exactPorts_respond _ (exactPorts_updateEntry ok (entryAt_find found) (heldPort_congr rfl rfl))

theorem keepsPorts_lookupInBucket (r : Request) : KeepsPorts (lookupInBucket r) := by
  intro s ok
  unfold lookupInBucket
  split
  · exact exactPorts_answer r _ ok
  · exact exactPorts_respond _ ok

/-! ### The join of a record -/

theorem heldPort_recordEntry (c : EntryContent) (source : Station) (q : Seq) (now : BitVec 32) :
    (recordEntry c source q now).heldPort = c.translation.map fun p => (c.group, p) := rfl

theorem heldPort_mergeEntry (e : Entry) (c : EntryContent) (source : Station) (q : Seq) (now : BitVec 32) :
    (mergeEntry e c source q now).heldPort = c.translation.map fun p => (c.group, p) := rfl

/-- R68: once the other holder has left, the record's port is free or that of the entry itself. -/
theorem portHolder_displace_other {s : State} {own : Option Handle} {c : EntryContent} {p : Port} (ok : s.exactPorts)
    (port : c.translation = some p) :
    (displace (s.otherHolder own c) s).portHolder c.group p = none
      ∨ own.isSome ∧ (displace (s.otherHolder own c) s).portHolder c.group p = own := by
  have left := portHolder_displace (g := c.group) (p := p) ok
  unfold State.otherHolder
  rw [port, Option.bind_some]
  cases holder : s.portHolder c.group p with
  | none => exact Or.inl holder
  | some k =>
    by_cases same : some k = own
    · refine Or.inr ⟨same ▸ rfl, ?_⟩
      rw [Option.filter_some, if_neg (by simpa using same), ← same]
      exact holder
    · rw [holder] at left
      rw [Option.filter_some, if_pos (by simpa using same)]
      exact Or.inl left

/-- The slot of the entry that takes the record is not that of the other holder. -/
theorem entryAt_displace_own {s : State} {h : Handle} {c : EntryContent} :
    (displace (s.otherHolder (some h) c) s).entryAt h = s.entryAt h := by
  rw [entryAt_displace, if_neg]
  intro other
  have apart := (Option.filter_eq_some_iff.mp other).2
  simp at apart

theorem exactPorts_withHolder (client : Client) {holder : Option Handle} {f : State → State} {s : State}
    (ok : s.exactPorts) (keeps : (f (displace holder s)).exactPorts) : (withHolder client holder f s).exactPorts := by
  unfold withHolder
  split
  · exact exactPorts_integrityFailure _ _ ok
  · exact keeps

/-- R15, R21: an insertion, after the holder of the record's port has left. -/
theorem keepsPorts_joinInsert (source : Station) (q : Seq) (c : EntryContent) : KeepsPorts (joinInsert source q c) := by
  intro s ok
  unfold joinInsert
  dsimp only
  split
  · exact ok
  · refine exactPorts_withHolder _ ok ?_
    have displaced := exactPorts_displace (s.otherHolder none c) ok
    have vacant (h : Handle)
        (found : (followerPlace (tableWithout s.table (bucketOf c.key) (s.otherHolder none c)) (bucketOf c.key)
          s.holds).1 = .free h) : (displace (s.otherHolder none c) s).entryAt h = none :=
      entryAt_displace_free (followerPlace_free found)
    have free (now : BitVec 32) (g : GroupId) (p : Port)
        (holds : (recordEntry c source q now).heldPort = some (g, p)) :
        (displace (s.otherHolder none c) s).portHolder g p = none := by
      obtain ⟨rfl, given⟩ := heldPort_eq_some.mp holds
      exact (portHolder_displace_other ok given).resolve_right fun own => nomatch own.1
    split
    · exact exactPorts_insertAt (s := tableEvent 0x13 source q _ _) displaced vacant (free _)
    · exact exactPorts_insertAt displaced vacant (free _)

/-- R15, R16, R67: an existing entry takes the record's group and port. -/
theorem exactPorts_joinWrite {h : Handle} {e new : Entry} {c : EntryContent} {s : State} (ok : s.exactPorts)
    (here : s.entryAt h = some e) (port : new.heldPort = c.translation.map fun p => (c.group, p)) :
    (joinWrite h e new c s).exactPorts := by
  unfold joinWrite
  refine exactPorts_withHolder _ ok (exactPorts_movePort (exactPorts_displace _ ok)
    (entryAt_displace_own.trans here) fun g p holds => ?_)
  rw [port, Option.map_eq_some_iff] at holds
  obtain ⟨_, given, rfl, rfl⟩ := holds
  exact (portHolder_displace_other ok given).imp_right And.right

/-- R15. -/
theorem keepsPorts_joinRecord (source : Station) (q : Seq) (c : EntryContent) : KeepsPorts (joinRecord source q c) := by
  intro s ok
  unfold joinRecord
  split
  · exact keepsPorts_joinInsert source q c ok
  · rename_i h e found
    split
    · exact exactPorts_joinWrite ok (entryAt_find found) (heldPort_mergeEntry e c source q s.now)
    · split
      · exact exactPorts_joinWrite ok (entryAt_find found) (heldPort_recordEntry c source q s.now)
      · exact ok

/-! ### The records of a frame -/

theorem exactPorts_finishDelta {s : State} (ok : s.exactPorts) : (finishDelta s).exactPorts := by
  unfold finishDelta placeReceipt
  dsimp only
  split <;> exact ok

/-- R73. -/
theorem exactPorts_noteBlock (c : EntryContent) {s : State} (ok : s.exactPorts) : (noteBlock c s).exactPorts := by
  unfold noteBlock
  split
  · exact ok
  · exact exactPorts_mapPool ok rfl

theorem exactPorts_takeRecords (source : Station) (l : List WireRecord) {s : State} (ok : s.exactPorts) :
    (takeRecords source l s).exactPorts := by
  induction l generalizing s with
  | nil => exact exactPorts_finishDelta ok
  | cons r rest ih =>
    unfold takeRecords
    split
    · exact exactPorts_finishDelta ok
    · split
      · exact ih ok
      · split
        · exact exactPorts_finishDelta ok
        · split
          · split
            · exact ih (exactPorts_of_fields ok rfl rfl)
            · split
              · exact ih (exactPorts_of_fields ok rfl rfl)
              · exact exactPorts_noteBlock _ (exactPorts_of_fields ok rfl rfl)
          · exact ok
          · exact ok

theorem exactPorts_catchUp (q : Seq) {s : State} (ok : s.exactPorts) : (catchUp q s).exactPorts := by
  unfold catchUp
  split
  · exact ok
  · split <;> exact ok

theorem keepsPorts_takeDelta : KeepsPorts takeDelta := by
  intro s ok
  unfold takeDelta
  split
  · exact exactPorts_takeRecords _ _ ok
  · exact exactPorts_takeRecords _ _ (exactPorts_catchUp _ (exactPorts_of_fields ok rfl rfl))
  · exact ok

theorem exactPorts_recordDone (source : Station) (r : WireRecord) (rest : List WireRecord) {s : State}
    (ok : s.exactPorts) : (recordDone source r rest s).exactPorts := by
  have advanced : (if s.receive.expectation = some r.seq then
      { s with receive.expectation := some (r.seq + 1) } else s).exactPorts := by
    split <;> exact ok
  unfold recordDone
  dsimp only
  split
  · exact exactPorts_finishDelta advanced
  · exact advanced

theorem keepsPorts_joinInHand : KeepsPorts joinInHand := by
  intro s ok
  unfold joinInHand
  split
  · rename_i source r rest _
    split
    · rename_i c _
      have joined := keepsPorts_bucketOperation .receiveApply (bucketOf c.key)
        (keepsPorts_joinRecord source r.seq c) ok
      dsimp only
      split
      · exact joined
      · exact exactPorts_recordDone source r rest joined
    · exact ok
    · exact ok
  · exact ok

theorem keepsPorts_handOver : KeepsPorts handOver := by
  intro s ok
  unfold handOver
  split
  · split
    · split
      · exact exactPorts_recordDone _ _ _ (exactPorts_of_fields ok rfl rfl)
      · exact ok
    · exact ok
  · exact ok

/-! ### Purges, observations and re-journal -/

theorem exactPorts_purgeEntry (source : Station) (groups : GroupSet) (opening : Seq) (h : Handle) {s : State}
    (ok : s.exactPorts) : (purgeEntry source groups opening s h).exactPorts := by
  unfold purgeEntry
  split
  · exact ok
  · split
    · exact exactPorts_removeEntry h ok
    · exact ok

theorem keepsPorts_purgeHead : KeepsPorts purgeHead := by
  intro s ok
  unfold purgeHead
  split
  · exact keepsPorts_bucketOperation .reader _ (fun s same => exactPorts_of_fields
      (exactPorts_foldl (fun _ h => exactPorts_purgeEntry _ _ _ h) ((s.table.bucket _).map (·.1)) same) rfl rfl) ok
  · exact ok

theorem keepsPorts_joinObservation (o : Observation) : KeepsPorts (joinObservation o) := by
  intro s ok
  unfold joinObservation
  split
  · exact ok
  · rename_i h e found
    split
    · exact ok
    · have written := exactPorts_writeEntry (new := observedEntry e o s.now s.me) ok (entryAt_find found)
        (heldPort_congr rfl rfl)
      dsimp only
      split
      · exact exactPorts_offer h written
      · exact written

theorem keepsPorts_applyRelay : KeepsPorts applyRelay := by
  intro s ok
  unfold applyRelay
  split
  · rename_i o _ _
    dsimp only
    split
    · exact keepsPorts_bucketOperation .request _ (keepsPorts_joinObservation o) (exactPorts_of_fields ok rfl rfl)
    · exact ok
  · exact ok

/-- R103, step 1. -/
theorem exactPorts_rejournalEntries (l : List Handle) {x : State × Option Seq} (ok : x.1.exactPorts) :
    (l.foldl rejournalEntry x).1.exactPorts := by
  induction l generalizing x with
  | nil => exact ok
  | cons h l ih => exact ih (x := rejournalEntry x h) (exactPorts_offer h ok)

theorem keepsPorts_rejournalBucket (b : Bucket) : KeepsPorts (rejournalBucket b) := by
  intro s ok
  have offered := exactPorts_rejournalEntries
    (((s.table.bucket b).filter fun x => s.heldSet.get x.2.entry.group).map (·.1)) (x := (s, none)) ok
  unfold rejournalBucket
  dsimp only
  split <;> exact offered

theorem keepsPorts_rejournal : KeepsPorts rejournal := by
  intro s ok
  unfold rejournal
  split
  · split
    · exact keepsPorts_bucketOperation .reader _ (keepsPorts_rejournalBucket _) ok
    · exact ok
  · exact ok

/-! ### The aging scan -/

/-- R57, R59, R60. -/
theorem exactPorts_visitEntry (h : Handle) {s : State} (ok : s.exactPorts) : (visitEntry s h).exactPorts := by
  unfold visitEntry
  split
  · exact ok
  · rename_i e here
    split
    · exact ok
    · split
      · split
        · exact exactPorts_removeEntry h ok
        · exact ok
      · split
        · exact exactPorts_updateEntry ok here (heldPort_congr rfl rfl)
        · exact ok

theorem keepsPorts_visitNext : KeepsPorts visitNext := by
  intro s ok
  unfold visitNext
  split
  · exact keepsPorts_bucketOperation .aging _ (fun s same => exactPorts_of_fields
      (exactPorts_foldl (fun _ h => exactPorts_visitEntry h) ((s.table.bucket _).map (·.1)) same) rfl rfl) ok
  · exact ok

/-! ### The composition of a DELTA -/

theorem pendingSlot_slot {s : State} {r : JournalRecord} {h : Handle} {x : Slot}
    (pending : s.pendingSlot r = some (h, x)) : s.table.slot h = some x := by
  unfold State.pendingSlot at pending
  split at pending
  · cases pending
  · obtain ⟨k, _, named⟩ := Option.bind_eq_some_iff.mp pending
    obtain ⟨y, here, marked⟩ := Option.bind_eq_some_iff.mp named
    split at marked
    · cases marked
      exact here
    · cases marked

/-- R87. -/
theorem exactPorts_clearPending (r : JournalRecord) {s : State} (ok : s.exactPorts) :
    (clearPending s r).exactPorts := by
  unfold clearPending
  split
  · exact ok
  · rename_i h x pending
    split
    · exact ok
    · split
      · exact exactPorts_writeEntry ok (entryAt_slot (pendingSlot_slot pending))
          (heldPort_congr rfl rfl)
      · exact exactPorts_integrityFailure _ _ ok

/-- R86, R87. -/
theorem exactPorts_composeDelta {s : State} (ok : s.exactPorts) : (composeDelta s).exactPorts :=
  exactPorts_foldl (fun _ r => exactPorts_clearPending r) s.journal.carried (exactPorts_of_fields ok rfl rfl)

end Sys2Proof.Machine
end

