-- ==== Sys2Proof/Proofs/PortsOfSteps.lean ====
section
/-!
PROOFS. Every step leaves the held ports and the occupancy sets exact (R66): the remaining commands, kind by kind, and
the dispatch of all of them.
-/

namespace Sys2Proof.Machine

open Sys2Proof

/-! ### The next state -/

theorem exactPorts_of_next {t u : State} (run : (.next u : Host.Outcome State Fault Refusal) = .next t)
    (ok : u.exactPorts) : t.exactPorts := Host.Outcome.next.inj run ▸ ok

theorem exactPorts_next {f : State → State} {s t : State}
    (run : (.next (f s) : Host.Outcome State Fault Refusal) = .next t) (keeps : KeepsPorts f) (ok : s.exactPorts) :
    t.exactPorts := exactPorts_of_next run (keeps ok)

/-! ### Nothing held, nothing occupied -/

theorem exactPorts_empty {s : State} (table : s.table = []) (xlate : s.xlate = Four.all Pool.reset) :
    s.exactPorts := by
  rw [exactPorts_iff]
  intro g p h
  have unoccupied : s.portHolder g p = none := by
    unfold State.portHolder
    rw [xlate, Four.get_all]
    rfl
  have unheld : s.portAt h = none := portAt_of_table (s := State.reset) table h
  rw [unoccupied, unheld]
  exact iff_of_false nofun nofun

/-- R77, R186, R187. -/
theorem exactPorts_resetStation (straps : Straps) (cause : Cause) (bus table request : Option Capture) (s : State) :
    (resetStation straps cause bus table request s).exactPorts :=
  exactPorts_raiseIf _ .line (exactPorts_empty rfl rfl)

theorem exactPorts_execPinResetRelease (straps : Straps) {s t : State} (ok : s.exactPorts)
    (run : execPinResetRelease straps s = .next t) : t.exactPorts := by
  refine exactPorts_of_next run ?_
  split
  · exact exactPorts_resetStation _ _ _ _ _ s
  · exact ok
  · exact ok

/-- R77, R191. -/
theorem exactPorts_rejoinSteps (tag : Byte) (s : State) : (rejoinSteps tag s).exactPorts := by
  have cleared : (rejoinColumns s).exactPorts := exactPorts_empty rfl rfl
  exact exactPorts_respond _ (exactPorts_of_fields (exactPorts_quorumChange s.quorumPresent cleared) rfl rfl)

/-! ### Timers and conditions -/

/-- An expiry takes effect only while its timer runs (log 7). -/
theorem keepsPorts_ite {c : State → Prop} [DecidablePred c] {f : State → State} (keeps : KeepsPorts f) :
    KeepsPorts fun s => if c s then f s else s := by
  intro s ok
  dsimp only
  split
  · exact keeps ok
  · exact ok

/-! ### Requests of a group and of the station -/

theorem keepsPorts_groupRequest (r : Request) {f : State → State} (keeps : KeepsPorts f) :
    KeepsPorts (groupRequest r f) := by
  intro s ok
  unfold groupRequest
  split
  · exact exactPorts_answer r _ ok
  · split
    · exact exactPorts_answer r _ ok
    · split
      · exact exactPorts_respond _ ok
      · split
        · exact exactPorts_answer r _ ok
        · split
          · exact exactPorts_answer r _ ok
          · exact keeps ok

theorem exactPorts_answerView (r : Request) {s : State} (ok : s.exactPorts) : (answerView r s).exactPorts :=
  exactPorts_respond _ ok

theorem keepsPorts_setHealth (r : Request) : KeepsPorts (setHealth r) := by
  intro s ok
  unfold setHealth
  refine exactPorts_answerView r (exactPorts_settle ?_)
  have written := exactPorts_of_claimFrame
    (mapGroup_frame r.group (fun x => { x with health := cappedHealth r.score }) s) ok
  split
  · exact exactPorts_reactLoss _ written
  · exact written

theorem keepsPorts_setHold (r : Request) : KeepsPorts (setHold r) := by
  intro s ok
  unfold setHold
  split
  · exact exactPorts_answerView r ok
  · exact exactPorts_answerView r (exactPorts_settle (exactPorts_reactLoss _
      (exactPorts_of_claimFrame (mapGroup_frame _ _ s) ok)))

theorem keepsPorts_clearHold (r : Request) : KeepsPorts (clearHold r) := fun s ok =>
  exactPorts_answerView r (exactPorts_settle (exactPorts_of_claimFrame (mapGroup_frame _ _ s) ok))

theorem keepsPorts_resync (r : Request) : KeepsPorts (resync r) := by
  intro s ok
  unfold resync
  split
  · exact exactPorts_answer r _ ok
  · split
    · exact exactPorts_answer r _ ok
    · split
      · exact exactPorts_answer r _ ok
      · split
        · exact exactPorts_answer r _ ok
        · exact exactPorts_answer r _ (exactPorts_startPass ok)

theorem keepsPorts_writeSetup (r : Request) : KeepsPorts (writeSetup r) := by
  intro s ok
  unfold writeSetup
  split
  · exact exactPorts_answer r _ ok
  · split
    · exact exactPorts_respond _ ok
    · exact exactPorts_answer r _ (exactPorts_of_fields ok rfl rfl)

theorem keepsPorts_sealRequest (r : Request) : KeepsPorts (sealRequest r) := by
  intro s ok
  unfold sealRequest
  split
  · refine exactPorts_answer r _ (exactPorts_of_fields (exactPorts_quorumChange s.quorumPresent ?_) rfl rfl)
    exact exactPorts_of_fields ok rfl rfl
  · exact exactPorts_answer r _ ok

theorem keepsPorts_rejoinRequest (r : Request) : KeepsPorts (rejoinRequest r) := by
  intro s ok
  unfold rejoinRequest
  split
  · exact exactPorts_answer r _ ok
  · split
    · exact exactPorts_answer r _ ok
    · exact exactPorts_raiseIf _ .line (exactPorts_of_fields (exactPorts_clearOwnership ok) rfl rfl)

theorem exactPorts_execRejoinClear {s t : State} (ok : s.exactPorts)
    (run : execRejoinClear s = .next t) : t.exactPorts := by
  refine exactPorts_next run (keepsPorts_whenLive fun s ok => ?_) ok
  split
  · exact ok
  · exact exactPorts_rejoinSteps _ s

theorem exactPorts_execUnknownKind {s t : State} (ok : s.exactPorts)
    (run : execUnknownKind s = .next t) : t.exactPorts := by
  refine exactPorts_next run (keepsPorts_whenLive fun s ok => ?_) ok
  split
  · exact ok
  · split
    · exact ok
    · exact exactPorts_respond _ (exactPorts_takeRequest ok)

/-! ### The host's window -/

theorem keepsPorts_postRequest : KeepsPorts postRequest := by
  intro s ok
  unfold postRequest
  split <;> exact ok

theorem keepsPorts_writeWindow (offset : Byte) (size : AccessSize) (value : Word) :
    KeepsPorts (writeWindow offset size value) := by
  refine keepsPorts_ite fun s ok => ?_
  unfold writeWord
  split_ifs
  · exact ok
  · exact ok
  · exact keepsPorts_postRequest ok
  · exact ok
  · exact ok
  · exact ok
  · exact ok
  · exact ok

theorem keepsPorts_advanceCursor : KeepsPorts advanceCursor := by
  intro s ok
  unfold advanceCursor
  split <;> exact ok

theorem keepsPorts_takeSnapshot : KeepsPorts takeSnapshot := by
  intro s ok
  unfold takeSnapshot
  dsimp only
  split
  · split
    · exact ok
    · exact exactPorts_integrityFailure _ _ (exactPorts_of_fields ok rfl rfl)
  · exact ok

/-! ### The age clock -/

theorem keepsPorts_ageTick : KeepsPorts ageTick := by
  intro s ok
  unfold ageTick
  dsimp only
  split
  · split <;> exact ok
  · exact ok

theorem keepsPorts_idle : KeepsPorts idle := by
  refine keepsPorts_whenLive fun s ok => ?_
  unfold referencePeriod
  split
  · exact ok
  · split
    · exact ok
    · exact keepsPorts_ageTick ok

/-! ### The medium -/

theorem exactPorts_startSecond {s : State} (ok : s.exactPorts) : (startSecond s).exactPorts := by
  unfold startSecond
  split
  · exact ok
  · split
    · exact ok
    · exact ok
    · split <;> exact ok

theorem exactPorts_startThird {s : State} (ok : s.exactPorts) : (startThird s).exactPorts := by
  unfold startThird startDelta startDigest
  split
  · split
    · exact ok
    · exact exactPorts_composeDelta ok
  · split <;> exact ok

/-- R120. -/
theorem exactPorts_startClass (c : Nat) {s : State} (ok : s.exactPorts) : (startClass c s).exactPorts := by
  unfold startClass startControl
  split
  · split
    · exact ok
    · split <;> exact ok
  · split
    · exact exactPorts_startSecond ok
    · exact exactPorts_startThird ok

theorem exactPorts_execTransmitStart (idleMicros : Nat) {s t : State} (ok : s.exactPorts)
    (run : execTransmitStart idleMicros s = .next t) : t.exactPorts := by
  refine exactPorts_next run (keepsPorts_whenLive fun s ok => ?_) ok
  split
  · exact ok
  · split
    · exact exactPorts_startClass _ (exactPorts_of_fields ok rfl rfl)
    · exact ok

theorem keepsPorts_hearStart : KeepsPorts hearStart := by
  intro s ok
  unfold hearStart
  split
  · exact ok
  · split <;> exact ok

theorem exactPorts_finishFrame (t : Transmission) {s : State} (ok : s.exactPorts) : (finishFrame t s).exactPorts := by
  have left : (if t.held then leaveHolder t.payload s else s).exactPorts := by
    unfold leaveHolder
    split
    · split <;> exact ok
    · exact ok
  exact left

theorem exactPorts_claimTransmitted (t : Transmission) {s : State} (ok : s.exactPorts) :
    (claimTransmitted t s).exactPorts := by
  unfold claimTransmitted
  split
  · split <;> exact ok
  · exact ok

theorem exactPorts_execTransmitted {s t : State} (ok : s.exactPorts)
    (run : execTransmitted s = .next t) : t.exactPorts := by
  refine exactPorts_next run (keepsPorts_whenLive fun s ok => ?_) ok
  split
  · exact ok
  · exact exactPorts_claimTransmitted _ (exactPorts_finishFrame _ ok)

theorem exactPorts_discardFrame (t : Transmission) {s : State} (ok : s.exactPorts) : (discardFrame t s).exactPorts := by
  have finished := exactPorts_finishFrame t ok
  unfold discardFrame claimDiscarded
  split
  · split
    · exact exactPorts_settle (exactPorts_of_claimFrame (abandonClaim_frame _ _ _ _) finished)
    · exact finished
  · exact finished

theorem exactPorts_execCollision {s t : State} (ok : s.exactPorts)
    (run : execCollision s = .next t) : t.exactPorts := by
  refine exactPorts_next run (keepsPorts_whenLive fun s ok => ?_) ok
  split
  · exact ok
  · split
    · exact ok
    · exact exactPorts_discardFrame _ ok

/-! ### Frames heard -/

/-- R128, R181. -/
theorem keepsPorts_onTransmission {f : State → State} (keeps : KeepsPorts f) : KeepsPorts (onTransmission f) := by
  refine keepsPorts_whenLive fun s ok => ?_
  dsimp only
  split
  · exact ok
  · split
    · exact keeps ok
    · exact ok

/-- R129. -/
theorem keepsPorts_onFrame (kind : Byte) (source : Station) {f : State → State} (keeps : KeepsPorts f) :
    KeepsPorts (onFrame kind source f) := by
  refine keepsPorts_onTransmission fun s ok => ?_
  split
  · exact exactPorts_enterFault _ (exactPorts_of_fields ok rfl rfl)
  · exact keeps ok

theorem keepsPorts_onOwnershipFrame (kind : Byte) (source : Station) {f : State → State} (keeps : KeepsPorts f) :
    KeepsPorts (onOwnershipFrame kind source f) :=
  keepsPorts_onFrame kind source (keepsPorts_ite keeps)

theorem keepsPorts_discardInvalid (bytes : List Byte) : KeepsPorts (discardInvalid bytes) := by
  intro s ok
  unfold discardInvalid
  split <;> exact ok

/-- R88, R172. -/
theorem keepsPorts_takeReceipt (n : Seq) : KeepsPorts (takeReceipt n) := by
  intro s ok
  have judged := exactPorts_judgeReceipt n ok
  unfold takeReceipt
  dsimp only
  split
  · exact judged
  · exact exactPorts_settle (exactPorts_foldl (fun _ g => exactPorts_drainTest g) four judged)

theorem exactPorts_letThrough (c : Claim) (source : Station) {s : State} (ok : s.exactPorts) :
    (letThrough c source s).exactPorts := by
  unfold letThrough
  split
  · have raised := exactPorts_of_claimFrame (raiseEpoch_frame c.group c.epoch s) ok
    dsimp only
    split
    · exact exactPorts_leaveHolding _ _ _ raised
    · exact exactPorts_of_claimFrame ((mapGroup_frame _ _ _).trans (setOwner_frame _ _ _)) raised
  · exact ok

theorem exactPorts_contest (c : Claim) (source : Station) (reason : ContestReason) {s : State} (ok : s.exactPorts) :
    (contest c source reason s).exactPorts :=
  exactPorts_of_claimFrame (handControl_frame _ s) ok

/-- R148. -/
theorem exactPorts_firewallClaim (c : Claim) (source : Station) {s : State} (ok : s.exactPorts) :
    (firewallClaim c source s).exactPorts := by
  unfold firewallClaim
  dsimp only
  split
  · exact exactPorts_contest c source _ ok
  · split
    · exact exactPorts_letThrough c source ok
    · exact exactPorts_contest c source _ ok
  · split
    · exact exactPorts_of_claimFrame ((abandonClaim_frame _ _ _ s).trans (raiseEpoch_frame _ _ _)) ok
    · exact exactPorts_contest c source _ ok
  · exact ok
  · exact exactPorts_letThrough c source ok
  · exact exactPorts_letThrough c source ok

/-- R149. -/
theorem exactPorts_witnessClaim (c : Claim) (source : Station) {s : State} (ok : s.exactPorts) :
    (witnessClaim c source s).exactPorts := by
  have noted {u : State} (same : u.exactPorts) : (setOwner c.group (some source) (noteClaim c source u)).exactPorts :=
    exactPorts_of_claimFrame ((mapGroup_frame _ _ u).trans (setOwner_frame _ _ _)) same
  unfold witnessClaim
  dsimp only
  split
  · exact ok
  · split
    · exact exactPorts_contest c source _ ok
    · split
      · exact noted ok
      · split
        · exact exactPorts_contest c source _ ok
        · exact noted (exactPorts_of_claimFrame ((raiseEpoch_frame _ _ s).trans (mapGroup_frame _ _ _)) ok)

theorem keepsPorts_takeClaim (c : Claim) (source : Station) : KeepsPorts (takeClaim c source) := by
  intro s ok
  refine exactPorts_settle ?_
  split
  · exact exactPorts_firewallClaim c source ok
  · exact exactPorts_witnessClaim c source ok

/-- R150. -/
theorem keepsPorts_takeContest (c : Contest) : KeepsPorts (takeContest c) := by
  intro s ok
  unfold takeContest
  dsimp only
  split
  · exact exactPorts_settle
      (exactPorts_of_claimFrame ((abandonClaim_frame _ _ _ s).trans (raiseEpoch_frame _ _ _)) ok)
  · exact ok

theorem exactPorts_succeedYield (y : Yield) {s : State} (ok : s.exactPorts) : (succeedYield y s).exactPorts := by
  have raised := exactPorts_of_claimFrame (raiseEpoch_frame y.group y.epoch s) ok
  unfold succeedYield
  dsimp only
  split
  · exact exactPorts_of_claimFrame ((mapGroup_frame _ _ _).trans (startClaim_frame _ _ _ _ _)) raised
  · exact raised

/-- R156. -/
theorem keepsPorts_takeYield (y : Yield) (source : Station) : KeepsPorts (takeYield y source) := by
  intro s ok
  unfold takeYield
  split
  · refine exactPorts_of_claimFrame (mapGroup_frame _ _ _) ?_
    split
    · exact exactPorts_of_claimFrame (raiseEpoch_frame _ _ s) ok
    · exact ok
  · split
    · exact exactPorts_settle (exactPorts_succeedYield y ok)
    · exact ok

theorem keepsPorts_acceptRelay (source : Station) (o : Observation) : KeepsPorts (acceptRelay source o) := by
  intro s ok
  unfold acceptRelay
  split
  · exact ok
  · split <;> exact ok

/-! ### Passes and digests -/

theorem exactPorts_takePassEnd (groups : GroupSet) (start : Seq) {s : State} (ok : s.exactPorts) :
    (takePassEnd groups start s).exactPorts := by
  unfold takePassEnd
  dsimp only
  split
  · refine exactPorts_raiseIf _ .sync ?_
    split <;> exact ok
  · exact ok

theorem exactPorts_execPassEndTake {s t : State} (ok : s.exactPorts)
    (run : execPassEndTake s = .next t) : t.exactPorts := by
  refine exactPorts_next run (keepsPorts_whenLive fun s ok => ?_) ok
  split
  · exact exactPorts_takePassEnd _ _ ok
  · exact ok

theorem keepsPorts_appendPassEnd : KeepsPorts appendPassEnd := by
  intro s ok
  unfold appendPassEnd
  split <;> exact ok

theorem keepsPorts_prepareBucket (d : Digest) : KeepsPorts (prepareBucket d) := by
  intro s ok
  unfold prepareBucket
  dsimp only
  split
  · exact ok
  · split <;> exact ok

theorem keepsPorts_prepareDigest : KeepsPorts prepareDigest := by
  intro s ok
  unfold prepareDigest
  split
  · split
    · exact ok
    · exact keepsPorts_bucketOperation .reader _ (keepsPorts_prepareBucket _) ok
  · exact ok

theorem keepsPorts_compareBucket (c : Comparison) (received : Word) (rest : List Word) :
    KeepsPorts (compareBucket c received rest) := fun _ ok => exactPorts_of_fields ok rfl rfl

theorem keepsPorts_compareDigest : KeepsPorts compareDigest := by
  intro s ok
  unfold compareDigest
  split
  · split
    · exact ok
    · split
      · exact keepsPorts_bucketOperation .reader _ (keepsPorts_compareBucket _ _ _) ok
      · exact ok
  · exact ok

/-! ### Timers -/

theorem keepsPorts_stall : KeepsPorts stall := fun s ok =>
  exactPorts_startPass (exactPorts_verifyClear
    (exactPorts_of_fields (s := raise .lag (journalClear s)) (exactPorts_journalClear ok) rfl rfl))

theorem keepsPorts_preemptNow (g : GroupId) : KeepsPorts (preemptNow g) := by
  intro s ok
  have stopped := exactPorts_of_claimFrame (mapGroup_frame g (fun r => { r with preempt := false }) s) ok
  unfold preemptNow
  dsimp only
  split
  · split
    · exact exactPorts_settle (exactPorts_enterYielding g _ stopped)
    · exact stopped
  · exact stopped

theorem keepsPorts_releaseAll : KeepsPorts releaseAll := by
  refine fun s ok => exactPorts_foldl (fun s g ok => ?_) four ok
  split
  · exact exactPorts_release g ok
  · exact ok

/-- R199. -/
theorem keepsPorts_hostLapses : KeepsPorts hostLapses := fun _ ok =>
  exactPorts_settle (exactPorts_foldl (fun _ g => exactPorts_reactLoss g) four (exactPorts_of_fields ok rfl rfl))

/-! ### The steps -/

/-- R66: every command leaves the ports exact. -/
theorem exactPorts_exec (c : Instr) {s t : State} (ok : s.exactPorts) (run : exec c s = .next t) : t.exactPorts := by
  have done {f : State → State} (eq : (.next (f s) : Host.Outcome State Fault Refusal) = .next t)
      (keeps : KeepsPorts f) : t.exactPorts := exactPorts_next eq keeps ok
  match c, run with
  | .powerReset straps, run => exact exactPorts_of_next run (exactPorts_resetStation straps _ _ _ _ s)
  | .powerResetOnset, run => exact exactPorts_of_next run (exactPorts_of_fields ok rfl rfl)
  | .pinResetAssert, run => exact done run (keepsPorts_whenLive (fun s ok => exactPorts_of_fields ok rfl rfl))
  | .pinResetRelease straps, run => exact exactPorts_execPinResetRelease straps ok run
  | .groupLineReadback g foreignDrive, run =>
    refine exactPorts_of_next run (keepsPorts_whenLive (fun u same => ?_) (exactPorts_of_fields ok rfl rfl))
    exact exactPorts_settle (exactPorts_raiseIf (s.foreign g != u.foreign g) .line same)
  | .post value, run => exact done run (keepsPorts_whenLive keepsPorts_postRequest)
  | .pop value, run => exact done run (keepsPorts_whenLive fun s ok => exactPorts_of_fields ok rfl rfl)
  | .eventsWrite value, run => exact done run (keepsPorts_whenLive fun s ok => exactPorts_of_fields ok rfl rfl)
  | .maskWrite value, run => exact done run (keepsPorts_whenLive fun s ok => exactPorts_of_fields ok rfl rfl)
  | .cursorWrite value, run => exact done run (keepsPorts_whenLive fun s ok => exactPorts_of_fields ok rfl rfl)
  | .cursorData23Read, run => exact done run (keepsPorts_whenLive keepsPorts_advanceCursor)
  | .cursorSnapshot, run =>
    exact done run (keepsPorts_whenLive (keepsPorts_whenGranted .cursor keepsPorts_takeSnapshot))
  | .clear value, run => exact done run (keepsPorts_whenLive fun s ok => exactPorts_of_fields ok rfl rfl)
  | .registerWrite offset size value, run =>
    exact done run (keepsPorts_whenLive (keepsPorts_writeWindow offset size value))
  | .unknownKind, run => exact exactPorts_execUnknownKind ok run
  | .check, run =>
    exact done run (keepsPorts_whenEngineGranted (keepsPorts_onRequest _ fun r =>
      keepsPorts_sessionRequest r _ (keepsPorts_checkByState r)))
  | .adopt, run =>
    exact done run (keepsPorts_whenEngineGranted (keepsPorts_onRequest _ fun r s ok =>
      keepsPorts_sessionRequest r (adoptOffence s.port.setup.translate r) (keepsPorts_adoptByState r) ok))
  | .retire, run =>
    exact done run (keepsPorts_whenEngineGranted (keepsPorts_onRequest _ fun r =>
      keepsPorts_sessionRequest r _ (keepsPorts_requestOperation r _ (keepsPorts_retireInBucket r))))
  | .lookup, run =>
    exact done run (keepsPorts_whenEngineGranted (keepsPorts_onRequest _ fun r =>
      keepsPorts_sessionRequest r _ (keepsPorts_requestOperation r _ (keepsPorts_lookupInBucket r))))
  | .health, run =>
    exact done run (keepsPorts_onRequest _ (fun r => keepsPorts_groupRequest r (keepsPorts_setHealth r)))
  | .hold, run => exact done run (keepsPorts_onRequest _ (fun r => keepsPorts_groupRequest r (keepsPorts_setHold r)))
  | .unhold, run =>
    exact done run (keepsPorts_onRequest _ (fun r => keepsPorts_groupRequest r (keepsPorts_clearHold r)))
  | .resync, run => exact done run (keepsPorts_onRequest _ keepsPorts_resync)
  | .setup, run => exact done run (keepsPorts_onRequest _ keepsPorts_writeSetup)
  | .seal, run => exact done run (keepsPorts_onRequest _ keepsPorts_sealRequest)
  | .rejoin, run => exact done run (keepsPorts_onRequest _ keepsPorts_rejoinRequest)
  | .rejoinClear, run => exact exactPorts_execRejoinClear ok run
  | .keep, run => exact done run (keepsPorts_onRequest _ (fun r s ok => exactPorts_answer r _ ok))
  | .ageTick, run => exact done run (keepsPorts_whenLive keepsPorts_ageTick)
  | .agingVisit, run => exact done run (keepsPorts_whenLive (keepsPorts_whenGranted .aging keepsPorts_visitNext))
  | .transmitStart idleMicros, run => exact exactPorts_execTransmitStart idleMicros ok run
  | .transmitted, run => exact exactPorts_execTransmitted ok run
  | .collision, run => exact exactPorts_execCollision ok run
  | .defer, run => exact done run (keepsPorts_whenLive keepsPorts_hearStart)
  | .invalidFrame bytes, run => exact done run (keepsPorts_onTransmission (keepsPorts_discardInvalid bytes))
  | .beaconFrame source content, run =>
    exact done run (keepsPorts_onFrame _ source (fun s => exactPorts_takeBeacon source content))
  | .claimFrame source content, run =>
    exact done run (keepsPorts_onOwnershipFrame _ source (keepsPorts_takeClaim content source))
  | .contestFrame source content, run =>
    exact done run (keepsPorts_onOwnershipFrame _ source (keepsPorts_takeContest content))
  | .yieldFrame source content, run =>
    exact done run (keepsPorts_onOwnershipFrame _ source (keepsPorts_takeYield content source))
  | .receiptFrame source expected, run =>
    exact done run (keepsPorts_onFrame _ source (keepsPorts_ite (keepsPorts_takeReceipt expected)))
  | .deltaFrame source content, run =>
    exact done run (keepsPorts_onFrame _ source (keepsPorts_ite fun s ok => exactPorts_of_fields ok rfl rfl))
  | .relayFrame source content, run =>
    exact done run (keepsPorts_onFrame _ source (keepsPorts_acceptRelay source content))
  | .digestFrame source content, run =>
    exact done run (keepsPorts_onFrame _ source (keepsPorts_ite fun s ok => exactPorts_of_fields ok rfl rfl))
  | .fetchFrame source content, run =>
    exact done run (keepsPorts_onFrame _ source (keepsPorts_ite fun s ok => exactPorts_of_fields ok rfl rfl))
  | .deltaTake, run => exact done run (keepsPorts_whenLive keepsPorts_takeDelta)
  | .entryJoin, run => exact done run (keepsPorts_whenLive (keepsPorts_whenGranted .receiveApply keepsPorts_joinInHand))
  | .purgeHandover, run => exact done run (keepsPorts_whenLive keepsPorts_handOver)
  | .purge, run => exact done run (keepsPorts_whenLive (keepsPorts_whenGranted .reader keepsPorts_purgeHead))
  | .passEndTake, run => exact exactPorts_execPassEndTake ok run
  | .relayApply, run => exact done run (keepsPorts_whenLive (keepsPorts_whenEngineGranted keepsPorts_applyRelay))
  | .reJournal, run => exact done run (keepsPorts_whenLive (keepsPorts_whenGranted .reader keepsPorts_rejournal))
  | .passEndAppend, run => exact done run (keepsPorts_whenLive keepsPorts_appendPassEnd)
  | .digestTimerExpiry, run =>
    exact done run (keepsPorts_whenLive (keepsPorts_ite fun s ok => exactPorts_of_fields ok rfl rfl))
  | .digestPrepare, run =>
    exact done run (keepsPorts_whenLive (keepsPorts_whenGranted .reader keepsPorts_prepareDigest))
  | .digestCompare, run =>
    exact done run (keepsPorts_whenLive (keepsPorts_whenGranted .reader keepsPorts_compareDigest))
  | .beaconTimerExpiry, run =>
    exact done run (keepsPorts_whenLive (keepsPorts_ite fun s ok => exactPorts_of_fields ok rfl rfl))
  | .deadTimerExpiry peer, run =>
    exact done run (keepsPorts_whenLive (keepsPorts_ite fun s => exactPorts_loseRecord peer))
  | .listenTimerExpiry, run =>
    exact done run (keepsPorts_whenLive (keepsPorts_ite fun s ok =>
      exactPorts_settle (exactPorts_of_fields ok rfl rfl)))
  | .receiptTimerExpiry, run =>
    exact done run (keepsPorts_whenLive (keepsPorts_ite fun s ok => exactPorts_of_fields ok rfl rfl))
  | .stallTimerExpiry, run => exact done run (keepsPorts_whenLive (keepsPorts_ite keepsPorts_stall))
  | .claimWaitExpiry g, run =>
    exact done run (keepsPorts_whenLive (keepsPorts_ite fun s => exactPorts_enterHolding g _))
  | .claimBackoffExpiry g, run =>
    exact done run (keepsPorts_whenLive (keepsPorts_ite fun s ok =>
      exactPorts_settle (exactPorts_of_claimFrame (mapGroup_frame g _ s) ok)))
  | .preemptDelayExpiry g, run => exact done run (keepsPorts_whenLive (keepsPorts_ite (keepsPorts_preemptNow g)))
  | .drainTimerExpiry g, run =>
    exact done run (keepsPorts_whenLive (keepsPorts_ite fun s ok =>
      exactPorts_settle (exactPorts_endDrain g false ok)))
  | .adoptionWindowExpiry g, run =>
    exact done run (keepsPorts_whenLive (keepsPorts_ite fun s ok =>
      exactPorts_raise .adoptEnd (exactPorts_closeWindow g ok)))
  | .quorumTimerExpiry, run =>
    exact done run (keepsPorts_whenLive (keepsPorts_ite fun s ok =>
      exactPorts_settle (keepsPorts_releaseAll (exactPorts_of_fields ok rfl rfl))))
  | .lineInhibitionExpiry g, run =>
    exact done run (keepsPorts_whenLive (keepsPorts_ite fun s ok => exactPorts_of_fields ok rfl rfl))
  | .hostWatchExpiry, run => exact done run (keepsPorts_whenLive (keepsPorts_ite keepsPorts_hostLapses))

/-- Settles O8: each command leaves the ports exact, and so does a reference period. The shape of the table is not used:
the reads and writes of a slot agree on a list in any order, and an entry is found by the slot that holds it. -/
theorem stepsKeepPortsExact : Obligations.StepsKeepPortsExact := by
  intro s t _ ok run
  unfold step at run
  split at run
  · exact exactPorts_next run keepsPorts_idle ok
  · rename_i c rest _
    exact exactPorts_exec c (s := { s with pending := rest }) (exactPorts_of_fields ok rfl rfl) run

end Sys2Proof.Machine
end

