-- ==== Sys2Proof/Proofs/Offers.lean ====
section
/-!
PROOFS. The offer of a changed entry, case by case (R81 to R83).
-/

namespace Sys2Proof.Machine

open Sys2Proof

/-- There is nothing to offer in a free slot. -/
theorem offer_vacant {h : Handle} {s : State} (here : s.entryAt h = none) : offer h s = (s, none) := by
  unfold offer
  rw [here]

/-- R81, cases 1 and 2: a change that is declined. -/
theorem offer_declined {h : Handle} {e : Entry} {s : State} (here : s.entryAt h = some e)
    (declined : s.holds e.group = false ∨ s.partnerPresent = false) : offer h s = (s, none) := by
  unfold offer
  rw [here]
  refine if_pos ?_
  rw [Bool.or_eq_true, Bool.not_eq_true', Bool.not_eq_true']
  exact declined

/-- R82: the record that the pending mark names takes the new content. -/
theorem offer_coalesced {h : Handle} {e : Entry} {s : State} {q : Seq} (here : s.entryAt h = some e)
    (held : s.holds e.group = true) (present : s.partnerPresent = true) (pending : e.pending = some q) :
    offer h s = (writeEntry h { e with confirmation := some (s.me, q) } { s with
      journal := s.journal.mapRecord q fun r => { r with body := .entry (contentOf s.now e) } }, some q) := by
  unfold offer
  rw [here]
  simp only [held, present, pending, Bool.not_true, Bool.or_self, Bool.false_eq_true, if_false]
  rfl

/-- R83: without room for a new record the bucket joins the Resend Set. -/
theorem offer_overflows {h : Handle} {e : Entry} {s : State} (here : s.entryAt h = some e)
    (held : s.holds e.group = true) (present : s.partnerPresent = true) (unmarked : e.pending = none)
    (full : s.journal.full = true) :
    offer h s = (raise .overflow { s with recon.resend := addBucket (bucketOfHandle h) s.recon.resend }, none) := by
  unfold offer
  rw [here]
  simp only [held, present, unmarked, full, Bool.not_true, Bool.or_self, Bool.false_eq_true, if_false, if_true]

/-- R81, case 5: a new record at the newest end. -/
theorem offer_appends {h : Handle} {e : Entry} {s : State} (here : s.entryAt h = some e)
    (held : s.holds e.group = true) (present : s.partnerPresent = true) (unmarked : e.pending = none)
    (room : s.journal.full = false) :
    offer h s = (writeEntry h { e with confirmation := some (s.me, s.journal.next), pending := some s.journal.next }
      { s with journal := s.journal.append (.entry (contentOf s.now e)) (some h) }, some s.journal.next) := by
  unfold offer
  rw [here]
  simp only [held, present, unmarked, room, Bool.not_true, Bool.or_self, Bool.false_eq_true, if_false]
  rfl

/-- Settles O51: one lemma for each case of R81. -/
theorem offersFollowTheirCases : Obligations.OffersFollowTheirCases := by
  intro h e s here
  refine ⟨offer_declined here, fun q held present pending => offer_coalesced here held present pending,
    fun held present unmarked full => ?_, fun held present unmarked room => ?_⟩
  · exact offer_overflows here held present unmarked (decide_eq_true full)
  · exact offer_appends here held present unmarked (decide_eq_false (Nat.not_le.mpr room))

end Sys2Proof.Machine
end

