-- ==== Sys2Proof/Proofs/StepRules.lean ====
section
/-!
PROOFS. One induction for the invariants of the station: what each operation of a step has to keep, and that every step
then keeps it. An invariant that reads no more than the straps, the table, the journal, the receive half, the synced set,
the purge queue, the partner and the group records is kept by all the rest.
-/

namespace Sys2Proof.Machine

open Sys2Proof

/-! ### What an invariant reads -/

/-- `t` agrees with `s` in everything that the invariants of this file may read. -/
structure Untouched (s t : State) : Prop where
  straps : t.straps = s.straps
  table : t.table = s.table
  journal : t.journal = s.journal
  receive : t.receive = s.receive
  synced : t.recon.synced = s.recon.synced
  purge : t.recon.purge = s.recon.purge
  partner : t.presence.partner = s.presence.partner
  groups : t.own.groups = s.own.groups

theorem Untouched.refl (s : State) : Untouched s s := by constructor <;> rfl

theorem Untouched.trans {s t u : State} (a : Untouched s t) (b : Untouched t u) : Untouched s u where
  straps := b.straps.trans a.straps
  table := b.table.trans a.table
  journal := b.journal.trans a.journal
  receive := b.receive.trans a.receive
  synced := b.synced.trans a.synced
  purge := b.purge.trans a.purge
  partner := b.partner.trans a.partner
  groups := b.groups.trans a.groups

/-- The operations keep `P`. -/
def Keeps (P : State → Prop) (f : State → State) : Prop := ∀ ⦃s : State⦄, P s → P (f s)

/-! ### Operations that leave all of it alone -/

theorem respond_untouched (x : Response) (s : State) : Untouched s (respond x s) := by
  unfold respond
  dsimp only
  split <;> constructor <;> rfl

theorem raiseIf_untouched (c : Bool) (e : Event) (s : State) : Untouched s (raiseIf c e s) := by
  unfold raiseIf
  split <;> constructor <;> rfl

theorem restartHostWatch_untouched (s : State) : Untouched s (restartHostWatch s) := by constructor <;> rfl

theorem enterListen_untouched (s : State) : Untouched s (enterListen s) := by constructor <;> rfl

theorem busFault_untouched (c : Capture) (s : State) : Untouched s (busFault c s) := by constructor <;> rfl

theorem captureTable_untouched (c : Capture) (s : State) : Untouched s (captureTable c s) := by constructor <;> rfl

theorem startPass_untouched (s : State) : Untouched s (startPass s) := by
  unfold startPass
  split <;> constructor <;> rfl

theorem handRelay_untouched (o : Observation) (s : State) : Untouched s (handRelay o s) := by
  unfold handRelay
  split <;> constructor <;> rfl

theorem quorumChange_untouched (before : Bool) (s : State) : Untouched s (quorumChange before s) := by
  unfold quorumChange
  split
  · exact .refl s
  · exact (raiseIf_untouched _ .quorum s).trans (by constructor <;> rfl)

theorem memberOrIsolated_untouched (s : State) : Untouched s (memberOrIsolated s) := by
  unfold memberOrIsolated
  dsimp only
  split
  · split <;> constructor <;> rfl
  · split <;> constructor <;> rfl
  · exact .refl s

theorem postRequest_untouched (s : State) : Untouched s (postRequest s) := by
  unfold postRequest
  split <;> constructor <;> rfl

theorem writeWindow_untouched (offset : Byte) (size : AccessSize) (value : Word) (s : State) :
    Untouched s (writeWindow offset size value s) := by
  unfold writeWindow
  split
  · unfold writeWord
    split_ifs
    · constructor <;> rfl
    · constructor <;> rfl
    · exact postRequest_untouched s
    · constructor <;> rfl
    · constructor <;> rfl
    · constructor <;> rfl
    · constructor <;> rfl
    · exact .refl s
  · exact .refl s

theorem advanceCursor_untouched (s : State) : Untouched s (advanceCursor s) := by
  unfold advanceCursor
  split <;> constructor <;> rfl

theorem ageTick_untouched (s : State) : Untouched s (ageTick s) := by
  unfold ageTick
  dsimp only
  split
  · split <;> constructor <;> rfl
  · constructor <;> rfl

theorem referencePeriod_untouched (s : State) : Untouched s (referencePeriod s) := by
  unfold referencePeriod
  split
  · constructor <;> rfl
  · split
    · constructor <;> rfl
    · exact ageTick_untouched s

theorem startControl_untouched (s : State) : Untouched s (startControl s) := by
  unfold startControl
  split
  · constructor <;> rfl
  · split <;> constructor <;> rfl

theorem startSecond_untouched (s : State) : Untouched s (startSecond s) := by
  unfold startSecond
  split
  · constructor <;> rfl
  · split
    · constructor <;> rfl
    · constructor <;> rfl
    · split <;> constructor <;> rfl

theorem startDigest_untouched (s : State) : Untouched s (startDigest s) := by
  unfold startDigest
  split <;> constructor <;> rfl

theorem hearStart_untouched (s : State) : Untouched s (hearStart s) := by
  unfold hearStart
  split
  · constructor <;> rfl
  · split <;> constructor <;> rfl

theorem finishFrame_untouched (t : Transmission) (s : State) : Untouched s (finishFrame t s) := by
  have left : Untouched s (if t.held then leaveHolder t.payload s else s) := by
    unfold leaveHolder
    split
    · split <;> constructor <;> rfl
    · exact .refl s
  exact left.trans (by constructor <;> rfl)

theorem discardInvalid_untouched (bytes : List Byte) (s : State) : Untouched s (discardInvalid bytes s) := by
  unfold discardInvalid
  split <;> constructor <;> rfl

theorem acceptRelay_untouched (source : Station) (o : Observation) (s : State) :
    Untouched s (acceptRelay source o s) := by
  unfold acceptRelay
  split
  · exact .refl s
  · split <;> constructor <;> rfl

theorem beginDigest_untouched (s : State) : Untouched s (beginDigest s) := by
  unfold beginDigest
  split <;> constructor <;> rfl

theorem prepareBucket_untouched (d : Digest) (s : State) : Untouched s (prepareBucket d s) := by
  unfold prepareBucket
  dsimp only
  split
  · constructor <;> rfl
  · split <;> constructor <;> rfl

theorem acceptDigest_untouched (source : Station) (d : Digest) (s : State) :
    Untouched s (acceptDigest source d s) := by
  unfold acceptDigest
  split <;> constructor <;> rfl

theorem acceptFetch_untouched (source : Station) (f : Fetch) (s : State) : Untouched s (acceptFetch source f s) := by
  unfold acceptFetch
  split <;> constructor <;> rfl

theorem copyCheck_untouched (r : Request) (relays : Bool) (s : State) : Untouched s (copyCheck r relays s) := by
  unfold copyCheck
  split
  · exact respond_untouched _ s
  · split
    · exact respond_untouched _ s
    · split
      · exact respond_untouched _ s
      · split
        · exact respond_untouched _ s
        · split
          · exact respond_untouched _ s
          · cases relays with
            | false => exact respond_untouched _ s
            | true => exact (handRelay_untouched _ s).trans (respond_untouched _ _)

theorem lookupInBucket_untouched (r : Request) (s : State) : Untouched s (lookupInBucket r s) := by
  unfold lookupInBucket
  split
  · exact respond_untouched _ s
  · exact respond_untouched _ s

/-! ### Keeping -/

theorem Keeps.foldl {P : State → Prop} {α : Type} {f : State → α → State} (each : ∀ a, Keeps P fun s => f s a)
    (l : List α) : Keeps P fun s => l.foldl f s := fun s =>
  foldl_keeps (fun s t => P s → P t) (fun _ ok => ok) (fun a b ok => b (a ok)) f (fun _ a ok => each a ok) l s

theorem Keeps.whenLive {P : State → Prop} {f : State → State} (keeps : Keeps P f) : Keeps P (whenLive f) := by
  intro s ok
  unfold Machine.whenLive
  split
  · exact keeps ok
  · exact ok

theorem Keeps.whenGranted {P : State → Prop} {f : State → State} (keeps : Keeps P f) (c : Client) :
    Keeps P (whenGranted c f) := by
  intro s ok
  unfold Machine.whenGranted
  split
  · exact ok
  · exact keeps ok

theorem Keeps.whenEngineGranted {P : State → Prop} {f : State → State} (keeps : Keeps P f) :
    Keeps P (whenEngineGranted f) := by
  intro s ok
  unfold Machine.whenEngineGranted
  split
  · exact keeps.whenGranted .request ok
  · exact keeps ok

/-- An operation that takes effect where a condition holds. -/
theorem Keeps.ite {P : State → Prop} {c : State → Prop} [DecidablePred c] {f : State → State}
    (keeps : ∀ s, c s → P s → P (f s)) : Keeps P fun s => if c s then f s else s := by
  intro s ok
  dsimp only
  split
  · exact keeps s ‹_› ok
  · exact ok

/-! ### The rule -/

/-- What the operations of the steps have to keep for every step to keep `P`. -/
structure StepRule (P : State → Prop) : Prop where
  untouched : ∀ {s t}, Untouched s t → P s → P t
  reset : ∀ straps cause bus table request s, P (resetStation straps cause bus table request s)
  fault : ∀ k, Keeps P (enterFault k)
  rejoin : Keeps P rejoinColumns
  regroup : ∀ g f, (∀ r : GroupRecord, (f r).state = r.state) → Keeps P (mapGroup g f)
  vacate : ∀ groups : Four GroupRecord, (∀ g, (groups.get g).state = .disabled ∨ (groups.get g).state = .vacant) →
    Keeps P fun s => { s with own.groups := groups }
  unsync : ∀ set : GroupSet, ∀ s, (∀ g, set.get g = true → s.recon.synced.get g = true) → P s →
    P { s with recon.synced := set }
  settle : Keeps P settle
  reactLoss : ∀ g, Keeps P (reactLoss g)
  drainTest : ∀ g, Keeps P (drainTest g)
  visitGroups : ∀ source partner, Keeps P (visitGroups source partner)
  discardClaim : ∀ g s, (s.group g).state = .claiming → P s → P (abandonClaim g .vacant none s)
  mature : ∀ g tenure s, (s.group g).state = .claiming → P s → P (enterHolding g tenure s)
  preempt : ∀ g, Keeps P (preemptNow g)
  endDrain : ∀ g s, (s.group g).state = .yielding → P s → P (endDrain g false s)
  release : ∀ g s, s.holds g = true → P s → P (release g s)
  claim : ∀ c source, Keeps P (takeClaim c source)
  contest : ∀ c, Keeps P (takeContest c)
  yield : ∀ y source, Keeps P (takeYield y source)
  changeRecords : ∀ records heard, Keeps P (changeRecords records heard)
  partnerBeacon : ∀ p b s, s.fromPartner p = true → P s → P (partnerBeacon b s)
  receipt : ∀ p n s, s.fromPartner p = true → P s → P (judgeReceipt n s)
  ownerCheck : ∀ r s, s.holds r.group = true → P s → P (ownerCheck r s)
  adopt : ∀ r s, s.holds r.group = true → P s → P (adoptInBucket r s)
  retire : ∀ r, Keeps P (retireInBucket r)
  observe : ∀ o s, s.holds o.group = true → P s → P (joinObservation o s)
  visitEntry : ∀ h, Keeps P fun s => visitEntry s h
  acceptDelta : ∀ source d, Keeps P (acceptDelta source d)
  takeDelta : Keeps P takeDelta
  join : Keeps P joinInHand
  handOver : Keeps P handOver
  purge : Keeps P purgeHead
  passEnd : ∀ source groups start rest s, s.recon.purge = .passEnd source groups start :: rest → P s →
    P (takePassEnd groups start s)
  rejournal : Keeps P rejournal
  appendPassEnd : Keeps P appendPassEnd
  compose : Keeps P composeDelta
  receiptExpires : Keeps P receiptExpires
  stall : Keeps P stall

namespace StepRule

variable {P : State → Prop}

/-! ### Requests and verification -/

theorem keeps_untouched (rule : StepRule P) {f : State → State} (alone : ∀ s, Untouched s (f s)) : Keeps P f :=
  fun s => rule.untouched (alone s)

theorem respond (rule : StepRule P) (x : Response) : Keeps P (respond x) :=
  rule.keeps_untouched (respond_untouched x)

theorem answer (rule : StepRule P) (r : Request) (status : Status) : Keeps P (answer r status) :=
  rule.respond _

theorem takeRequest (rule : StepRule P) : Keeps P takeRequest := by
  intro s ok
  have cleared : P { s with port.requests := s.port.requests.tail, port.lapsed := false } :=
    rule.untouched (by constructor <;> rfl) ok
  unfold Machine.takeRequest
  dsimp only
  split
  · exact rule.untouched (restartHostWatch_untouched _) (rule.settle cleared)
  · exact rule.untouched (restartHostWatch_untouched _) cleared

theorem onRequest (rule : StepRule P) (k : BitVec 7) {f : Request → State → State} (keeps : ∀ r, Keeps P (f r)) :
    Keeps P (onRequest k f) := by
  refine Keeps.whenLive fun s ok => ?_
  split
  · exact ok
  · split
    · exact keeps _ (rule.takeRequest ok)
    · exact ok

theorem integrityFailure (rule : StepRule P) (c : Client) (b : Bucket) : Keeps P (integrityFailure c b) :=
  fun _ ok => rule.fault .integrity (rule.untouched (captureTable_untouched _ _) ok)

theorem bucketOperation (rule : StepRule P) (c : Client) (b : Bucket) {f : State → State} {s : State} (ok : P s)
    (keeps : P (f s)) : P (bucketOperation c b f s) := by
  unfold Machine.bucketOperation
  split
  · exact keeps
  · exact rule.integrityFailure c b ok

theorem requestOperation (rule : StepRule P) (r : Request) (b : Bucket) {f : State → State} {s : State} (ok : P s)
    (keeps : P (f s)) : P (requestOperation r b f s) := by
  unfold Machine.requestOperation
  split
  · exact keeps
  · exact rule.answer r .faulted (rule.integrityFailure .request b ok)

theorem sessionRequest (rule : StepRule P) (r : Request) (offence : State → Option FieldName) {f : State → State}
    (keeps : Keeps P f) : Keeps P fun s => sessionRequest r (offence s) f s := by
  intro s ok
  unfold Machine.sessionRequest
  dsimp only
  split
  · exact rule.answer r .notReady ok
  · exact rule.answer r .faulted ok
  · exact rule.respond _ ok
  · exact keeps ok

theorem checkByState (rule : StepRule P) (r : Request) : Keeps P (checkByState r) := by
  intro s ok
  have owner (held : s.holds r.group = true) := rule.requestOperation r (bucketOf r.key) ok (rule.ownerCheck r s held ok)
  have copy (relays : Bool) := rule.requestOperation r (bucketOf r.key) ok
    (rule.untouched (copyCheck_untouched r relays s) ok)
  unfold Machine.checkByState
  split
  · exact rule.answer r _ ok
  · rename_i holding
    exact owner (congrArg GroupState.held holding)
  · rename_i yielding
    exact owner (congrArg GroupState.held yielding)
  · exact copy _
  · exact copy _
  · exact copy _

theorem adoptByState (rule : StepRule P) (r : Request) : Keeps P (adoptByState r) := by
  intro s ok
  unfold Machine.adoptByState
  split
  · exact rule.answer r _ ok
  · split
    · exact rule.answer r _ ok
    · split
      · exact rule.answer r _ ok
      · rename_i held _
        exact rule.requestOperation r _ ok (rule.adopt r s (by simpa using held) ok)

theorem groupRequest (rule : StepRule P) (r : Request) {f : State → State} (keeps : Keeps P f) :
    Keeps P (groupRequest r f) := by
  intro s ok
  unfold Machine.groupRequest
  split
  · exact rule.answer r _ ok
  · split
    · exact rule.answer r _ ok
    · split
      · exact rule.respond _ ok
      · split
        · exact rule.answer r _ ok
        · split
          · exact rule.answer r _ ok
          · exact keeps ok

theorem answerView (rule : StepRule P) (r : Request) : Keeps P (answerView r) := by
  intro s ok
  unfold Machine.answerView
  exact rule.respond _ ok

theorem setHealth (rule : StepRule P) (r : Request) : Keeps P (setHealth r) := by
  intro s ok
  have written := rule.regroup r.group (fun x => { x with health := cappedHealth r.score }) (fun _ => rfl) ok
  unfold Machine.setHealth
  refine rule.answerView r (rule.settle ?_)
  split
  · exact rule.reactLoss _ written
  · exact written

theorem setHold (rule : StepRule P) (r : Request) : Keeps P (setHold r) := by
  intro s ok
  unfold Machine.setHold
  split
  · exact rule.answerView r ok
  · have written := rule.regroup r.group (fun x => { x with hold := true }) (fun _ => rfl) ok
    exact rule.answerView r (rule.settle (rule.reactLoss _ written))

theorem clearHold (rule : StepRule P) (r : Request) : Keeps P (clearHold r) := by
  intro s ok
  have written := rule.regroup r.group (fun x => { x with hold := false }) (fun _ => rfl) ok
  exact rule.answerView r (rule.settle written)

theorem resync (rule : StepRule P) (r : Request) : Keeps P (resync r) := by
  intro s ok
  unfold Machine.resync
  split
  · exact rule.answer r _ ok
  · split
    · exact rule.answer r _ ok
    · split
      · exact rule.answer r _ ok
      · split
        · exact rule.answer r _ ok
        · exact rule.answer r _ (rule.untouched (startPass_untouched s) ok)

theorem writeSetup (rule : StepRule P) (r : Request) : Keeps P (writeSetup r) := by
  intro s ok
  unfold Machine.writeSetup
  split
  · exact rule.answer r _ ok
  · split
    · exact rule.respond _ ok
    · exact rule.answer r _ (rule.untouched (by constructor <;> rfl) ok)

/-- R181: SEAL leaves the groups DISABLED or VACANT. -/
theorem sealRequest (rule : StepRule P) (r : Request) : Keeps P (sealRequest r) := by
  intro s ok
  unfold Machine.sealRequest
  split
  · have sealed : Keeps P fun u : State => { u with own.groups := Four.build fun g =>
        { s.group g with state := if s.port.setup.groups.get g then .vacant else .disabled } } :=
      rule.vacate _ fun g => by
        rw [Four.get_build]
        dsimp only
        split
        · exact Or.inr rfl
        · exact Or.inl rfl
    refine rule.answer r _ (rule.untouched (enterListen_untouched _)
      (rule.untouched (quorumChange_untouched s.quorumPresent _) ?_))
    exact rule.untouched (by constructor <;> rfl) (sealed ok)
  · exact rule.answer r _ ok

theorem clearOwnership (rule : StepRule P) : Keeps P clearOwnership := by
  intro s ok
  have vacant := rule.vacate
    (Four.build fun g => (s.group g).cleared (s.port.isSealed && s.port.setup.groups.get g)) (fun g => by
      rw [Four.get_build]
      unfold GroupRecord.cleared
      dsimp only
      split
      · exact Or.inr rfl
      · exact Or.inl rfl) ok
  exact rule.untouched (by constructor <;> rfl) vacant

theorem rejoinRequest (rule : StepRule P) (r : Request) : Keeps P (rejoinRequest r) := by
  intro s ok
  unfold Machine.rejoinRequest
  split
  · exact rule.answer r _ ok
  · split
    · exact rule.answer r _ ok
    · refine rule.untouched (raiseIf_untouched _ .line _) ?_
      have unsynced := rule.unsync s.syncedUnowned _ (fun g => by
        unfold State.syncedUnowned
        rw [Four.get_build]
        exact fun both => (Bool.and_eq_true_iff.mp both).1) (rule.clearOwnership ok)
      exact rule.untouched (by constructor <;> rfl) unsynced

theorem rejoinSteps (rule : StepRule P) (tag : Byte) : Keeps P (rejoinSteps tag) := by
  intro s ok
  have cleared := rule.untouched (quorumChange_untouched s.quorumPresent _) (rule.rejoin ok)
  have listening := rule.untouched (enterListen_untouched _) cleared
  have idle : P { enterListen (quorumChange s.quorumPresent (rejoinColumns s)) with engine.inProgress := none } :=
    rule.untouched (by constructor <;> rfl) listening
  unfold Machine.rejoinSteps
  exact rule.respond _ idle

/-! ### The table and the medium -/

theorem takeSnapshot (rule : StepRule P) : Keeps P takeSnapshot := by
  intro s ok
  have copied : P (copySnapshot s) := rule.untouched (by constructor <;> rfl) ok
  unfold Machine.takeSnapshot
  dsimp only
  split
  · split
    · exact copied
    · exact rule.integrityFailure _ _ copied
  · exact ok

theorem visitNext (rule : StepRule P) : Keeps P visitNext := by
  intro s ok
  unfold Machine.visitNext
  split
  · have visited := Keeps.foldl rule.visitEntry ((s.table.bucket s.scan.position).map (·.1)) ok
    exact rule.bucketOperation .aging _ ok (rule.untouched (by constructor <;> rfl) visited)
  · exact ok

theorem startClass (rule : StepRule P) (c : Nat) : Keeps P (startClass c) := by
  intro s ok
  unfold Machine.startClass
  split
  · exact rule.untouched (startControl_untouched s) ok
  · split
    · exact rule.untouched (startSecond_untouched s) ok
    · unfold startThird startDelta
      split
      · split
        · exact rule.untouched (by constructor <;> rfl) ok
        · exact rule.compose ok
      · exact rule.untouched (startDigest_untouched s) ok

theorem transmitStart (rule : StepRule P) (idleMicros : Nat) {s t : State} (ok : P s)
    (run : execTransmitStart idleMicros s = .next t) : P t := by
  refine Host.Outcome.next.inj run ▸ Keeps.whenLive (fun s ok => ?_) ok
  split
  · exact ok
  · split
    · exact rule.startClass _ (rule.untouched (by constructor <;> rfl) ok)
    · exact ok

theorem transmitted (rule : StepRule P) {s t : State} (ok : P s) (run : execTransmitted s = .next t) : P t := by
  refine Host.Outcome.next.inj run ▸ Keeps.whenLive (fun s ok => ?_) ok
  split
  · exact ok
  · rename_i t _
    have finished := rule.untouched (finishFrame_untouched t s) ok
    unfold claimTransmitted
    split
    · split
      · rename_i c _ _
        exact rule.regroup c.group (fun r => { r with claimWait := true }) (fun _ => rfl) finished
      · exact finished
    · exact finished

theorem collision (rule : StepRule P) {s t : State} (ok : P s) (run : execCollision s = .next t) : P t := by
  refine Host.Outcome.next.inj run ▸ Keeps.whenLive (fun s ok => ?_) ok
  split
  · exact ok
  · rename_i t _
    split
    · exact rule.untouched (by constructor <;> rfl) ok
    · have finished (c : Capture) := rule.untouched (busFault_untouched c _)
        (rule.untouched (finishFrame_untouched t s) ok)
      unfold discardFrame claimDiscarded
      split
      · split
        · rename_i claiming
          rw [Bool.and_eq_true, decide_eq_true_eq] at claiming
          exact rule.settle (rule.discardClaim _ _ claiming.2 (finished _))
        · exact finished _
      · exact finished _

/-! ### Frames heard -/

theorem onTransmission (rule : StepRule P) {f : State → State} (keeps : Keeps P f) : Keeps P (onTransmission f) := by
  refine Keeps.whenLive fun s ok => ?_
  dsimp only
  split
  · exact rule.untouched (by constructor <;> rfl) ok
  · split
    · exact keeps ok
    · exact ok

theorem onFrame (rule : StepRule P) (kind : Byte) (source : Station) {f : State → State} (keeps : Keeps P f) :
    Keeps P (onFrame kind source f) := by
  refine rule.onTransmission fun s ok => ?_
  split
  · exact rule.fault _ (rule.untouched (busFault_untouched _ _) ok)
  · exact keeps ok

theorem onOwnershipFrame (rule : StepRule P) (kind : Byte) (source : Station) {f : State → State} (keeps : Keeps P f) :
    Keeps P (onOwnershipFrame kind source f) :=
  rule.onFrame kind source (Keeps.ite fun _ _ ok => keeps ok)

theorem revisit (rule : StepRule P) (before : State) (source : Option Station) : Keeps P (revisit before source) := by
  intro s ok
  unfold Machine.revisit
  dsimp only
  split
  · exact rule.settle (rule.visitGroups _ _ ok)
  · exact ok

theorem takeBeacon (rule : StepRule P) (p : Station) (b : Beacon) : Keeps P (takeBeacon p b) := by
  intro s ok
  have changed := fun records heard => rule.changeRecords records heard ok
  unfold Machine.takeBeacon
  refine rule.revisit s _ ?_
  split
  · rename_i partner
    exact rule.partnerBeacon p b _ (Bool.and_eq_true_iff.mp partner).2 (changed _ _)
  · exact changed _ _

theorem loseRecord (rule : StepRule P) (p : Station) : Keeps P (loseRecord p) := fun s ok =>
  rule.revisit s none (rule.changeRecords _ false ok)

theorem takeReceipt (rule : StepRule P) (p : Station) (n : Seq) (s : State) (partner : s.fromPartner p = true)
    (ok : P s) : P (takeReceipt n s) := by
  have judged := rule.receipt p n s partner ok
  unfold Machine.takeReceipt
  dsimp only
  split
  · exact judged
  · exact rule.settle (Keeps.foldl (fun g => rule.drainTest g) four judged)

/-! ### Reconciliation -/

theorem applyRelay (rule : StepRule P) : Keeps P applyRelay := by
  intro s ok
  unfold Machine.applyRelay
  split
  · rename_i o _ _
    have taken : P { s with engine.relaySlot := none } := rule.untouched (by constructor <;> rfl) ok
    dsimp only
    split
    · exact rule.bucketOperation .request _ taken (rule.observe o _ ‹_› taken)
    · exact taken
  · exact ok

theorem prepareDigest (rule : StepRule P) : Keeps P prepareDigest := by
  intro s ok
  unfold Machine.prepareDigest
  split
  · split
    · exact ok
    · exact rule.bucketOperation .reader _ ok (rule.untouched (prepareBucket_untouched _ s) ok)
  · exact ok

theorem compareDigest (rule : StepRule P) : Keeps P compareDigest := by
  intro s ok
  unfold Machine.compareDigest
  split
  · split
    · exact ok
    · split
      · exact rule.bucketOperation .reader _ ok (rule.untouched (by constructor <;> rfl) ok)
      · exact rule.untouched (by constructor <;> rfl) ok
  · exact ok

/-! ### Timers -/

theorem releaseAll (rule : StepRule P) : Keeps P releaseAll :=
  Keeps.foldl (fun g => Keeps.ite fun s held => rule.release g s held) four

theorem hostLapses (rule : StepRule P) : Keeps P hostLapses := fun _ ok =>
  rule.settle (Keeps.foldl (fun g => rule.reactLoss g) four (rule.untouched (by constructor <;> rfl) ok))

/-! ### The steps -/

theorem exec (rule : StepRule P) (c : Instr) {s t : State} (ok : P s) (run : exec c s = .next t) : P t := by
  have done {f : State → State} (eq : (.next (f s) : Host.Outcome State Fault Refusal) = .next t)
      (keeps : Keeps P f) : P t := Host.Outcome.next.inj eq ▸ keeps ok
  match c, run with
  | .powerReset straps, run => exact Host.Outcome.next.inj run ▸ rule.reset straps _ _ _ _ s
  | .powerResetOnset, run =>
    exact done (f := fun s => { s with phase := .power, bus.transmitting := none }) run
      (rule.keeps_untouched fun s => by constructor <;> rfl)
  | .pinResetAssert, run => exact done run (rule.keeps_untouched fun s => by constructor <;> rfl).whenLive
  | .pinResetRelease straps, run =>
    refine Host.Outcome.next.inj run ▸ ?_
    split
    · exact rule.reset _ _ _ _ _ s
    · exact ok
    · exact ok
  | .groupLineReadback g foreignDrive, run =>
    refine Host.Outcome.next.inj run ▸ Keeps.whenLive (fun u same => ?_) (rule.untouched (by constructor <;> rfl) ok)
    exact rule.settle (rule.untouched (raiseIf_untouched _ .line u) same)
  | .post value, run => exact done run (rule.keeps_untouched postRequest_untouched).whenLive
  | .pop value, run => exact done run (rule.keeps_untouched fun s => by constructor <;> rfl).whenLive
  | .eventsWrite value, run => exact done run (rule.keeps_untouched fun s => by constructor <;> rfl).whenLive
  | .maskWrite value, run => exact done run (rule.keeps_untouched fun s => by constructor <;> rfl).whenLive
  | .cursorWrite value, run => exact done run (rule.keeps_untouched fun s => by constructor <;> rfl).whenLive
  | .cursorData23Read, run => exact done run (rule.keeps_untouched advanceCursor_untouched).whenLive
  | .cursorSnapshot, run => exact done run (rule.takeSnapshot.whenGranted .cursor).whenLive
  | .clear value, run => exact done run (rule.keeps_untouched fun s => by constructor <;> rfl).whenLive
  | .registerWrite offset size value, run =>
    exact done run (rule.keeps_untouched (writeWindow_untouched offset size value)).whenLive
  | .unknownKind, run =>
    refine done run (Keeps.whenLive fun s ok => ?_)
    split
    · exact ok
    · split
      · exact ok
      · exact rule.respond _ (rule.takeRequest ok)
  | .check, run =>
    exact done run (rule.onRequest _ fun r =>
      rule.sessionRequest r (fun _ => checkOffence r) (rule.checkByState r)).whenEngineGranted
  | .adopt, run =>
    exact done run (rule.onRequest _ fun r =>
      rule.sessionRequest r (fun s => adoptOffence s.port.setup.translate r) (rule.adoptByState r)).whenEngineGranted
  | .retire, run =>
    exact done run (rule.onRequest _ fun r => rule.sessionRequest r (fun _ => keyOffence r) fun s ok =>
      rule.requestOperation r _ ok (rule.retire r ok)).whenEngineGranted
  | .lookup, run =>
    exact done run (rule.onRequest _ fun r => rule.sessionRequest r (fun _ => keyOffence r) fun s ok =>
      rule.requestOperation r _ ok (rule.untouched (lookupInBucket_untouched r s) ok)).whenEngineGranted
  | .health, run => exact done run (rule.onRequest _ fun r => rule.groupRequest r (rule.setHealth r))
  | .hold, run => exact done run (rule.onRequest _ fun r => rule.groupRequest r (rule.setHold r))
  | .unhold, run => exact done run (rule.onRequest _ fun r => rule.groupRequest r (rule.clearHold r))
  | .resync, run => exact done run (rule.onRequest _ rule.resync)
  | .setup, run => exact done run (rule.onRequest _ rule.writeSetup)
  | .seal, run => exact done run (rule.onRequest _ rule.sealRequest)
  | .rejoin, run => exact done run (rule.onRequest _ rule.rejoinRequest)
  | .rejoinClear, run =>
    refine done run (Keeps.whenLive fun s ok => ?_)
    split
    · exact ok
    · exact rule.rejoinSteps _ ok
  | .keep, run => exact done run (rule.onRequest _ fun r s ok => rule.answer r _ ok)
  | .ageTick, run => exact done run (rule.keeps_untouched ageTick_untouched).whenLive
  | .agingVisit, run => exact done run (rule.visitNext.whenGranted .aging).whenLive
  | .transmitStart idleMicros, run => exact rule.transmitStart idleMicros ok run
  | .transmitted, run => exact rule.transmitted ok run
  | .collision, run => exact rule.collision ok run
  | .defer, run => exact done run (rule.keeps_untouched hearStart_untouched).whenLive
  | .invalidFrame bytes, run =>
    exact done run (rule.onTransmission (rule.keeps_untouched (discardInvalid_untouched bytes)))
  | .beaconFrame source content, run => exact done run (rule.onFrame _ source (rule.takeBeacon source content))
  | .claimFrame source content, run => exact done run (rule.onOwnershipFrame _ source (rule.claim content source))
  | .contestFrame source content, run => exact done run (rule.onOwnershipFrame _ source (rule.contest content))
  | .yieldFrame source content, run => exact done run (rule.onOwnershipFrame _ source (rule.yield content source))
  | .receiptFrame source expected, run =>
    exact done run (rule.onFrame _ source (Keeps.ite fun s => rule.takeReceipt source expected s))
  | .deltaFrame source content, run => exact done run (rule.onFrame _ source (rule.acceptDelta source content))
  | .relayFrame source content, run =>
    exact done run (rule.onFrame _ source (rule.keeps_untouched (acceptRelay_untouched source content)))
  | .digestFrame source content, run =>
    exact done run (rule.onFrame _ source (rule.keeps_untouched (acceptDigest_untouched source content)))
  | .fetchFrame source content, run =>
    exact done run (rule.onFrame _ source (rule.keeps_untouched (acceptFetch_untouched source content)))
  | .deltaTake, run => exact done run rule.takeDelta.whenLive
  | .entryJoin, run => exact done run (rule.join.whenGranted .receiveApply).whenLive
  | .purgeHandover, run => exact done run rule.handOver.whenLive
  | .purge, run => exact done run (rule.purge.whenGranted .reader).whenLive
  | .passEndTake, run =>
    refine done run (Keeps.whenLive fun s ok => ?_)
    split
    · exact rule.passEnd _ _ _ _ s ‹_› ok
    · exact ok
  | .relayApply, run => exact done run rule.applyRelay.whenEngineGranted.whenLive
  | .reJournal, run => exact done run (rule.rejournal.whenGranted .reader).whenLive
  | .passEndAppend, run => exact done run rule.appendPassEnd.whenLive
  | .digestTimerExpiry, run => exact done run (rule.keeps_untouched beginDigest_untouched).whenLive
  | .digestPrepare, run => exact done run (rule.prepareDigest.whenGranted .reader).whenLive
  | .digestCompare, run => exact done run (rule.compareDigest.whenGranted .reader).whenLive
  | .beaconTimerExpiry, run =>
    exact done run (Keeps.ite fun s _ => rule.untouched (by constructor <;> rfl)).whenLive
  | .deadTimerExpiry peer, run => exact done run (Keeps.ite fun s _ ok => rule.loseRecord peer ok).whenLive
  | .listenTimerExpiry, run =>
    exact done run (Keeps.ite fun s _ ok => rule.settle (rule.untouched (by constructor <;> rfl) ok)).whenLive
  | .receiptTimerExpiry, run => exact done run (Keeps.ite fun s _ ok => rule.receiptExpires ok).whenLive
  | .stallTimerExpiry, run => exact done run (Keeps.ite fun s _ ok => rule.stall ok).whenLive
  | .claimWaitExpiry g, run =>
    refine done run (Keeps.ite fun s claiming ok => ?_).whenLive
    rw [Bool.and_eq_true, decide_eq_true_eq] at claiming
    exact rule.mature g _ s claiming.2 ok
  | .claimBackoffExpiry g, run =>
    exact done run (Keeps.ite fun s _ ok =>
      rule.settle (rule.regroup g (fun r => { r with backoff := false }) (fun _ => rfl) ok)).whenLive
  | .preemptDelayExpiry g, run => exact done run (Keeps.ite fun s _ ok => rule.preempt g ok).whenLive
  | .drainTimerExpiry g, run =>
    refine done run (Keeps.ite fun s yielding ok => ?_).whenLive
    rw [Bool.and_eq_true, decide_eq_true_eq] at yielding
    exact rule.settle (rule.endDrain g s yielding.2 ok)
  | .adoptionWindowExpiry g, run =>
    refine done run (Keeps.ite fun s _ ok => ?_).whenLive
    have closed := rule.regroup g (fun r => { r with adoptionOpen := false, adoptionTimer := false }) (fun _ => rfl) ok
    exact rule.untouched (by constructor <;> rfl) closed
  | .quorumTimerExpiry, run =>
    exact done run (Keeps.ite fun s _ ok =>
      rule.settle (rule.releaseAll (rule.untouched (by constructor <;> rfl) ok))).whenLive
  | .lineInhibitionExpiry g, run =>
    exact done run (Keeps.ite fun s _ ok =>
      rule.untouched (busFault_untouched _ _)
        (rule.regroup g (fun r => { r with lineTimer := false, lineReported := true }) (fun _ => rfl) ok)).whenLive
  | .hostWatchExpiry, run => exact done run (Keeps.ite fun s _ ok => rule.hostLapses ok).whenLive

/-- Every step keeps an invariant whose operations do. -/
theorem step (rule : StepRule P) {s t : State} (ok : P s) (run : step s = .next t) : P t := by
  unfold Machine.step at run
  split at run
  · exact Host.Outcome.next.inj run ▸ (rule.keeps_untouched referencePeriod_untouched).whenLive ok
  · exact rule.exec _ (rule.untouched (by constructor <;> rfl) ok) run

end StepRule

end Sys2Proof.Machine
end

