-- ==== Sys2Proof/Proofs/JournalOrder.lean ====
section
/-!
PROOFS. The order of the journal (R78): what an append, a rewrite of a record, a receipt, a composition and a clear leave
of it, and what a receipt and a composition do to an ordered journal.
-/

namespace Sys2Proof.Machine

open Sys2Proof

/-! ### Serial comparison of sequences -/

theorem serialBefore_seq (a b : Seq) :
    serialBefore a b = true ↔ 1 ≤ (b - a).toNat ∧ (b - a).toNat < 2147483648 := by
  simp [serialBefore]

/-- Two sequences close after a third: neither is serially before the other only where they are equal. -/
theorem eq_of_not_serialBefore {o a b : Seq} (near : (a - o).toNat ≤ 1024) (near' : (b - o).toNat ≤ 1024)
    (notBefore : ¬ serialBefore a b = true) (notAfter : ¬ serialBefore b a = true) : a = b := by
  rw [serialBefore_seq] at notBefore notAfter
  bv_omega

theorem toNat_offset {i : Nat} (o : Seq) (small : i ≤ 1024) : (o + BitVec.ofNat 32 i - o).toNat = i := by
  rw [BitVec.toNat_sub, BitVec.toNat_add, BitVec.toNat_ofNat]
  omega

theorem offset_inj {o : Seq} {i k : Nat} (small : i ≤ 1024) (small' : k ≤ 1024)
    (eq : o + BitVec.ofNat 32 i = o + BitVec.ofNat 32 k) : i = k := by
  rw [← toNat_offset o small, eq, toNat_offset o small']

/-! ### An ordered journal -/

/-- The journal is ordered, and its first `m` records are the ever-transmitted ones. -/
structure Journal.OrderedTo (j : Journal) (m : Nat) : Prop where
  room : j.records.length ≤ 1024
  next : j.next = j.oldest + BitVec.ofNat 32 j.records.length
  seq : ∀ i r, j.records[i]? = some r → r.seq = j.oldest + BitVec.ofNat 32 i
  sent : ∀ i r, j.records[i]? = some r → (r.sent = true ↔ i < m)
  point : (j.sendPoint - j.oldest).toNat ≤ m
  le : m ≤ j.records.length

theorem ordered_iff (j : Journal) : j.ordered ↔ ∃ m, j.OrderedTo m := by
  constructor
  · rintro ⟨room, next, seq, m, sent, point, le⟩
    exact ⟨m, room, next, seq, sent, point, le⟩
  · rintro ⟨m, room, next, seq, sent, point, le⟩
    exact ⟨room, next, seq, m, sent, point, le⟩

theorem Journal.OrderedTo.ordered {j : Journal} {m : Nat} (ok : j.OrderedTo m) : j.ordered :=
  (ordered_iff j).mpr ⟨m, ok⟩

/-- R78: neither timer matters. -/
theorem Journal.OrderedTo.timers {j : Journal} {m : Nat} (ok : j.OrderedTo m) (receipt stall : Bool) :
    Journal.OrderedTo { j with receiptTimer := receipt, stallTimer := stall } m :=
  ⟨ok.room, ok.next, ok.seq, ok.sent, ok.point, ok.le⟩

/-- R92, R100: an empty journal. -/
theorem ordered_empty (q : Seq) (receipt stall : Bool) : Journal.ordered ⟨[], q, q, q, receipt, stall⟩ := by
  refine Journal.OrderedTo.ordered (m := 0)
    ⟨Nat.zero_le _, ?_, fun i r at_ => ?_, fun i r at_ => ?_, ?_, Nat.le_refl 0⟩
  · exact (BitVec.add_zero q).symm
  · rw [List.getElem?_nil] at at_
    cases at_
  · rw [List.getElem?_nil] at at_
    cases at_
  · rw [BitVec.sub_self]
    exact Nat.le_refl 0

/-- R82, R8: a rewrite of the content or the slot reference of records. -/
theorem Journal.OrderedTo.map {j : Journal} {m : Nat} (ok : j.OrderedTo m) {f : JournalRecord → JournalRecord}
    (seq : ∀ r, (f r).seq = r.seq) (sent : ∀ r, (f r).sent = r.sent) :
    Journal.OrderedTo { j with records := j.records.map f } m where
  room := (List.length_map f).le.trans ok.room
  next := by
    rw [List.length_map]
    exact ok.next
  seq i r at_ := by
    rw [List.getElem?_map, Option.map_eq_some_iff] at at_
    obtain ⟨x, here, rfl⟩ := at_
    rw [seq]
    exact ok.seq i x here
  sent i r at_ := by
    rw [List.getElem?_map, Option.map_eq_some_iff] at at_
    obtain ⟨x, here, rfl⟩ := at_
    rw [sent]
    exact ok.sent i x here
  point := ok.point
  le := by
    rw [List.length_map]
    exact ok.le

/-- R80: a record at the newest end, at the next sequence and not yet transmitted. -/
theorem ordered_append {j : Journal} (ok : j.ordered) (room : j.full = false) (body : RecordBody)
    (slot : Option Handle) : (j.append body slot).ordered := by
  obtain ⟨m, ok⟩ := (ordered_iff j).mp ok
  have room : j.records.length < 1024 := Nat.not_le.mp (of_decide_eq_false room)
  have last {i : Nat} {r : JournalRecord}
      (at_ : (j.records ++ [(⟨j.next, false, body, slot⟩ : JournalRecord)])[i]? = some r) :
      j.records[i]? = some r ∨ i = j.records.length ∧ r = ⟨j.next, false, body, slot⟩ := by
    rcases Nat.lt_trichotomy i j.records.length with lt | rfl | gt
    · exact Or.inl (List.getElem?_append_left lt ▸ at_)
    · rw [List.getElem?_concat_length] at at_
      exact Or.inr ⟨rfl, (Option.some.inj at_).symm⟩
    · rw [List.getElem?_eq_none (by rw [List.length_append, List.length_singleton]; omega)] at at_
      cases at_
  have length : (j.append body slot).records.length = j.records.length + 1 := append_length j body slot
  refine Journal.OrderedTo.ordered (m := m) ⟨by omega, ?_, fun i r at_ => ?_, fun i r at_ => ?_, ok.point,
    by have := ok.le; omega⟩
  · rw [length, BitVec.ofNat_add, ← BitVec.add_assoc]
    exact congrArg (· + 1) ok.next
  · rcases last at_ with old | ⟨rfl, rfl⟩
    · exact ok.seq i r old
    · exact ok.next
  · rcases last at_ with old | ⟨rfl, rfl⟩
    · exact ok.sent i r old
    · exact iff_of_false Bool.false_ne_true (Nat.not_lt.mpr ok.le)

/-! ### Receipts -/

/-- The records that satisfy a test, where those are the first `m`. -/
theorem filter_eq_take {α : Type} (l : List α) (p : α → Bool) (m : Nat)
    (first : ∀ i x, l[i]? = some x → (p x = true ↔ i < m)) : l.filter p = l.take m := by
  induction l generalizing m with
  | nil => simp
  | cons x l ih =>
    have head := first 0 x rfl
    cases m with
    | zero =>
      rw [List.take_zero, List.filter_eq_nil_iff]
      intro y mem yes
      obtain ⟨i, at_⟩ := List.mem_iff_getElem?.mp mem
      exact Nat.not_lt_zero i ((first i y at_).mp yes)
    | succ m =>
      rw [List.filter_cons_of_pos (head.mpr (Nat.succ_pos m)), List.take_succ_cons, ih m fun i y at_ => ?_]
      rw [first (i + 1) y at_]
      omega

theorem sentEnd_eq_getLast? (j : Journal) :
    j.sentEnd = ((j.records.filter (·.sent)).getLast?.map fun x => x.seq + 1).getD j.oldest := by
  unfold Journal.sentEnd
  rw [List.getLast?_eq_head?_reverse, ← List.filter_reverse, List.head?_filter]
  cases j.records.reverse.find? (·.sent) with
  | none => rfl
  | some x => rfl

/-- R88: T, in a journal whose first `m` records are ever-transmitted. -/
theorem Journal.OrderedTo.sentEnd {j : Journal} {m : Nat} (ok : j.OrderedTo m) :
    j.sentEnd = j.oldest + BitVec.ofNat 32 m := by
  rw [sentEnd_eq_getLast?, filter_eq_take j.records _ m ok.sent]
  cases m with
  | zero => exact (BitVec.add_zero j.oldest).symm
  | succ m =>
    have here : j.records[m]? = some (j.records[m]'ok.le) := List.getElem?_eq_getElem ok.le
    rw [List.getLast?_take, if_neg (Nat.succ_ne_zero m), Nat.add_sub_cancel, here]
    dsimp only [Option.some_or, Option.map_some, Option.getD_some]
    rw [ok.seq m _ here, BitVec.ofNat_add, ← BitVec.add_assoc]
    rfl

theorem Journal.OrderedTo.admits_iff {j : Journal} {m : Nat} (ok : j.OrderedTo m) (n : Seq) :
    j.admits n = true ↔ (n - j.oldest).toNat ≤ m := by
  unfold Journal.admits
  rw [decide_eq_true_eq, ok.sentEnd, toNat_offset j.oldest (ok.le.trans ok.room)]

/-- R88: a receipt is ignored exactly where it lies before the oldest held, after T, or at half the range (log 17). -/
theorem admits_false_iff {j : Journal} (ok : j.ordered) (n : Seq) :
    j.admits n = false ↔ serialBefore n j.oldest = true ∨ serialBefore j.sentEnd n = true
      ∨ n = j.oldest + 0x80000000 := by
  obtain ⟨m, ok⟩ := (ordered_iff j).mp ok
  have small : m ≤ 1024 := ok.le.trans ok.room
  rw [← Bool.not_eq_true, ok.admits_iff, serialBefore_seq, serialBefore_seq, ok.sentEnd]
  generalize j.oldest = o
  have e : (BitVec.ofNat 32 m).toNat = m := by
    rw [BitVec.toNat_ofNat]
    omega
  generalize BitVec.ofNat 32 m = c at e ⊢
  subst e
  bv_omega

/-- R88, R89 and R91: an admitted receipt at an ordered journal. The send point becomes its value in each of the cases of
R89. -/
theorem receipt_eq {j : Journal} (ok : j.ordered) {n : Seq} (admitted : j.admits n = true) :
    j.receipt n = { j with
      records := j.records.drop (n - j.oldest).toNat, oldest := n, sendPoint := n
      stallTimer := if n = j.oldest then j.stallTimer
        else (j.records.drop (n - j.oldest).toNat).any (·.sent) } := by
  obtain ⟨m, ok⟩ := (ordered_iff j).mp ok
  have near : (n - j.oldest).toNat ≤ 1024 := ((ok.admits_iff n).mp admitted).trans (ok.le.trans ok.room)
  have near' : (j.sendPoint - j.oldest).toNat ≤ 1024 := ok.point.trans (ok.le.trans ok.room)
  unfold Journal.receipt Journal.carry
  dsimp only
  by_cases before : serialBefore j.sendPoint n = true
  · rw [if_pos before]
    dsimp only
    rw [ite_self]
  · by_cases after : serialBefore n j.sendPoint = true
    · rw [if_neg before]
      dsimp only
      rw [if_pos after]
    · rw [if_neg before]
      dsimp only
      rw [if_neg after, eq_of_not_serialBefore near' near before after]

theorem ordered_receipt {j : Journal} (ok : j.ordered) {n : Seq} (admitted : j.admits n = true) :
    (j.receipt n).ordered := by
  rw [receipt_eq ok admitted]
  obtain ⟨m, ok⟩ := (ordered_iff j).mp ok
  have most := (ok.admits_iff n).mp admitted
  have room := ok.room
  have le := ok.le
  have value : n = j.oldest + BitVec.ofNat 32 (n - j.oldest).toNat := by
    rw [BitVec.ofNat_toNat, BitVec.setWidth_eq, BitVec.add_comm, BitVec.sub_add_cancel]
  generalize (n - j.oldest).toNat = k at most value ⊢
  have shift (i : Nat) : j.oldest + BitVec.ofNat 32 (k + i) = n + BitVec.ofNat 32 i := by
    rw [value, BitVec.ofNat_add, BitVec.add_assoc]
  refine Journal.OrderedTo.ordered (m := m - k) ⟨?_, ?_, fun i r at_ => ?_, fun i r at_ => ?_, ?_, ?_⟩
  · rw [List.length_drop]
    omega
  · dsimp only
    rw [List.length_drop, ← shift, ok.next, Nat.add_sub_cancel' (most.trans le)]
  · rw [List.getElem?_drop] at at_
    rw [ok.seq _ r at_, shift]
  · rw [List.getElem?_drop] at at_
    rw [ok.sent _ r at_]
    omega
  · dsimp only
    rw [BitVec.sub_self]
    exact Nat.zero_le _
  · rw [List.length_drop]
    omega

/-! ### Compositions -/

/-- R86: the bytes of records. -/
def wireLength (l : List JournalRecord) : Nat := (l.flatMap fun r => recordBytes r.wire).length

theorem wireLength_cons (r : JournalRecord) (l : List JournalRecord) :
    wireLength (r :: l) = (recordBytes r.wire).length + wireLength l := by
  simp [wireLength]

/-- R86: the records that fit are the longest start of the list within both limits. -/
theorem fitting_eq_take (n room : Nat) (l : List JournalRecord) :
    ∃ k, fitting n room l = l.take k ∧ k ≤ n ∧ k ≤ l.length ∧ wireLength (l.take k) ≤ room
      ∧ (k < n → k < l.length → room < wireLength (l.take (k + 1))) := by
  induction n generalizing room l with
  | zero => exact ⟨0, rfl, Nat.le_refl 0, Nat.zero_le _, Nat.zero_le _, nofun⟩
  | succ n ih =>
    cases l with
    | nil => exact ⟨0, rfl, Nat.zero_le _, Nat.le_refl 0, Nat.zero_le _, nofun⟩
    | cons r l =>
      unfold fitting
      dsimp only
      by_cases fits : (recordBytes r.wire).length ≤ room
      · obtain ⟨k, eq, le, short, within, more⟩ := ih (room - (recordBytes r.wire).length) l
        rw [if_pos fits, eq]
        refine ⟨k + 1, rfl, by omega, Nat.succ_le_succ short, ?_, fun lt lt' => ?_⟩
        · rw [List.take_succ_cons, wireLength_cons]
          omega
        · have exceeds := more (by omega) (Nat.lt_of_succ_lt_succ lt')
          rw [List.take_succ_cons, wireLength_cons]
          omega
      · rw [if_neg fits]
        refine ⟨0, rfl, Nat.zero_le _, Nat.zero_le _, Nat.zero_le _, fun _ _ => ?_⟩
        rw [List.take_succ_cons, wireLength_cons]
        omega

/-- R86: the records carried: the first of those from the send point on. -/
theorem carried_eq_take (j : Journal) : ∃ k,
    j.carried = (j.records.drop (j.sendPoint - j.oldest).toNat).take k ∧ k ≤ 8
      ∧ k ≤ j.records.length - (j.sendPoint - j.oldest).toNat
      ∧ wireLength ((j.records.drop (j.sendPoint - j.oldest).toNat).take k) ≤ 955
      ∧ (k < 8 → (j.sendPoint - j.oldest).toNat + k < j.records.length →
          955 < wireLength ((j.records.drop (j.sendPoint - j.oldest).toNat).take (k + 1))) := by
  obtain ⟨k, eq, le, short, within, more⟩ := fitting_eq_take 8 955 (j.records.drop (j.sendPoint - j.oldest).toNat)
  rw [List.length_drop] at short more
  exact ⟨k, eq, le, short, within, fun lt lt' => more lt (by omega)⟩

/-- R86: a record of an ordered journal is carried exactly where its place is. -/
theorem Journal.OrderedTo.carries {j : Journal} {m start k i : Nat} {r : JournalRecord} (ok : j.OrderedTo m)
    (at_ : j.records[i]? = some r) :
    ((j.records.drop start).take k).any (fun x => x.seq == r.seq) = decide (start ≤ i ∧ i < start + k) := by
  have bound {i : Nat} {r : JournalRecord} (at_ : j.records[i]? = some r) : i ≤ 1024 :=
    ((List.getElem?_eq_some_iff.mp at_).1.le).trans ok.room
  rw [Bool.eq_iff_iff, List.any_eq_true, decide_eq_true_eq]
  constructor
  · rintro ⟨x, mem, same⟩
    obtain ⟨l, here⟩ := List.mem_iff_getElem?.mp mem
    rw [List.getElem?_take] at here
    split at here
    · rw [List.getElem?_drop] at here
      rw [beq_iff_eq, ok.seq _ x here, ok.seq _ r at_] at same
      have eq := offset_inj (bound here) (bound at_) same
      omega
    · cases here
  · rintro ⟨above, below⟩
    refine ⟨r, List.mem_iff_getElem?.mpr ⟨i - start, ?_⟩, beq_self_eq_true _⟩
    rw [List.getElem?_take, if_pos (by omega), List.getElem?_drop, Nat.add_sub_cancel' above]
    exact at_

/-- R86: what a composition with `k` records leaves. -/
theorem Journal.OrderedTo.composed_records {j : Journal} {m k : Nat} (ok : j.OrderedTo m)
    (carried : j.carried = (j.records.drop (j.sendPoint - j.oldest).toNat).take k) (i : Nat) :
    j.composed.records[i]? = j.records[i]?.map fun r =>
      { r with sent := r.sent || decide (i < (j.sendPoint - j.oldest).toNat + k) } := by
  unfold Journal.composed
  dsimp only
  rw [List.getElem?_map, carried]
  cases at_ : j.records[i]? with
  | none => rfl
  | some r =>
    have point := ok.point
    have sent := ok.sent i r at_
    rw [Option.map_some, Option.map_some, ok.carries at_]
    by_cases inside : (j.sendPoint - j.oldest).toNat ≤ i ∧ i < (j.sendPoint - j.oldest).toNat + k
    · rw [if_pos (decide_eq_true inside), decide_eq_true inside.2, Bool.or_true]
    · rw [if_neg (by rw [decide_eq_true_eq]; exact inside)]
      have same : (r.sent || decide (i < (j.sendPoint - j.oldest).toNat + k)) = r.sent := by
        rw [Bool.or_eq_left_iff_imp, decide_eq_true_eq, sent]
        omega
      rw [same]

theorem ordered_composed {j : Journal} (ok : j.ordered) : j.composed.ordered := by
  obtain ⟨m, ok⟩ := (ordered_iff j).mp ok
  obtain ⟨k, carried, -, short, -, -⟩ := carried_eq_take j
  have records := ok.composed_records carried
  have length : j.composed.records.length = j.records.length := List.length_map _
  have point := ok.point
  have le := ok.le
  have room := ok.room
  have old {i : Nat} {r : JournalRecord} (at_ : j.composed.records[i]? = some r) : ∃ x, j.records[i]? = some x
      ∧ r = { x with sent := x.sent || decide (i < (j.sendPoint - j.oldest).toNat + k) } := by
    rw [records, Option.map_eq_some_iff] at at_
    obtain ⟨x, here, eq⟩ := at_
    exact ⟨x, here, eq.symm⟩
  have count : j.carried.length = k := by
    rw [carried, List.length_take, List.length_drop]
    omega
  refine Journal.OrderedTo.ordered (m := max m ((j.sendPoint - j.oldest).toNat + k))
    ⟨length.le.trans ok.room, ?_, fun i r at_ => ?_, fun i r at_ => ?_, ?_, ?_⟩
  · rw [length]
    exact ok.next
  · obtain ⟨x, here, rfl⟩ := old at_
    exact ok.seq i x here
  · obtain ⟨x, here, rfl⟩ := old at_
    rw [Bool.or_eq_true, decide_eq_true_eq, ok.sent i x here, lt_max_iff]
  · have value : j.composed.sendPoint - j.composed.oldest
        = j.sendPoint - j.oldest + BitVec.ofNat 32 k := by
      unfold Journal.composed
      dsimp only
      rw [count]
      bv_omega
    rw [value]
    refine le_trans ?_ (le_max_right _ _)
    rw [BitVec.toNat_add, BitVec.toNat_ofNat]
    omega
  · rw [length]
    omega

end Sys2Proof.Machine
end

