-- ==== Sys2Proof/Proofs/JournalRules.lean ====
section
/-!
PROOFS. One rule for what the operations of a step do to the journal: they append a record while there is room, rewrite
the content or the slot reference of records, clear the journal, admit a receipt, compose a DELTA, or go back to the
oldest held. A property of the straps and the journal that these keep is kept by every operation but a reset.
-/

namespace Sys2Proof.Machine

open Sys2Proof

/-! ### The ownership controller -/

theorem letThrough_frame (c : Claim) (source : Station) (s : State) : OwnershipFrame s (letThrough c source s) := by
  have raised := (raiseEpoch_frame c.group c.epoch s).ownership
  unfold letThrough
  split
  · dsimp only
    split
    · exact raised.trans (leaveHolding_frame _ _ _ _)
    · exact raised.trans ((mapGroup_frame _ _ _).trans (setOwner_frame _ _ _)).ownership
  · exact .refl s

theorem firewallClaim_frame (c : Claim) (source : Station) (s : State) :
    OwnershipFrame s (firewallClaim c source s) := by
  have contested (reason : ContestReason) : OwnershipFrame s (contest c source reason s) :=
    (handControl_frame _ s).ownership
  unfold firewallClaim
  dsimp only
  split
  · exact contested _
  · split
    · exact letThrough_frame c source s
    · exact contested _
  · split
    · exact ((abandonClaim_frame _ _ _ s).trans (raiseEpoch_frame _ _ _)).ownership
    · exact contested _
  · exact .refl s
  · exact letThrough_frame c source s
  · exact letThrough_frame c source s

theorem witnessClaim_frame (c : Claim) (source : Station) (s : State) : ClaimFrame s (witnessClaim c source s) := by
  have noted (u : State) : ClaimFrame u (setOwner c.group (some source) (noteClaim c source u)) :=
    (mapGroup_frame _ _ u).trans (setOwner_frame _ _ _)
  unfold witnessClaim
  dsimp only
  split
  · exact .refl s
  · split
    · exact handControl_frame _ s
    · split
      · exact noted s
      · split
        · exact handControl_frame _ s
        · exact ((raiseEpoch_frame _ _ s).trans (mapGroup_frame _ _ _)).trans (noted _)

theorem takeClaim_frame (c : Claim) (source : Station) (s : State) : OwnershipFrame s (takeClaim c source s) := by
  unfold takeClaim
  refine OwnershipFrame.trans ?_ (settle_frame _).ownership
  split
  · exact firewallClaim_frame c source s
  · exact (witnessClaim_frame c source s).ownership

theorem takeContest_frame (c : Contest) (s : State) : ClaimFrame s (takeContest c s) := by
  unfold takeContest
  dsimp only
  split
  · exact ((abandonClaim_frame _ _ _ s).trans (raiseEpoch_frame _ _ _)).trans (settle_frame _)
  · exact .refl s

theorem takeYield_frame (y : Yield) (source : Station) (s : State) : ClaimFrame s (takeYield y source s) := by
  unfold takeYield
  split
  · refine ClaimFrame.trans ?_ (mapGroup_frame _ _ _)
    split
    · exact raiseEpoch_frame _ _ s
    · exact .refl s
  · split
    · refine ClaimFrame.trans ?_ (settle_frame _)
      unfold succeedYield
      dsimp only
      split
      · exact (raiseEpoch_frame _ _ s).trans ((mapGroup_frame _ _ _).trans (startClaim_frame _ _ _ _ _))
      · exact raiseEpoch_frame _ _ s
    · exact .refl s

theorem preemptNow_frame (g : GroupId) (s : State) : OwnershipFrame s (preemptNow g s) := by
  have stopped := (mapGroup_frame g (fun r => { r with preempt := false }) s).ownership
  unfold preemptNow
  dsimp only
  split
  · split
    · exact stopped.trans ((enterYielding_frame _ _ _).trans (settle_frame _).ownership)
    · exact stopped
  · exact stopped

section

/-! ### The rule -/

variable {J : Straps → Journal → Prop}

/-- What the operations on the journal have to keep for every operation to keep `J` of the straps and the journal. -/
structure JournalRule (J : Straps → Journal → Prop) : Prop where
  append : ∀ {σ} {j : Journal}, j.full = false → ∀ body slot, J σ j → J σ (j.append body slot)
  rewrite : ∀ {σ} {j : Journal} {f : JournalRecord → JournalRecord}, J σ j →
    (∀ r, (f r).seq = r.seq ∧ (f r).sent = r.sent) → J σ { j with records := j.records.map f }
  clear : ∀ {σ} {j : Journal}, J σ j → J σ ⟨[], j.next, j.next, j.next, false, false⟩
  receipt : ∀ {σ} {j : Journal} {n : Seq}, j.admits n = true → J σ j → J σ (j.receipt n)
  compose : ∀ {σ} {j : Journal}, J σ j → J σ j.composed
  goBack : ∀ {σ} {j : Journal}, J σ j →
    J σ { j with receiptTimer := false, sendPoint := if j.outstanding then j.oldest else j.sendPoint }

/-- The property holds of the station. -/
def OfJournal (J : Straps → Journal → Prop) (s : State) : Prop := J s.straps s.journal

/-- R82: a rewrite of one record. -/
theorem JournalRule.mapRecord (rule : JournalRule J) {σ : Straps} {j : Journal} (q : Seq)
    {f : JournalRecord → JournalRecord} (keeps : ∀ r, (f r).seq = r.seq ∧ (f r).sent = r.sent) (ok : J σ j) :
    J σ (j.mapRecord q f) := by
  refine rule.rewrite ok fun r => ?_
  split
  · exact keeps r
  · exact ⟨rfl, rfl⟩

theorem JournalRule.untouched (_rule : JournalRule J) {s t : State} (same : Untouched s t) (ok : OfJournal J s) :
    OfJournal J t := by
  unfold OfJournal
  rw [same.straps, same.journal]
  exact ok

theorem JournalRule.keeps_place (_rule : JournalRule J) {s t : State} (frame : PlaceFrame s t)
    (journal : t.journal = s.journal) (ok : OfJournal J s) : OfJournal J t := by
  unfold OfJournal
  rw [journal]
  obtain ⟨_, _, _, rfl, _⟩ := frame
  exact ok

/-- The ownership controller does not reach the journal. -/
theorem JournalRule.keeps_ownership (_rule : JournalRule J) {f : State → State} (frame : ∀ s, OwnershipFrame s (f s)) :
    Keeps (OfJournal J) f := by
  intro s ok
  obtain ⟨_, _, _, _, _, _, _, eq⟩ := frame s
  rw [eq]
  exact ok

/-! ### The entry to FAULT and the presence unit -/

theorem JournalRule.keeps_enterFault (rule : JournalRule J) (k : FaultKind) : Keeps (OfJournal J) (enterFault k) := by
  intro s ok
  unfold enterFault
  split
  · have columns : OfJournal J (faultColumns k s) := rule.clear ok
    have raised : OfJournal J (raise .fault (raiseLines (faultColumns k s))) :=
      rule.untouched (s := raiseLines (faultColumns k s)) (by constructor <;> rfl)
        (rule.untouched (raiseIf_untouched _ .line _) columns)
    unfold answerRejoin
    split
    · exact rule.untouched (respond_untouched _ _) raised
    · exact raised
  · exact ok

theorem JournalRule.keeps_integrityFailure (rule : JournalRule J) (c : Client) (b : Bucket) :
    Keeps (OfJournal J) (integrityFailure c b) := fun s ok =>
  rule.keeps_enterFault .integrity (s := captureTable _ s) ok

theorem JournalRule.keeps_verifyClear (rule : JournalRule J) : Keeps (OfJournal J) verifyClear := by
  intro s ok
  unfold verifyClear
  split
  · exact ok
  · exact rule.keeps_integrityFailure _ _ ok

theorem JournalRule.keeps_partnerChange (rule : JournalRule J) (before : Option Station) :
    Keeps (OfJournal J) (partnerChange before) := by
  intro s ok
  have ended : OfJournal J (if s.partnershipEnded before then partnerEnds s else s) := by
    split
    · exact rule.clear ok
    · exact ok
  unfold partnerChange
  dsimp only
  generalize (if s.partnershipEnded before then partnerEnds s else s) = t at ended ⊢
  split
  · exact ok
  · split <;> exact ended

theorem JournalRule.keeps_changeRecords (rule : JournalRule J) (records : Four Peer) (heard : Bool) :
    Keeps (OfJournal J) (changeRecords records heard) := by
  intro s ok
  have told (raised : Bool) {u : State} (same : OfJournal J u) : OfJournal J (quorumChange s.quorumPresent
      (memberOrIsolated (partnerChange s.presentPartner (raiseIf raised .presence u)))) := by
    refine rule.untouched (quorumChange_untouched _ _) ?_
    refine rule.untouched (memberOrIsolated_untouched _) ?_
    exact rule.keeps_partnerChange _ (rule.untouched (raiseIf_untouched _ _ _) same)
  unfold changeRecords
  dsimp only
  split
  · exact rule.keeps_verifyClear (told _ ok)
  · exact told _ ok

theorem JournalRule.keeps_judgeReceipt (rule : JournalRule J) (n : Seq) : Keeps (OfJournal J) (judgeReceipt n) := by
  intro s ok
  unfold judgeReceipt
  split
  · exact rule.receipt ‹_› ok
  · exact ok

theorem JournalRule.keeps_partnerBeacon (rule : JournalRule J) (b : Beacon) :
    Keeps (OfJournal J) (partnerBeacon b) := by
  have asked (u : State) (same : OfJournal J u) : OfJournal J (let v := expectByBeacon b u
      if v.beaconAsksPass b then startPass v else v) := by
    have expected : OfJournal J (expectByBeacon b u) := by
      unfold expectByBeacon
      split
      · exact same
      · split
        · exact same
        · split <;> exact same
    dsimp only
    split
    · exact rule.untouched (startPass_untouched _) expected
    · exact expected
  intro s ok
  unfold partnerBeacon
  cases b.receipt with
  | none => exact asked s ok
  | some n => exact asked _ (rule.keeps_judgeReceipt n ok)

/-! ### Entries -/

/-- R81 to R83. -/
theorem JournalRule.keeps_offer (rule : JournalRule J) (h : Handle) : Keeps (OfJournal J) fun s => (offer h s).1 := by
  intro s ok
  dsimp only
  cases here : s.entryAt h with
  | none => rwa [offer_vacant here]
  | some e =>
    by_cases accepted : s.holds e.group = true ∧ s.partnerPresent = true
    · obtain ⟨held, present⟩ := accepted
      cases pending : e.pending with
      | some q =>
        rw [offer_coalesced here held present pending]
        exact rule.mapRecord q (fun _ => ⟨rfl, rfl⟩) ok
      | none =>
        cases room : s.journal.full with
        | true => rwa [offer_overflows here held present pending room]
        | false =>
          rw [offer_appends here held present pending room]
          exact rule.append room _ _ ok
    · rwa [offer_declined here (by simpa only [not_and_or, Bool.not_eq_true] using accepted)]

theorem JournalRule.keeps_updateEntry (rule : JournalRule J) (h : Handle) (old new : Entry) :
    Keeps (OfJournal J) (updateEntry h old new) := by
  intro s ok
  unfold updateEntry
  dsimp only
  split
  · exact rule.keeps_offer h (s := writeEntry h new s) ok
  · exact ok

theorem JournalRule.keeps_removeEntry (rule : JournalRule J) (h : Handle) :
    Keeps (OfJournal J) (removeEntry h) := fun s =>
  rule.keeps_place (removeEntry_placeFrame h s) (removeEntry_journal h s)

theorem JournalRule.keeps_displace (rule : JournalRule J) (holder : Option Handle) :
    Keeps (OfJournal J) (displace holder) := fun s =>
  rule.keeps_place (displace_placeFrame holder s) (displace_journal holder s)

/-- R8, R82: the record that a new entry takes up changes its slot reference alone. -/
theorem JournalRule.keeps_insertEntry (rule : JournalRule J) (h : Handle) (e : Entry) :
    Keeps (OfJournal J) (insertEntry h e) := by
  intro s ok
  obtain ⟨_, _, _, frame, _⟩ := insertEntry_placeFrame h e s
  have straps : (insertEntry h e s).straps = s.straps := frame ▸ rfl
  unfold OfJournal
  rw [straps, insertEntry_journal]
  refine rule.rewrite ok (fun r => ?_)
  split
  · exact ⟨rfl, rfl⟩
  · exact ⟨rfl, rfl⟩

theorem JournalRule.keeps_insertAt (rule : JournalRule J) (p : Place) (e : Entry) :
    Keeps (OfJournal J) (insertAt p e) := by
  intro s ok
  unfold insertAt
  split
  · exact rule.keeps_insertEntry _ e ok
  · exact rule.keeps_insertEntry _ e (rule.keeps_removeEntry _ ok)
  · exact ok

theorem JournalRule.keeps_respond (rule : JournalRule J) (x : Response) : Keeps (OfJournal J) (respond x) := fun s =>
  rule.untouched (respond_untouched x s)

theorem JournalRule.keeps_createByCheck (rule : JournalRule J) (r : Request) (place : Place) (h : Handle)
    (port : Option Port) :
    Keeps (OfJournal J) (createByCheck r place h port) := by
  intro s ok
  obtain ⟨_, _, taken⟩ := takePort_base r.group port s
  rw [createByCheck_eq, taken]
  exact rule.keeps_respond _ (rule.keeps_offer h (rule.keeps_insertAt place _ ok))

theorem JournalRule.keeps_checkCreates (rule : JournalRule J) (r : Request) : Keeps (OfJournal J) (checkCreates r) := by
  intro s ok
  unfold checkCreates
  dsimp only
  split
  · exact rule.keeps_respond _ ok
  · split
    · split
      · exact rule.keeps_respond _ ok
      · exact rule.keeps_createByCheck r _ _ _ ok
    · exact rule.keeps_createByCheck r _ _ _ ok

theorem JournalRule.keeps_ownerCheck (rule : JournalRule J) (r : Request) : Keeps (OfJournal J) (ownerCheck r) := by
  intro s ok
  unfold ownerCheck
  split
  · split
    · exact rule.keeps_checkCreates r ok
    · exact rule.keeps_respond _ ok
  · split
    · exact rule.keeps_respond _ ok
    · split
      · exact rule.keeps_respond _ (rule.keeps_updateEntry _ _ _ ok)
      · unfold checkLive
        split
        · exact rule.keeps_respond _ ok
        · split
          · exact rule.keeps_respond _ ok
          · exact rule.keeps_respond _ (rule.keeps_updateEntry _ _ _ ok)

theorem JournalRule.keeps_adoptInBucket (rule : JournalRule J) (r : Request) :
    Keeps (OfJournal J) (adoptInBucket r) := by
  intro s ok
  unfold adoptInBucket
  split
  · exact rule.keeps_respond _ ok
  · dsimp only
    split
    · exact rule.keeps_respond _ ok
    · split
      · exact rule.keeps_respond _ ok
      · exact rule.keeps_respond _ (rule.keeps_integrityFailure _ _ ok)
      · exact rule.keeps_respond _
          (rule.keeps_offer _ (rule.keeps_insertAt _ _ (rule.keeps_displace _ ok)))

theorem JournalRule.keeps_retireInBucket (rule : JournalRule J) (r : Request) :
    Keeps (OfJournal J) (retireInBucket r) := by
  intro s ok
  unfold retireInBucket
  split
  · exact rule.keeps_respond _ ok
  · split
    · exact rule.keeps_respond _ ok
    · split
      · exact rule.keeps_respond _ ok
      · split
        · exact rule.keeps_respond _ ok
        · exact rule.keeps_respond _ (rule.keeps_updateEntry _ _ _ ok)

theorem JournalRule.keeps_joinObservation (rule : JournalRule J) (o : Observation) :
    Keeps (OfJournal J) (joinObservation o) := by
  intro s ok
  unfold joinObservation
  split
  · exact ok
  · rename_i h e _
    split
    · exact ok
    · dsimp only
      split
      · exact rule.keeps_offer h (s := writeEntry h _ s) ok
      · exact ok

theorem JournalRule.keeps_visitEntry (rule : JournalRule J) (h : Handle) :
    Keeps (OfJournal J) fun s => visitEntry s h := by
  intro s ok
  unfold visitEntry
  dsimp only
  split
  · exact ok
  · split
    · exact ok
    · split
      · split
        · exact rule.keeps_removeEntry h ok
        · exact ok
      · split
        · exact rule.keeps_updateEntry h _ _ ok
        · exact ok

/-! ### Receive apply, purges and passes -/

theorem JournalRule.keeps_acceptDelta (_rule : JournalRule J) (source : Station) (d : Delta) :
    Keeps (OfJournal J) (acceptDelta source d) := by
  intro s ok
  unfold acceptDelta
  split <;> exact ok

theorem JournalRule.keeps_of_takeFrame (_rule : JournalRule J) {s t : State} (frame : TakeFrame s t)
    (ok : OfJournal J s) :
    OfJournal J t := by
  obtain ⟨_, _, _, _, _, _, rfl⟩ := frame
  exact ok

theorem JournalRule.keeps_takeDelta (rule : JournalRule J) : Keeps (OfJournal J) takeDelta := by
  intro s ok
  unfold takeDelta
  split
  · exact rule.keeps_of_takeFrame (takeRecords_frame _ _ _) ok
  · rename_i d rest _ _
    have caught : OfJournal J (catchUp d.content.oldest { s with receive.waiting := rest }) := by
      unfold catchUp
      split
      · exact ok
      · split <;> exact ok
    exact rule.keeps_of_takeFrame (takeRecords_frame _ _ _) caught
  · exact ok

theorem JournalRule.keeps_withHolder (rule : JournalRule J) (client : Client)
    (holder : Option Handle) {f : State → State}
    (keeps : Keeps (OfJournal J) f) : Keeps (OfJournal J) (withHolder client holder f) := by
  intro s ok
  unfold withHolder
  split
  · exact rule.keeps_integrityFailure _ _ ok
  · exact keeps (rule.keeps_displace holder ok)

theorem JournalRule.keeps_joinWrite (rule : JournalRule J) (h : Handle) (e new : Entry) (c : EntryContent) :
    Keeps (OfJournal J) (joinWrite h e new c) := by
  refine fun s ok => rule.keeps_withHolder _ _ (fun u same => ?_) ok
  unfold movePort
  split
  · exact same
  · have released := rule.keeps_place (releasePort_placeFrame e u) (releasePort_journal e u) same
    exact rule.keeps_place (s := releasePort e u) (t := joinPort h new _) (joinPort_placeFrame h new _)
      (joinPort_journal h new _) released

theorem JournalRule.keeps_joinInsert (rule : JournalRule J) (source : Station) (q : Seq) (c : EntryContent) :
    Keeps (OfJournal J) (joinInsert source q c) := by
  intro s ok
  unfold joinInsert
  dsimp only
  split
  · exact ok
  · refine rule.keeps_withHolder _ _ (fun u same => ?_) ok
    split
    · exact rule.keeps_insertAt _ _ (s := tableEvent _ _ _ _ u) same
    · exact rule.keeps_insertAt _ _ same

theorem JournalRule.keeps_joinRecord (rule : JournalRule J) (source : Station) (q : Seq) (c : EntryContent) :
    Keeps (OfJournal J) (joinRecord source q c) := by
  intro s ok
  unfold joinRecord
  split
  · exact rule.keeps_joinInsert source q c ok
  · split
    · exact rule.keeps_joinWrite _ _ _ c ok
    · split
      · exact rule.keeps_joinWrite _ _ _ c ok
      · exact ok

theorem JournalRule.keeps_bucketOperation (rule : JournalRule J) (c : Client) (b : Bucket) {f : State → State}
    (keeps : Keeps (OfJournal J) f) : Keeps (OfJournal J) (bucketOperation c b f) := by
  intro s ok
  unfold bucketOperation
  split
  · exact keeps ok
  · exact rule.keeps_integrityFailure c b ok

theorem JournalRule.keeps_joinInHand (rule : JournalRule J) : Keeps (OfJournal J) joinInHand := by
  intro s ok
  unfold joinInHand
  split
  · rename_i source r rest _
    split
    · rename_i c _
      have joined := rule.keeps_bucketOperation .receiveApply (bucketOf c.key)
        (rule.keeps_joinRecord source r.seq c) ok
      dsimp only
      split
      · exact joined
      · exact rule.keeps_of_takeFrame (recordDone_frame source r rest _) joined
    · exact ok
    · exact ok
  · exact ok

theorem JournalRule.keeps_handOver (rule : JournalRule J) : Keeps (OfJournal J) handOver := by
  intro s ok
  unfold handOver
  split
  · split
    · rename_i item _
      split
      · exact rule.keeps_of_takeFrame (recordDone_frame _ _ _ _)
          (s := { s with recon.purge := s.recon.purge ++ [item] }) ok
      · exact ok
    · exact ok
  · exact ok

theorem JournalRule.keeps_purgeEntry (rule : JournalRule J) (source : Station) (groups : GroupSet) (opening : Seq)
    (h : Handle) :
    Keeps (OfJournal J) fun s => purgeEntry source groups opening s h := by
  intro s ok
  unfold purgeEntry
  dsimp only
  split
  · exact ok
  · split
    · exact rule.keeps_removeEntry h ok
    · exact ok

theorem JournalRule.keeps_purgeHead (rule : JournalRule J) : Keeps (OfJournal J) purgeHead := by
  intro s ok
  unfold purgeHead
  split
  · rename_i source b groups opening _ _
    refine rule.keeps_bucketOperation .reader b (fun u same => ?_) ok
    exact Keeps.foldl (fun h => rule.keeps_purgeEntry source groups opening h) ((u.table.bucket b).map (·.1)) same
  · exact ok

theorem JournalRule.keeps_takePassEnd (rule : JournalRule J) (groups : GroupSet) (start : Seq) :
    Keeps (OfJournal J) (takePassEnd groups start) := by
  intro s ok
  unfold takePassEnd
  dsimp only
  split
  · refine rule.untouched (raiseIf_untouched _ .sync _) ?_
    split <;> exact ok
  · exact ok

theorem JournalRule.keeps_rejournalEntries (rule : JournalRule J) (l : List Handle) {x : State × Option Seq}
    (ok : OfJournal J x.1) :
    OfJournal J (l.foldl rejournalEntry x).1 := by
  induction l generalizing x with
  | nil => exact ok
  | cons h l ih => exact ih (x := rejournalEntry x h) (rule.keeps_offer h ok)

theorem mayAppend_room {s : State} (may : s.mayAppend = true) : s.journal.full = false := by
  unfold State.mayAppend at may
  rw [Bool.and_eq_true, Bool.not_eq_true'] at may
  exact may.2

theorem JournalRule.keeps_rejournalBucket (rule : JournalRule J) (b : Bucket) :
    Keeps (OfJournal J) (rejournalBucket b) := by
  intro s ok
  have offered := rule.keeps_rejournalEntries
    (((s.table.bucket b).filter fun x => s.heldSet.get x.2.entry.group).map (·.1)) (x := (s, none)) ok
  unfold rejournalBucket
  dsimp only
  split
  · rename_i may
    exact rule.append (mayAppend_room (Bool.and_eq_true_iff.mp may).2) _ _ offered
  · exact offered

theorem JournalRule.keeps_rejournal (rule : JournalRule J) : Keeps (OfJournal J) rejournal := by
  intro s ok
  unfold rejournal
  split
  · split
    · exact rule.keeps_bucketOperation .reader _ (rule.keeps_rejournalBucket _) ok
    · exact ok
  · exact ok

theorem JournalRule.keeps_appendPassEnd (rule : JournalRule J) : Keeps (OfJournal J) appendPassEnd := by
  intro s ok
  unfold appendPassEnd
  split
  · rename_i may
    exact rule.append (mayAppend_room (Bool.and_eq_true_iff.mp may).2) _ _ ok
  · exact ok

/-! ### Compositions and timers -/

theorem JournalRule.keeps_clearPending (rule : JournalRule J) (r : JournalRecord) :
    Keeps (OfJournal J) fun s => clearPending s r := by
  intro s ok
  unfold clearPending
  dsimp only
  split
  · exact ok
  · split
    · exact ok
    · split
      · exact ok
      · exact rule.keeps_integrityFailure _ _ ok

theorem JournalRule.keeps_composeDelta (rule : JournalRule J) : Keeps (OfJournal J) composeDelta := by
  intro s ok
  have composed := rule.compose ok
  unfold composeDelta
  dsimp only
  generalize (⟨s.journal.oldest, s.journal.carried.map JournalRecord.wire⟩ : Delta) = d
  exact Keeps.foldl rule.keeps_clearPending s.journal.carried
    (s := { s with
      journal := s.journal.composed
      bus.delta := some d
      bus.transmitting := some ⟨.delta d, true⟩ }) composed

theorem JournalRule.keeps_receiptExpires (rule : JournalRule J) : Keeps (OfJournal J) receiptExpires := fun _ ok =>
  rule.goBack ok

theorem JournalRule.keeps_stall (rule : JournalRule J) : Keeps (OfJournal J) stall := fun s ok =>
  rule.untouched (startPass_untouched _) (rule.keeps_verifyClear
    (s := spoilDrains (raise .lag (journalClear s))) (rule.clear ok))

end

end Sys2Proof.Machine
end

