-- ==== Sys2Proof/Proofs/JournalOfSteps.lean ====
section
/-!
PROOFS. Every step keeps the order of the journal (R78).
-/

namespace Sys2Proof.Machine

open Sys2Proof

/-- R90: going back to the oldest held. -/
theorem ordered_goBack {j : Journal} (ok : j.ordered) :
    Journal.ordered { j with
      receiptTimer := false, sendPoint := if j.outstanding then j.oldest else j.sendPoint } := by
  obtain ⟨m, ok⟩ := (ordered_iff j).mp ok
  refine Journal.OrderedTo.ordered ⟨ok.room, ok.next, ok.seq, ok.sent, ?_, ok.le⟩
  dsimp only
  split
  · rw [BitVec.sub_self]
    exact Nat.zero_le m
  · exact ok.point

theorem ordered_rule : JournalRule fun _ j => j.ordered where
  append room body slot ok := ordered_append ok room body slot
  rewrite ok keeps := by
    obtain ⟨m, ok⟩ := (ordered_iff _).mp ok
    exact (ok.map (fun r => (keeps r).1) fun r => (keeps r).2).ordered
  clear _ := ordered_empty _ _ _
  receipt admitted ok := ordered_receipt ok admitted
  compose := ordered_composed
  goBack := ordered_goBack

/-- The journal of the station is ordered. -/
def State.journalOrdered (s : State) : Prop := OfJournal (fun _ j => j.ordered) s

theorem journalOrdered_rule : StepRule State.journalOrdered where
  untouched := ordered_rule.untouched
  reset _ _ _ _ _ _ := ordered_rule.untouched (raiseIf_untouched _ .line _) (ordered_empty 1 false false)
  fault := ordered_rule.keeps_enterFault
  rejoin _ _ := ordered_empty _ _ _
  regroup _ _ _ _ ok := ok
  vacate _ _ _ ok := ok
  unsync _ _ _ ok := ok
  settle := ordered_rule.keeps_ownership fun s => (settle_frame s).ownership
  reactLoss g := ordered_rule.keeps_ownership (reactLoss_frame g)
  drainTest g := ordered_rule.keeps_ownership (drainTest_frame g)
  visitGroups source partner := ordered_rule.keeps_ownership (visitGroups_frame source partner)
  discardClaim g _ _ ok := ordered_rule.keeps_ownership (fun s => (abandonClaim_frame g _ _ s).ownership) ok
  mature g tenure _ _ ok := ordered_rule.keeps_ownership (enterHolding_frame g tenure) ok
  preempt g := ordered_rule.keeps_ownership (preemptNow_frame g)
  endDrain g _ _ ok := ordered_rule.keeps_ownership (endDrain_frame g false) ok
  release g _ _ ok := ordered_rule.keeps_ownership (release_frame g) ok
  claim c source := ordered_rule.keeps_ownership (takeClaim_frame c source)
  contest c := ordered_rule.keeps_ownership fun s => (takeContest_frame c s).ownership
  yield y source := ordered_rule.keeps_ownership fun s => (takeYield_frame y source s).ownership
  changeRecords := ordered_rule.keeps_changeRecords
  partnerBeacon _ b _ _ ok := ordered_rule.keeps_partnerBeacon b ok
  receipt _ n _ _ ok := ordered_rule.keeps_judgeReceipt n ok
  ownerCheck r _ _ ok := ordered_rule.keeps_ownerCheck r ok
  adopt r _ _ ok := ordered_rule.keeps_adoptInBucket r ok
  retire := ordered_rule.keeps_retireInBucket
  observe o _ _ ok := ordered_rule.keeps_joinObservation o ok
  visitEntry := ordered_rule.keeps_visitEntry
  acceptDelta := ordered_rule.keeps_acceptDelta
  takeDelta := ordered_rule.keeps_takeDelta
  join := ordered_rule.keeps_joinInHand
  handOver := ordered_rule.keeps_handOver
  purge := ordered_rule.keeps_purgeHead
  passEnd _ groups start _ _ _ ok := ordered_rule.keeps_takePassEnd groups start ok
  rejournal := ordered_rule.keeps_rejournal
  appendPassEnd := ordered_rule.keeps_appendPassEnd
  compose := ordered_rule.keeps_composeDelta
  receiptExpires := ordered_rule.keeps_receiptExpires
  stall := ordered_rule.keeps_stall

/-- Settles O9: each operation of a step keeps the order of the journal. -/
theorem stepsKeepJournalOrder : Obligations.StepsKeepJournalOrder := fun _ _ ok run => journalOrdered_rule.step ok run

end Sys2Proof.Machine
end

