-- ==== Sys2Proof/Proofs/WitnessOfSteps.lean ====
section
/-!
PROOFS. Every step keeps a witness inert (chapter 1, R93, R136). With an empty table, no partner and no group that it
claims or holds, an operation of a firewall finds nothing to do at a witness; and no operation but a reset makes a
witness of a firewall.
-/

namespace Sys2Proof.Machine

open Sys2Proof

/-! ### Inert witnesses -/

/-- The states that a group may have at a witness (R136). -/
def observed : GroupState → Bool
  | .disabled | .vacant | .following => true
  | .claiming | .holding | .yielding => false

theorem observed_iff (x : GroupState) : observed x = true ↔ x = .disabled ∨ x = .vacant ∨ x = .following := by
  cases x <;> simp [observed]

theorem held_of_observed {x : GroupState} (seen : observed x = true) : x.held = false := by
  cases x <;> simp_all [observed, GroupState.held]

/-- A witness that keeps nothing. -/
structure State.Inert (s : State) : Prop where
  role : s.straps.role = .witness
  table : s.table = []
  records : s.journal.records = []
  taking : s.receive.taking = none
  waiting : s.receive.waiting = []
  want : s.receive.want = false
  synced : s.recon.synced = Four.all false
  purge : s.recon.purge = []
  partner : s.presence.partner = none
  groups : ∀ g, observed (s.group g).state = true

theorem inert_iff (s : State) : s.Inert ↔ s.straps.role = .witness ∧ s.witnessInert := by
  constructor
  · rintro ⟨role, table, records, taking, waiting, want, synced, purge, partner, groups⟩
    exact ⟨role, fun _ =>
      ⟨table, records, taking, waiting, want, synced, purge, partner, fun g => (observed_iff _).mp (groups g)⟩⟩
  · rintro ⟨role, ok⟩
    obtain ⟨table, records, taking, waiting, want, synced, purge, partner, groups⟩ := ok role
    exact ⟨role, table, records, taking, waiting, want, synced, purge, partner,
      fun g => (observed_iff _).mpr (groups g)⟩

/-- An operation keeps the invariant where it keeps the straps and an inert witness inert. -/
theorem witnessInert_of {s t : State} (straps : t.straps = s.straps) (keeps : s.Inert → t.Inert)
    (ok : s.witnessInert) : t.witnessInert := by
  intro witness
  have inert := keeps ((inert_iff s).mpr ⟨straps ▸ witness, ok⟩)
  exact ((inert_iff t).mp inert).2 witness

/-! ### What an inert witness does not do -/

namespace State.Inert

variable {s t : State}

theorem untouched (same : Untouched s t) (ok : s.Inert) : t.Inert where
  role := by rw [same.straps, ok.role]
  table := by rw [same.table, ok.table]
  records := by rw [same.journal, ok.records]
  taking := by rw [same.receive, ok.taking]
  waiting := by rw [same.receive, ok.waiting]
  want := by rw [same.receive, ok.want]
  synced := by rw [same.synced, ok.synced]
  purge := by rw [same.purge, ok.purge]
  partner := by rw [same.partner, ok.partner]
  groups g := by
    unfold State.group
    rw [same.groups]
    exact ok.groups g

theorem notHeld (ok : s.Inert) (g : GroupId) : s.holds g = false :=
  held_of_observed (ok.groups g)

theorem not_state (ok : s.Inert) {g : GroupId} {x : GroupState} (unseen : observed x = false) :
    (s.group g).state ≠ x := by
  intro eq
  rw [← eq, ok.groups g] at unseen
  cases unseen

theorem noPartner (ok : s.Inert) : s.presentPartner = none := by
  unfold State.presentPartner
  rw [ok.partner]
  rfl

theorem notFromPartner (ok : s.Inert) (p : Station) : s.fromPartner p = false := by
  unfold State.fromPartner
  rw [ok.noPartner]
  rfl

theorem notPresent (ok : s.Inert) : s.partnerPresent = false := by
  unfold State.partnerPresent
  rw [ok.noPartner]
  rfl

theorem notEligible (ok : s.Inert) (g : GroupId) : s.eligible g = false := by
  unfold State.eligible State.eligibleButLine
  rw [ok.role]
  rfl

theorem vacant (ok : s.Inert) (h : Handle) : s.entryAt h = none := by
  unfold State.entryAt
  rw [ok.table]
  rfl

theorem bucket (ok : s.Inert) (b : Bucket) : s.table.bucket b = [] := by
  rw [ok.table]
  rfl

theorem absent (ok : s.Inert) (k : Key) : s.table.find k = none := by
  unfold Table.find
  rw [ok.bucket]
  rfl

/-! ### The group records -/

theorem mapGroup (ok : s.Inert) {g : GroupId} {f : GroupRecord → GroupRecord}
    (seen : observed (f (s.group g)).state = true) : (mapGroup g f s).Inert where
  role := ok.role
  table := ok.table
  records := ok.records
  taking := ok.taking
  waiting := ok.waiting
  want := ok.want
  synced := ok.synced
  purge := ok.purge
  partner := ok.partner
  groups k := by
    by_cases same : k = g
    · rw [same, mapGroup_group_same]
      exact seen
    · rw [mapGroup_group_other _ _ same]
      exact ok.groups k

theorem setOwner (ok : s.Inert) (g : GroupId) (o : Option Station) : (setOwner g o s).Inert := by
  unfold Machine.setOwner
  split
  · exact ok
  · have owned := ok.mapGroup (g := g) (f := fun r => { r with owner := o }) (ok.groups g)
    refine { owned with synced := ?_ }
    dsimp only
    rw [owned.synced]
    refine Four.ext_get fun k => ?_
    rw [Four.get_set, Four.get_all, ite_self]

theorem raiseEpoch (ok : s.Inert) (g : GroupId) (e : Epoch) : (raiseEpoch g e s).Inert := ok.mapGroup (ok.groups g)

/-- R139: a witness is never eligible, so it claims nothing. -/
theorem settleGroup (ok : s.Inert) (g : GroupId) : (settleGroup s g).Inert := by
  have noClaim : ((s.group g).state = .claiming && !s.eligible g) = false :=
    Bool.and_eq_false_iff.mpr (Or.inl (decide_eq_false (ok.not_state rfl)))
  have mayNot : s.mayClaim g = false := by
    unfold State.mayClaim
    rw [ok.notEligible, Bool.and_false, Bool.false_and, Bool.false_and]
  unfold Machine.settleGroup followLine
  simp only [noClaim, mayNot, Bool.false_eq_true, if_false]
  split
  · exact ok.mapGroup (ok.groups g)
  · exact ok.mapGroup (ok.groups g)

theorem settle (ok : s.Inert) : (settle s).Inert :=
  Keeps.foldl (P := State.Inert) (fun g _ ok => ok.settleGroup g) four ok

theorem reactLoss (ok : s.Inert) (g : GroupId) : reactLoss g s = s := if_neg (ok.not_state rfl)

theorem drainTest (ok : s.Inert) (g : GroupId) : drainTest g s = s := by
  refine if_neg ?_
  unfold State.drainComplete
  rw [decide_eq_false (ok.not_state rfl), Bool.false_and, Bool.false_and, Bool.false_and]
  exact Bool.false_ne_true

theorem resolveDual (ok : s.Inert) (g : GroupId) (source : Option Station) : resolveDual g source s = s := by
  unfold Machine.resolveDual
  split
  · rfl
  · rw [ok.notHeld, Bool.false_and]
    rfl

theorem giveUpYield (ok : s.Inert) (g : GroupId) : giveUpYield g s = s := by
  refine if_neg ?_
  unfold State.yieldLost
  rw [decide_eq_false (ok.not_state rfl), Bool.false_and]
  exact Bool.false_ne_true

theorem yieldToHolder (ok : s.Inert) (g : GroupId) (source : Option Station) : yieldToHolder g source s = s := by
  unfold Machine.yieldToHolder
  split
  · rw [decide_eq_false (ok.not_state rfl), Bool.false_and, Bool.false_and]
    rfl
  · rfl

theorem takeEpoch (ok : s.Inert) (g : GroupId) (source : Option Station) : (takeEpoch g source s).Inert := by
  unfold Machine.takeEpoch
  split
  · exact ok.raiseEpoch g _
  · exact ok.raiseEpoch g _
  · exact ok.raiseEpoch g _
  · exact ok

/-- R141, R142: a group of a witness is VACANT or FOLLOWING afterwards. -/
theorem followOrLose (ok : s.Inert) (g : GroupId) (source : Option Station) : (followOrLose g source s).Inert := by
  have lost : (if s.ownerLost g source then
      Machine.setOwner g none (Machine.mapGroup g (fun r =>
        { r with state := .vacant, claimNote := none, yieldNote := none }) s)
    else s).Inert := by
    split
    · exact setOwner (ok.mapGroup rfl) g none
    · exact ok
  unfold Machine.followOrLose
  dsimp only
  generalize (if s.ownerLost g source then _ else s) = u at lost ⊢
  unfold followHolder
  split
  · exact (setOwner (lost.mapGroup rfl) g _).raiseEpoch g _
  · exact (setOwner (lost.mapGroup rfl) g _).raiseEpoch g _
  · exact lost

theorem preemptTest (ok : s.Inert) (g : GroupId) : (preemptTest g s).Inert := by
  have without : s.preemptCondition g = false := by
    unfold State.preemptCondition
    rw [decide_eq_false (ok.not_state rfl), Bool.and_false, Bool.false_and]
  unfold Machine.preemptTest
  rw [without]
  exact ok.mapGroup (f := fun r => { r with preempt := false }) (ok.groups g)

theorem visitGroup (ok : s.Inert) (source : Option Station) (partner : Bool) (g : GroupId) :
    (visitGroup source partner s g).Inert := by
  have followed := (ok.takeEpoch g source).followOrLose g source
  unfold Machine.visitGroup
  dsimp only
  rw [ok.resolveDual, ok.giveUpYield, ok.yieldToHolder]
  generalize Machine.followOrLose g source _ = u at followed ⊢
  have tested : (if partner then Machine.preemptTest g u else u).Inert := by
    split
    · exact followed.preemptTest g
    · exact followed
  generalize (if partner then Machine.preemptTest g u else u) = v at tested ⊢
  split
  · rw [tested.drainTest]
    exact tested
  · exact tested

theorem visitGroups (ok : s.Inert) (source : Option Station) (partner : Bool) :
    (visitGroups source partner s).Inert :=
  Keeps.foldl (P := State.Inert) (fun g _ ok => ok.visitGroup source partner g) four ok

/-! ### Ownership frames -/

theorem handControl (ok : s.Inert) (f : ControlFrame) : (handControl f s).Inert := by
  unfold Machine.handControl
  split
  · exact ok.untouched (by constructor <;> rfl)
  · exact ok.untouched (busFault_untouched _ s)

theorem witnessClaim (ok : s.Inert) (c : Claim) (source : Station) : (witnessClaim c source s).Inert := by
  have noted {u : State} (same : u.Inert) : (Machine.setOwner c.group (some source) (noteClaim c source u)).Inert :=
    setOwner (same.mapGroup (same.groups c.group)) c.group _
  unfold Machine.witnessClaim
  dsimp only
  split
  · exact ok
  · split
    · exact ok.handControl _
    · split
      · exact noted ok
      · split
        · exact ok.handControl _
        · exact noted ((ok.raiseEpoch c.group c.epoch).mapGroup rfl)

theorem takeClaim (ok : s.Inert) (c : Claim) (source : Station) : (takeClaim c source s).Inert := by
  unfold Machine.takeClaim
  rw [ok.role]
  exact (ok.witnessClaim c source).settle

theorem takeContest (ok : s.Inert) (c : Contest) : takeContest c s = s :=
  if_neg fun claiming => ok.not_state rfl claiming.2.1

theorem takeYield (ok : s.Inert) (y : Yield) (source : Station) : (takeYield y source s).Inert := by
  have noted {u : State} (same : u.Inert) : (noteYield y source u).Inert := same.mapGroup (same.groups y.group)
  unfold Machine.takeYield
  rw [ok.role]
  dsimp only
  split
  · exact noted (ok.raiseEpoch y.group y.epoch)
  · exact noted ok

/-! ### FAULT, REJOIN and the presence records -/

theorem vacated (ok : s.Inert) {groups : Four GroupRecord}
    (states : ∀ g, (groups.get g).state = .disabled ∨ (groups.get g).state = .vacant) :
    State.Inert { s with own.groups := groups } :=
  { ok with
    groups := fun g => (observed_iff _).mpr ((states g).imp_right Or.inl) }

theorem clearedOwnership (ok : s.Inert) : (clearOwnership s).Inert := by
  refine (ok.vacated (groups := (clearOwnership s).own.groups) fun g => ?_).untouched (by constructor <;> rfl)
  unfold clearOwnership
  rw [Four.get_build]
  unfold GroupRecord.cleared
  dsimp only
  split
  · exact Or.inr rfl
  · exact Or.inl rfl

theorem journalCleared (ok : s.Inert) : (journalClear s).Inert :=
  { ok with
    table := by
      unfold journalClear
      rw [ok.table]
      rfl
    records := rfl }

theorem enterFault (ok : s.Inert) (k : FaultKind) : (enterFault k s).Inert := by
  unfold Machine.enterFault
  split
  · have columns : (faultColumns k s).Inert :=
      { ok.journalCleared.clearedOwnership with taking := rfl, waiting := rfl, purge := rfl }
    have raised : (raise .fault (raiseLines (faultColumns k s))).Inert :=
      (columns.untouched (raiseIf_untouched _ .line _)).untouched (by constructor <;> rfl)
    unfold answerRejoin
    split
    · exact State.Inert.untouched (respond_untouched _ _) (raised.untouched (by constructor <;> rfl))
    · exact raised
  · exact ok

theorem verifyClear (ok : s.Inert) : verifyClear s = s := by
  refine verifyClear_sound s ?_
  rw [ok.table]
  rfl

/-- R135: the want of a witness is clear. -/
theorem rejoinColumns (ok : s.Inert) : (rejoinColumns s).Inert :=
  { ok.clearedOwnership with
    table := rfl
    records := rfl
    taking := rfl
    waiting := rfl
    want := decide_eq_false (by rw [ok.clearedOwnership.role]; nofun)
    synced := rfl
    purge := rfl
    partner := rfl }

/-- R133: a witness has no partner, so a change of its records begins or ends no partner's presence. -/
theorem changeRecords (ok : s.Inert) (records : Four Peer) (heard : Bool) : (changeRecords records heard s).Inert := by
  have told (settled : Four Peer) (witness : Option Station) (watched : StationSet) (raised : Bool) :
      (quorumChange s.quorumPresent (memberOrIsolated (partnerChange none (raiseIf raised .presence { s with
        presence.records := settled, presence.partner := none
        presence.witness := witness, presence.watched := watched })))).Inert := by
    have noted : (raiseIf raised .presence { s with
        presence.records := settled, presence.partner := none
        presence.witness := witness, presence.watched := watched }).Inert :=
      untouched (raiseIf_untouched _ _ _) { ok with partner := rfl }
    unfold partnerChange
    rw [if_pos noted.noPartner.symm]
    exact (noted.untouched (memberOrIsolated_untouched _)).untouched (quorumChange_untouched _ _)
  unfold Machine.changeRecords designate
  rw [ok.noPartner, ok.role]
  exact told _ _ _ _

end State.Inert

/-! ### The straps -/

/-- No operation on the journal reaches the straps. -/
theorem straps_rule (σ : Straps) : JournalRule fun τ _ => τ = σ where
  append _ _ _ ok := ok
  rewrite ok _ := ok
  clear ok := ok
  receipt _ ok := ok
  compose ok := ok
  goBack ok := ok

/-- An operation that keeps the straps, and an inert witness inert. -/
theorem keeps_witnessInert {f : State → State} (straps : ∀ σ, Keeps (OfJournal fun τ _ => τ = σ) f)
    (keeps : Keeps State.Inert f) : Keeps State.witnessInert f := fun s =>
  witnessInert_of (straps s.straps (s := s) rfl) (@keeps s)

/-- An operation that comes to nothing at an inert witness. -/
theorem keeps_witnessInert_of_not {f : State → State} {s : State}
    (straps : ∀ σ, Keeps (OfJournal fun τ _ => τ = σ) f) (not : ¬ s.Inert) (ok : s.witnessInert) :
    (f s).witnessInert :=
  witnessInert_of (straps s.straps (s := s) rfl) (fun inert => (not inert).elim) ok

theorem keeps_witnessInert_ownership {f : State → State} (frame : ∀ s, OwnershipFrame s (f s))
    (keeps : Keeps State.Inert f) : Keeps State.witnessInert f :=
  keeps_witnessInert (fun σ => (straps_rule σ).keeps_ownership frame) keeps

/-! ### The steps -/

theorem acceptDelta_inert (source : Station) (d : Delta) : Keeps State.Inert (acceptDelta source d) := by
  intro s ok
  unfold acceptDelta
  rw [ok.role]
  exact ok

theorem takeDelta_inert : Keeps State.Inert takeDelta := by
  intro s ok
  unfold takeDelta
  rw [ok.taking, ok.waiting]
  exact ok

theorem joinInHand_inert : Keeps State.Inert joinInHand := by
  intro s ok
  unfold joinInHand
  rw [ok.taking]
  exact ok

theorem handOver_inert : Keeps State.Inert handOver := by
  intro s ok
  unfold handOver
  rw [ok.taking]
  exact ok

theorem purgeHead_inert : Keeps State.Inert purgeHead := by
  intro s ok
  unfold purgeHead
  rw [ok.purge]
  exact ok

theorem rejournal_inert : Keeps State.Inert rejournal := by
  intro s ok
  have mayNot : s.mayRejournal = false := by
    unfold State.mayRejournal
    rw [ok.notPresent, Bool.and_false, Bool.false_and, Bool.false_and]
  unfold rejournal
  rw [mayNot]
  split <;> exact ok

theorem appendPassEnd_inert : Keeps State.Inert appendPassEnd := by
  intro s ok
  unfold appendPassEnd State.mayAppend
  rw [ok.notPresent, Bool.false_and, Bool.and_false]
  exact ok

theorem retireInBucket_inert (r : Request) : Keeps State.Inert (retireInBucket r) := by
  intro s ok
  unfold retireInBucket
  rw [ok.absent]
  exact ok.untouched (respond_untouched _ s)

theorem visitEntry_inert (h : Handle) : Keeps State.Inert fun s => visitEntry s h := by
  intro s ok
  unfold visitEntry
  dsimp only
  rw [ok.vacant]
  exact ok

/-- R86: the journal of a witness has no records to carry. -/
theorem composeDelta_inert : Keeps State.Inert composeDelta := by
  intro s ok
  have none : s.journal.carried = [] := by
    unfold Journal.carried
    rw [ok.records, List.drop_nil]
    rfl
  have composed : s.journal.composed.records = [] := by
    unfold Journal.composed
    rw [ok.records]
    rfl
  unfold composeDelta
  rw [none]
  exact { ok with records := composed }

theorem stall_inert : Keeps State.Inert stall := by
  intro s ok
  have lagged : (raise .lag (journalClear s)).Inert := ok.journalCleared.untouched (by constructor <;> rfl)
  have spoiled : (spoilDrains (raise .lag (journalClear s))).Inert :=
    { lagged with
      groups := fun g => by
        unfold State.group spoilDrains
        rw [Four.get_build]
        dsimp only
        split
        · exact lagged.groups g
        · exact lagged.groups g }
  unfold stall
  rw [spoiled.verifyClear]
  exact spoiled.untouched (startPass_untouched _)

/-- R100, R135, R163: a reset of any kind, with the straps it samples. -/
theorem resetStation_witnessInert (straps : Straps) (cause : Cause) (bus table request : Option Capture) (s : State) :
    (resetStation straps cause bus table request s).witnessInert := by
  refine witnessInert_of (raiseIf_untouched _ .line _).straps
    (fun inert => inert.untouched (raiseIf_untouched _ .line _)) fun witness => ?_
  have want : (Receive.reset straps.role).want = false := by
    unfold Receive.reset
    rw [show straps.role = .witness from witness]
    rfl
  refine ⟨rfl, rfl, rfl, rfl, want, rfl, rfl, rfl, fun g => Or.inl ?_⟩
  exact congrArg GroupRecord.state (Four.get_all GroupRecord.reset g)

theorem witnessInert_rule : StepRule State.witnessInert where
  untouched same := witnessInert_of same.straps fun ok => ok.untouched same
  reset := resetStation_witnessInert
  fault k := keeps_witnessInert (fun σ => (straps_rule σ).keeps_enterFault k) fun _ ok => ok.enterFault k
  rejoin := keeps_witnessInert (fun _ _ ok => ok) fun _ ok => ok.rejoinColumns
  regroup g f state := keeps_witnessInert (fun _ _ ok => ok) fun s ok =>
    ok.mapGroup (by rw [state]; exact ok.groups g)
  vacate _ states := keeps_witnessInert (fun _ _ ok => ok) fun _ ok => ok.vacated states
  unsync set s less := witnessInert_of rfl fun ok => { ok with
    synced := Four.ext_get fun g => by
      rw [Four.get_all]
      dsimp only
      cases member : set.get g with
      | false => rfl
      | true => simpa [ok.synced] using less g member }
  settle := keeps_witnessInert_ownership (fun s => (settle_frame s).ownership) fun _ ok => ok.settle
  reactLoss g := keeps_witnessInert_ownership (reactLoss_frame g) fun _ ok => (ok.reactLoss g).symm ▸ ok
  drainTest g := keeps_witnessInert_ownership (drainTest_frame g) fun _ ok => (ok.drainTest g).symm ▸ ok
  visitGroups source partner := keeps_witnessInert_ownership (visitGroups_frame source partner)
    fun _ ok => ok.visitGroups source partner
  discardClaim g s claiming := keeps_witnessInert_of_not
    (fun σ => (straps_rule σ).keeps_ownership fun s => (abandonClaim_frame g _ _ s).ownership)
    fun ok => ok.not_state rfl claiming
  mature g tenure s claiming := keeps_witnessInert_of_not
    (fun σ => (straps_rule σ).keeps_ownership (enterHolding_frame g tenure)) fun ok => ok.not_state rfl claiming
  preempt g := keeps_witnessInert_ownership (preemptNow_frame g) fun s ok => by
    have stopped := ok.mapGroup (g := g) (f := fun r => { r with preempt := false }) (ok.groups g)
    unfold preemptNow
    dsimp only
    rw [stopped.noPartner]
    exact stopped
  endDrain g s yielding := keeps_witnessInert_of_not
    (fun σ => (straps_rule σ).keeps_ownership (endDrain_frame g false)) fun ok => ok.not_state rfl yielding
  release g s held := keeps_witnessInert_of_not
    (fun σ => (straps_rule σ).keeps_ownership (release_frame g))
    fun ok => Bool.false_ne_true ((ok.notHeld g).symm.trans held)
  claim c source := keeps_witnessInert_ownership (takeClaim_frame c source) fun _ ok => ok.takeClaim c source
  contest c := keeps_witnessInert_ownership (fun s => (takeContest_frame c s).ownership)
    fun _ ok => (ok.takeContest c).symm ▸ ok
  yield y source := keeps_witnessInert_ownership (fun s => (takeYield_frame y source s).ownership)
    fun _ ok => ok.takeYield y source
  changeRecords records heard := keeps_witnessInert
    (fun σ => (straps_rule σ).keeps_changeRecords records heard) fun _ ok => ok.changeRecords records heard
  partnerBeacon p b s partner := keeps_witnessInert_of_not
    (fun σ => (straps_rule σ).keeps_partnerBeacon b)
    fun ok => Bool.false_ne_true ((ok.notFromPartner p).symm.trans partner)
  receipt p n s partner := keeps_witnessInert_of_not
    (fun σ => (straps_rule σ).keeps_judgeReceipt n)
    fun ok => Bool.false_ne_true ((ok.notFromPartner p).symm.trans partner)
  ownerCheck r s held := keeps_witnessInert_of_not
    (fun σ => (straps_rule σ).keeps_ownerCheck r)
    fun ok => Bool.false_ne_true ((ok.notHeld r.group).symm.trans held)
  adopt r s held := keeps_witnessInert_of_not
    (fun σ => (straps_rule σ).keeps_adoptInBucket r)
    fun ok => Bool.false_ne_true ((ok.notHeld r.group).symm.trans held)
  retire r := keeps_witnessInert (fun σ => (straps_rule σ).keeps_retireInBucket r) (retireInBucket_inert r)
  observe o s held := keeps_witnessInert_of_not
    (fun σ => (straps_rule σ).keeps_joinObservation o)
    fun ok => Bool.false_ne_true ((ok.notHeld o.group).symm.trans held)
  visitEntry h := keeps_witnessInert (fun σ => (straps_rule σ).keeps_visitEntry h) (visitEntry_inert h)
  acceptDelta source d :=
    keeps_witnessInert (fun σ => (straps_rule σ).keeps_acceptDelta source d) (acceptDelta_inert source d)
  takeDelta := keeps_witnessInert (fun σ => (straps_rule σ).keeps_takeDelta) takeDelta_inert
  join := keeps_witnessInert (fun σ => (straps_rule σ).keeps_joinInHand) joinInHand_inert
  handOver := keeps_witnessInert (fun σ => (straps_rule σ).keeps_handOver) handOver_inert
  purge := keeps_witnessInert (fun σ => (straps_rule σ).keeps_purgeHead) purgeHead_inert
  passEnd source groups start rest s queue := keeps_witnessInert_of_not
    (fun σ => (straps_rule σ).keeps_takePassEnd groups start)
    fun ok => nomatch ok.purge.symm.trans queue
  rejournal := keeps_witnessInert (fun σ => (straps_rule σ).keeps_rejournal) rejournal_inert
  appendPassEnd := keeps_witnessInert (fun σ => (straps_rule σ).keeps_appendPassEnd) appendPassEnd_inert
  compose := keeps_witnessInert (fun σ => (straps_rule σ).keeps_composeDelta) composeDelta_inert
  receiptExpires := keeps_witnessInert (fun _ _ ok => ok) fun _ ok => { ok with }
  stall := keeps_witnessInert (fun σ => (straps_rule σ).keeps_stall) stall_inert

/-- Settles O11: at a witness each operation of a step finds nothing to do or observes, and a reset samples the straps
with everything empty. -/
theorem stepsKeepWitnessInert : Obligations.StepsKeepWitnessInert := fun _ _ ok run => witnessInert_rule.step ok run

end Sys2Proof.Machine
end

