-- ==== Sys2Proof/Proofs/OwnershipMoves.lean ====
section
/-!
PROOFS. The operations of the ownership controller as sequences of small moves, each for one group, and what follows
from that for all of them: what they leave alone, and what of the flags, the control queue, the synced set and a running
pass they can only keep.
-/

namespace Sys2Proof.Machine

open Sys2Proof

/-! ### Moves -/

/-- A move of the ownership controller for group `g`. Only where `passes` is set may it start a pass (R106). -/
inductive OwnershipMove (passes : Bool) (g : GroupId) : State → State → Prop
  | record (r : GroupRecord) (s : State) : OwnershipMove passes g s { s with own.groups := s.own.groups.set g r }
  | unsync (s : State) : OwnershipMove passes g s { s with recon.synced := s.recon.synced.set g false }
  | stopTimer (s : State) : OwnershipMove passes g s { s with own.quorumTimer := false }
  | pools (x : Four Pool) (s : State) : OwnershipMove passes g s { s with xlate := x }
  | flag (e : Event) (s : State) : e ≠ .presence → OwnershipMove passes g s (raise e s)
  | capture (c : Capture) (s : State) : OwnershipMove passes g s (captureBus c s)
  | enqueue (f : ControlFrame) (s : State) : OwnershipMove passes g s { s with bus.control := s.bus.control ++ [f] }
  | withdraw (s : State) : OwnershipMove passes g s { s with
      bus.control := s.bus.control.filter fun f => !isClaimOf g f
      bus.transmitting := letGoClaim g s.bus.transmitting }
  | pass (s : State) : passes = true → OwnershipMove passes g s (startPass s)

/-- Any number of moves for one group. -/
abbrev GroupMoves (passes : Bool) (g : GroupId) : State → State → Prop :=
  Relation.ReflTransGen (OwnershipMove passes g)

/-- Any number of moves. -/
abbrev Moves (passes : Bool) : State → State → Prop :=
  Relation.ReflTransGen fun s t => ∃ g, OwnershipMove passes g s t

theorem GroupMoves.moves {passes : Bool} {g : GroupId} {s t : State} (all : GroupMoves passes g s t) :
    Moves passes s t :=
  Relation.ReflTransGen.mono (r := OwnershipMove passes g) (fun _ _ one => ⟨g, one⟩) _ _ all

/-- A relation that every move is in, and that holds along sequences. -/
theorem Moves.lift {passes : Bool} {R : State → State → Prop} (refl : ∀ s, R s s)
    (trans : ∀ {s t u}, R s t → R t u → R s u) (each : ∀ {g s t}, OwnershipMove passes g s t → R s t) {s t : State}
    (all : Moves passes s t) : R s t := by
  induction all with
  | refl => exact refl s
  | tail _ one ih =>
    obtain ⟨g, one⟩ := one
    exact trans ih (each one)

/-! ### The operations of one group -/

section

variable {passes : Bool}

theorem mapGroup_moves (g : GroupId) (f : GroupRecord → GroupRecord) (s : State) :
    GroupMoves passes g s (mapGroup g f s) :=
  .single (.record _ s)

theorem setOwner_moves (g : GroupId) (o : Option Station) (s : State) : GroupMoves passes g s (setOwner g o s) := by
  unfold setOwner
  split
  · exact .refl
  · exact (mapGroup_moves g _ s).tail (.unsync _)

theorem raiseEpoch_moves (g : GroupId) (e : Epoch) (s : State) : GroupMoves passes g s (raiseEpoch g e s) :=
  mapGroup_moves g _ s

theorem queueFull_moves (g : GroupId) (f : ControlFrame) (s : State) : GroupMoves passes g s (queueFull f s) :=
  (Relation.ReflTransGen.single (.capture _ s)).tail (.flag .bus _ nofun)

theorem handControl_moves (g : GroupId) (f : ControlFrame) (s : State) : GroupMoves passes g s (handControl f s) := by
  unfold handControl
  split
  · exact .single (.enqueue f s)
  · exact queueFull_moves g f s

theorem abandonClaim_moves (g : GroupId) (state : GroupState) (owner : Option Station) (s : State) :
    GroupMoves passes g s (abandonClaim g state owner s) := by
  unfold abandonClaim
  exact ((mapGroup_moves g _ s).tail (.withdraw _)).trans (setOwner_moves g owner _)

theorem startClaim_moves (g : GroupId) (cause : ClaimCause) (epoch : Epoch) (note : Option Bool) (s : State) :
    GroupMoves passes g s (startClaim g cause epoch note s) := by
  have claiming (f : GroupRecord → GroupRecord) : GroupMoves passes g s (setOwner g none (mapGroup g f s)) :=
    (mapGroup_moves g f s).trans (setOwner_moves g none _)
  unfold startClaim
  dsimp only
  split
  · exact (claiming _).tail (.enqueue _ _)
  · exact ((claiming _).trans (queueFull_moves g _ _)).trans (abandonClaim_moves g _ _ _)

theorem followLine_moves (g : GroupId) (s : State) : GroupMoves passes g s (followLine g s) := by
  unfold followLine
  split <;> exact mapGroup_moves g _ s

theorem settleGroup_moves (s : State) (g : GroupId) : GroupMoves passes g s (settleGroup s g) := by
  have abandoned : GroupMoves passes g s
      (if (s.group g).state = .claiming && !s.eligible g then abandonClaim g .vacant none s else s) := by
    split
    · exact abandonClaim_moves g _ _ s
    · exact .refl
  unfold settleGroup
  dsimp only
  generalize (if (s.group g).state = .claiming && !s.eligible g then abandonClaim g .vacant none s else s) = t
    at abandoned ⊢
  refine (abandoned.trans ?_).trans (followLine_moves g _)
  split
  · exact startClaim_moves g _ _ _ _
  · exact .refl

theorem cancelQuorumTimer_moves (g : GroupId) (s : State) : GroupMoves passes g s (cancelQuorumTimer s) := by
  unfold cancelQuorumTimer
  split
  · exact .refl
  · exact .single (.stopTimer s)

theorem closeWindow_moves (g : GroupId) (s : State) : GroupMoves passes g s (closeWindow g s) :=
  (mapGroup_moves g _ s).tail (.pools _ _)

theorem leaveHolding_moves (g : GroupId) (state : GroupState) (owner : Option Station) (s : State) :
    GroupMoves passes g s (leaveHolding g state owner s) := by
  unfold leaveHolding
  have left := (mapGroup_moves (passes := passes) g (fun r =>
    { r with state := state, preempt := false, drain := false, successor := none, tenure := none }) s).trans
      (setOwner_moves g owner _)
  exact ((left.trans (closeWindow_moves g _)).trans (cancelQuorumTimer_moves g _)).tail (.flag .release _ nofun)

theorem release_moves (g : GroupId) (s : State) : GroupMoves passes g s (release g s) :=
  (leaveHolding_moves g _ _ s).trans (mapGroup_moves g _ _)

theorem endDrain_moves (g : GroupId) (drained : Bool) (s : State) : GroupMoves passes g s (endDrain g drained s) := by
  unfold endDrain
  split
  · exact .refl
  · exact (handControl_moves g _ s).trans (leaveHolding_moves g _ _ _)

theorem drainTest_moves (g : GroupId) (s : State) : GroupMoves passes g s (drainTest g s) := by
  unfold drainTest
  split
  · exact endDrain_moves g true s
  · exact .refl

theorem enterYielding_moves (g : GroupId) (p : Station) (s : State) :
    GroupMoves passes g s (enterYielding g p s) :=
  (mapGroup_moves g _ s).trans (drainTest_moves g _)

theorem followHolder_moves (g : GroupId) (s : State) : GroupMoves passes g s (followHolder g s) := by
  unfold followHolder
  split
  · exact ((mapGroup_moves g _ s).trans (setOwner_moves g _ _)).trans (raiseEpoch_moves g _ _)
  · exact ((mapGroup_moves g _ s).trans (setOwner_moves g _ _)).trans (raiseEpoch_moves g _ _)
  · exact .refl

theorem followOrLose_moves (g : GroupId) (source : Option Station) (s : State) :
    GroupMoves passes g s (followOrLose g source s) := by
  unfold followOrLose
  refine Relation.ReflTransGen.trans ?_ (followHolder_moves g _)
  split
  · exact (mapGroup_moves g _ s).trans (setOwner_moves g none _)
  · exact .refl

theorem yieldToHolder_moves (g : GroupId) (source : Option Station) (s : State) :
    GroupMoves passes g s (yieldToHolder g source s) := by
  unfold yieldToHolder
  split
  · split
    · exact (abandonClaim_moves g _ _ s).trans (raiseEpoch_moves g _ _)
    · exact .refl
  · exact .refl

theorem takeEpoch_moves (g : GroupId) (source : Option Station) (s : State) :
    GroupMoves passes g s (takeEpoch g source s) := by
  unfold takeEpoch
  split
  · exact raiseEpoch_moves g _ s
  · exact raiseEpoch_moves g _ s
  · exact raiseEpoch_moves g _ s
  · exact .refl

theorem preemptTest_moves (g : GroupId) (s : State) : GroupMoves passes g s (preemptTest g s) := by
  unfold preemptTest
  split
  · split
    · exact .refl
    · split
      · exact enterYielding_moves g _ s
      · exact mapGroup_moves g _ s
  · exact mapGroup_moves g _ s

end

theorem enterHolding_moves (g : GroupId) (tenure : Tenure) (s : State) :
    GroupMoves true g s (enterHolding g tenure s) := by
  unfold enterHolding
  have entered (f : GroupRecord → GroupRecord) :
      GroupMoves true g s (openWindow g (setOwner g (some s.me) (mapGroup g f s))) :=
    ((mapGroup_moves g f s).trans (setOwner_moves g _ _)).trans (mapGroup_moves g _ _)
  exact (((entered _).tail (.pools _ _)).tail (.flag .takeover _ nofun)).tail (.pass _ rfl)

theorem resolveDual_moves (g : GroupId) (source : Option Station) (s : State) :
    GroupMoves true g s (resolveDual g source s) := by
  unfold resolveDual
  split
  · exact .refl
  · split
    · split
      · exact ((leaveHolding_moves g _ _ s).trans (raiseEpoch_moves g _ _)).tail (.flag .split _ nofun)
      · have split : GroupMoves true g s (raise .split s) := .single (.flag .split s nofun)
        exact (split.trans (mapGroup_moves g _ _)).tail (.pass _ rfl)
    · exact .refl

theorem giveUpYield_moves (g : GroupId) (s : State) : GroupMoves true g s (giveUpYield g s) := by
  unfold giveUpYield
  split
  · split
    · exact enterHolding_moves g _ s
    · exact release_moves g s
  · exact .refl

theorem visitGroup_moves (source : Option Station) (partner : Bool) (s : State) (g : GroupId) :
    GroupMoves true g s (visitGroup source partner s g) := by
  have first := ((resolveDual_moves g source s).trans (giveUpYield_moves g _)).trans
    (((yieldToHolder_moves g source _).trans (takeEpoch_moves g source _)).trans (followOrLose_moves g source _))
  unfold visitGroup
  dsimp only
  generalize followOrLose g source _ = t at first ⊢
  have second : GroupMoves true g s (if partner then preemptTest g t else t) := by
    split
    · exact first.trans (preemptTest_moves g t)
    · exact first
  generalize (if partner then preemptTest g t else t) = u at second ⊢
  split
  · exact second.trans (drainTest_moves g u)
  · exact second

/-! ### The groups in turn -/

theorem foldl_moves {passes : Bool} {f : State → GroupId → State} (each : ∀ s g, GroupMoves passes g s (f s g))
    (l : List GroupId) (s : State) : Moves passes s (l.foldl f s) :=
  foldl_keeps (Moves passes) (fun _ => .refl) .trans f (fun s g => (each s g).moves) l s

theorem settle_moves {passes : Bool} (s : State) : Moves passes s (settle s) := foldl_moves settleGroup_moves four s

theorem visitGroups_moves (source : Option Station) (partner : Bool) (s : State) :
    Moves true s (visitGroups source partner s) :=
  foldl_moves (visitGroup_moves source partner) four s

theorem GroupMoves.others {passes : Bool} {g k : GroupId} {s t : State} (all : GroupMoves passes g s t)
    (ne : k ≠ g) : t.group k = s.group k := by
  induction all with
  | refl => rfl
  | tail _ one ih =>
    refine Eq.trans ?_ ih
    cases one with
    | record r => exact Four.get_set_other _ r ne
    | pass =>
      unfold State.group
      rw [(startPass_untouched _).groups]
    | _ => rfl

theorem foldl_others {passes : Bool} {f : State → GroupId → State} (each : ∀ s g, GroupMoves passes g s (f s g))
    {g : GroupId} {l : List GroupId} (out : g ∉ l) (s : State) : (l.foldl f s).group g = s.group g := by
  induction l generalizing s with
  | nil => rfl
  | cons a l ih =>
    rw [List.mem_cons, not_or] at out
    exact (ih out.2 (f s a)).trans ((each s a).others out.1)

/-- The turn of one group in a visit of all four: before it at most three others have had theirs, and no other reaches
its record. -/
structure Turn (passes : Bool) (f : State → GroupId → State) (g : GroupId) (s u t : State) : Prop where
  before : ∃ l : List GroupId, l.length ≤ 3 ∧ u = l.foldl f s
  reached : Moves passes s u
  record : u.group g = s.group g
  rest : Moves passes (f u g) t
  kept : t.group g = (f u g).group g

theorem foldl_turn {passes : Bool} {f : State → GroupId → State} (each : ∀ s g, GroupMoves passes g s (f s g))
    (g : GroupId) (s : State) : ∃ u, Turn passes f g s u (four.foldl f s) := by
  have at_ (l l' : List GroupId) (few : l.length ≤ 3) (out : g ∉ l) (out' : g ∉ l') :
      ∃ u, Turn passes f g s u ((l ++ g :: l').foldl f s) := by
    refine ⟨l.foldl f s, ⟨l, few, rfl⟩, foldl_moves each l s, foldl_others each out s, ?_, ?_⟩
    · rw [List.foldl_append]
      exact foldl_moves each l' _
    · rw [List.foldl_append]
      exact foldl_others each out' _
  match g with
  | 0 => exact at_ [] [1, 2, 3] (by decide) (by decide) (by decide)
  | 1 => exact at_ [0] [2, 3] (by decide) (by decide) (by decide)
  | 2 => exact at_ [0, 1] [3] (by decide) (by decide) (by decide)
  | 3 => exact at_ [0, 1, 2] [] (by decide) (by decide) (by decide)

/-! ### What moves leave alone -/

/-- R106: a pass over all buckets starts where the station may start one. -/
theorem startPass_runs {s : State} (may : s.mayPass = true) : (startPass s).recon.passRunning = true
    ∧ (startPass s).recon.resend = allBuckets ∧ (startPass s).recon.passStart = some s.journal.next := by
  unfold startPass
  rw [if_pos may]
  dsimp only
  exact ⟨rfl, rfl, rfl⟩

theorem startPass_not {s : State} (may : s.mayPass = false) : startPass s = s := by
  unfold startPass
  rw [may]
  rfl

/-- `t` is `s` but for the group records with the quorum timer, the control queue with a transmission let go, the
reconciliation unit but for the digest timer and the sweep, the pools, and the flags with the BUS capture. -/
def OwnershipSpan (s t : State) : Prop :=
  (∃ groups timer control transmitting recon xlate flags capture, t = { s with
    own.groups := groups, own.quorumTimer := timer
    bus.control := control, bus.transmitting := transmitting
    recon := recon, xlate := xlate, port.flags := flags, port.busCapture := capture })
    ∧ t.recon.digestTimer = s.recon.digestTimer ∧ t.recon.sweep = s.recon.sweep

theorem OwnershipSpan.refl (s : State) : OwnershipSpan s s := ⟨⟨_, _, _, _, _, _, _, _, rfl⟩, rfl, rfl⟩

theorem OwnershipSpan.trans {s t u : State} (a : OwnershipSpan s t) (b : OwnershipSpan t u) : OwnershipSpan s u := by
  obtain ⟨⟨_, _, _, _, _, _, _, _, eq⟩, timer, sweep⟩ := a
  obtain ⟨⟨_, _, _, _, _, _, _, _, eq'⟩, timer', sweep'⟩ := b
  exact ⟨⟨_, _, _, _, _, _, _, _, eq ▸ eq'⟩, timer'.trans timer, sweep'.trans sweep⟩

theorem startPass_span (s : State) : OwnershipSpan s (startPass s) := by
  cases starts : s.mayPass with
  | true =>
    unfold startPass
    rw [if_pos starts]
    exact ⟨⟨_, _, _, _, _, _, _, _, rfl⟩, rfl, rfl⟩
  | false =>
    rw [startPass_not starts]
    exact .refl s

theorem OwnershipMove.span {passes : Bool} {g : GroupId} {s t : State} (one : OwnershipMove passes g s t) :
    OwnershipSpan s t := by
  cases one with
  | pass => exact startPass_span _
  | _ => exact ⟨⟨_, _, _, _, _, _, _, _, rfl⟩, rfl, rfl⟩

theorem Moves.span {passes : Bool} {s t : State} (all : Moves passes s t) : OwnershipSpan s t :=
  all.lift .refl .trans fun one => one.span

/-- `t` is `s` but for what moves without a pass may change: of the reconciliation unit that is the synced set. -/
def DrainFrame (s t : State) : Prop :=
  ∃ groups timer bus synced xlate flags capture, t = { s with
    own.groups := groups, own.quorumTimer := timer, bus := bus, recon.synced := synced, xlate := xlate
    port.flags := flags, port.busCapture := capture }

theorem DrainFrame.refl (s : State) : DrainFrame s s := ⟨_, _, _, _, _, _, _, rfl⟩

theorem DrainFrame.trans {s t u : State} (a : DrainFrame s t) (b : DrainFrame t u) : DrainFrame s u := by
  obtain ⟨_, _, _, _, _, _, _, rfl⟩ := a
  obtain ⟨_, _, _, _, _, _, _, rfl⟩ := b
  exact ⟨_, _, _, _, _, _, _, rfl⟩

theorem Moves.drainFrame {s t : State} (all : Moves false s t) : DrainFrame s t := by
  refine all.lift .refl .trans fun one => ?_
  cases one with
  | pass => contradiction
  | _ => exact ⟨_, _, _, _, _, _, _, rfl⟩

/-- R109: moves add nothing to the synced set. -/
theorem Moves.unsynced {passes : Bool} {s t : State} (all : Moves passes s t) (g : GroupId)
    (out : s.recon.synced.get g = false) : t.recon.synced.get g = false := by
  refine all.lift (R := fun s t => s.recon.synced.get g = false → t.recon.synced.get g = false) (fun _ out => out)
    (fun a b out => b (a out)) (fun one out => ?_) out
  cases one with
  | unsync =>
    rw [Four.get_set]
    split
    · rfl
    · exact out
  | pass => rwa [(startPass_untouched _).synced]
  | _ => exact out

/-- R106: a running pass over all buckets goes on. -/
theorem Moves.passing {passes : Bool} {s t : State} (all : Moves passes s t)
    (running : s.recon.passRunning = true ∧ s.recon.resend = allBuckets) :
    t.recon.passRunning = true ∧ t.recon.resend = allBuckets := by
  refine all.lift (R := fun s t => s.recon.passRunning = true ∧ s.recon.resend = allBuckets →
    t.recon.passRunning = true ∧ t.recon.resend = allBuckets) (fun _ same => same) (fun a b same => b (a same))
    (fun one same => ?_) running
  cases one with
  | pass =>
    cases starts : State.mayPass _ with
    | true => exact ⟨(startPass_runs starts).1, (startPass_runs starts).2.1⟩
    | false => rwa [startPass_not starts]
  | _ => exact same

theorem getLsbD_raiseFlag (e : Event) (flags : BitVec 18) (i : Nat) (small : i < 18) :
    (raiseFlag e flags).getLsbD i = (flags.getLsbD i || decide (i = e.bit)) := by
  unfold raiseFlag
  have bit : e.bit < 18 := by cases e <;> decide
  rw [BitVec.getLsbD_or, BitVec.getLsbD_shiftLeft, BitVec.getLsbD_one]
  congr 1
  rw [Bool.eq_iff_iff]
  simp only [Bool.and_eq_true, Bool.not_eq_true', decide_eq_true_eq, decide_eq_false_iff_not]
  omega

/-- R201: a flag that is set stays set. -/
theorem Moves.flagged {passes : Bool} {s t : State} (all : Moves passes s t) {i : Nat} (small : i < 18)
    (set : s.port.flags.getLsbD i = true) : t.port.flags.getLsbD i = true := by
  refine all.lift (R := fun s t => s.port.flags.getLsbD i = true → t.port.flags.getLsbD i = true)
    (fun _ set => set) (fun a b set => b (a set)) (fun one set => ?_) set
  cases one with
  | flag e ne =>
    rw [raise_flags, getLsbD_raiseFlag e _ i small, set, Bool.true_or]
  | pass =>
    unfold startPass
    split <;> exact set
  | _ => exact set

/-- R134: no move raises PRESENCE. -/
theorem Moves.presenceFlag {passes : Bool} {s t : State} (all : Moves passes s t) :
    t.port.flags.getLsbD 5 = s.port.flags.getLsbD 5 := by
  refine all.lift (R := fun s t => t.port.flags.getLsbD 5 = s.port.flags.getLsbD 5) (fun _ => rfl)
    (fun a b => b.trans a) fun one => ?_
  cases one with
  | flag e ne =>
    have other : 5 ≠ e.bit := by
      intro five
      cases e <;> simp_all [Event.bit]
    rw [raise_flags, getLsbD_raiseFlag e _ 5 (by decide), decide_eq_false other, Bool.or_false]
  | pass =>
    unfold startPass
    split <;> rfl
  | _ => rfl

/-- R121, R145: of the frames that wait, moves withdraw claims alone. -/
theorem Moves.waiting {passes : Bool} {s t : State} (all : Moves passes s t) {f : ControlFrame}
    (noClaim : ∀ g, isClaimOf g f = false) (waits : f ∈ s.bus.control) : f ∈ t.bus.control := by
  refine all.lift (R := fun s t => f ∈ s.bus.control → f ∈ t.bus.control) (fun _ waits => waits)
    (fun a b waits => b (a waits)) (fun one waits => ?_) waits
  cases one with
  | enqueue x => exact List.mem_append_left _ waits
  | withdraw => exact List.mem_filter.mpr ⟨waits, by rw [noClaim]; rfl⟩
  | pass =>
    unfold startPass
    split <;> exact waits
  | _ => exact waits

end Sys2Proof.Machine
end

