-- ==== Sys2Proof/Proofs/Receipts.lean ====
section
/-!
PROOFS. A RECEIPT frame: what it does to the journal (R88, R89, R91), and the drains that it ends (R172, R173).
-/

namespace Sys2Proof.Machine

open Sys2Proof

/-! ### Leaving HOLDING -/

theorem cancelQuorumTimer_group (s : State) (g : GroupId) : (cancelQuorumTimer s).group g = s.group g := by
  unfold cancelQuorumTimer
  split <;> rfl

theorem closeWindow_group_same (g : GroupId) (s : State) :
    (closeWindow g s).group g = { s.group g with adoptionOpen := false, adoptionTimer := false } :=
  mapGroup_group_same g (fun r => { r with adoptionOpen := false, adoptionTimer := false }) s

/-- R151: the record of a group whose holding ends. -/
theorem leaveHolding_group_same (g : GroupId) (state : GroupState) (owner : Option Station) (s : State) :
    (leaveHolding g state owner s).group g = { s.group g with
      state := state, owner := owner, preempt := false, drain := false, successor := none, tenure := none
      adoptionOpen := false, adoptionTimer := false } := by
  unfold leaveHolding
  refine (cancelQuorumTimer_group _ g).trans ?_
  rw [closeWindow_group_same, setOwner_group_same, mapGroup_group_same]

theorem leaveHolding_released (g : GroupId) (state : GroupState) (owner : Option Station) (s : State) :
    (leaveHolding g state owner s).port.flags.getLsbD 2 = true := by
  unfold leaveHolding
  rw [raise_flags, getLsbD_raiseFlag .release _ 2 (by decide), decide_eq_true (show 2 = Event.release.bit from rfl),
    Bool.or_true]

theorem setOwner_bus (g : GroupId) (o : Option Station) (s : State) : (setOwner g o s).bus = s.bus := by
  unfold setOwner
  split <;> rfl

theorem leaveHolding_bus (g : GroupId) (state : GroupState) (owner : Option Station) (s : State) :
    (leaveHolding g state owner s).bus = s.bus := by
  have cancelled (u : State) : (cancelQuorumTimer u).bus = u.bus := by
    unfold cancelQuorumTimer
    split <;> rfl
  unfold leaveHolding
  rw [raise_bus, cancelled]
  exact setOwner_bus g owner _

/-! ### The end of a drain -/

/-- R121: a frame that finds room waits at the end of the queue. -/
theorem handControl_room (f : ControlFrame) {s : State} (room : s.bus.control.length < 4) :
    handControl f s = { s with bus.control := s.bus.control ++ [f] } := if_pos room

theorem handControl_length (f : ControlFrame) (s : State) :
    (handControl f s).bus.control.length ≤ s.bus.control.length + 1 := by
  unfold handControl
  split
  · exact List.length_append.le
  · exact Nat.le_succ _

theorem drainTest_length (g : GroupId) (s : State) :
    (drainTest g s).bus.control.length ≤ s.bus.control.length + 1 := by
  unfold drainTest endDrain
  split
  · split
    · exact Nat.le_succ _
    · rw [leaveHolding_bus]
      exact handControl_length _ s
  · exact Nat.le_succ _

theorem drainTests_length (l : List GroupId) (s : State) :
    (l.foldl (fun s g => drainTest g s) s).bus.control.length ≤ s.bus.control.length + l.length := by
  induction l generalizing s with
  | nil => exact Nat.le_refl _
  | cons g l ih =>
    have first := drainTest_length g s
    have rest := ih (drainTest g s)
    rw [List.foldl_cons, List.length_cons]
    omega

/-- R172: the conditions of the completion of a drain of `g` towards `q`. -/
structure State.Drained (s : State) (g : GroupId) (q : Station) : Prop where
  yielding : (s.group g).state = .yielding
  successor : (s.group g).successor = some q
  unspoiled : (s.group g).drainSpoiled = false
  empty : s.journal.holdsGroup g = false
  synced : (s.peer q).showsSynced g = true

theorem State.Drained.complete {s : State} {g : GroupId} {q : Station} (done : s.Drained g q) :
    s.drainComplete g = true := by
  unfold State.drainComplete
  rw [done.yielding, done.successor, done.unspoiled, done.empty]
  exact done.synced

/-- R173: the drain ends with a YIELD, drained yes. -/
theorem State.Drained.ends {s : State} {g : GroupId} {q : Station} (done : s.Drained g q) :
    drainTest g s =
      leaveHolding g .following (some q) (handControl (.yield ⟨g, (s.group g).epoch, q, true⟩) s) := by
  unfold drainTest endDrain
  rw [if_pos done.complete, done.successor]

/-! ### What the settling leaves alone -/

/-- R143, R145, R160: only a group that is CLAIMING, or VACANT without a claim backoff, changes more than its line
timer. -/
theorem settle_still {g : GroupId} {s : State} (claiming : (s.group g).state ≠ .claiming)
    (rest : (s.group g).state ≠ .vacant ∨ (s.group g).backoff = true) :
    ∃ timer reported, (settle s).group g = { s.group g with lineTimer := timer, lineReported := reported } := by
  obtain ⟨u, -, same, settled⟩ := settle_group g s
  rw [← same] at claiming rest ⊢
  have resting : u.mayClaim g = false := by
    unfold State.mayClaim
    rcases rest with occupied | backoff
    · simp only [decide_eq_false occupied, Bool.false_and]
    · simp only [backoff, Bool.not_true, Bool.and_false, Bool.false_and]
  have still : settleGroup u g = followLine g u := by
    unfold settleGroup
    simp only [decide_eq_false claiming, resting, Bool.false_and, Bool.false_eq_true, if_false]
  obtain ⟨timer, reported, followed⟩ := followLine_group_same g u
  exact ⟨timer, reported, settled.trans (still ▸ followed)⟩

/-! ### The drains of one receipt -/

/-- R172, log 42: the completion tests of the four groups. -/
def drainTests (s : State) : State := settle (four.foldl (fun s g => drainTest g s) s)

theorem drainTests_moves (s : State) : Moves false s (drainTests s) :=
  (foldl_moves (fun s g => drainTest_moves g s) four s).trans (settle_moves _)

/-- R173: every drain that is complete ends. -/
theorem drainTests_ends {s : State} {g : GroupId} {q : Station} (done : s.Drained g q) :
    ((drainTests s).group g).state = .following ∧ ((drainTests s).group g).owner = some q
      ∧ (drainTests s).port.flags.getLsbD 2 = true
      ∧ (s.bus.control = [] → .yield ⟨g, (s.group g).epoch, q, true⟩ ∈ (drainTests s).bus.control) := by
  obtain ⟨u, ⟨before, few, queue⟩, reached, record, rest, kept⟩ :=
    foldl_turn (passes := false) (f := fun s g => drainTest g s) (fun s g => drainTest_moves g s) g s
  have ready : u.Drained g q := by
    obtain ⟨_, _, _, _, _, _, _, frame⟩ := reached.drainFrame
    have journal : u.journal = s.journal := frame ▸ rfl
    have peer : u.peer q = s.peer q := frame ▸ rfl
    obtain ⟨yielding, successor, unspoiled, empty, synced⟩ := done
    rw [← record] at yielding successor unspoiled
    rw [← journal] at empty
    rw [← peer] at synced
    exact ⟨yielding, successor, unspoiled, empty, synced⟩
  have last : Moves false (drainTest g u) (drainTests s) := rest.trans (settle_moves _)
  have ended := leaveHolding_group_same g .following (some q)
    (handControl (.yield ⟨g, (u.group g).epoch, q, true⟩) u)
  rw [← ready.ends] at ended
  rw [ended] at kept
  obtain ⟨timer, reported, settled⟩ := settle_still (s := four.foldl (fun s g => drainTest g s) s) (g := g)
    (by rw [kept]; nofun) (by rw [kept]; exact .inl nofun)
  have final : (drainTests s).group g = _ := settled
  rw [kept] at final
  refine ⟨by rw [final], by rw [final], last.flagged (by decide) ?_, fun empty => last.waiting (fun _ => rfl) ?_⟩
  · rw [ready.ends]
    exact leaveHolding_released _ _ _ _
  · have length := drainTests_length before s
    rw [← queue, empty, List.length_nil, Nat.zero_add] at length
    rw [ready.ends, leaveHolding_bus, handControl_room _ (by omega), record]
    exact List.mem_append_right _ (List.mem_singleton.mpr rfl)

/-! ### A RECEIPT -/

theorem judgeReceipt_admitted {s : State} {n : Seq} (ok : s.journal.ordered) (admitted : s.journal.admits n = true) :
    judgeReceipt n s = { s with journal := { s.journal with
      records := s.journal.records.drop (n - s.journal.oldest).toNat, oldest := n, sendPoint := n
      stallTimer := if n = s.journal.oldest then s.journal.stallTimer
        else (s.journal.records.drop (n - s.journal.oldest).toNat).any (·.sent) } } := by
  unfold judgeReceipt
  rw [if_pos admitted, receipt_eq ok admitted]

theorem judgeReceipt_ignored {s : State} {n : Seq} (ignored : s.journal.admits n = false) : judgeReceipt n s = s := by
  unfold judgeReceipt
  rw [ignored]
  rfl

theorem execReceiptFrame_partner {s : State} {p : Station} (n : Seq) (run : s.phase = .running)
    (takes : s.takesFrames = true) (other : p ≠ s.me) (partner : s.presentPartner = some p) :
    exec (.receiptFrame p n) s = .next (takeReceipt n s) := by
  refine congrArg Host.Outcome.next ((onFrame_other _ p _ s run takes other).trans (if_pos ?_))
  exact decide_eq_true partner

theorem takeReceipt_ignored {s : State} {n : Seq} (ignored : s.journal.admits n = false) : takeReceipt n s = s := by
  unfold takeReceipt
  rw [judgeReceipt_ignored ignored]
  exact if_pos rfl

theorem takeReceipt_oldest {s : State} (ok : s.journal.ordered) (admitted : s.journal.admits s.journal.oldest = true) :
    takeReceipt s.journal.oldest s = judgeReceipt s.journal.oldest s := by
  unfold takeReceipt
  rw [judgeReceipt_admitted ok admitted]
  exact if_pos rfl

theorem takeReceipt_removes {s : State} {n : Seq} (ok : s.journal.ordered) (admitted : s.journal.admits n = true)
    (removes : n ≠ s.journal.oldest) : takeReceipt n s = drainTests (judgeReceipt n s) := by
  unfold takeReceipt
  rw [judgeReceipt_admitted ok admitted]
  exact if_neg removes

/-- Settles O50: by the three cases of the value, ignored, the oldest held, and beyond it. -/
theorem receiptsAreJudged : Obligations.ReceiptsAreJudged := by
  intro p n s run takes other
  refine ⟨fun stranger => ?_, ?_⟩
  · refine congrArg Host.Outcome.next ((onFrame_other _ p _ s run takes other).trans (if_neg ?_))
    exact fun partner => stranger (of_decide_eq_true partner)
  intro sentEnd ignored
  have same : sentEnd = s.journal.sentEnd := by
    rw [sentEnd_eq_getLast?]
    dsimp only [sentEnd]
    cases (s.journal.records.filter (·.sent)).getLast? <;> rfl
  have judged (ok : s.journal.ordered) : s.journal.admits n = false ↔ ignored := by
    rw [admits_false_iff ok, ← same]
  refine ⟨fun partner ok out => ?_, fun partner ok within => ?_⟩
  · rw [execReceiptFrame_partner n run takes other partner, takeReceipt_ignored ((judged ok).mpr out)]
  · have admitted : s.journal.admits n = true := by
      rw [← Bool.not_eq_false, judged ok]
      exact within
    refine ⟨_, execReceiptFrame_partner n run takes other partner, ?_⟩
    by_cases removes : n = s.journal.oldest
    · subst removes
      rw [takeReceipt_oldest ok admitted, judgeReceipt_admitted ok admitted]
      exact ⟨rfl, fun _ => if_pos rfl, fun no => (no rfl).elim, fun _ _ no => (no rfl).elim, rfl⟩
    · obtain ⟨_, _, _, _, _, _, _, frame⟩ := (drainTests_moves (judgeReceipt n s)).drainFrame
      rw [takeReceipt_removes ok admitted removes]
      rw [judgeReceipt_admitted ok admitted, if_neg removes] at frame ⊢
      refine ⟨?_, fun no => (removes no).elim, fun _ => ?_, fun g q _ yielding successor unspoiled empty synced => ?_,
        ?_⟩
      · rw [frame]
      · rw [frame]
        rfl
      · rw [frame] at empty
        exact drainTests_ends ⟨yielding, successor, unspoiled, empty, synced⟩
      · rw [frame]

end Sys2Proof.Machine
end

