-- ==== Sys2Proof/Proofs/Compositions.lean ====
section
/-!
PROOFS. The start of a class 3 frame (R120), and the composition of a DELTA: the records that it carries (R86) and the
pending marks that it clears (R87).
-/

namespace Sys2Proof.Machine

open Sys2Proof

/-! ### The bytes of a DELTA -/

theorem bytes16_length (v : BitVec 16) : (bytes16 v).length = 2 := rfl
theorem bytes32_length (v : BitVec 32) : (bytes32 v).length = 4 := rfl
theorem sideBytes_length (d : Side) : (sideBytes d).length = 12 := rfl

theorem addrsBytes_length (a : Addrs) : (addrsBytes a).length ≤ 32 := by
  cases a with
  | v4 => exact Nat.le_of_ble_eq_true rfl
  | v6 => exact Nat.le_refl 32

/-- R125: an ENTRY record takes at most 71 bytes after its sequence. -/
theorem entryTail_length (c : EntryContent) : (entryTail c).length ≤ 71 := by
  have addrs := addrsBytes_length c.key.addrs
  unfold entryTail
  simp only [List.length_append, List.length_cons, List.length_nil, bytes16_length]
  split
  · rw [List.length_append, sideBytes_length, sideBytes_length]
    omega
  · rw [List.length_nil]
    omega

/-- R125: every record fits in an empty frame. -/
theorem recordBytes_length (r : WireRecord) : (recordBytes r).length ≤ 76 := by
  unfold recordBytes
  split
  · rename_i c _
    have tail := entryTail_length c
    simp only [List.length_append, List.length_cons, List.length_nil, bytes32_length]
    omega
  · exact Nat.le_of_ble_eq_true rfl
  · exact Nat.le_of_ble_eq_true rfl

theorem deltaBytes_length (oldest : Seq) (l : List JournalRecord) :
    (payloadBytes (.delta ⟨oldest, l.map JournalRecord.wire⟩)).length = 5 + wireLength l := by
  unfold payloadBytes wireLength
  simp only [List.length_append, List.length_cons, List.length_nil, bytes32_length, List.flatMap_map]

/-! ### The pending marks -/

/-- R87: the record `r`, carried for the first time, is the one that the pending mark of the entry in slot `h` names. -/
def marks (h : Handle) (e : Entry) (r : JournalRecord) : Bool :=
  !r.sent && decide (r.slot = some h ∧ e.pending = some r.seq)

/-- The entry in slot `h` after the clearing of the marks that the records `l` name. -/
def unmarked (h : Handle) (l : List JournalRecord) (e : Entry) : Entry :=
  if l.any (marks h e) then { e with pending := none } else e

/-- R9: the check bits of every slot hold. -/
def Table.allIntact (t : Table) : Prop := ∀ h x, t.slot h = some x → x.intact = true

theorem allIntact_put {t : Table} (ok : t.allIntact) (h : Handle) (e : Entry) : (t.put h ⟨e, true⟩).allIntact := by
  intro k x here
  rw [Table.slot_put] at here
  split at here
  · cases here
    rfl
  · exact ok k x here

theorem pendingSlot_some {s : State} {r : JournalRecord} {h : Handle} {x : Slot} :
    s.pendingSlot r = some (h, x) ↔ s.table.slot h = some x ∧ marks h x.entry r = true := by
  unfold State.pendingSlot marks
  cases r.sent with
  | true => exact ⟨nofun, fun found => absurd found.2 Bool.false_ne_true⟩
  | false =>
    rw [if_neg Bool.false_ne_true, Bool.not_false, Bool.true_and, decide_eq_true_eq]
    simp only [Option.bind_eq_some_iff, Option.ite_none_right_eq_some, Option.some.injEq, Prod.mk.injEq]
    constructor
    · rintro ⟨_, slot, _, here, pending, rfl, rfl⟩
      exact ⟨here, slot, pending⟩
    · rintro ⟨here, slot, pending⟩
      exact ⟨h, slot, x, here, pending, rfl, rfl⟩

theorem marks_pending_none (h : Handle) (e : Entry) (r : JournalRecord) :
    marks h { e with pending := none } r = false := by
  unfold marks
  rw [decide_eq_false fun named => nomatch named.2]
  exact Bool.and_false _

theorem unmarked_cons (h : Handle) (r : JournalRecord) (l : List JournalRecord) (e : Entry) :
    unmarked h l (unmarked h [r] e) = unmarked h (r :: l) e := by
  unfold unmarked
  rw [List.any_cons, List.any_cons, List.any_nil, Bool.or_false]
  cases marks h e r with
  | true =>
    have none_left : l.any (marks h { e with pending := none }) = false :=
      List.any_eq_false.mpr fun x _ => Bool.eq_false_iff.mp (marks_pending_none h e x)
    rw [if_pos rfl, none_left, Bool.true_or]
    rfl
  | false => rw [if_neg Bool.false_ne_true, Bool.false_or]

theorem Life.ne_fault_of_active {l : Life} (active : l.active = true) : l ≠ .fault := by
  rintro rfl
  cases active

/-- R87: what the clearing for one record does while every slot's check bits hold. -/
theorem clearPending_intact {s : State} (r : JournalRecord) (active : s.life.active = true) (ok : s.table.allIntact) :
    ∃ table : Table, clearPending s r = { s with table := table } ∧ table.allIntact
      ∧ ∀ h, (clearPending s r).entryAt h = (s.entryAt h).map (unmarked h [r]) := by
  unfold clearPending
  split
  · rename_i nothing
    refine ⟨s.table, rfl, ok, fun h => ?_⟩
    cases here : s.table.slot h with
    | none => rw [(entryAt_none s h).mpr here]; rfl
    | some x =>
      have unnamed : marks h x.entry r = false := by
        rw [← Bool.not_eq_true]
        intro named
        rw [pendingSlot_some.mpr ⟨here, named⟩] at nothing
        cases nothing
      rw [entryAt_slot here, Option.map_some, unmarked, List.any_cons, unnamed]
      rfl
  · rename_i h x found
    obtain ⟨here, named⟩ := pendingSlot_some.mp found
    rw [if_neg (Life.ne_fault_of_active active), if_pos (ok h x here)]
    refine ⟨_, rfl, allIntact_put ok h _, fun k => ?_⟩
    rw [entryAt_writeEntry]
    split
    · rename_i same
      subst same
      rw [entryAt_slot here, Option.map_some, unmarked, List.any_cons, named]
      rfl
    · rename_i other
      have unnamed (e : Entry) : unmarked k [r] e = e := by
        have slot : r.slot = some h := by
          unfold marks at named
          rw [Bool.and_eq_true, decide_eq_true_eq] at named
          exact named.2.1
        unfold unmarked marks
        rw [List.any_cons, slot, decide_eq_false fun both => other (Option.some.inj both.1).symm, Bool.and_false]
        rfl
      cases s.entryAt k with
      | none => rfl
      | some e => rw [Option.map_some, unnamed]

theorem clearPendings_intact {s : State} (l : List JournalRecord) (active : s.life.active = true)
    (ok : s.table.allIntact) :
    ∃ table : Table, l.foldl clearPending s = { s with table := table }
      ∧ ∀ h, (l.foldl clearPending s).entryAt h = (s.entryAt h).map (unmarked h l) := by
  induction l generalizing s with
  | nil => exact ⟨s.table, rfl, fun h => Option.map_id'.symm⟩
  | cons r l ih =>
    obtain ⟨first, eq, intact, entries⟩ := clearPending_intact r active ok
    rw [List.foldl_cons]
    obtain ⟨last, all, rest⟩ := ih (s := clearPending s r) (by rw [eq]; exact active) (by rw [eq]; exact intact)
    refine ⟨last, by rw [all, eq], fun h => ?_⟩
    rw [rest, entries, Option.map_map]
    exact congrArg (fun f => (s.entryAt h).map f) (funext fun e => unmarked_cons h r l e)

/-! ### The start -/

/-- R117: the gap has ended with the medium idle. -/
def granted (s : State) : State := { s with bus.deferred := false, bus.straddling := false }

theorem exec_startThird {n : Nat} {s : State} (run : s.phase = .running) (active : s.life.active = true)
    (idle : s.bus.transmitting = none) (ready : s.readyClass = some 3) (gap : 30 + 2 * s.me.val ≤ n) :
    exec (.transmitStart n) s = .next (startThird (granted s)) := by
  have contends : s.contends = some 3 := by
    unfold State.contends
    rw [active, idle]
    exact ready
  refine congrArg Host.Outcome.next ?_
  unfold whenLive
  rw [if_pos run]
  dsimp only
  rw [contends]
  exact if_pos gap

theorem wireLength_take_one (l : List JournalRecord) : wireLength (l.take 1) ≤ 76 := by
  cases l with
  | nil => exact Nat.zero_le _
  | cons r l =>
    rw [List.take_succ_cons, List.take_zero, wireLength_cons]
    exact recordBytes_length r.wire

/-- R85, R86: a journal that is ready to send carries at least one record. -/
theorem carried_of_ready {j : Journal} (ok : j.ordered) (ready : serialBefore j.sendPoint j.next = true) :
    ∃ k, j.carried = (j.records.drop (j.sendPoint - j.oldest).toNat).take k ∧ 1 ≤ k ∧ k ≤ 8
      ∧ (j.sendPoint - j.oldest).toNat + k ≤ j.records.length
      ∧ wireLength ((j.records.drop (j.sendPoint - j.oldest).toNat).take k) ≤ 955
      ∧ (k < 8 → (j.sendPoint - j.oldest).toNat + k < j.records.length →
          955 < wireLength ((j.records.drop (j.sendPoint - j.oldest).toNat).take (k + 1))) := by
  obtain ⟨m, ok⟩ := (ordered_iff j).mp ok
  have before : (j.sendPoint - j.oldest).toNat < j.records.length := by
    refine lt_of_le_of_ne (ok.point.trans ok.le) fun all => ?_
    have point : j.sendPoint = j.next := by
      rw [ok.next, ← all, BitVec.ofNat_toNat, BitVec.setWidth_eq, BitVec.add_comm, BitVec.sub_add_cancel]
    rw [point, serialBefore, BitVec.sub_self] at ready
    exact absurd ready (by decide)
  obtain ⟨k, carried, most, short, within, more⟩ := carried_eq_take j
  refine ⟨k, carried, ?_, most, by omega, within, more⟩
  rw [Nat.one_le_iff_ne_zero]
  rintro rfl
  exact absurd (more (by decide) before) (Nat.not_lt.mpr ((wireLength_take_one _).trans (by decide)))

/-- R120: of two ready frames, the kind that was not transmitted last. -/
theorem startThird_delta {s : State} (ready : s.deltaReady = true)
    (turn : s.digestReady = false ∨ s.bus.lastClass3 ≠ some .delta) : startThird s = startDelta s := by
  unfold startThird
  refine if_pos ?_
  rw [ready, Bool.true_and, Bool.or_eq_true, Bool.not_eq_true', bne_iff_ne]
  exact turn

theorem startThird_digest {s : State} (turn : s.deltaReady = false ∨ s.bus.lastClass3 = some .delta)
    (ready : s.digestReady = true) : startThird s = startDigest s := by
  unfold startThird
  refine if_neg ?_
  rw [ready, Bool.and_eq_true, Bool.not_true, Bool.false_or, bne_iff_ne]
  rintro ⟨delta, other⟩
  exact turn.elim (fun no => absurd delta (no ▸ Bool.false_ne_true)) other

theorem startDelta_composed {s : State} {d : Delta} (composed : s.bus.delta = some d) :
    startDelta s = beginTransmission (.delta d) s := by
  unfold startDelta
  rw [composed]

theorem startDelta_composes {s : State} (vacant : s.bus.delta = none) : startDelta s = composeDelta s := by
  unfold startDelta
  rw [vacant]

theorem startDigest_composed {s : State} {d : Digest} (composed : s.bus.digest = some d) :
    startDigest s = beginTransmission (.digest d) s := by
  unfold startDigest
  rw [composed]

theorem startDigest_prepared {s : State} {d : Digest} (vacant : s.bus.digest = none)
    (prepared : s.recon.ready = some d) :
    startDigest s = beginTransmission (.digest d) { s with bus.digest := some d } := by
  unfold startDigest
  rw [vacant, prepared]

/-- R86: the DELTA that is composed now. -/
def Journal.frame (j : Journal) : Delta := ⟨j.oldest, j.carried.map JournalRecord.wire⟩

theorem frame_eq {j : Journal} {l : List JournalRecord} (carried : j.carried = l) :
    j.frame = ⟨j.oldest, l.map JournalRecord.wire⟩ := by
  rw [← carried]
  rfl

/-- R86, R87: a composition while every slot's check bits hold. -/
theorem composeDelta_intact {s : State} (active : s.life.active = true) (intact : s.table.allIntact) :
    ∃ table : Table, composeDelta s = { s with
        table := table, journal := s.journal.composed, bus.delta := some s.journal.frame
        bus.transmitting := some ⟨.delta s.journal.frame, true⟩ }
      ∧ ∀ h, (composeDelta s).entryAt h = (s.entryAt h).map (unmarked h s.journal.carried) :=
  clearPendings_intact (s := { s with
    journal := s.journal.composed, bus.delta := some s.journal.frame
    bus.transmitting := some ⟨.delta s.journal.frame, true⟩ }) s.journal.carried active intact

/-- R86: the journal after a composition. -/
theorem composed_eq (j : Journal) :
    j.composed = { j with
      records := j.composed.records, sendPoint := j.sendPoint + BitVec.ofNat 32 j.carried.length
      receiptTimer := true, stallTimer := true } := rfl

/-- Settles O41: the two kinds of class 3, and a composition by the records carried and the marks cleared. -/
theorem deltasAreComposed : Obligations.DeltasAreComposed := by
  intro n s run active idle ready gap
  have starts := exec_startThird run active idle ready gap
  refine ⟨fun delta turn => ?_, fun digest turn => ?_⟩
  · rw [startThird_delta (s := granted s) delta turn] at starts
    refine ⟨fun d composed => ?_, fun vacant ok intact => ?_⟩
    · rw [startDelta_composed (s := granted s) composed] at starts
      exact starts
    · rw [startDelta_composes (s := granted s) vacant] at starts
      obtain ⟨table, eq, entries⟩ := composeDelta_intact (s := granted s) active intact
      have behind : serialBefore s.journal.sendPoint s.journal.next = true := by
        unfold State.deltaReady at delta
        rw [vacant] at delta
        exact delta
      obtain ⟨k, carried, some_, most, short, within, more⟩ := carried_of_ready ok behind
      have count := congrArg List.length carried
      rw [List.length_take, List.length_drop, Nat.min_eq_left (by omega)] at count
      have journal := composed_eq s.journal
      rw [count] at journal
      obtain ⟨m, ordered⟩ := (ordered_iff s.journal).mp ok
      have frame := frame_eq carried
      refine ⟨_, k, starts, some_, most, short, ?_, fun few left => ?_, ?_, ?_, fun i => ?_, fun h => ?_, ?_⟩
      · rw [deltaBytes_length]
        omega
      · have exceeds := more few left
        rw [deltaBytes_length]
        omega
      · dsimp only
        rw [← frame, eq]
        rfl
      · rw [eq]
        exact journal
      · rw [eq]
        exact ordered.composed_records carried i
      · rw [entries]
        have same : (granted s).journal.carried = _ := carried
        rw [same]
        rfl
      · rw [eq]
        rfl
  · rw [startThird_digest (s := granted s) turn digest] at starts
    refine ⟨fun d composed => ?_, fun d vacant prepared => ?_⟩
    · rw [startDigest_composed (s := granted s) composed] at starts
      exact starts
    · rw [startDigest_prepared (s := granted s) vacant prepared] at starts
      exact starts

end Sys2Proof.Machine
end

