-- ==== Sys2Proof/Proofs/RecordChanges.lean ====
section
/-!
PROOFS. A change of the presence records (R131 to R134): the records and the designation that it leaves, and what it
tells the journal, the reconciliation unit, the station state and the quorum (R92, R109, R138, R183).
-/

namespace Sys2Proof.Machine

open Sys2Proof

/-! ### The partner's presence -/

/-- What an end or a beginning of the partner's presence may change, and what it brings: `before` was the partner that
was PRESENT. -/
structure PartnerChanged (before : Option Station) (s t : State) : Prop where
  frame : ∃ table journal expectation recon digest transmitting, t = { s with
    table := table, journal := journal, receive.expectation := expectation, recon := recon
    bus.digest := digest, bus.transmitting := transmitting }
  digestTimer : t.recon.digestTimer = s.recon.digestTimer
  sweep : t.recon.sweep = s.recon.sweep
  same : before = s.presentPartner → t = s
  begun : before ≠ s.presentPartner → s.partnerPresent = true → t.receive.expectation = none
  kept : before = none → t.table = s.table ∧ t.journal = s.journal
  ended : before.isSome = true → before ≠ s.presentPartner →
    t.table = (journalClear s).table ∧ t.journal = (journalClear s).journal ∧ t.recon.synced = Four.all false

theorem partnershipEnded_iff (before : Option Station) (s : State) :
    s.partnershipEnded before = true ↔ before.isSome = true ∧ before ≠ s.presentPartner := by
  unfold State.partnershipEnded
  rw [Bool.and_eq_true, decide_eq_true_eq]

/-- The partner, if one is PRESENT now, comes with an unknown expectation (R98). -/
def welcome (s : State) : State := if s.partnerPresent then { s with receive.expectation := none } else s

theorem partnerChange_same {before : Option Station} {s : State} (same : before = s.presentPartner) :
    partnerChange before s = s := if_pos same

theorem partnerChange_begun {s : State} (changed : none ≠ s.presentPartner) :
    partnerChange none s = welcome s := if_neg changed

theorem partnerChange_ended {before : Option Station} {s : State} (was : before.isSome = true)
    (changed : before ≠ s.presentPartner) : partnerChange before s = welcome (partnerEnds s) := by
  unfold partnerChange
  rw [if_neg changed, (partnershipEnded_iff before s).mpr ⟨was, changed⟩]
  rfl

theorem welcome_present {s : State} (present : s.partnerPresent = true) :
    welcome s = { s with receive.expectation := none } := if_pos present

theorem welcome_expectation (s : State) : ∃ expectation, welcome s = { s with receive.expectation := expectation } := by
  unfold welcome
  split <;> exact ⟨_, rfl⟩

/-- R92, R98, R109. -/
theorem partnerChange_changes (before : Option Station) (s : State) :
    PartnerChanged before s (partnerChange before s) := by
  by_cases same : before = s.presentPartner
  · rw [partnerChange_same same]
    exact ⟨⟨_, _, _, _, _, _, rfl⟩, rfl, rfl, fun _ => rfl, fun changed => absurd same changed, fun _ => ⟨rfl, rfl⟩,
      fun _ changed => absurd same changed⟩
  cases before with
  | none =>
    have welcomed := welcome_present (s := s)
    obtain ⟨_, eq⟩ := welcome_expectation s
    rw [partnerChange_begun same]
    refine ⟨⟨_, _, _, _, _, _, eq⟩, by rw [eq], by rw [eq], fun kept => absurd kept same,
      fun _ present => by rw [welcomed present], fun _ => by rw [eq]; exact ⟨rfl, rfl⟩, nofun⟩
  | some p =>
    have welcomed := welcome_present (s := partnerEnds s)
    obtain ⟨_, eq⟩ := welcome_expectation (partnerEnds s)
    rw [partnerChange_ended rfl same]
    refine ⟨⟨_, _, _, _, _, _, eq⟩, by rw [eq]; rfl, by rw [eq]; rfl, fun kept => absurd kept same,
      fun _ present => by rw [welcomed present], nofun, fun _ _ => by rw [eq]; exact ⟨rfl, rfl, rfl⟩⟩

/-! ### The station state, the quorum and the flag -/

/-- R183. -/
theorem memberOrIsolated_life (s : State) : ∃ life : Life, memberOrIsolated s = { s with presence.life := life }
    ∧ life.active = s.life.active := by
  unfold memberOrIsolated
  dsimp only
  split
  · rename_i member
    split
    · exact ⟨_, rfl, member ▸ rfl⟩
    · exact ⟨_, rfl, rfl⟩
  · rename_i isolated
    split
    · exact ⟨_, rfl, rfl⟩
    · exact ⟨_, rfl, isolated ▸ rfl⟩
  · exact ⟨_, rfl, rfl⟩

/-- R134, R138: a flag other than PRESENCE leaves that flag alone; PRESENCE sets it. -/
theorem raiseIf_presenceFlag (c : Bool) (e : Event) (s : State) : ∃ flags,
    raiseIf c e s = { s with port.flags := flags }
    ∧ flags.getLsbD 5 = (s.port.flags.getLsbD 5 || (c && decide (e.bit = 5))) := by
  cases c with
  | false => exact ⟨_, rfl, (Bool.or_false _).symm⟩
  | true =>
    refine ⟨_, rfl, ?_⟩
    rw [getLsbD_raiseFlag e _ 5 (by decide), Bool.true_and, decide_eq_decide.mpr eq_comm]

theorem quorumChange_timer (before : Bool) (s : State) : ∃ timer flags,
    quorumChange before s = { s with own.quorumTimer := timer, port.flags := flags }
      ∧ flags.getLsbD 5 = s.port.flags.getLsbD 5 := by
  unfold quorumChange
  split
  · exact ⟨_, _, rfl, rfl⟩
  · obtain ⟨flags, eq, bit⟩ := raiseIf_presenceFlag (decide (s.straps.role = .firewall)) .quorum s
    dsimp only
    rw [eq]
    refine ⟨_, flags, rfl, bit.trans ?_⟩
    rw [decide_eq_false (by decide : Event.quorum.bit ≠ 5), Bool.and_false, Bool.or_false]

/-! ### The change -/

/-- R133: the records that a change leaves. -/
def settledRecords (records : Four Peer) (s : State) : Four Peer :=
  Four.build fun p => (records.get p).settled ((designate s.straps.role records).includes p)

/-- R133: the records and the designation after a change. -/
def redesignated (records : Four Peer) (s : State) : State := { s with
  presence.records := settledRecords records s
  presence.partner := (designate s.straps.role records).partner
  presence.witness := (designate s.straps.role records).witness
  presence.watched := (designate s.straps.role records).watched }

/-- A change of the records with everything that it brings, short of a clear that fails. -/
def told (records : Four Peer) (heard : Bool) (s : State) : State :=
  quorumChange s.quorumPresent (memberOrIsolated (partnerChange s.presentPartner
    (raiseIf (heard || recordsDiffer s.presence.records (settledRecords records s)) .presence
      (redesignated records s))))

theorem changeRecords_eq (records : Four Peer) (heard : Bool) (s : State) : changeRecords records heard s =
    if (told records heard s).partnershipEnded s.presentPartner then verifyClear (told records heard s)
    else told records heard s := rfl

/-- What a change of the records may change, and what it brings. -/
structure Told (records : Four Peer) (heard : Bool) (s t : State) : Prop where
  frame : ∃ table journal expectation recon digest transmitting life timer flags, t = { redesignated records s with
    table := table, journal := journal, receive.expectation := expectation, recon := recon
    bus.digest := digest, bus.transmitting := transmitting, presence.life := life, own.quorumTimer := timer
    port.flags := flags }
  digestTimer : t.recon.digestTimer = s.recon.digestTimer
  sweep : t.recon.sweep = s.recon.sweep
  active : t.life.active = s.life.active
  flag : t.port.flags.getLsbD 5 =
    (s.port.flags.getLsbD 5 || (heard || recordsDiffer s.presence.records (settledRecords records s)))
  same : s.presentPartner = t.presentPartner →
    t.table = s.table ∧ t.journal = s.journal ∧ t.receive = s.receive ∧ t.recon = s.recon
  begun : s.presentPartner ≠ t.presentPartner → t.partnerPresent = true → t.receive.expectation = none
  kept : s.presentPartner = none → t.table = s.table ∧ t.journal = s.journal
  ended : s.presentPartner.isSome = true → s.presentPartner ≠ t.presentPartner →
    t.table = (journalClear s).table ∧ t.journal = (journalClear s).journal ∧ t.recon.synced = Four.all false

theorem told_tells (records : Four Peer) (heard : Bool) (s : State) : Told records heard s (told records heard s) := by
  obtain ⟨raised, eqW, bitW⟩ := raiseIf_presenceFlag
    (heard || recordsDiffer s.presence.records (settledRecords records s)) .presence (redesignated records s)
  unfold told
  generalize raiseIf (heard || recordsDiffer s.presence.records (settledRecords records s)) .presence
    (redesignated records s) = w at eqW ⊢
  have changed := partnerChange_changes s.presentPartner w
  generalize partnerChange s.presentPartner w = u at changed ⊢
  obtain ⟨life, eqV, active⟩ := memberOrIsolated_life u
  generalize memberOrIsolated u = v at eqV ⊢
  obtain ⟨timer, flags, eqT, bitT⟩ := quorumChange_timer s.quorumPresent v
  generalize quorumChange s.quorumPresent v = t at eqT ⊢
  obtain ⟨⟨_, _, _, _, _, _, eqU⟩, digestTimer, sweep, same, begun, kept, ended⟩ := changed
  have partner : w.presentPartner = t.presentPartner := by
    rw [eqT, eqV, eqU]
    rfl
  unfold State.partnerPresent at begun
  rw [partner] at same begun ended
  have flags_ : u.port.flags = raised := by
    rw [eqU, eqW]
  have life_ : u.life = s.life := by
    rw [eqU, eqW]
    rfl
  subst eqT eqV eqW
  refine ⟨?_, digestTimer, sweep, active.trans (congrArg Life.active life_), ?_, fun unchanged => ?_, begun, kept,
    ended⟩
  · rw [eqU]
    exact ⟨_, _, _, _, _, _, _, _, _, rfl⟩
  · refine bitT.trans ((congrArg (BitVec.getLsbD · 5) flags_).trans (bitW.trans ?_))
    rw [decide_eq_true (by decide : Event.presence.bit = 5), Bool.and_true]
    rfl
  · rw [same unchanged]
    exact ⟨rfl, rfl, rfl, rfl⟩

/-! ### A clear that succeeds -/

/-- R92: the check bits of every slot with a pending mark hold. -/
def Table.clears (t : Table) : Prop := ∀ x, x ∈ t → x.2.entry.pending.isSome = true → x.2.intact = true

theorem withoutPending_clear {x : Slot} (ok : x.entry.pending.isSome = true → x.intact = true) :
    x.withoutPending.resistsClear = false := by
  unfold Slot.withoutPending Slot.resistsClear
  by_cases intact : x.intact = true
  · rw [if_pos intact]
    rfl
  · rw [if_neg intact, Bool.eq_false_iff.mpr fun pending => intact (ok pending)]
    rfl

theorem failedClear_journalClear {s : State} (ok : s.table.clears) : (journalClear s).table.failedClear = none := by
  rw [failedClear_none]
  intro x mem
  obtain ⟨y, here, rfl⟩ := List.mem_map.mp mem
  exact withoutPending_clear (ok y here)

theorem enterFault_presentPartner (k : FaultKind) (s : State) :
    (enterFault k s).presentPartner = s.presentPartner := by
  cases active : s.life.active with
  | false => rw [enterFault_inactive k s active]
  | true =>
    unfold State.presentPartner State.peer
    rw [enterFault_presence k s active]
    dsimp only
    simp only [Four.get_build]
    rfl

theorem verifyClear_presentPartner (s : State) : (verifyClear s).presentPartner = s.presentPartner := by
  unfold verifyClear
  split
  · rfl
  · exact enterFault_presentPartner _ _

theorem changeRecords_presentPartner (records : Four Peer) (heard : Bool) (s : State) :
    (changeRecords records heard s).presentPartner = (told records heard s).presentPartner := by
  rw [changeRecords_eq]
  split
  · exact verifyClear_presentPartner _
  · rfl

/-- R92: a change of the records enters no FAULT unless it ends the partner's presence while a clear fails. -/
theorem changeRecords_told {records : Four Peer} {heard : Bool} {s : State}
    (ok : s.presentPartner = none ∨ (told records heard s).presentPartner = s.presentPartner ∨ s.table.clears) :
    changeRecords records heard s = told records heard s := by
  rw [changeRecords_eq]
  split
  · rename_i ends
    obtain ⟨was, changed⟩ := (partnershipEnded_iff _ _).mp ends
    rcases ok with none_ | same | clears
    · rw [none_] at was
      cases was
    · exact absurd same.symm changed
    · refine verifyClear_sound _ ?_
      rw [((told_tells records heard s).ended was changed).1]
      exact failedClear_journalClear clears
  · rfl

/-! ### The visit of the groups -/

theorem revisit_moves (before : State) (source : Option Station) (s : State) :
    Moves true s (revisit before source s) := by
  unfold revisit
  dsimp only
  split
  · exact (visitGroups_moves _ _ s).trans (settle_moves _)
  · exact .refl

theorem Moves.presentPartner {passes : Bool} {s t : State} (all : Moves passes s t) :
    t.presentPartner = s.presentPartner := by
  obtain ⟨⟨_, _, _, _, _, _, _, _, rfl⟩, -, -⟩ := all.span
  rfl

end Sys2Proof.Machine
end

