-- ==== Sys2Proof/Proofs/PartnerBeacons.lean ====
section
/-!
PROOFS. A BEACON of the partner: what it brings to the expectation (R98), to the journal (R88) and to a pass (R106).
-/

namespace Sys2Proof.Machine

open Sys2Proof

/-! ### The expectation -/

theorem expectByBeacon_unknown {b : Beacon} {s : State} (unknown : s.receive.expectation = none) :
    expectByBeacon b s = setWant b.next s := by
  unfold expectByBeacon
  rw [unknown]

theorem expectByBeacon_behind {b : Beacon} {s : State} {x : Seq} (known : s.receive.expectation = some x)
    (behind : serialBefore b.next x = true) : expectByBeacon b s = setWant b.next s := by
  unfold expectByBeacon
  rw [known]
  exact if_pos behind

theorem expectByBeacon_missed {b : Beacon} {s : State} {x : Seq} (known : s.receive.expectation = some x)
    (behind : serialBefore b.next x = false) (missed : serialBefore x b.oldest = true) :
    expectByBeacon b s = setWant b.oldest s := by
  unfold expectByBeacon
  rw [known]
  dsimp only
  rw [behind, missed]
  rfl

theorem expectByBeacon_steady {b : Beacon} {s : State} {x : Seq} (known : s.receive.expectation = some x)
    (behind : serialBefore b.next x = false) (missed : serialBefore x b.oldest = false) : expectByBeacon b s = s := by
  unfold expectByBeacon
  rw [known]
  dsimp only
  rw [behind, missed]
  rfl

theorem expectByBeacon_frame (b : Beacon) (s : State) : ∃ receive synced,
    expectByBeacon b s = { s with receive := receive, recon.synced := synced } := by
  unfold expectByBeacon
  split
  · exact ⟨_, _, rfl⟩
  · split
    · exact ⟨_, _, rfl⟩
    · split <;> exact ⟨_, _, rfl⟩

/-! ### The partner's BEACON -/

/-- R88: the state after the receipt field of a BEACON. -/
def receiptHeard (b : Beacon) (s : State) : State := (b.receipt.map fun n => judgeReceipt n s).getD s

theorem partnerBeacon_eq (b : Beacon) (s : State) : partnerBeacon b s =
    if (expectByBeacon b (receiptHeard b s)).beaconAsksPass b then startPass (expectByBeacon b (receiptHeard b s))
    else expectByBeacon b (receiptHeard b s) := by
  unfold partnerBeacon receiptHeard
  cases b.receipt <;> rfl

theorem judgeReceipt_frame (n : Seq) (s : State) : ∃ journal, judgeReceipt n s = { s with journal := journal } := by
  unfold judgeReceipt
  split <;> exact ⟨_, rfl⟩

theorem receiptHeard_frame (b : Beacon) (s : State) : ∃ journal, receiptHeard b s = { s with journal := journal } := by
  unfold receiptHeard
  cases b.receipt with
  | none => exact ⟨_, rfl⟩
  | some n => exact judgeReceipt_frame n s

/-- R88, R98, R106: what the BEACON of the partner may change. -/
theorem partnerBeacon_reaches (b : Beacon) (s : State) :
    (partnerBeacon b s).receive = (expectByBeacon b (receiptHeard b s)).receive
      ∧ (partnerBeacon b s).journal = (receiptHeard b s).journal
      ∧ (partnerBeacon b s).presence = s.presence := by
  obtain ⟨_, _, expected⟩ := expectByBeacon_frame b (receiptHeard b s)
  obtain ⟨_, heard⟩ := receiptHeard_frame b s
  have journal : (expectByBeacon b (receiptHeard b s)).journal = (receiptHeard b s).journal := by rw [expected]
  have presence : (expectByBeacon b (receiptHeard b s)).presence = s.presence := by rw [expected, heard]
  rw [partnerBeacon_eq]
  split
  · have untouched := startPass_untouched (expectByBeacon b (receiptHeard b s))
    refine ⟨untouched.receive, untouched.journal.trans journal, Eq.trans ?_ presence⟩
    unfold startPass
    split <;> rfl
  · exact ⟨rfl, journal, presence⟩

/-- R106, cause 1: the partner wants what is needed since a sequence after the last completed pass. -/
theorem partnerBeacon_passes {b : Beacon} {s : State} {n : Seq} (may : s.mayPass = true) (want : b.want = true)
    (needed : b.needSince = some n) (idle : s.recon.passRunning = false)
    (later : ∀ l, s.recon.lastCompleted = some l → serialBefore l n = true) :
    (partnerBeacon b s).recon.passRunning = true ∧ (partnerBeacon b s).recon.resend = allBuckets := by
  obtain ⟨_, _, expected⟩ := expectByBeacon_frame b (receiptHeard b s)
  obtain ⟨_, heard⟩ := receiptHeard_frame b s
  have asks : (expectByBeacon b (receiptHeard b s)).beaconAsksPass b = true := by
    unfold State.beaconAsksPass
    rw [expected, heard, want, needed]
    dsimp only
    rw [idle]
    cases last : s.recon.lastCompleted with
    | none => rfl
    | some l => exact later l last
  have starts : (expectByBeacon b (receiptHeard b s)).mayPass = true := by
    rw [expected, heard]
    exact may
  rw [partnerBeacon_eq, if_pos asks]
  exact ⟨(startPass_runs starts).1, (startPass_runs starts).2.1⟩

/-! ### The taking of a BEACON -/

/-- R131: the records with that of the sender as its BEACON leaves it. -/
def heardRecords (p : Station) (b : Beacon) (s : State) : Four Peer :=
  s.presence.records.set p ((s.peer p).hearBeacon b s.presence.fingerprint)

theorem takeBeacon_presentPartner (p : Station) (b : Beacon) (s : State) :
    (takeBeacon p b s).presentPartner = (told (heardRecords p b s) (s.heardChange p b) s).presentPartner := by
  rw [← changeRecords_presentPartner]
  unfold takeBeacon
  refine (revisit_moves s _ _).presentPartner.trans ?_
  split
  · unfold State.presentPartner State.peer
    rw [(partnerBeacon_reaches b _).2.2]
    rfl
  · rfl

/-- R133: a witness has no partner. -/
theorem firewall_of_partner {records : Four Peer} {heard : Bool} {s : State} {p : Station}
    (partner : (told records heard s).presentPartner = some p) : s.straps.role = .firewall := by
  obtain ⟨_, _, _, _, _, _, _, _, _, eq⟩ := (told_tells records heard s).frame
  rw [eq] at partner
  cases role : s.straps.role with
  | firewall => rfl
  | witness =>
    have designated := (Option.filter_eq_some_iff.mp partner).1
    unfold redesignated at designated
    rw [role] at designated
    cases designated

/-- R88, R98, R106: the BEACON of the partner, its record PRESENT after the change. -/
theorem takeBeacon_partner {p : Station} {b : Beacon} {s : State} (takes : s.takesFrames = true)
    (partner : (takeBeacon p b s).presentPartner = some p)
    (clears : s.presentPartner = none ∨ s.presentPartner = some p ∨ s.table.clears) :
    Moves true (partnerBeacon b (told (heardRecords p b s) (s.heardChange p b) s)) (takeBeacon p b s) := by
  rw [takeBeacon_presentPartner] at partner
  have fine := changeRecords_told (records := heardRecords p b s) (heard := s.heardChange p b) (s := s)
    (clears.imp_right (Or.imp_left fun same => partner.trans same.symm))
  have active : (told (heardRecords p b s) (s.heardChange p b) s).life.active = true :=
    (told_tells _ _ s).active.trans (Bool.and_eq_true_iff.mp takes).1
  have heard : takeBeacon p b s = revisit s _ _ := congrArg (fun c : State => revisit s
    (if s.presence.fingerprint = some b.fingerprint then some p else none)
    (if c.life.active && c.fromPartner p then partnerBeacon b c else c)) fine
  have taken : ((told (heardRecords p b s) (s.heardChange p b) s).life.active
      && (told (heardRecords p b s) (s.heardChange p b) s).fromPartner p) = true :=
    Bool.and_eq_true_iff.mpr ⟨active, decide_eq_true partner⟩
  rw [heard, if_pos taken]
  exact revisit_moves s _ _

theorem told_mayPass {records : Four Peer} {heard : Bool} {s : State} {p : Station} (active : s.life.active = true)
    (partner : (told records heard s).presentPartner = some p) : (told records heard s).mayPass = true := by
  have tells := told_tells records heard s
  have role : (told records heard s).straps.role = .firewall := by
    obtain ⟨_, _, _, _, _, _, _, _, _, shape⟩ := tells.frame
    rw [← firewall_of_partner partner, shape]
    rfl
  unfold State.mayPass State.partnerPresent
  rw [partner, role, tells.active, active]
  rfl

/-- R98: the expectation that the BEACON of the partner finds is unknown where its presence begins. -/
theorem Told.receiptHeard_receive {records : Four Peer} {heard : Bool} {s c : State} {p : Station}
    (tells : Told records heard s c) (partner : c.presentPartner = some p) (b : Beacon) :
    (receiptHeard b c).receive =
      { s.receive with expectation := if s.presentPartner = some p then s.receive.expectation else none } := by
  obtain ⟨_, eq⟩ := receiptHeard_frame b c
  obtain ⟨_, _, _, _, _, _, _, _, _, shape⟩ := tells.frame
  have known : c.receive.expectation = if s.presentPartner = some p then s.receive.expectation else none := by
    split
    · rename_i was
      exact congrArg Receive.expectation (tells.same (was.trans partner.symm)).2.2.1
    · rename_i stranger
      refine tells.begun (fun same => stranger (same.trans partner)) ?_
      rw [State.partnerPresent, partner]
      rfl
  rw [← known, eq, shape]
  rfl

theorem receiptHeard_some {b : Beacon} {n : Seq} (receipt : b.receipt = some n) (s : State) :
    receiptHeard b s = judgeReceipt n s := by
  unfold receiptHeard
  rw [receipt]
  rfl

/-- Settles O45: by the change of the records, the partner's BEACON after it, and the visit of the groups, which touches
neither the expectation nor the journal. -/
theorem partnerBeaconsMoveTheExpectation : Obligations.PartnerBeaconsMoveTheExpectation := by
  intro p b s run takes other
  refine ⟨takeBeacon p b s, congrArg Host.Outcome.next (onFrame_other _ p _ s run takes other),
    fun partner clears => ?_⟩
  have moves := takeBeacon_partner takes partner clears
  rw [takeBeacon_presentPartner] at partner
  have may := told_mayPass (Bool.and_eq_true_iff.mp takes).1 partner
  have tells := told_tells (heardRecords p b s) (s.heardChange p b) s
  generalize told (heardRecords p b s) (s.heardChange p b) s = c at moves partner tells may
  obtain ⟨⟨_, _, _, _, _, _, _, _, reached⟩, -, -⟩ := moves.span
  obtain ⟨received, judged, -⟩ := partnerBeacon_reaches b c
  have found := tells.receiptHeard_receive partner b
  have known := congrArg Receive.expectation found
  have receive : (takeBeacon p b s).receive = (expectByBeacon b (receiptHeard b c)).receive := by
    rw [← received, reached]
  have journal : (takeBeacon p b s).journal = (receiptHeard b c).journal := by
    rw [← judged, reached]
  intro before sets
  refine ⟨fun unknown => ?_, fun x was behind => ?_, fun x was behind missed => ?_, fun x was behind missed => ?_,
    fun n was receipt ok => ?_, fun n was want needed idle later => ?_⟩
  · dsimp only [sets]
    rw [receive, expectByBeacon_unknown (known.trans unknown)]
    exact ⟨rfl, rfl, rfl⟩
  · dsimp only [sets]
    rw [receive, expectByBeacon_behind (known.trans was) behind]
    exact ⟨rfl, rfl, rfl⟩
  · dsimp only [sets]
    rw [receive, expectByBeacon_missed (known.trans was) behind missed]
    exact ⟨rfl, rfl, rfl⟩
  · rw [receive, expectByBeacon_steady (known.trans was) behind missed]
    exact ⟨known.trans was, by rw [found], by rw [found]⟩
  · intro sentEnd ignored kept
    have same : sentEnd = s.journal.sentEnd := by
      rw [sentEnd_eq_getLast?]
      dsimp only [sentEnd]
      cases (s.journal.records.filter (·.sent)).getLast? <;> rfl
    have admitted : s.journal.admits n = false ↔ ignored := by
      rw [admits_false_iff ok, ← same]
    have held : c.journal = s.journal := (tells.same (was.trans partner.symm)).2.1
    rw [← admitted, journal, receiptHeard_some receipt]
    rw [← held] at ok ⊢
    refine ⟨fun out => by rw [judgeReceipt_ignored out], fun within => ?_⟩
    rw [Bool.not_eq_false] at within
    rw [judgeReceipt_admitted ok within]
    dsimp only [kept]
    rw [held]
  · have recon : c.recon = s.recon := (tells.same (was.trans partner.symm)).2.2.2
    rw [← recon] at idle later
    exact moves.passing (partnerBeacon_passes may want needed idle later)

end Sys2Proof.Machine
end

