-- ==== Sys2Proof/Proofs/StationTimers.lean ====
section
/-!
PROOFS. The timers of the station, of the journal and of the lines but for the dead timers: the beacon timer (R130), the
listen timer (R182), the receipt timer (R90), the stall timer (R91) and the line inhibition timers (R160).
-/

namespace Sys2Proof.Machine

open Sys2Proof

theorem whenLive_runs {s : State} (run : s.phase = .running) (f : State → State) : whenLive f s = f s := if_pos run

/-! ### The timers, expired -/

theorem exec_beaconTimerExpiry {s : State} (run : s.phase = .running) (runs : s.presence.beaconTimer = true) :
    exec .beaconTimerExpiry s = .next (handBeacon s) :=
  congrArg Host.Outcome.next ((whenLive_runs run _).trans (if_pos runs))

theorem exec_deadTimerExpiry {s : State} {p : Station} (run : s.phase = .running)
    (runs : (s.peer p).deadTimer = true) : exec (.deadTimerExpiry p) s = .next (loseRecord p s) :=
  congrArg Host.Outcome.next ((whenLive_runs run _).trans (if_pos runs))

theorem exec_listenTimerExpiry {s : State} (run : s.phase = .running) (runs : s.presence.listenTimer = true)
    (listen : s.life = .listen) : exec .listenTimerExpiry s = .next (leaveListen s) := by
  refine congrArg Host.Outcome.next ((whenLive_runs run _).trans (if_pos ?_))
  rw [runs, decide_eq_true listen]
  rfl

theorem exec_receiptTimerExpiry {s : State} (run : s.phase = .running) (runs : s.journal.receiptTimer = true) :
    exec .receiptTimerExpiry s = .next (receiptExpires s) :=
  congrArg Host.Outcome.next ((whenLive_runs run _).trans (if_pos runs))

theorem exec_stallTimerExpiry {s : State} (run : s.phase = .running) (runs : s.journal.stallTimer = true) :
    exec .stallTimerExpiry s = .next (stall s) :=
  congrArg Host.Outcome.next ((whenLive_runs run _).trans (if_pos runs))

theorem exec_lineInhibitionExpiry {s : State} {g : GroupId} (run : s.phase = .running)
    (runs : (s.group g).lineTimer = true) : exec (.lineInhibitionExpiry g) s = .next (lineStuck g s) :=
  congrArg Host.Outcome.next ((whenLive_runs run _).trans (if_pos runs))

/-! ### The end of LISTEN -/

theorem countPresent_zero (records : Four Peer) :
    countPresent records = 0 ↔ ∀ p, (records.get p).state ≠ .present := by
  unfold countPresent
  rw [List.length_eq_zero_iff, List.filter_eq_nil_iff]
  constructor
  · intro none_ p present
    exact none_ p (by fin_cases p <;> decide) (decide_eq_true present)
  · intro none_ p _ present
    exact none_ p (of_decide_eq_true present)

/-- R182. -/
theorem leaveListen_frame (s : State) : ClaimFrame { s with
    presence.listenTimer := false
    presence.life := if countPresent s.presence.records = 0 then .isolated else .member } (leaveListen s) :=
  settle_frame _

theorem leaveListen_life (s : State) :
    (leaveListen s).life = if countPresent s.presence.records = 0 then .isolated else .member := by
  obtain ⟨_, _, _, _, _, eq⟩ := leaveListen_frame s
  rw [eq]
  rfl

theorem leaveListen_isolated (s : State) : (leaveListen s).life = .isolated ↔ ∀ p, (s.peer p).state ≠ .present := by
  have count := countPresent_zero s.presence.records
  rw [leaveListen_life]
  split
  · rename_i zero
    exact ⟨fun _ => count.mp zero, fun _ => rfl⟩
  · rename_i some_
    exact ⟨nofun, fun none_ => absurd (count.mpr none_) some_⟩

theorem leaveListen_member (s : State) : (leaveListen s).life = .member ↔ ∃ p, (s.peer p).state = .present := by
  have isolated := leaveListen_isolated s
  have either := leaveListen_life s
  have split_ : (∃ p, (s.peer p).state = .present) ↔ (leaveListen s).life ≠ .isolated := by
    rw [ne_eq, isolated]
    exact not_forall_not.symm
  rw [split_, either]
  split
  · exact ⟨nofun, fun no => absurd rfl no⟩
  · exact ⟨nofun, fun _ => rfl⟩

/-! ### The receipt timer -/

theorem outstanding_iff (j : Journal) : j.outstanding = true ↔ ∃ r, r ∈ j.records ∧ r.sent = true := List.any_eq_true

theorem receiptExpires_outstanding {s : State} (out : ∃ r, r ∈ s.journal.records ∧ r.sent = true) :
    (receiptExpires s).journal.sendPoint = s.journal.oldest := if_pos ((outstanding_iff _).mpr out)

theorem receiptExpires_unsent {s : State} (unsent : ∀ r, r ∈ s.journal.records → r.sent = false) :
    (receiptExpires s).journal.sendPoint = s.journal.sendPoint := by
  refine if_neg fun out => ?_
  obtain ⟨r, mem, sent⟩ := (outstanding_iff _).mp out
  rw [unsent r mem] at sent
  cases sent

/-! ### The stall timer -/

/-- R91: the state of a stall before the pass. -/
def stalled (s : State) : State := spoilDrains (raise .lag (journalClear s))

theorem stall_clears {s : State} (clears : s.table.clears) : stall s = startPass (stalled s) :=
  congrArg startPass (verifyClear_sound (stalled s) (failedClear_journalClear clears))

theorem startPass_recon (s : State) : ∃ recon, startPass s = { s with recon := recon } := by
  unfold startPass
  split <;> exact ⟨_, rfl⟩

theorem stalled_slot {s : State} {k : Handle} {x : Slot} (here : s.table.slot k = some x) (intact : x.intact = true) :
    (stalled s).table.slot k = some ⟨{ x.entry with pending := none }, true⟩ := by
  refine (slot_journalClear s k).trans ?_
  rw [here, Option.map_some, Slot.withoutPending, if_pos intact, ← intact]

theorem stalled_group (s : State) (g : GroupId) : (stalled s).group g =
    if (s.group g).state = .yielding then { s.group g with drainSpoiled := true } else s.group g :=
  Four.get_build _ g

end Sys2Proof.Machine
end

