-- ==== Sys2Proof/Proofs/Losses.lean ====
section
/-!
PROOFS. The loss of a station at its dead timer (R132): its record, the loss of an owner (R142) and of a
successor (R155).
-/

namespace Sys2Proof.Machine

open Sys2Proof

/-! ### The record -/

/-- R132: a record whose dead timer has run out, before the designation. -/
def Peer.silenced (x : Peer) : Peer :=
  { x with state := if x.state = .present ∨ x.state = .surplus then .lost else x.state, deadTimer := false }

def silencedRecords (p : Station) (s : State) : Four Peer := s.presence.records.set p (s.peer p).silenced

theorem loseRecord_eq (p : Station) (s : State) :
    loseRecord p s = revisit s none (changeRecords (silencedRecords p s) false s) := by
  unfold loseRecord silencedRecords Peer.silenced
  dsimp only
  cases (s.peer p).state <;> rfl

/-- R133: a station that is silent is not PRESENT, and its record is LOST where it was counted. -/
theorem settled_silenced (x : Peer) (designated : Bool) : x.silenced.settled designated = x.silenced := by
  unfold Peer.settled Peer.silenced
  cases x.state <;> rfl

/-- R131: the records after the loss. -/
def lostRecords (p : Station) (s : State) : Four Peer := settledRecords (silencedRecords p s) s

theorem lostRecords_same (p : Station) (s : State) : (lostRecords p s).get p = (s.peer p).silenced := by
  unfold lostRecords settledRecords silencedRecords
  rw [Four.get_build, Four.get_set_same, settled_silenced]

theorem recordsDiffer_iff (a b : Four Peer) : recordsDiffer a b = true ↔ ∃ q, (b.get q).state ≠ (a.get q).state := by
  unfold recordsDiffer
  rw [List.any_eq_true]
  constructor
  · rintro ⟨q, -, differ⟩
    exact ⟨q, (of_decide_eq_true differ).symm⟩
  · rintro ⟨q, differ⟩
    exact ⟨q, by fin_cases q <;> decide, decide_eq_true differ.symm⟩

/-! ### One group after a loss -/

/-- No PRESENT station holds `g` (R141). -/
def State.unheld (s : State) (g : GroupId) : Prop := ∀ q, (s.peer q).state = .present → (s.peer q).showsHeld g = false

theorem followHolder_unheld {g : GroupId} {s : State} (unheld : s.unheld g) : followHolder g s = s := by
  have holders : s.holders g = [] := by
    unfold State.holders
    rw [List.filter_eq_nil_iff]
    intro q _ holds
    obtain ⟨present, shows⟩ := Bool.and_eq_true_iff.mp holds
    rw [unheld q (of_decide_eq_true present)] at shows
    cases shows
  have best : s.bestHolder g = none := by
    unfold State.bestHolder
    rw [holders]
    rfl
  unfold followHolder
  rw [best]
  cases (s.group g).state <;> rfl

theorem resolveDual_unsourced (g : GroupId) (s : State) : resolveDual g none s = s := rfl

theorem yieldToHolder_unsourced (g : GroupId) (s : State) : yieldToHolder g none s = s := rfl

theorem takeEpoch_unsourced (g : GroupId) (s : State) : takeEpoch g none s = s := by
  have shown : s.shownBy g none = none := rfl
  unfold takeEpoch
  rw [shown]

/-- Without a source, a visit gives up a lost yield, loses a lost owner, and tests the preempt condition. -/
def visitLost (partner : Bool) (g : GroupId) (s : State) : State :=
  let s := followOrLose g none (giveUpYield g s)
  if partner then preemptTest g s else s

theorem visitGroup_unsourced (partner : Bool) (s : State) (g : GroupId) :
    visitGroup none partner s g = visitLost partner g s := by
  unfold visitGroup
  dsimp only
  rw [resolveDual_unsourced, yieldToHolder_unsourced, takeEpoch_unsourced]
  refine if_neg fun successor => ?_
  obtain ⟨some_, none_⟩ := Bool.and_eq_true_iff.mp successor
  rw [of_decide_eq_true none_] at some_
  cases some_

/-- R154: the preempt test of a group that is not HOLDING, or whose preemption is off or delayed, sets its mark
alone. -/
theorem preemptTest_group {g : GroupId} {s : State} (still : (s.group g).state ≠ .holding
      ∨ s.port.setup.preempt.get g = false ∨ s.port.setup.preemptDelay.get g ≠ 0) :
    ∃ preempt, (preemptTest g s).group g = { s.group g with preempt := preempt } := by
  unfold preemptTest
  split
  · rename_i condition
    unfold State.preemptCondition at condition
    simp only [Bool.and_eq_true, decide_eq_true_eq] at condition
    have delayed : s.port.setup.preemptDelay.get g ≠ 0 := by
      rcases still with other | off | delayed
      · exact absurd condition.1.2 other
      · rw [off] at condition
        exact absurd condition.1.1 Bool.false_ne_true
      · exact delayed
    split
    · exact ⟨_, rfl⟩
    · rw [if_neg delayed]
      exact ⟨_, mapGroup_group_same _ _ _⟩
  · exact ⟨_, mapGroup_group_same _ _ _⟩

/-- The preempt test after a loss, which sets its mark alone where the group is not HOLDING, or its preemption is off or
delayed. -/
theorem preemptIf_group (partner : Bool) {g : GroupId} {s : State} (still : (s.group g).state ≠ .holding
      ∨ s.port.setup.preempt.get g = false ∨ s.port.setup.preemptDelay.get g ≠ 0) :
    ∃ preempt, (if partner then preemptTest g s else s).group g = { s.group g with preempt := preempt } := by
  split
  · exact preemptTest_group still
  · exact ⟨_, rfl⟩

theorem preemptIf_moves (partner : Bool) (g : GroupId) (s : State) :
    Moves false s (if partner then preemptTest g s else s) := by
  split
  · exact (preemptTest_moves g s).moves
  · exact .refl

theorem followOrLose_not {g : GroupId} {s : State} (following : (s.group g).state ≠ .following)
    (unheld : s.unheld g) : followOrLose g none s = s := by
  unfold followOrLose State.ownerLost
  rw [decide_eq_false following]
  exact followHolder_unheld unheld

/-! ### A lost owner -/

theorem giveUpYield_not {g : GroupId} {s : State} (other : (s.group g).state ≠ .yielding) : giveUpYield g s = s := by
  unfold giveUpYield State.yieldLost
  rw [decide_eq_false other]
  rfl

theorem setOwner_presence (g : GroupId) (o : Option Station) (s : State) :
    (setOwner g o s).presence = s.presence := by
  unfold setOwner
  split <;> rfl

theorem unheld_of_presence {s t : State} {g : GroupId} (same : t.presence = s.presence) (unheld : s.unheld g) :
    t.unheld g := by
  unfold State.unheld State.peer at *
  rwa [same]

theorem Moves.unheld {passes : Bool} {s t : State} {g : GroupId} (all : Moves passes s t) (unheld : s.unheld g) :
    t.unheld g := by
  obtain ⟨⟨_, _, _, _, _, _, _, _, eq⟩, -, -⟩ := all.span
  exact unheld_of_presence (by rw [eq]) unheld

/-- R142: the owner known is lost. -/
theorem followOrLose_lost {g : GroupId} {s : State} {o : Station} (following : (s.group g).state = .following)
    (owner : (s.group g).owner = some o) (gone : (s.peer o).state ≠ .present) (unheld : s.unheld g) :
    followOrLose g none s = setOwner g none
      (mapGroup g (fun r => { r with state := .vacant, claimNote := none, yieldNote := none }) s) := by
  have lost : s.ownerLost g none = true := by
    unfold State.ownerLost
    rw [following, owner]
    dsimp only
    rw [decide_eq_true gone]
    rfl
  unfold followOrLose
  rw [if_pos lost]
  exact followHolder_unheld (unheld_of_presence (setOwner_presence g none _) unheld)

theorem setOwner_unsynced {g : GroupId} {o : Option Station} {s : State} (changes : (s.group g).owner ≠ o) :
    (setOwner g o s).recon.synced.get g = false := by
  unfold setOwner
  rw [if_neg changes]
  exact Four.get_set_same _ _ _

/-- R142, R109: a group whose owner is lost is VACANT, and out of the synced set. -/
theorem visitLost_follower (partner : Bool) {g : GroupId} {s : State} {o : Station}
    (following : (s.group g).state = .following) (owner : (s.group g).owner = some o)
    (gone : (s.peer o).state ≠ .present) (unheld : s.unheld g) :
    ((visitLost partner g s).group g).state = .vacant ∧ ((visitLost partner g s).group g).owner = none
      ∧ ((visitLost partner g s).group g).epoch = (s.group g).epoch
      ∧ (visitLost partner g s).recon.synced.get g = false := by
  have yields : giveUpYield g s = s := giveUpYield_not (by rw [following]; nofun)
  unfold visitLost
  rw [yields, followOrLose_lost following owner gone unheld]
  dsimp only
  generalize eq : setOwner g none
    (mapGroup g (fun r => { r with state := .vacant, claimNote := none, yieldNote := none }) s) = u
  have vacated : u.group g = { s.group g with
      state := .vacant, claimNote := none, yieldNote := none, owner := none } := by
    rw [← eq, setOwner_group_same, mapGroup_group_same]
  have unsynced : u.recon.synced.get g = false := by
    rw [← eq]
    refine setOwner_unsynced ?_
    rw [mapGroup_group_same]
    dsimp only
    rw [owner]
    nofun
  obtain ⟨_, tested⟩ := preemptIf_group partner (g := g) (s := u) (.inl (by rw [vacated]; nofun))
  rw [tested, vacated]
  exact ⟨rfl, rfl, rfl, (preemptIf_moves partner g u).unsynced g unsynced⟩

/-! ### A lost successor -/

/-- R155. -/
theorem yieldLost_of_gone {g : GroupId} {s : State} {p : Station} (yielding : (s.group g).state = .yielding)
    (successor : (s.group g).successor = some p) (gone : s.presentPartner ≠ some p) : s.yieldLost g = true := by
  unfold State.yieldLost
  rw [yielding, successor]
  dsimp only
  rw [decide_eq_true gone]
  rfl

theorem startPass_group (s : State) (g : GroupId) : (startPass s).group g = s.group g :=
  congrArg (fun groups : Four GroupRecord => groups.get g) (startPass_untouched s).groups

theorem openWindow_group_same (g : GroupId) (s : State) :
    (openWindow g s).group g = { s.group g with adoptionOpen := true, adoptionTimer := true } :=
  mapGroup_group_same g (fun r => { r with adoptionOpen := true, adoptionTimer := true }) s

/-- R164: the office of the record after an entry to HOLDING. -/
theorem enterHolding_group_same (g : GroupId) (tenure : Tenure) (s : State) :
    ((enterHolding g tenure s).group g).state = .holding ∧ ((enterHolding g tenure s).group g).owner = some s.me
      ∧ ((enterHolding g tenure s).group g).tenure = some tenure := by
  have quarantined (u : State) : (raise .takeover (openQuarantine g u)).group g = u.group g := rfl
  unfold enterHolding
  dsimp only
  rw [startPass_group, quarantined, openWindow_group_same, setOwner_group_same, mapGroup_group_same]
  exact ⟨rfl, rfl, rfl⟩

theorem enterHolding_takeover (g : GroupId) (tenure : Tenure) (s : State) :
    (enterHolding g tenure s).port.flags.getLsbD 1 = true := by
  unfold enterHolding
  dsimp only
  generalize openQuarantine g _ = u
  obtain ⟨_, eq⟩ := startPass_recon (raise .takeover u)
  rw [eq]
  dsimp only
  rw [raise_flags, getLsbD_raiseFlag .takeover _ 1 (by decide), decide_eq_true (show 1 = Event.takeover.bit from rfl),
    Bool.or_true]

theorem enterHolding_setup (g : GroupId) (tenure : Tenure) (s : State) :
    (enterHolding g tenure s).port.setup = s.port.setup := by
  obtain ⟨⟨_, _, _, _, _, _, _, _, eq⟩, -, -⟩ := (enterHolding_moves g tenure s).moves.span
  rw [eq]

/-- R155, R164: the station takes the group back. -/
theorem visitLost_resumes (partner : Bool) {g : GroupId} {s : State} (lost : s.yieldLost g = true)
    (eligible : s.eligible g = true) (unheld : s.unheld g)
    (still : s.port.setup.preempt.get g = false ∨ s.port.setup.preemptDelay.get g ≠ 0) :
    ((visitLost partner g s).group g).state = .holding ∧ ((visitLost partner g s).group g).owner = some s.me
      ∧ ((visitLost partner g s).group g).tenure = some .resumed
      ∧ (visitLost partner g s).port.flags.getLsbD 1 = true := by
  have given : giveUpYield g s = enterHolding g .resumed s := by
    unfold giveUpYield
    rw [if_pos lost, if_pos eligible]
  obtain ⟨state, owner, tenure⟩ := enterHolding_group_same g .resumed s
  have flag := enterHolding_takeover g .resumed s
  have moves := (enterHolding_moves g .resumed s).moves
  rw [← enterHolding_setup g .resumed s] at still
  unfold visitLost
  rw [given]
  generalize enterHolding g .resumed s = u at *
  rw [followOrLose_not (by rw [state]; nofun) (moves.unheld unheld)]
  obtain ⟨_, tested⟩ := preemptIf_group partner (g := g) (s := u) (.inr still)
  dsimp only
  rw [tested]
  exact ⟨state, owner, tenure, (preemptIf_moves partner g u).flagged (by decide) flag⟩

/-- R155, R151: the station releases the group. -/
theorem visitLost_releases (partner : Bool) {g : GroupId} {s : State} (lost : s.yieldLost g = true)
    (ineligible : s.eligible g = false) (unheld : s.unheld g) :
    ((visitLost partner g s).group g).state = .vacant ∧ ((visitLost partner g s).group g).owner = none
      ∧ ((visitLost partner g s).group g).backoff = true
      ∧ (visitLost partner g s).port.flags.getLsbD 2 = true := by
  have given : giveUpYield g s = release g s := by
    unfold giveUpYield
    rw [if_pos lost, ineligible]
    rfl
  have released : (release g s).group g = { (leaveHolding g .vacant none s).group g with backoff := true } :=
    mapGroup_group_same _ _ _
  rw [leaveHolding_group_same] at released
  have flag : (release g s).port.flags.getLsbD 2 = true := leaveHolding_released g .vacant none s
  have moves := (release_moves (passes := false) g s).moves
  unfold visitLost
  rw [given]
  generalize release g s = u at *
  rw [followOrLose_not (by rw [released]; nofun) (moves.unheld unheld)]
  obtain ⟨_, tested⟩ := preemptIf_group partner (g := g) (s := u) (.inl (by rw [released]; nofun))
  dsimp only
  rw [tested, released]
  exact ⟨rfl, rfl, rfl, (preemptIf_moves partner g u).flagged (by decide) flag⟩

/-! ### Eligibility of a group that is held -/

/-- R139: the inputs of eligibility but for the group line. -/
def State.mayHold (s : State) (g : GroupId) : Prop :=
  s.straps.role = .firewall ∧ (s.life = .member ∨ s.life = .isolated) ∧ s.port.isSealed = true
    ∧ s.port.setup.groups.get g = true ∧ (s.group g).health ≠ 0 ∧ (s.group g).hold = false ∧ s.port.lapsed = false
    ∧ s.quorumPresent = true

theorem joined_iff (l : Life) : l.joined = true ↔ l = .member ∨ l = .isolated := by
  cases l <;> decide

theorem eligibleButLine_iff (s : State) (g : GroupId) : s.eligibleButLine g = true ↔ s.mayHold g := by
  unfold State.eligibleButLine State.mayHold
  simp only [Bool.and_eq_true, decide_eq_true_eq, bne_iff_ne, Bool.not_eq_true', joined_iff, and_assoc]

/-- R158, R159: the line of a group that the station drives is not foreign-asserted. -/
theorem eligible_of_held {s : State} {g : GroupId} (run : s.phase = .running) (held : s.holds g = true) :
    s.eligible g = true ↔ s.mayHold g := by
  unfold State.eligible
  rw [Bool.and_eq_true, eligibleButLine_iff, and_iff_left_iff_imp]
  rintro ⟨role, life, -, -, -, hold, -, -⟩
  have active : s.life.active = true := by
    rcases life with eq | eq <;> rw [eq] <;> rfl
  have drives : s.drive g = true := by
    unfold State.drive
    rw [role, run, active, hold, held]
    rfl
  unfold State.foreign
  rw [drives, Bool.not_true, Bool.and_false]
  rfl

theorem Moves.mayHold {passes : Bool} {s t : State} {g : GroupId} (all : Moves passes s t)
    (same : t.group g = s.group g) : t.mayHold g ↔ s.mayHold g := by
  obtain ⟨⟨_, _, _, _, _, _, _, _, eq⟩, -, -⟩ := all.span
  unfold State.mayHold
  rw [same, eq]
  rfl

/-! ### The settling of a group without an owner -/

theorem startClaim_ownerless (g : GroupId) (cause : ClaimCause) (epoch : Epoch) (note : Option Bool) (s : State) :
    ((startClaim g cause epoch note s).group g).owner = none
      ∧ ((startClaim g cause epoch note s).group g).epoch = (s.group g).epoch := by
  unfold startClaim
  dsimp only
  generalize claimed : setOwner g none (mapGroup g _ s) = t
  have group : (t.group g).owner = none ∧ (t.group g).epoch = (s.group g).epoch := by
    rw [← claimed, setOwner_group_same, mapGroup_group_same]
    exact ⟨rfl, rfl⟩
  split
  · exact group
  · rw [abandonClaim_group_same]
    exact ⟨rfl, group.2⟩

/-- R143: a VACANT group without an owner may come to claim. -/
theorem settle_vacant {g : GroupId} {s : State} (vacant : (s.group g).state = .vacant)
    (ownerless : (s.group g).owner = none) :
    Claimable ((settle s).group g).state ∧ ((settle s).group g).owner = none
      ∧ ((settle s).group g).epoch = (s.group g).epoch := by
  obtain ⟨u, -, same, settled⟩ := settle_group g s
  rw [← same] at vacant ownerless ⊢
  rw [settled]
  unfold settleGroup
  rw [vacant]
  dsimp only
  split
  · rename_i claims
    exact absurd (Bool.and_eq_true_iff.mp claims).1 (by decide)
  obtain ⟨_, _, line⟩ := followLine_group_same g
    (if u.mayClaim g then startClaim g .vacant ((u.group g).epoch + 1) none u else u)
  rw [line]
  dsimp only
  split
  · exact ⟨(startClaim_group_same g _ _ _ u).1, startClaim_ownerless g _ _ _ u⟩
  · exact ⟨.inl vacant, ownerless, rfl⟩

/-! ### The visit after a loss -/

/-- The consequences of a loss at the ownership controller. -/
def visitAfterLoss (partner : Bool) (s : State) : State := settle (visitGroups none partner s)

theorem visitAfterLoss_turn (partner : Bool) (g : GroupId) (s : State) :
    ∃ u, Moves true s u ∧ u.group g = s.group g ∧ Moves true (visitLost partner g u) (visitAfterLoss partner s)
      ∧ (visitGroups none partner s).group g = (visitLost partner g u).group g := by
  obtain ⟨u, -, reached, record, rest, kept⟩ := foldl_turn (visitGroup_moves none partner) g s
  rw [visitGroup_unsourced] at rest kept
  exact ⟨u, reached, record, rest.trans (settle_moves _), kept⟩

theorem Moves.peer {passes : Bool} {s t : State} (all : Moves passes s t) (p : Station) : t.peer p = s.peer p := by
  obtain ⟨⟨_, _, _, _, _, _, _, _, rfl⟩, -, -⟩ := all.span
  rfl

theorem Moves.setup {passes : Bool} {s t : State} (all : Moves passes s t) : t.port.setup = s.port.setup := by
  obtain ⟨⟨_, _, _, _, _, _, _, _, rfl⟩, -, -⟩ := all.span
  rfl

theorem Moves.me {passes : Bool} {s t : State} (all : Moves passes s t) : t.me = s.me := by
  obtain ⟨⟨_, _, _, _, _, _, _, _, rfl⟩, -, -⟩ := all.span
  rfl

theorem Moves.phase {passes : Bool} {s t : State} (all : Moves passes s t) : t.phase = s.phase := by
  obtain ⟨⟨_, _, _, _, _, _, _, _, rfl⟩, -, -⟩ := all.span
  rfl

/-- R142, R143, R109: a group whose owner is lost. -/
theorem visitAfterLoss_follower (partner : Bool) {g : GroupId} {s : State} {p : Station}
    (following : (s.group g).state = .following) (owner : (s.group g).owner = some p)
    (gone : (s.peer p).state ≠ .present) (unheld : s.unheld g) :
    ((visitAfterLoss partner s).group g).owner = none
      ∧ Claimable ((visitAfterLoss partner s).group g).state
      ∧ ((visitAfterLoss partner s).group g).epoch = (s.group g).epoch
      ∧ (visitAfterLoss partner s).recon.synced.get g = false := by
  obtain ⟨u, reached, record, rest, kept⟩ := visitAfterLoss_turn partner g s
  rw [← record] at following owner ⊢
  rw [← reached.peer p] at gone
  obtain ⟨vacant, ownerless, epoch, unsynced⟩ :=
    visitLost_follower partner following owner gone (reached.unheld unheld)
  rw [← kept] at vacant ownerless epoch
  obtain ⟨state, none_, same⟩ := settle_vacant vacant ownerless
  exact ⟨none_, state, same.trans epoch, rest.unsynced g unsynced⟩

/-- R155, R164: a group whose successor is lost, at a station that may hold it. -/
theorem visitAfterLoss_resumes (partner : Bool) {g : GroupId} {s : State} {p : Station} (run : s.phase = .running)
    (yielding : (s.group g).state = .yielding) (successor : (s.group g).successor = some p)
    (gone : s.presentPartner ≠ some p) (unheld : s.unheld g) (may : s.mayHold g)
    (still : s.port.setup.preempt.get g = false ∨ s.port.setup.preemptDelay.get g ≠ 0) :
    ((visitAfterLoss partner s).group g).state = .holding
      ∧ ((visitAfterLoss partner s).group g).owner = some s.me
      ∧ ((visitAfterLoss partner s).group g).tenure = some .resumed
      ∧ (visitAfterLoss partner s).port.flags.getLsbD 1 = true := by
  obtain ⟨u, reached, record, rest, kept⟩ := visitAfterLoss_turn partner g s
  rw [← reached.mayHold record, ← eligible_of_held (reached.phase.trans run)
    (by rw [State.holds, record, yielding]; rfl)] at may
  rw [← record] at yielding successor
  rw [← reached.presentPartner] at gone
  rw [← reached.setup] at still
  obtain ⟨state, owner, tenure, flag⟩ :=
    visitLost_resumes partner (yieldLost_of_gone yielding successor gone) may (reached.unheld unheld) still
  rw [← kept] at state owner tenure
  have settled : ∃ timer reported, (visitAfterLoss partner s).group g = _ :=
    settle_still (s := visitGroups none partner s) (by rw [state]; nofun) (.inl (by rw [state]; nofun))
  obtain ⟨_, _, settled⟩ := settled
  rw [settled]
  exact ⟨state, owner.trans (congrArg some reached.me), tenure, rest.flagged (by decide) flag⟩

/-- R155, R151: a group whose successor is lost, at a station that may not hold it. -/
theorem visitAfterLoss_releases (partner : Bool) {g : GroupId} {s : State} {p : Station} (run : s.phase = .running)
    (yielding : (s.group g).state = .yielding) (successor : (s.group g).successor = some p)
    (gone : s.presentPartner ≠ some p) (unheld : s.unheld g) (mayNot : ¬ s.mayHold g) :
    ((visitAfterLoss partner s).group g).state = .vacant ∧ ((visitAfterLoss partner s).group g).owner = none
      ∧ ((visitAfterLoss partner s).group g).backoff = true
      ∧ (visitAfterLoss partner s).port.flags.getLsbD 2 = true := by
  obtain ⟨u, reached, record, rest, kept⟩ := visitAfterLoss_turn partner g s
  rw [← reached.mayHold record, ← eligible_of_held (reached.phase.trans run)
    (by rw [State.holds, record, yielding]; rfl), Bool.not_eq_true] at mayNot
  rw [← record] at yielding successor
  rw [← reached.presentPartner] at gone
  obtain ⟨state, owner, backoff, flag⟩ :=
    visitLost_releases partner (yieldLost_of_gone yielding successor gone) mayNot (reached.unheld unheld)
  rw [← kept] at state owner backoff
  have settled : ∃ timer reported, (visitAfterLoss partner s).group g = _ :=
    settle_still (s := visitGroups none partner s) (by rw [state]; nofun) (.inr backoff)
  obtain ⟨_, _, settled⟩ := settled
  rw [settled]
  exact ⟨state, owner, backoff, rest.flagged (by decide) flag⟩

end Sys2Proof.Machine
end

