-- ==== Sys2Proof/Proofs/DeadTimers.lean ====
section
/-!
PROOFS. The expiry of a dead timer (R132) with all that follows it (R92, R109, R134, R142, R155), and with it every
timer of the station.
-/

namespace Sys2Proof.Machine

open Sys2Proof

/-- R131 to R134: the loss told to every unit, short of a clear that fails. -/
def lossTold (p : Station) (s : State) : State := told (silencedRecords p s) false s

theorem lossTold_tells (p : Station) (s : State) : Told (silencedRecords p s) false s (lossTold p s) := told_tells _ _ s

theorem loseRecord_presentPartner (p : Station) (s : State) :
    (loseRecord p s).presentPartner = (lossTold p s).presentPartner := by
  rw [loseRecord_eq, (revisit_moves s none _).presentPartner]
  exact changeRecords_presentPartner _ _ s

/-- A loss enters no FAULT unless it ends the partner's presence while a clear fails. -/
theorem loseRecord_revisits {p : Station} {s : State} (ok : s.presentPartner = none
      ∨ (loseRecord p s).presentPartner = s.presentPartner ∨ s.table.clears) :
    loseRecord p s = revisit s none (lossTold p s) := by
  rw [loseRecord_presentPartner] at ok
  exact (loseRecord_eq p s).trans (congrArg (revisit s none) (changeRecords_told ok))

theorem lossTold_records (p : Station) (s : State) : (lossTold p s).presence.records = lostRecords p s := by
  obtain ⟨_, _, _, _, _, _, _, _, _, eq⟩ := (lossTold_tells p s).frame
  rw [eq]
  rfl

/-- R132: the record of the silent station. -/
theorem lossTold_peer (p : Station) (s : State) : (lossTold p s).peer p = (s.peer p).silenced := by
  unfold State.peer
  rw [lossTold_records]
  exact lostRecords_same p s

theorem silenced_not_present (x : Peer) : x.silenced.state ≠ .present := by
  by_cases counted : x.state = .present ∨ x.state = .surplus
  · rw [show x.silenced.state = .lost from if_pos counted]
    nofun
  · rw [show x.silenced.state = x.state from if_neg counted]
    exact fun present => counted (.inl present)

theorem silenced_lost {x : Peer} (counted : x.state = .present ∨ x.state = .surplus) : x.silenced.state = .lost :=
  if_pos counted

theorem silenced_kept {x : Peer} (present : x.state ≠ .present) (surplus : x.state ≠ .surplus) :
    x.silenced.state = x.state := if_neg (not_or.mpr ⟨present, surplus⟩)

theorem presentPartner_state {s : State} {p : Station} (partner : s.presentPartner = some p) :
    (s.peer p).state = .present := of_decide_eq_true (Option.filter_eq_some_iff.mp partner).2

/-- R142, R155: the loss of a PRESENT station is visited at every group. -/
theorem revisit_visits {p : Station} {s : State} (active : s.life.active = true)
    (present : (s.peer p).state = .present) :
    ∃ partner, revisit s none (lossTold p s) = visitAfterLoss partner (lossTold p s) := by
  have differ : recordsDiffer s.presence.records (lossTold p s).presence.records = true := by
    refine (recordsDiffer_iff _ _).mpr ⟨p, ?_⟩
    have lost := lossTold_peer p s
    unfold State.peer at lost present
    rw [lost, present]
    exact silenced_not_present _
  refine ⟨_, if_pos ?_⟩
  rw [(lossTold_tells p s).active, active, differ]
  rfl

/-! ### The end of the partner's presence -/

theorem mem_of_slot {t : Table} {k : Handle} {x : Slot} (here : t.slot k = some x) : (k, x) ∈ t := by
  induction t with
  | nil => cases here
  | cons y t ih =>
    unfold Table.slot at here
    split at here
    · rename_i same
      cases here
      rw [← same]
      exact List.mem_cons_self
    · exact List.mem_cons_of_mem y (ih here)

theorem withoutPending_entry {x : Slot} (ok : x.entry.pending.isSome = true → x.intact = true) :
    x.withoutPending.entry = { x.entry with pending := none } := by
  unfold Slot.withoutPending
  split
  · rfl
  · rename_i damaged
    have absent : x.entry.pending = none := by
      rw [← Option.not_isSome_iff_eq_none]
      exact fun pending => damaged (ok pending)
    rw [← absent]

/-- R92: a clear that succeeds makes every pending mark absent. -/
theorem entryAt_journalClear {s : State} (clears : s.table.clears) (k : Handle) :
    (journalClear s).entryAt k = (s.entryAt k).map fun e => { e with pending := none } := by
  cases here : s.table.slot k with
  | none =>
    rw [(entryAt_none s k).mpr here]
    refine (entryAt_none _ k).mpr ?_
    rw [slot_journalClear, here]
    rfl
  | some x =>
    have cleared := (slot_journalClear s k).trans (congrArg (Option.map Slot.withoutPending) here)
    rw [entryAt_slot here, entryAt_slot cleared, withoutPending_entry (clears (k, x) (mem_of_slot here))]
    rfl

theorem Moves.synced_empty {passes : Bool} {s t : State} (all : Moves passes s t)
    (empty : s.recon.synced = Four.all false) : t.recon.synced = Four.all false := by
  refine Four.ext_get fun g => ?_
  rw [Four.get_all]
  exact all.unsynced g (by rw [empty, Four.get_all])

/-! ### The expiry of a dead timer -/

/-- R132 to R134: what the loss of `p`, visited or not, leaves of the records, the journal and the flags. -/
theorem loss_of_moves {p : Station} {s t : State} (moves : Moves true (lossTold p s) t) :
    t.peer p = (s.peer p).silenced
      ∧ (s.presentPartner = some p → t.presentPartner ≠ some p)
      ∧ (s.presentPartner = none ∨ t.presentPartner = s.presentPartner → t.table = s.table ∧ t.journal = s.journal)
      ∧ (t.port.flags.getLsbD 5 = true ↔
          s.port.flags.getLsbD 5 = true ∨ ∃ q, (t.peer q).state ≠ (s.peer q).state) := by
  have tells := lossTold_tells p s
  have record : t.peer p = (s.peer p).silenced := (moves.peer p).trans (lossTold_peer p s)
  refine ⟨record, fun _ partner => ?_, fun kept => ?_, ?_⟩
  · have present := presentPartner_state partner
    rw [record] at present
    exact silenced_not_present _ present
  · have same : (lossTold p s).table = s.table ∧ (lossTold p s).journal = s.journal := by
      rcases kept with none_ | same
      · exact tells.kept none_
      · rw [moves.presentPartner] at same
        exact ⟨(tells.same same.symm).1, (tells.same same.symm).2.1⟩
    obtain ⟨⟨_, _, _, _, _, _, _, _, eq⟩, -, -⟩ := moves.span
    rw [eq]
    exact same
  · have peers (q : Station) : t.peer q = (lostRecords p s).get q := by
      rw [moves.peer q, State.peer, lossTold_records]
    rw [moves.presenceFlag, tells.flag, Bool.false_or, Bool.or_eq_true, recordsDiffer_iff]
    simp only [peers]
    rfl

/-- R92, R109: the loss that ends the partner's presence, where the clear succeeds. -/
theorem loss_ends_partner {p : Station} {s t : State} (moves : Moves true (lossTold p s) t) (clears : s.table.clears)
    (was : s.presentPartner.isSome = true) (changed : t.presentPartner ≠ s.presentPartner) :
    t.journal = ⟨[], s.journal.next, s.journal.next, s.journal.next, false, false⟩
      ∧ t.recon.synced = Four.all false
      ∧ ∀ k, t.entryAt k = (s.entryAt k).map fun e => { e with pending := none } := by
  rw [moves.presentPartner] at changed
  obtain ⟨table, journal, synced⟩ := (lossTold_tells p s).ended was changed.symm
  have empty := moves.synced_empty synced
  obtain ⟨⟨_, _, _, _, _, _, _, _, eq⟩, -, -⟩ := moves.span
  rw [eq] at empty ⊢
  refine ⟨journal, empty, fun k => ?_⟩
  rw [← entryAt_journalClear clears k]
  exact congrArg (fun t : Table => (t.slot k).map Slot.entry) table

theorem loss_frame {p : Station} {s t : State} (moves : Moves true (lossTold p s) t) :
    t = { s with
      table := t.table, xlate := t.xlate, journal := t.journal, receive.expectation := t.receive.expectation
      recon := { t.recon with digestTimer := s.recon.digestTimer, sweep := s.recon.sweep }
      bus.control := t.bus.control, bus.transmitting := t.bus.transmitting, bus.digest := t.bus.digest
      presence.records := t.presence.records, presence.partner := t.presence.partner
      presence.witness := t.presence.witness, presence.watched := t.presence.watched
      presence.life := t.presence.life
      own.groups := t.own.groups, own.quorumTimer := t.own.quorumTimer
      port.flags := t.port.flags, port.busCapture := t.port.busCapture } := by
  have tells := lossTold_tells p s
  obtain ⟨⟨_, _, _, _, _, _, _, _, eq⟩, timer, sweep⟩ := moves.span
  obtain ⟨_, _, _, _, _, _, _, _, _, shape⟩ := tells.frame
  rw [← timer.trans tells.digestTimer, ← sweep.trans tells.sweep, eq, shape]
  rfl

/-! ### One group at a loss -/

theorem lossTold_group (p : Station) (s : State) (g : GroupId) : (lossTold p s).group g = s.group g := by
  obtain ⟨_, _, _, _, _, _, _, _, _, eq⟩ := (lossTold_tells p s).frame
  rw [eq]
  rfl

theorem lossTold_straps (p : Station) (s : State) : (lossTold p s).straps = s.straps := by
  obtain ⟨_, _, _, _, _, _, _, _, _, eq⟩ := (lossTold_tells p s).frame
  rw [eq]
  rfl

theorem lossTold_phase (p : Station) (s : State) : (lossTold p s).phase = s.phase := by
  obtain ⟨_, _, _, _, _, _, _, _, _, eq⟩ := (lossTold_tells p s).frame
  rw [eq]
  rfl

theorem lossTold_setup (p : Station) (s : State) : (lossTold p s).port.setup = s.port.setup := by
  obtain ⟨_, _, _, _, _, _, _, _, _, eq⟩ := (lossTold_tells p s).frame
  rw [eq]
  rfl

/-- R139: eligibility after the loss, by the station state and the quorum that it leaves. -/
theorem lossTold_mayHold {p : Station} {s t : State} (moves : Moves true (lossTold p s) t) (g : GroupId) :
    (lossTold p s).mayHold g ↔ s.straps.role = .firewall ∧ (t.life = .member ∨ t.life = .isolated)
      ∧ s.port.isSealed = true ∧ s.port.setup.groups.get g = true ∧ (s.group g).health ≠ 0
      ∧ (s.group g).hold = false ∧ s.port.lapsed = false ∧ t.quorumPresent = true := by
  unfold State.mayHold
  rw [lossTold_group]
  obtain ⟨⟨_, _, _, _, _, _, _, _, eq⟩, -, -⟩ := moves.span
  obtain ⟨_, _, _, _, _, _, _, _, _, shape⟩ := (lossTold_tells p s).frame
  rw [eq, shape]
  rfl

theorem lossTold_gone (p : Station) (s : State) : ((lossTold p s).peer p).state ≠ .present := by
  rw [lossTold_peer]
  exact silenced_not_present _

/-- Settles O59: each timer by what its expiry does; a dead timer by the change of the records, the partner's end that
it may bring, and the visit of the groups. -/
theorem stationTimersExpire : Obligations.StationTimersExpire := by
  intro s run clears
  refine ⟨fun runs => ?_, fun p runs => ?_, fun runs listen => ?_, fun runs => ?_, fun runs ok => ?_, fun g runs => ?_⟩
  · exact ⟨_, exec_beaconTimerExpiry run runs, rfl, rfl⟩
  · refine ⟨loseRecord p s, exec_deadTimerExpiry run runs, fun ok => ?_⟩
    have revisits := loseRecord_revisits ok
    have moves : Moves true (lossTold p s) (loseRecord p s) := revisits ▸ revisit_moves s none _
    obtain ⟨record, partner, kept, flag⟩ := loss_of_moves moves
    refine ⟨fun counted => ?_, fun present surplus => ?_, ?_, ?_, fun was changed => ?_, partner, kept, flag,
      fun g active present unheld => ?_, loss_frame moves⟩
    · rw [record]
      exact silenced_lost counted
    · rw [record]
      exact silenced_kept present surplus
    · rw [record]
      rfl
    · rw [record]
      rfl
    · refine loss_ends_partner moves ?_ was changed
      rcases ok with none_ | same | clears
      · rw [none_] at was
        cases was
      · exact absurd same changed
      · exact clears
    · intro r mayHold
      obtain ⟨visited, eq⟩ := revisit_visits active present
      have same : (lossTold p s).group g = r := lossTold_group p s g
      have vacated : (lossTold p s).unheld g := fun q here => by
        rw [← moves.peer q] at here ⊢
        exact unheld q here
      have may : (lossTold p s).mayHold g ↔ mayHold := lossTold_mayHold moves g
      have alone : (lossTold p s).presentPartner ≠ some p := fun partner =>
        lossTold_gone p s (presentPartner_state partner)
      have live := (lossTold_phase p s).trans run
      rw [revisits, eq, ← may, ← same, ← lossTold_setup p s]
      refine ⟨fun following owner => ?_, fun yielding successor => ⟨fun holds still => ?_, fun mayNot => ?_⟩⟩
      · exact visitAfterLoss_follower visited following owner (lossTold_gone p s) vacated
      · have resumes := visitAfterLoss_resumes visited live yielding successor alone vacated holds still
        unfold State.me at resumes ⊢
        rwa [lossTold_straps] at resumes
      · exact visitAfterLoss_releases visited live yielding successor alone vacated mayNot
  · obtain ⟨_, _, _, _, _, eq⟩ := leaveListen_frame s
    refine ⟨_, exec_listenTimerExpiry run runs listen, ?_, leaveListen_isolated s, leaveListen_member s, ?_⟩
    · rw [eq]
    · rw [eq]
      rfl
  · exact ⟨_, exec_receiptTimerExpiry run runs, rfl, receiptExpires_outstanding, receiptExpires_unsent, rfl⟩
  · obtain ⟨_, frame⟩ := startPass_recon (stalled s)
    have untouched := startPass_untouched (stalled s)
    refine ⟨_, exec_stallTimerExpiry run runs, ?_⟩
    rw [stall_clears ok]
    refine ⟨untouched.journal, ?_, fun k x here intact => ?_, fun g => ?_, fun may => ?_, ?_⟩
    · rw [frame]
      rfl
    · rw [untouched.table]
      exact stalled_slot here intact
    · rw [startPass_group]
      exact stalled_group s g
    · obtain ⟨running, resend, start⟩ := startPass_runs (s := stalled s) may
      exact ⟨running, start, resend⟩
    · rw [frame]
      rfl
  · exact exec_lineInhibitionExpiry run runs

end Sys2Proof.Machine
end

