-- ==== Sys2Proof/Proofs/Rejournals.lean ====
section
/-!
PROOFS. The re-journal of a bucket (R103): the offers of its entries one after the other, the serially earliest of the
sequences that they report, and the BUCKET_END that closes the bucket.
-/

namespace Sys2Proof.Machine

open Sys2Proof

/-! ### Sets of groups -/

theorem anyTrue_iff (f : Four Bool) : f.anyTrue = true ↔ ∃ i, f.get i = true := by
  constructor
  · intro any
    simp only [Four.anyTrue, Bool.or_eq_true] at any
    rcases any with ((zero | one) | two) | three
    · exact ⟨0, zero⟩
    · exact ⟨1, one⟩
    · exact ⟨2, two⟩
    · exact ⟨3, three⟩
  · rintro ⟨i, here⟩
    match i with
    | 0 | 1 | 2 | 3 => simp only [Four.get] at here; simp [Four.anyTrue, here]

theorem anyTrue_false_iff (f : Four Bool) : f.anyTrue = false ↔ f = Four.all false := by
  rw [← Bool.not_eq_true, anyTrue_iff, not_exists]
  refine ⟨fun no => Four.ext_get fun i => ?_, fun eq i => ?_⟩
  · rw [Four.get_all]
    exact Bool.eq_false_iff.mpr (no i)
  · rw [eq, Four.get_all]
    exact Bool.false_ne_true

/-! ### Sequences of an ordered journal -/

/-- The sequence has a place from the oldest held `o` on, or stands next after the last place. -/
def Near (o q : Seq) : Prop := (q - o).toNat ≤ 1024

theorem serialBefore_near {o a b : Seq} (na : Near o a) (nb : Near o b) :
    serialBefore a b = true ↔ (a - o).toNat < (b - o).toNat := by
  unfold Near at na nb
  rw [serialBefore_seq]
  bv_omega

theorem notBefore_near {o a b : Seq} (na : Near o a) (nb : Near o b) :
    serialBefore a b = false ↔ (b - o).toNat ≤ (a - o).toNat := by
  rw [← Bool.not_eq_true, serialBefore_near na nb, Nat.not_lt]

theorem near_next {j : Journal} (ok : j.ordered) : Near j.oldest j.next := by
  obtain ⟨m, ok⟩ := (ordered_iff j).mp ok
  unfold Near
  rw [ok.next, toNat_offset _ ok.room]
  exact ok.room

theorem occupancy_eq {j : Journal} (ok : j.ordered) : j.occupancy = j.records.length := by
  obtain ⟨m, ok⟩ := (ordered_iff j).mp ok
  unfold Journal.occupancy
  rw [ok.next, toNat_offset _ ok.room]

/-- R78: a record has its place before the next sequence. -/
theorem record_place {j : Journal} (ok : j.ordered) {r : JournalRecord} (mem : r ∈ j.records) :
    Near j.oldest r.seq ∧ r.seq ≠ j.next := by
  obtain ⟨m, ok⟩ := (ordered_iff j).mp ok
  obtain ⟨i, at_⟩ := List.mem_iff_getElem?.mp mem
  have lt : i < j.records.length := (List.getElem?_eq_some_iff.mp at_).1
  have room := ok.room
  have seq := ok.seq i r at_
  refine ⟨?_, fun eq => ?_⟩
  · unfold Near
    rw [seq, toNat_offset _ (by omega)]
    omega
  · rw [seq, ok.next] at eq
    have := offset_inj (by omega) room eq
    omega

/-! ### The serially earliest sequence -/

/-- R103: the opening sequence so far, after a record with sequence `q` was reported. -/
def earlier (opening : Option Seq) (q : Seq) : Seq :=
  match opening with
  | none => q
  | some p => if serialBefore q p then q else p

/-- The opening sequence so far is there, and `q` is not before it. -/
def Opens (opening : Option Seq) (q : Seq) : Prop := ∃ p, opening = some p ∧ serialBefore q p = false

theorem earlier_among (opening : Option Seq) (q : Seq) :
    earlier opening q = q ∨ opening = some (earlier opening q) := by
  cases opening with
  | none => exact Or.inl rfl
  | some p =>
    unfold earlier
    dsimp only
    split
    · exact Or.inl rfl
    · exact Or.inr rfl

/-- In the terms of the places: the lower of the two. -/
theorem earlier_place {o q : Seq} {opening : Option Seq} (near : ∀ p, opening = some p → Near o p) (nq : Near o q) :
    Near o (earlier opening q) ∧ (earlier opening q - o).toNat ≤ (q - o).toNat
      ∧ ∀ p, opening = some p → (earlier opening q - o).toNat ≤ (p - o).toNat := by
  cases opening with
  | none => exact ⟨nq, Nat.le_refl _, nofun⟩
  | some p =>
    have np := near p rfl
    unfold earlier
    dsimp only
    split
    · rename_i before
      refine ⟨nq, Nat.le_refl _, fun _ eq => ?_⟩
      cases eq
      exact ((serialBefore_near nq np).mp before).le
    · rename_i notBefore
      refine ⟨np, (notBefore_near nq np).mp (Bool.eq_false_iff.mpr notBefore), fun _ eq => ?_⟩
      cases eq
      exact Nat.le_refl _

theorem opens_earlier_reported {o q : Seq} {opening : Option Seq} (near : ∀ p, opening = some p → Near o p)
    (nq : Near o q) : Opens (some (earlier opening q)) q := by
  obtain ⟨ne, le, -⟩ := earlier_place near nq
  exact ⟨_, rfl, (notBefore_near nq ne).mpr le⟩

theorem opens_earlier_before {o q a : Seq} {opening : Option Seq} (near : ∀ p, opening = some p → Near o p)
    (nq : Near o q) (na : Near o a) (opens : Opens opening a) : Opens (some (earlier opening q)) a := by
  obtain ⟨ne, -, le⟩ := earlier_place near nq
  obtain ⟨p, here, notBefore⟩ := opens
  exact ⟨_, rfl, (notBefore_near na ne).mpr ((le p here).trans ((notBefore_near na (near p here)).mp notBefore))⟩

/-! ### An offer that reports a sequence -/

/-- R81, R82: between `s` and `t` the entry `e` of slot `h` was told under the sequence `q`: the entry bears it, and a record
with its content does, a new one or the one that waited. -/
structure Journaled (s t : State) (h : Handle) (e : Entry) (q : Seq) : Prop where
  entry : t.entryAt h = some { e with confirmation := some (s.me, q), pending := some q }
  fresh : e.pending = none → ∃ r, r ∈ t.journal.records ∧ r.seq = q ∧ r.sent = false ∧ r.slot = some h
    ∧ r.body = .entry (contentOf s.clock.tick e)
  rewritten : ∀ p, e.pending = some p → q = p ∧ ∀ r, r ∈ s.journal.records → r.seq = p →
    { r with body := .entry (contentOf s.clock.tick e) } ∈ t.journal.records

/-- One offer: the entry is told, under the next sequence or that of its mark, and every other record stays. -/
structure Reports (s t : State) (h : Handle) (e : Entry) (q : Seq) : Prop extends Journaled s t h e q where
  mark : e.pending = none ∧ q = s.journal.next ∨ e.pending = some q
  kept : ∀ r, r ∈ s.journal.records → r.seq ≠ q → r ∈ t.journal.records
  oldest : t.journal.oldest = s.journal.oldest
  grows : t.journal.records.length ≤ s.journal.records.length + 1

theorem mem_mapRecord {j : Journal} {q : Seq} {f : JournalRecord → JournalRecord} {r : JournalRecord}
    (mem : r ∈ j.records) : (if r.seq = q then f r else r) ∈ (j.mapRecord q f).records :=
  List.mem_map_of_mem (f := fun r => if r.seq = q then f r else r) mem

theorem offer_reports {h : Handle} {e : Entry} {s : State} (here : s.entryAt h = some e)
    (held : s.holds e.group = true) (present : s.partnerPresent = true) (room : s.journal.records.length < 1024) :
    ∃ q, (offer h s).2 = some q ∧ Reports s (offer h s).1 h e q := by
  cases pending : e.pending with
  | some q =>
    rw [offer_coalesced here held present pending]
    refine ⟨q, rfl, ⟨?_, fun unmarked => ?_, fun p marked => ?_⟩, Or.inr pending, fun r mem ne => ?_, rfl, ?_⟩
    · rw [entryAt_writeEntry_same, ← pending]
    · rw [pending] at unmarked
      cases unmarked
    · rw [pending] at marked
      cases marked
      refine ⟨rfl, fun r mem eq => ?_⟩
      have rewritten := mem_mapRecord (q := q)
        (f := fun r : JournalRecord => { r with body := .entry (contentOf s.now e) }) mem
      rwa [if_pos eq] at rewritten
    · have left := mem_mapRecord (q := q)
        (f := fun r : JournalRecord => { r with body := .entry (contentOf s.now e) }) mem
      rwa [if_neg ne] at left
    · exact (mapRecord_length _ _ _).le.trans (Nat.le_succ _)
  | none =>
    rw [offer_appends here held present pending (decide_eq_false (Nat.not_le.mpr room))]
    refine ⟨s.journal.next, rfl, ⟨entryAt_writeEntry_same _ _ _, fun _ => ?_, fun p marked => ?_⟩,
      Or.inl ⟨pending, rfl⟩, fun r mem _ => List.mem_append_left _ mem, rfl, (append_length _ _ _).le⟩
    · exact ⟨_, List.mem_append_right _ (List.mem_singleton.mpr rfl), rfl, rfl, rfl, rfl⟩
    · rw [pending] at marked
      cases marked

/-- What is told stays told while its slot and its records are left alone. -/
theorem Journaled.stays {s t u : State} {h : Handle} {e : Entry} {q : Seq} (told : Journaled s t h e q)
    (slot : u.entryAt h = t.entryAt h) (kept : ∀ r, r ∈ t.journal.records → r.seq = q → r ∈ u.journal.records) :
    Journaled s u h e q where
  entry := slot.trans told.entry
  fresh unmarked := by
    obtain ⟨r, mem, seq, rest⟩ := told.fresh unmarked
    exact ⟨r, kept r mem seq, seq, rest⟩
  rewritten p marked := by
    obtain ⟨rfl, rewritten⟩ := told.rewritten p marked
    exact ⟨rfl, fun r mem eq => kept _ (rewritten r mem eq) eq⟩

/-- What is told from `t` on is told from an earlier state on, whose record for the mark is still there in `t`. -/
theorem Journaled.since {s t u : State} {k : Handle} {e : Entry} {q : Seq} (told : Journaled t u k e q)
    (frame : ChangeFrame s t) (kept : ∀ r, r ∈ s.journal.records → e.pending = some r.seq → r ∈ t.journal.records) :
    Journaled s u k e q := by
  obtain ⟨_, _, _, _, rfl⟩ := frame
  refine ⟨told.entry, told.fresh, fun p marked => ?_⟩
  obtain ⟨rfl, rewritten⟩ := told.rewritten p marked
  exact ⟨rfl, fun r mem eq => rewritten r (kept r mem (eq ▸ marked)) eq⟩

/-! ### The offers of several entries -/

theorem ChangeFrame.refl (s : State) : ChangeFrame s s := ⟨_, _, _, _, rfl⟩

theorem rejournalEntries_frame (l : List Handle) (x : State × Option Seq) :
    ChangeFrame x.1 (l.foldl rejournalEntry x).1 := by
  induction l generalizing x with
  | nil => exact .refl x.1
  | cons h l ih => exact (offer_changeFrame h x.1).trans (ih (rejournalEntry x h))

theorem entryAt_rejournalEntries_other {l : List Handle} {k : Handle} (out : k ∉ l) (x : State × Option Seq) :
    (l.foldl rejournalEntry x).1.entryAt k = x.1.entryAt k := by
  induction l generalizing x with
  | nil => rfl
  | cons h l ih =>
    have ne := List.ne_of_not_mem_cons out
    exact (ih (List.not_mem_of_not_mem_cons out) (rejournalEntry x h)).trans (entryAt_offer_other x.1 ne)

/-- The slots of `l` hold entries of held groups, each mark names a record and no two the same, and the journal has room for
a record of each: then every offer reports a sequence. -/
structure Offerable (s : State) (l : List Handle) : Prop where
  ordered : s.journal.ordered
  present : s.partnerPresent = true
  room : s.journal.records.length + l.length ≤ 1024
  once : l.Nodup
  held : ∀ k, k ∈ l → ∃ e, s.entryAt k = some e ∧ s.holds e.group = true
  named : ∀ k e q, k ∈ l → s.entryAt k = some e → e.pending = some q → ∃ r, r ∈ s.journal.records ∧ r.seq = q
  apart : ∀ k k' e e' q, k ∈ l → k' ∈ l → s.entryAt k = some e → s.entryAt k' = some e' → e.pending = some q →
    e'.pending = some q → k = k'

/-- What the first slot of `l` is told under is no mark of another slot of `l`. -/
theorem Offerable.mark_apart {s t : State} {h k : Handle} {l : List Handle} {e e' : Entry} {q : Seq}
    (ok : Offerable s (h :: l)) (here : s.entryAt h = some e) (reports : Reports s t h e q) (mem : k ∈ l)
    (there : s.entryAt k = some e') : e'.pending ≠ some q := by
  intro marked
  rcases reports.mark with ⟨-, rfl⟩ | own
  · obtain ⟨r, there, seq⟩ := ok.named k e' _ (List.mem_cons_of_mem h mem) there marked
    exact (record_place ok.ordered there).2 seq
  · have same := ok.apart h k e e' q List.mem_cons_self (List.mem_cons_of_mem h mem) here there own marked
    exact (List.nodup_cons.mp ok.once).1 (same ▸ mem)

theorem Offerable.reported_near {s t : State} {h : Handle} {l : List Handle} {e : Entry} {q : Seq}
    (ok : Offerable s (h :: l)) (here : s.entryAt h = some e) (reports : Reports s t h e q) :
    Near s.journal.oldest q := by
  rcases reports.mark with ⟨-, rfl⟩ | own
  · exact near_next ok.ordered
  · obtain ⟨r, mem, rfl⟩ := ok.named h e q List.mem_cons_self here own
    exact (record_place ok.ordered mem).1

/-- The record of a mark outlasts the offer of another slot. -/
theorem Offerable.keeps_named {s t : State} {h k : Handle} {l : List Handle} {e e' : Entry} {q : Seq}
    (ok : Offerable s (h :: l)) (here : s.entryAt h = some e) (reports : Reports s t h e q) (mem : k ∈ l)
    (there : s.entryAt k = some e') {r : JournalRecord} (record : r ∈ s.journal.records)
    (marked : e'.pending = some r.seq) : r ∈ t.journal.records :=
  reports.kept r record fun eq => ok.mark_apart here reports mem there (eq ▸ marked)

theorem Offerable.tail {s : State} {h : Handle} {l : List Handle} {e : Entry} {q : Seq} (ok : Offerable s (h :: l))
    (here : s.entryAt h = some e) (reports : Reports s (offer h s).1 h e q) : Offerable (offer h s).1 l := by
  obtain ⟨out, once⟩ := List.nodup_cons.mp ok.once
  have grows := reports.grows
  have room := ok.room
  rw [List.length_cons] at room
  have slots {k : Handle} (mem : k ∈ l) : (offer h s).1.entryAt k = s.entryAt k :=
    entryAt_offer_other s fun eq => out (eq ▸ mem)
  have outside : (offer h s).1.partnerPresent = s.partnerPresent ∧ (offer h s).1.holds = s.holds := by
    obtain ⟨_, _, _, _, eq⟩ := offer_changeFrame h s
    rw [eq]
    exact ⟨rfl, rfl⟩
  refine ⟨ordered_rule.keeps_offer h ok.ordered, outside.1.trans ok.present, by omega, once, fun k mem => ?_,
    fun k e' p mem there marked => ?_, fun k k' e e' p mem mem' there there' marked marked' => ?_⟩
  · rw [slots mem, outside.2]
    exact ok.held k (List.mem_cons_of_mem h mem)
  · rw [slots mem] at there
    obtain ⟨r, record, rfl⟩ := ok.named k e' p (List.mem_cons_of_mem h mem) there marked
    exact ⟨r, ok.keeps_named here reports mem there record marked, rfl⟩
  · rw [slots mem] at there
    rw [slots mem'] at there'
    exact ok.apart k k' e e' p (List.mem_cons_of_mem h mem) (List.mem_cons_of_mem h mem') there there' marked marked'

/-- R103, step 1, for the slots of `l`: every entry was told, the opening sequence is after none of their sequences and
after no earlier one, and it is one of them. -/
structure Rejournaled (s : State) (opening : Option Seq) (l : List Handle) (x : State × Option Seq) : Prop where
  told : ∀ k e, k ∈ l → s.entryAt k = some e → ∃ q, Journaled s x.1 k e q ∧ Opens x.2 q
  kept : ∀ r, r ∈ s.journal.records → (∀ k e, k ∈ l → s.entryAt k = some e → e.pending ≠ some r.seq) →
    r ∈ x.1.journal.records
  opens : ∀ q, Near s.journal.oldest q → Opens opening q → Opens x.2 q
  among : x.2 = opening ∨ ∃ k e, k ∈ l ∧ x.1.entryAt k = some e ∧ e.pending = x.2
  grows : x.1.journal.records.length ≤ s.journal.records.length + l.length

theorem rejournalEntry_reported {h : Handle} {s : State} {q : Seq} (opening : Option Seq)
    (reported : (offer h s).2 = some q) :
    rejournalEntry (s, opening) h = ((offer h s).1, some (earlier opening q)) := by
  unfold rejournalEntry
  dsimp only
  rw [reported]
  cases opening <;> rfl

theorem Offerable.rejournaled {l : List Handle} {s : State} {opening : Option Seq} (ok : Offerable s l)
    (near : ∀ p, opening = some p → Near s.journal.oldest p) :
    Rejournaled s opening l (l.foldl rejournalEntry (s, opening)) := by
  induction l generalizing s opening with
  | nil =>
    rw [List.foldl_nil]
    exact ⟨fun k e mem => absurd mem List.not_mem_nil, fun _ mem _ => mem, fun _ _ opens => opens, Or.inl rfl,
      Nat.le_add_right _ _⟩
  | cons h l ih =>
    obtain ⟨e, here, held⟩ := ok.held h List.mem_cons_self
    have out := (List.nodup_cons.mp ok.once).1
    have room := ok.room
    rw [List.length_cons] at room
    obtain ⟨q, reported, reports⟩ := offer_reports here held ok.present (by omega)
    have nq := ok.reported_near here reports
    have slots {k : Handle} (mem : k ∈ l) : (offer h s).1.entryAt k = s.entryAt k :=
      entryAt_offer_other s fun eq => out (eq ▸ mem)
    have rest := ih (s := (offer h s).1) (opening := some (earlier opening q)) (ok.tail here reports) fun p eq => by
      cases eq
      rw [reports.oldest]
      exact (earlier_place near nq).1
    rw [List.foldl_cons, rejournalEntry_reported opening reported]
    have first : (l.foldl rejournalEntry ((offer h s).1, some (earlier opening q))).1.entryAt h
        = (offer h s).1.entryAt h := entryAt_rejournalEntries_other out _
    refine ⟨fun k e' mem there => ?_, fun r record unmarked => ?_, fun a na opens => ?_, ?_, ?_⟩
    · rcases List.mem_cons.mp mem with rfl | mem
      · cases here.symm.trans there
        refine ⟨q, reports.toJournaled.stays first fun r record seq => rest.kept r record fun k e' mem there => ?_,
          rest.opens q (reports.oldest ▸ nq) (opens_earlier_reported near nq)⟩
        rw [seq]
        exact ok.mark_apart here reports mem (slots mem ▸ there)
      · obtain ⟨p, told, opens⟩ := rest.told k e' mem ((slots mem).trans there)
        exact ⟨p, told.since (offer_changeFrame h s) fun r record marked =>
          ok.keeps_named here reports mem there record marked, opens⟩
    · refine rest.kept r (reports.kept r record fun seq => ?_) fun k e' mem there => ?_
      · rcases reports.mark with ⟨-, next⟩ | own
        · exact (record_place ok.ordered record).2 (seq.trans next)
        · exact unmarked h e List.mem_cons_self here (seq ▸ own)
      · exact unmarked k e' (List.mem_cons_of_mem h mem) (slots mem ▸ there)
    · exact rest.opens a (reports.oldest ▸ na) (opens_earlier_before near nq na opens)
    · rcases rest.among with same | ⟨k, e', mem, there, marked⟩
      · rw [same]
        rcases earlier_among opening q with eq | eq
        · exact Or.inr ⟨h, _, List.mem_cons_self, first.trans reports.entry, congrArg some eq.symm⟩
        · exact Or.inl eq.symm
      · exact Or.inr ⟨k, e', List.mem_cons_of_mem h mem, there, marked⟩
    · have more := rest.grows
      have grows := reports.grows
      rw [List.length_cons]
      omega

/-! ### The slots of a bucket -/

/-- R103: entry `e` of slot `k` is one that a re-journal of bucket `b` offers. -/
def State.covers (s : State) (b : Bucket) (k : Handle) (e : Entry) : Prop :=
  bucketOfHandle k = b ∧ s.entryAt k = some e ∧ s.holds e.group = true

/-- The slots of bucket `b` with an entry of a held group, by way. -/
def State.heldSlots (s : State) (b : Bucket) : List Handle :=
  ((s.table.bucket b).filter fun x => s.heldSet.get x.2.entry.group).map (·.1)

theorem heldSet_get (s : State) (g : GroupId) : s.heldSet.get g = s.holds g := Four.get_build s.holds g

theorem mem_heldSlots (s : State) (b : Bucket) (k : Handle) : k ∈ s.heldSlots b ↔ ∃ e, s.covers b k e := by
  unfold State.heldSlots State.covers State.entryAt
  simp only [List.mem_map, List.mem_filter, Table.mem_bucket, heldSet_get, Option.map_eq_some_iff]
  constructor
  · rintro ⟨x, ⟨⟨bucket, slot⟩, held⟩, rfl⟩
    exact ⟨x.2.entry, bucket, ⟨x.2, slot, rfl⟩, held⟩
  · rintro ⟨e, bucket, ⟨x, slot, rfl⟩, held⟩
    exact ⟨(k, x), ⟨⟨bucket, slot⟩, held⟩, rfl⟩

theorem heldSlots_bucket {s : State} {b : Bucket} {k : Handle} (mem : k ∈ s.heldSlots b) : bucketOfHandle k = b := by
  obtain ⟨e, bucket, -⟩ := (mem_heldSlots s b k).mp mem
  exact bucket

theorem heldSlots_nodup (s : State) (b : Bucket) : (s.heldSlots b).Nodup := by
  refine List.pairwise_map.mpr (((Table.bucket_rising s.table b).filter _).imp ?_)
  intro x y lt eq
  rw [eq] at lt
  exact BitVec.lt_irrefl _ lt

theorem heldSlots_length (s : State) (b : Bucket) : (s.heldSlots b).length ≤ 4 := by
  unfold State.heldSlots
  rw [List.length_map]
  exact (List.length_filter_le _ _).trans (List.length_filterMap_le _ _)

theorem heldSlots_none {s : State} {b : Bucket} (none : s.heldSet = Four.all false) : s.heldSlots b = [] := by
  refine List.eq_nil_iff_forall_not_mem.mpr fun k mem => ?_
  obtain ⟨e, -, -, held⟩ := (mem_heldSlots s b k).mp mem
  rw [← heldSet_get, none, Four.get_all] at held
  cases held

/-- R103: the premises under which every entry of the bucket is journaled. -/
theorem offerable_heldSlots {s : State} {b : Bucket} (ok : s.journal.ordered) (present : s.partnerPresent = true)
    (below : s.journal.occupancy < 768)
    (named : ∀ k e q, s.covers b k e → e.pending = some q → ∃ r, r ∈ s.journal.records ∧ r.seq = q)
    (apart : ∀ k k' e e' q, s.covers b k e → s.covers b k' e' → e.pending = some q → e'.pending = some q → k = k') :
    Offerable s (s.heldSlots b) := by
  have few := heldSlots_length s b
  have covered {k : Handle} {e : Entry} (mem : k ∈ s.heldSlots b) (here : s.entryAt k = some e) : s.covers b k e := by
    obtain ⟨e', cover⟩ := (mem_heldSlots s b k).mp mem
    cases here.symm.trans cover.2.1
    exact cover
  rw [occupancy_eq ok] at below
  refine ⟨ok, present, by omega, heldSlots_nodup s b, fun k mem => ?_,
    fun k e q mem here => named k e q (covered mem here), fun k k' e e' q mem mem' here here' =>
      apart k k' e e' q (covered mem here) (covered mem' here')⟩
  obtain ⟨e, -, here, held⟩ := (mem_heldSlots s b k).mp mem
  exact ⟨e, here, held⟩

/-! ### The Resend Set -/

theorem filter_addBucket (b : Bucket) (l : List Bucket) : (addBucket b l).filter (· != b) = l.filter (· != b) := by
  induction l with
  | nil => simp [addBucket]
  | cons x l ih =>
    unfold addBucket
    split
    · simp
    · split
      · rfl
      · rw [List.filter_cons, List.filter_cons, ih]

/-- R83: an offer adds no bucket but its own. -/
theorem offer_resend (h : Handle) (s : State) :
    (offer h s).1.recon.resend.filter (· != bucketOfHandle h) = s.recon.resend.filter (· != bucketOfHandle h) := by
  unfold offer
  split
  · rfl
  · split
    · rfl
    · split
      · rfl
      · split
        · exact filter_addBucket _ _
        · rfl

theorem rejournalEntries_resend {b : Bucket} {l : List Handle} (own : ∀ k, k ∈ l → bucketOfHandle k = b)
    (x : State × Option Seq) :
    (l.foldl rejournalEntry x).1.recon.resend.filter (· != b) = x.1.recon.resend.filter (· != b) := by
  induction l generalizing x with
  | nil => rfl
  | cons h l ih =>
    have first := offer_resend h x.1
    rw [own h List.mem_cons_self] at first
    exact (ih (fun k mem => own k (List.mem_cons_of_mem h mem)) (rejournalEntry x h)).trans first

/-- R101: the lowest bucket of a rising set, taken out. -/
theorem filter_lowest {b : Bucket} {rest : List Bucket} (rising : (b :: rest).Pairwise (· < ·)) :
    (b :: rest).filter (· != b) = rest := by
  rw [List.filter_cons_of_neg (by simp), List.filter_eq_self]
  intro x mem
  have lt := (List.pairwise_cons.mp rising).1 x mem
  exact bne_iff_ne.mpr fun eq => BitVec.lt_irrefl b (eq ▸ lt)

/-! ### The re-journal of a bucket -/

/-- R103, step 1, for the whole bucket: the state, and the opening sequence, if one is there. -/
def offeredBucket (b : Bucket) (s : State) : State × Option Seq := (s.heldSlots b).foldl rejournalEntry (s, none)

theorem offeredBucket_rejournaled {b : Bucket} {s : State} (ok : Offerable s (s.heldSlots b)) :
    Rejournaled s none (s.heldSlots b) (offeredBucket b s) := ok.rejournaled fun _ => nofun

/-- R103, step 2: the BUCKET_END. -/
def closeBucket (b : Bucket) (groups : GroupSet) (opening : Option Seq) (s : State) : State :=
  { s with journal := s.journal.append (.bucketEnd b groups (opening.getD s.journal.next)) none }

theorem rejournalBucket_eq (b : Bucket) (s : State) :
    rejournalBucket b s =
      let t := if s.heldSet.anyTrue && (offeredBucket b s).1.mayAppend
        then closeBucket b s.heldSet (offeredBucket b s).2 (offeredBucket b s).1 else (offeredBucket b s).1
      { t with recon.resend := t.recon.resend.filter (· != b) } := rfl

theorem rejournalBucket_unheld {b : Bucket} {s : State} (none : s.heldSet = Four.all false) :
    rejournalBucket b s = { s with recon.resend := s.recon.resend.filter (· != b) } := by
  have nothing : offeredBucket b s = (s, Option.none) := by
    unfold offeredBucket
    rw [heldSlots_none none]
    rfl
  rw [rejournalBucket_eq, nothing, (anyTrue_false_iff _).mpr none]
  rfl

theorem rejournalBucket_frame (b : Bucket) (s : State) : ChangeFrame s (rejournalBucket b s) := by
  have offered : ChangeFrame s (offeredBucket b s).1 := rejournalEntries_frame (s.heldSlots b) (s, none)
  rw [rejournalBucket_eq]
  dsimp only
  split
  · exact offered.trans ⟨_, _, _, _, rfl⟩
  · exact offered.trans ⟨_, _, _, _, rfl⟩

theorem entryAt_rejournalBucket (b : Bucket) (s : State) (k : Handle) :
    (rejournalBucket b s).entryAt k = (offeredBucket b s).1.entryAt k := by
  rw [rejournalBucket_eq]
  dsimp only
  split <;> rfl

theorem entryAt_rejournalBucket_other {b : Bucket} {s : State} {k : Handle} (out : ∀ e, ¬ s.covers b k e) :
    (rejournalBucket b s).entryAt k = s.entryAt k := by
  rw [entryAt_rejournalBucket]
  refine entryAt_rejournalEntries_other (fun mem => ?_) (s, none)
  obtain ⟨e, cover⟩ := (mem_heldSlots s b k).mp mem
  exact out e cover

theorem rejournalBucket_resend (b : Bucket) (s : State) :
    (rejournalBucket b s).recon.resend = s.recon.resend.filter (· != b) := by
  have offered : (offeredBucket b s).1.recon.resend.filter (· != b) = s.recon.resend.filter (· != b) :=
    rejournalEntries_resend (fun _ mem => heldSlots_bucket mem) (s, none)
  rw [rejournalBucket_eq, ← offered]
  dsimp only
  split <;> rfl

/-- R103, step 2, in an ordered journal with room: the BUCKET_END is the newest record, after those of the offers. -/
theorem rejournalBucket_journal {b : Bucket} {s : State} (held : s.heldSet ≠ Four.all false)
    (ok : Offerable s (s.heldSlots b)) (below : s.journal.occupancy < 768) :
    (rejournalBucket b s).journal = (offeredBucket b s).1.journal.append
      (.bucketEnd b s.heldSet ((offeredBucket b s).2.getD (offeredBucket b s).1.journal.next)) none := by
  have any : s.heldSet.anyTrue = true := Bool.not_eq_false _ ▸ mt (anyTrue_false_iff _).mp held
  have few := heldSlots_length s b
  have grows : (offeredBucket b s).1.journal.records.length ≤ s.journal.records.length + (s.heldSlots b).length :=
    (offeredBucket_rejournaled ok).grows
  rw [occupancy_eq ok.ordered] at below
  have present : (offeredBucket b s).1.partnerPresent = true := by
    obtain ⟨_, _, _, _, eq⟩ := rejournalEntries_frame (s.heldSlots b) (s, none)
    unfold offeredBucket
    rw [eq]
    exact ok.present
  have room : (offeredBucket b s).1.journal.full = false :=
    decide_eq_false (Nat.not_le.mpr (show _ < 1024 by omega))
  have may : (s.heldSet.anyTrue && (offeredBucket b s).1.mayAppend) = true := by
    unfold State.mayAppend
    rw [any, present, room]
    rfl
  rw [rejournalBucket_eq, if_pos may]
  rfl

/-- R102: the reader re-journals the lowest bucket of the Resend Set while it has no other work. -/
theorem exec_reJournal {s : State} {b : Bucket} {rest : List Bucket} (run : s.phase = .running)
    (resend : s.recon.resend = b :: rest) (present : s.partnerPresent = true) (below : s.journal.occupancy < 768)
    (active : s.life.active = true) (noPurge : s.purgeWaits = false) (noComparison : s.recon.comparing = none)
    (noDigest : s.recon.preparing = none) (free : s.higherWaits .reader = false) (sound : s.table.sound b = true) :
    exec .reJournal s = .next (rejournalBucket b s) := by
  have may : s.mayRejournal = true := by
    unfold State.mayRejournal
    rw [resend, present, active]
    exact (Bool.and_true _).trans (decide_eq_true below)
  have idle : (s.mayRejournal && !s.purgeWaits && s.recon.comparing.isNone && s.recon.preparing.isNone) = true := by
    rw [may, noPurge, noComparison, noDigest]
    rfl
  have work : rejournal s = bucketOperation .reader b (rejournalBucket b) s := by
    unfold rejournal
    rw [resend]
    exact if_pos idle
  refine congrArg Host.Outcome.next ((whenLive_running _ s run).trans ?_)
  rw [whenGranted_free _ _ _ free, work, bucketOperation_sound _ _ _ _ sound]

end Sys2Proof.Machine
end

