-- ==== Sys2Proof/Proofs/Passes.lean ====
section
/-!
PROOFS. A re-journal as a whole (R103), the end of a pass (R107), a PASS_END that is taken (R108), and RESYNC (R115).
-/

namespace Sys2Proof.Machine

open Sys2Proof

/-! ### A re-journal -/

theorem ChangeFrame.eq {s t : State} (frame : ChangeFrame s t) : t = { s with
    table := t.table, journal := t.journal, recon.resend := t.recon.resend, port.flags := t.port.flags } := by
  obtain ⟨_, _, _, _, rfl⟩ := frame
  rfl

/-- R103: the records that a re-journal leaves, and the sequence that opens its BUCKET_END. -/
theorem rejournalBucket_records {b : Bucket} {s : State} (held : s.heldSet ≠ Four.all false)
    (ok : Offerable s (s.heldSlots b)) (below : s.journal.occupancy < 768) :
    ∃ old q, (rejournalBucket b s).journal.records
        = old ++ [⟨(rejournalBucket b s).journal.next - 1, false, .bucketEnd b s.heldSet q, none⟩]
      ∧ ((∀ k e, ¬ s.covers b k e) → q = (rejournalBucket b s).journal.next - 1)
      ∧ ((∃ k e, s.covers b k e) → ∃ k e e', s.covers b k e ∧ (rejournalBucket b s).entryAt k = some e'
          ∧ e'.pending = some q)
      ∧ ∀ k e, s.covers b k e → ∃ q' e', (rejournalBucket b s).entryAt k = some e' ∧ serialBefore q' q = false
          ∧ e' = { e with confirmation := some (s.me, q'), pending := some q' }
          ∧ (e.pending = none → ∃ r, r ∈ old ∧ r.seq = q' ∧ r.sent = false ∧ r.slot = some k
              ∧ r.body = .entry (contentOf s.clock.tick e))
          ∧ (∀ p, e.pending = some p → q' = p ∧ ∀ r, r ∈ s.journal.records → r.seq = p →
              { r with body := .entry (contentOf s.clock.tick e) } ∈ old) := by
  have rejournaled := offeredBucket_rejournaled ok
  have covered {k : Handle} {e : Entry} (cover : s.covers b k e) : k ∈ s.heldSlots b :=
    (mem_heldSlots s b k).mpr ⟨e, cover⟩
  rw [rejournalBucket_journal held ok below]
  simp only [entryAt_rejournalBucket, Journal.append, BitVec.add_sub_cancel]
  refine ⟨_, _, rfl, fun nothing => ?_, fun ⟨k, e, cover⟩ => ?_, fun k e cover => ?_⟩
  · have unoffered : offeredBucket b s = (s, none) := by
      have nothing : s.heldSlots b = [] := List.eq_nil_iff_forall_not_mem.mpr fun k mem =>
        ((mem_heldSlots s b k).mp mem).elim (nothing k)
      unfold offeredBucket
      rw [nothing]
      rfl
    rw [unoffered]
    rfl
  · obtain ⟨-, -, p, opening, -⟩ := rejournaled.told k e (covered cover) cover.2.1
    rcases rejournaled.among with unopened | ⟨k, e', mem, here, marked⟩
    · rw [unopened] at opening
      cases opening
    · obtain ⟨e, cover⟩ := (mem_heldSlots s b k).mp mem
      refine ⟨k, e, e', cover, here, ?_⟩
      rw [marked, opening]
      rfl
  · obtain ⟨q', told, p, opening, notBefore⟩ := rejournaled.told k e (covered cover) cover.2.1
    refine ⟨q', _, told.entry, ?_, rfl, told.fresh, told.rewritten⟩
    rw [opening]
    exact notBefore

/-! ### The end of a pass -/

theorem exec_passEndAppend {s : State} {q : Seq} (run : s.phase = .running) (running : s.recon.passRunning = true)
    (exhausted : s.recon.resend = []) (start : s.recon.passStart = some q) (present : s.partnerPresent = true) :
    exec .passEndAppend s = .next (if s.journal.full then s else raise .pass { s with
      journal := s.journal.append (.passEnd s.heldSet q) none
      recon.lastCompleted := some q
      recon.passRunning := false }) := by
  refine congrArg Host.Outcome.next ((whenLive_running _ s run).trans ?_)
  unfold appendPassEnd State.mayAppend
  rw [running, exhausted, start, present]
  cases s.journal.full <;> rfl

/-! ### A PASS_END taken -/

/-- R108: the PASS_END of a pass that started at `start` is not before the need. -/
def State.answersNeed (s : State) (start : Seq) : Bool :=
  match s.receive.needSince with
  | none => true
  | some n => !serialBefore start n

/-- R108: the item leaves the queue, and its groups not held here are synced. -/
def syncGroups (groups : GroupSet) (s : State) : State := { s with
  recon.purge := s.recon.purge.tail
  recon.synced := Four.build fun g => s.recon.synced.get g || (groups.get g && !s.holds g) }

/-- R108: what a PASS_END that answers the need leaves: want is cleared where the partner's groups are covered, and SYNC
raised where want or the synced set changes. -/
def answerNeed (groups : GroupSet) (s : State) : State :=
  let t := syncGroups groups s
  let want := s.receive.want && !t.partnerCovered
  { t with
    receive.want := want
    port.flags := if want = s.receive.want ∧ t.recon.synced = s.recon.synced then s.port.flags
      else raiseFlag .sync s.port.flags }

theorem takePassEnd_early {s : State} {groups : GroupSet} {start : Seq} (early : s.answersNeed start = false) :
    takePassEnd groups start s = { s with recon.purge := s.recon.purge.tail } :=
  if_neg (c := s.answersNeed start = true) (Bool.eq_false_iff.mp early)

theorem takePassEnd_answers {s : State} {groups : GroupSet} {start : Seq} (answers : s.answersNeed start = true) :
    takePassEnd groups start s = answerNeed groups s := by
  have taken : takePassEnd groups start s =
      let t := syncGroups groups s
      let clears := s.receive.want && t.partnerCovered
      raiseIf (clears || decide (t.recon.synced ≠ s.recon.synced)) .sync
        (if clears then { t with receive.want := false } else t) := if_pos (c := s.answersNeed start = true) answers
  rw [taken]
  unfold answerNeed raiseIf
  dsimp only
  cases clears : s.receive.want && (syncGroups groups s).partnerCovered with
  | true =>
    obtain ⟨want, covered⟩ := Bool.and_eq_true_iff.mp clears
    rw [want, covered, if_neg (c := (true && !true) = true ∧ _) fun same => Bool.false_ne_true same.1]
    rfl
  | false =>
    have want : (s.receive.want && !(syncGroups groups s).partnerCovered) = s.receive.want :=
      (by decide : ∀ a b : Bool, (a && b) = false → (a && !b) = a) _ _ clears
    rw [want]
    by_cases same : (syncGroups groups s).recon.synced = s.recon.synced
    · rw [if_pos (c := s.receive.want = s.receive.want ∧ _) ⟨rfl, same⟩, decide_eq_false (not_not_intro same)]
      rfl
    · rw [if_neg (c := s.receive.want = s.receive.want ∧ _) fun both => same both.2, decide_eq_true same]
      rfl

theorem answersNeed_iff (s : State) (start : Seq) :
    s.answersNeed start = true ↔ ∀ n, s.receive.needSince = some n → serialBefore start n = false := by
  unfold State.answersNeed
  cases s.receive.needSince <;> simp

theorem exec_passEndTake {s : State} {src : Station} {groups : GroupSet} {start : Seq} {rest : List PurgeItem}
    (run : s.phase = .running) (head : s.recon.purge = .passEnd src groups start :: rest) :
    exec .passEndTake s = .next (takePassEnd groups start s) := by
  refine congrArg Host.Outcome.next ((whenLive_running _ s run).trans ?_)
  rw [head]

/-- Settles O55: a re-journal by the offers of its bucket, the end of a pass by the room of the journal, a PASS_END by the
need. -/
theorem passesRunAndEnd : Obligations.PassesRunAndEnd := by
  refine ⟨fun s b rest run resend rising present below active noPurge noComparison noDigest free sound => ?_,
    fun s q run running exhausted start present => ?_, fun s src groups start rest run head => ?_⟩
  · intro covered
    refine ⟨_, exec_reJournal run resend present below active noPurge noComparison noDigest free sound, ?_,
      fun none => ?_, fun held ordered named apart => ?_, fun k out => entryAt_rejournalBucket_other out,
      (rejournalBucket_frame b s).eq⟩
    · rw [rejournalBucket_resend, resend, filter_lowest rising]
    · rw [rejournalBucket_unheld none]
      exact ⟨rfl, rfl⟩
    · exact rejournalBucket_records held (offerable_heldSlots ordered present below named apart) below
  · have append := exec_passEndAppend run running exhausted start present
    refine ⟨fun full => ?_, fun room => ?_⟩
    · have full : s.journal.full = true := decide_eq_true full
      rw [append, full]
      rfl
    · have room : s.journal.full = false := decide_eq_false (Nat.not_le.mpr room)
      rw [append, room]
      rfl
  · have taken := exec_passEndTake run head
    refine ⟨fun n need early => ?_, fun answers => ?_⟩
    · rw [taken, takePassEnd_early, head]
      · rfl
      · rw [State.answersNeed, need]
        dsimp only
        rw [early]
        rfl
    · refine ⟨_, taken.trans (congrArg _ (takePassEnd_answers ((answersNeed_iff s start).mpr answers))),
        fun g => Four.get_build _ g, rfl, rfl, ?_⟩
      unfold answerNeed syncGroups
      rw [head]
      rfl

/-! ### RESYNC -/

/-- R106: the conditions of a pass. -/
theorem startPass_started {s : State} (active : s.life.active = true) (present : s.presentPartner.isSome = true)
    (firewall : s.straps.role = .firewall) : startPass s = { s with
      recon.passRunning := true, recon.passStart := some s.journal.next, recon.resend := allBuckets } := by
  refine if_pos ?_
  unfold State.mayPass State.partnerPresent
  rw [present, decide_eq_true firewall, active]
  rfl

theorem startPass_alone {s : State} (alone : s.presentPartner = none) : startPass s = s := by
  refine startPass_not ?_
  unfold State.mayPass State.partnerPresent
  rw [alone]
  rfl

theorem exec_resync {s : State} {r : Request} (run : s.phase = .running) (head : s.nextRequest = some r)
    (kind : r.kind = 0x13) : exec .resync s = .next (resync r (takeRequest s)) :=
  congrArg Host.Outcome.next (onRequest_taken _ _ s r run head kind)

/-- R115: the steps of an active station. -/
theorem resync_active (r : Request) {s : State} (active : s.life.active = true) : resync r s =
    if s.recon.passRunning then answer r .busy s
    else if !s.heldSet.anyTrue then answer r .notOwner s
    else answer r .ok (startPass s) := by
  unfold resync
  have notSetup : s.life ≠ .setup := fun setup => by
    rw [setup] at active
    cases active
  rw [if_neg notSetup, if_neg (Life.ne_fault_of_active active)]

/-- R115: an owner that runs no pass. -/
theorem resync_owner (r : Request) {s : State} (active : s.life.active = true) (idle : s.recon.passRunning = false)
    (owner : ∃ g, s.holds g = true) : resync r s = answer r .ok (startPass s) := by
  have any : s.heldSet.anyTrue = true := (anyTrue_iff _).mpr (owner.imp fun g held => (heldSet_get s g).trans held)
  rw [resync_active r active, idle, any]
  rfl

/-- Settles O33: the steps in order. -/
theorem resyncByItsSteps : Obligations.ResyncByItsSteps := by
  intro s r run head kind u
  rw [exec_resync run head kind]
  refine ⟨fun setup => ?_, fun fault => ?_, fun active running => ?_, fun active idle none => ?_,
    fun active idle owner alone => ?_, fun active idle owner present firewall => ?_⟩
  · rw [resync, if_pos setup]
  · rw [resync, if_neg (by rw [fault]; nofun), if_pos fault]
  · rw [resync_active r active, if_pos running]
  · rw [resync_active r active, idle, (anyTrue_false_iff _).mpr none]
    rfl
  · rw [resync_owner r active idle owner, startPass_alone alone]
  · rw [resync_owner r active idle owner, startPass_started active present firewall]

end Sys2Proof.Machine
end

