-- ==== Sys2Proof/Proofs/Digests.lean ====
section
/-!
PROOFS. The digest of a bucket (R110), its preparation (R111) and comparison (R112, R113), and a FETCH (R114).
-/

namespace Sys2Proof.Machine

open Sys2Proof

/-! ### The digest of a bucket -/

/-- R110: what one slot adds to the digest of its bucket. -/
def digestPart (groups : GroupSet) (x : Option Slot) : Word :=
  match x with
  | some x => if groups.get x.entry.group = true ∧ x.entry.isRetired = false then fingerprint x.entry else 0
  | none => 0

/-- The slots of some ways, summed: a slot that R110 leaves out adds 0. -/
theorem sum_fingerprints (t : Table) (b : Bucket) (groups : GroupSet) (ways : List Way) :
    ((((ways.filterMap fun w => (t.slot (handleOf b w)).map fun s => (handleOf b w, s)).filter fun x =>
      groups.get x.2.entry.group && !x.2.entry.isRetired)).map fun x => fingerprint x.2.entry).sum
      = (ways.map fun w => digestPart groups (t.slot (handleOf b w))).sum := by
  induction ways with
  | nil => rfl
  | cons w ways ih =>
    rw [List.map_cons, List.sum_cons, ← ih]
    cases here : t.slot (handleOf b w) with
    | none =>
      rw [List.filterMap_cons_none (by rw [here]; rfl)]
      exact (BitVec.zero_add _).symm
    | some x =>
      rw [List.filterMap_cons_some (by rw [here]; rfl)]
      unfold digestPart
      dsimp only
      by_cases counts : groups.get x.entry.group = true ∧ x.entry.isRetired = false
      · rw [if_pos counts, List.filter_cons_of_pos (by rw [counts.1, counts.2]; rfl), List.map_cons, List.sum_cons]
      · rw [if_neg counts, List.filter_cons_of_neg (by simpa using counts)]
        exact (BitVec.zero_add _).symm

/-- R110: the sum over the four ways. -/
theorem bucketDigest_ways (t : Table) (b : Bucket) (groups : GroupSet) :
    bucketDigest t b groups = digestPart groups (t.slot (handleOf b 0)) + digestPart groups (t.slot (handleOf b 1))
      + digestPart groups (t.slot (handleOf b 2)) + digestPart groups (t.slot (handleOf b 3)) := by
  have sum := sum_fingerprints t b groups [0, 1, 2, 3]
  unfold bucketDigest Table.bucket
  rw [← List.sum_eq_foldl, sum]
  simp only [List.map_cons, List.map_nil, List.sum_cons, List.sum_nil, add_zero, add_assoc]

/-- R79, R110: the bytes of an ENTRY record after its kind and its sequence. -/
theorem recordBytes_entry_drop (q : Seq) (c : EntryContent) :
    (recordBytes ⟨q, .entry c⟩).drop 5 = entryTail c := rfl

/-! ### The preparation of a digest -/

theorem exec_digestTimerExpiry {s : State} (run : s.phase = .running) (runs : s.recon.digestTimer = true) :
    exec .digestTimerExpiry s = .next (if s.sweeps && s.recon.preparing.isNone && s.recon.ready.isNone
      then { s with recon.preparing := some ⟨s.heldSet, s.recon.sweep, []⟩ } else s) := by
  refine congrArg Host.Outcome.next ((whenLive_running _ s run).trans ?_)
  unfold beginDigest
  rw [runs, Bool.true_and]

/-- R111: one operation of a preparation, which has the reader's grant. -/
theorem exec_digestPrepare {s : State} {d : Digest} (run : s.phase = .running) (preparing : s.recon.preparing = some d)
    (noPurge : s.purgeWaits = false) (noComparison : s.recon.comparing = none) (free : s.higherWaits .reader = false)
    (sound : s.table.sound (nextBucket d) = true) : exec .digestPrepare s = .next (prepareBucket d s) := by
  refine congrArg Host.Outcome.next ((whenLive_running _ s run).trans ?_)
  rw [whenGranted_free _ _ _ free, ← bucketOperation_sound .reader _ (prepareBucket d) _ sound]
  unfold prepareDigest
  rw [preparing, noPurge, noComparison]
  rfl

/-- R111: a digest with one more bucket. -/
def withNext (d : Digest) (t : Table) : Digest :=
  { d with digests := d.digests ++ [bucketDigest t (nextBucket d) d.groups] }

theorem withNext_length (d : Digest) (t : Table) : (withNext d t).digests.length = d.digests.length + 1 := by
  rw [withNext, List.length_append, List.length_singleton]

theorem prepareBucket_eq (d : Digest) (s : State) : prepareBucket d s =
    if (withNext d s.table).digests.length < 16 then { s with recon.preparing := some (withNext d s.table) }
    else if s.partnerPresent then { s with
      recon.preparing := none, recon.ready := some (withNext d s.table)
      recon.sweep := nextBucket (withNext d s.table) }
    else { s with recon.preparing := none } := rfl

theorem prepareBucket_more {d : Digest} {s : State} (more : d.digests.length < 15) :
    prepareBucket d s = { s with recon.preparing := some (withNext d s.table) } := by
  rw [prepareBucket_eq, withNext_length, if_pos (Nat.succ_lt_succ more)]

/-- R111, step 3: the sixteenth bucket, with the partner still there or not. -/
theorem prepareBucket_last {d : Digest} {s : State} (last : d.digests.length = 15) :
    prepareBucket d s = if s.partnerPresent then { s with
      recon.preparing := none, recon.ready := some (withNext d s.table), recon.sweep := d.first + 16 }
      else { s with recon.preparing := none } := by
  have next : nextBucket (withNext d s.table) = d.first + 16 := by
    rw [nextBucket, withNext_length, last]
    rfl
  rw [prepareBucket_eq, withNext_length, last, next]
  rfl

/-! ### The comparison of a digest -/

theorem exec_digestCompare {s : State} {groups : GroupSet} {b : Bucket} {received : Word} {rest : List Word}
    (run : s.phase = .running) (comparing : s.recon.comparing = some ⟨groups, b, received :: rest⟩)
    (noPurge : s.purgeWaits = false) (free : s.higherWaits .reader = false) (sound : s.table.sound b = true) :
    exec .digestCompare s = .next (compareBucket ⟨groups, b, received :: rest⟩ received rest s) := by
  refine congrArg Host.Outcome.next ((whenLive_running _ s run).trans ?_)
  rw [whenGranted_free _ _ _ free,
    ← bucketOperation_sound .reader b (compareBucket ⟨groups, b, received :: rest⟩ received rest) _ sound]
  unfold compareDigest
  rw [comparing, noPurge]
  rfl

/-- R112: what one comparison does to the fetch slot is all that depends on the digests. -/
theorem compareBucket_eq (groups : GroupSet) (b : Bucket) (received : Word) (rest : List Word) (s : State) :
    compareBucket ⟨groups, b, received :: rest⟩ received rest s = { s with
      recon.comparing := if rest = [] then none else some ⟨groups, b + 1, rest⟩
      recon.fetch := if bucketDigest s.table b groups = received then s.recon.fetch
        else offerFetch groups b s.recon.fetch } := by
  unfold compareBucket
  cases rest <;> rfl

/-- R113: a bucket that joins the fetch slot. -/
theorem offerFetch_joins {groups : GroupSet} {b : Bucket} {f : Fetch} (same : f.groups = groups) (fresh : b ∉ f.buckets)
    (room : f.buckets.length < 16) : offerFetch groups b (some f) = some ⟨groups, f.buckets ++ [b]⟩ := by
  rw [offerFetch, if_pos ⟨same, by simpa using fresh, room⟩, same]

/-- R113: a bucket that the fetch slot does not take. -/
theorem offerFetch_stays {groups : GroupSet} {b : Bucket} {f : Fetch}
    (no : f.groups ≠ groups ∨ b ∈ f.buckets ∨ 16 ≤ f.buckets.length) : offerFetch groups b (some f) = some f := by
  rw [offerFetch, if_neg]
  rintro ⟨same, fresh, room⟩
  rcases no with other | member | full
  · exact other same
  · rw [List.contains_iff_mem.mpr member] at fresh
    cases fresh
  · exact Nat.not_le.mpr room full

/-! ### The conditions of a frame -/

theorem four_all_iff (p : Fin 4 → Bool) : four.all p = true ↔ ∀ g, p g = true := by
  rw [List.all_eq_true]
  exact ⟨fun all g => all g (by revert g; decide), fun all g _ => all g⟩

/-- A condition asked of the groups of a set alone. -/
theorem not_or_iff (a b : Bool) : (!a || b) = true ↔ (a = true → b = true) := by
  cases a <;> simp

/-- R112: the conditions of a DIGEST, each its own clause. -/
theorem acceptsDigest_iff (s : State) (p : Station) (d : Digest) : s.acceptsDigest p d = true ↔
    s.straps.role = .firewall ∧ (s.life = .member ∨ s.life = .isolated) ∧ s.presentPartner = some p
      ∧ (∃ g, d.groups.get g = true) ∧ s.recon.comparing = none
      ∧ ∀ g, d.groups.get g = true → (s.group g).state = .following ∧ (s.group g).owner = some p := by
  unfold State.acceptsDigest State.fromPartner
  simp only [Bool.and_eq_true, decide_eq_true_eq, joined_iff, anyTrue_iff, four_all_iff, not_or_iff,
    Option.isNone_iff_eq_none]
  tauto

/-- R114: the conditions of a FETCH, each its own clause. -/
theorem acceptsFetch_iff (s : State) (p : Station) (f : Fetch) : s.acceptsFetch p f = true ↔
    s.straps.role = .firewall ∧ (s.life = .member ∨ s.life = .isolated) ∧ s.presentPartner = some p
      ∧ (∃ g, f.groups.get g = true) ∧ ∀ g, f.groups.get g = true → s.holds g = true := by
  unfold State.acceptsFetch State.fromPartner
  simp only [Bool.and_eq_true, decide_eq_true_eq, joined_iff, anyTrue_iff, four_all_iff, not_or_iff, and_assoc]

theorem exec_digestFrame (p : Station) (d : Digest) {s : State} (run : s.phase = .running)
    (takes : s.takesFrames = true) (other : p ≠ s.me) : exec (.digestFrame p d) s = .next (acceptDigest p d s) :=
  congrArg Host.Outcome.next (onFrame_other 0x09 p _ s run takes other)

theorem exec_fetchFrame (p : Station) (f : Fetch) {s : State} (run : s.phase = .running)
    (takes : s.takesFrames = true) (other : p ≠ s.me) : exec (.fetchFrame p f) s = .next (acceptFetch p f s) :=
  congrArg Host.Outcome.next (onFrame_other 0x06 p _ s run takes other)

/-- R101: buckets added one after the other. -/
theorem mem_addBuckets (b : Bucket) (l resend : List Bucket) :
    b ∈ l.foldl (fun l b => addBucket b l) resend ↔ b ∈ resend ∨ b ∈ l := by
  induction l generalizing resend with
  | nil => simp
  | cons x l ih =>
    rw [List.foldl_cons, ih, mem_addBucket, List.mem_cons]
    tauto

/-- Settles O57: the digest by its ways, the timer by its conditions, a preparation by the buckets so far, a comparison by
the fetch slot, and either frame by the conditions of its acceptance. -/
theorem digestsFindMismatches : Obligations.DigestsFindMismatches := by
  refine ⟨fun t b groups => ?_, fun s run runs => ?_, fun s d run preparing noPurge noComparison free => ?_,
    fun p d s run takes other => ?_, fun s groups b received rest run comparing noPurge free sound => ?_,
    fun p f s run takes other => ?_⟩
  · intro part
    have parts (w : Way) : digestPart groups (t.slot (handleOf b w)) = part w := by
      unfold digestPart
      dsimp only [part]
      cases t.slot (handleOf b w) <;> rfl
    rw [bucketDigest_ways, parts, parts, parts, parts]
  · have begins := exec_digestTimerExpiry run runs
    refine ⟨fun sweeps unprepared unready => ?_, fun no => ?_⟩
    · rw [begins, sweeps, unprepared, unready]
      rfl
    · rw [begins, if_neg]
      simp only [Bool.and_eq_true, Option.isNone_iff_eq_none, not_and_or, Bool.not_eq_true, or_assoc]
      exact no
  · intro b d' sound
    have prepares := exec_digestPrepare run preparing noPurge noComparison free sound
    refine ⟨fun more => ?_, fun last present => ?_, fun last absent => ?_⟩
    · rw [prepares, prepareBucket_more more]
      rfl
    · rw [prepares, prepareBucket_last last, if_pos present]
      rfl
    · rw [prepares, prepareBucket_last last, if_neg (by rw [absent]; nofun)]
  · intro accepted
    have decides : s.acceptsDigest p d = true ↔ accepted := acceptsDigest_iff s p d
    rw [exec_digestFrame p d run takes other, acceptDigest]
    exact ⟨fun yes => by rw [if_pos (decides.mpr yes)], fun no => by rw [if_neg (mt decides.mp no)]⟩
  · intro after offered
    have compares := exec_digestCompare run comparing noPurge free sound
    rw [compareBucket_eq] at compares
    refine ⟨fun same => ?_, fun differs empty => ?_, fun f differs slot => ⟨fun groups fresh room => ?_, fun no => ?_⟩⟩
    · rw [if_pos same] at compares
      exact compares
    · rw [if_neg differs, empty] at compares
      exact compares
    · rw [if_neg differs, slot, offerFetch_joins groups fresh room] at compares
      exact compares
    · rw [if_neg differs, slot, offerFetch_stays no] at compares
      exact compares
  · intro accepted
    have decides : s.acceptsFetch p f = true ↔ accepted := acceptsFetch_iff s p f
    rw [exec_fetchFrame p f run takes other, acceptFetch]
    refine ⟨fun yes => ?_, fun no => by rw [if_neg (mt decides.mp no)]⟩
    rw [if_pos (decides.mpr yes)]
    exact ⟨_, rfl, fun b => mem_addBuckets b f.buckets s.recon.resend, rfl⟩

end Sys2Proof.Machine
end

