-- ==== Sys2Proof/Proofs/Silence.lean ====
section
/-!
PROOFS. Every step keeps a station in SETUP or FAULT at rest (R119, R158, R163, R184). An operation that only an active
station comes to leaves the station active, or enters FAULT, which is at rest; every other one finds nothing to do at
rest, or changes nothing that rest is about.
-/

namespace Sys2Proof.Machine

open Sys2Proof

/-! ### Active stations and stations at rest -/

theorem quiet_of_active {s : State} (active : s.life.active = true) : s.quiet := fun rest =>
  nomatch active.symm.trans rest

/-- What keeps the station state keeps an active station active. -/
theorem quiet_of_life {s t : State} (active : s.life.active = true) (same : t.life = s.life) : t.quiet :=
  quiet_of_active (same ▸ active)

/-- An operation keeps the invariant where it keeps the station state and a station at rest at rest. -/
theorem keeps_quiet_of_life {f : State → State} (same : ∀ s, (f s).life = s.life)
    (rest : ∀ s, s.life.active = false → s.atRest → (f s).atRest) : Keeps State.quiet f := fun s ok inactive => by
  rw [same] at inactive
  exact rest s inactive (ok inactive)

/-! ### Frames -/

theorem OwnershipFrame.life {s t : State} (frame : OwnershipFrame s t) : t.life = s.life := by
  obtain ⟨_, _, _, _, _, _, _, rfl⟩ := frame
  rfl

theorem ClaimFrame.life {s t : State} (frame : ClaimFrame s t) : t.life = s.life := frame.ownership.life

theorem TakeFrame.life {s t : State} (frame : TakeFrame s t) : t.life = s.life := by
  obtain ⟨_, _, _, _, _, _, rfl⟩ := frame
  rfl

theorem TableFrame.quiet {s t : State} (frame : TableFrame s t) (ok : s.quiet) : t.quiet := by
  obtain ⟨_, _, _, _, _, rfl⟩ := frame
  exact ok

theorem TableFrame.life {s t : State} (frame : TableFrame s t) : t.life = s.life := by
  obtain ⟨_, _, _, _, _, rfl⟩ := frame
  rfl

/-! ### Operations that rest is not about -/

theorem raiseIf_quiet (c : Bool) (e : Event) : Keeps State.quiet (raiseIf c e) := by
  intro s ok
  unfold raiseIf
  split <;> exact ok

theorem respond_quiet (x : Response) : Keeps State.quiet (respond x) := by
  intro s ok
  unfold respond
  dsimp only
  split <;> exact ok

theorem answer_quiet (r : Request) (status : Status) : Keeps State.quiet (answer r status) := respond_quiet _

theorem startPass_quiet : Keeps State.quiet startPass := by
  intro s ok
  obtain ⟨_, eq⟩ := startPass_recon s
  rw [eq]
  exact ok

/-- A write of one record that keeps its state. -/
theorem mapGroup_quiet {g : GroupId} {f : GroupRecord → GroupRecord} {s : State} (ok : s.quiet)
    (same : (f (s.group g)).state = (s.group g).state) : (mapGroup g f s).quiet := by
  intro inactive
  obtain ⟨bus, groups, others⟩ := ok inactive
  refine ⟨bus, fun k => ?_, others⟩
  by_cases eq : k = g
  · rw [eq, mapGroup_group_same, same]
    exact groups g
  · rw [mapGroup_group_other _ _ eq]
    exact groups k

/-! ### What a station at rest does not do -/

theorem State.atRest.unclaimed {s : State} (rest : s.atRest) {g : GroupId} {x : GroupState}
    (disabled : x ≠ .disabled) (vacant : x ≠ .vacant) : (s.group g).state ≠ x := by
  obtain ⟨_, groups, _⟩ := rest
  rcases groups g with eq | eq <;> rw [eq]
  · exact disabled.symm
  · exact vacant.symm

theorem State.atRest.notHeld {s : State} (rest : s.atRest) (g : GroupId) : s.holds g = false := by
  obtain ⟨_, groups, _⟩ := rest
  unfold State.holds
  rcases groups g with eq | eq <;> rw [eq] <;> rfl

theorem not_joined {l : Life} (inactive : l.active = false) : l.joined = false := by
  cases l with
  | setup | fault => rfl
  | _ => cases inactive

/-- R139: a station in SETUP or FAULT is eligible for nothing. -/
theorem ineligible_of_inactive {s : State} (inactive : s.life.active = false) (g : GroupId) : s.eligible g = false := by
  unfold State.eligible State.eligibleButLine
  rw [not_joined inactive]
  simp only [Bool.and_false, Bool.false_and]

theorem settleGroup_inactive {s : State} (inactive : s.life.active = false) (rest : s.atRest) (g : GroupId) :
    settleGroup s g = followLine g s := by
  have noClaim : ((s.group g).state = .claiming && !s.eligible g) = false :=
    Bool.and_eq_false_iff.mpr (.inl (decide_eq_false (rest.unclaimed nofun nofun)))
  have mayNot : s.mayClaim g = false := by
    unfold State.mayClaim
    rw [ineligible_of_inactive inactive, Bool.and_false, Bool.false_and, Bool.false_and]
  unfold settleGroup
  simp only [noClaim, mayNot, Bool.false_eq_true, if_false]

theorem followLine_quiet (g : GroupId) : Keeps State.quiet (followLine g) := by
  intro s ok
  unfold followLine
  split
  · exact mapGroup_quiet ok rfl
  · exact mapGroup_quiet ok rfl

theorem settle_quiet : Keeps State.quiet settle := by
  refine Keeps.foldl (fun g s ok => ?_) four
  cases active : s.life.active with
  | true => exact quiet_of_life active (settleGroup_frame s g).life
  | false =>
    dsimp only
    rw [settleGroup_inactive active (ok active)]
    exact followLine_quiet g ok

/-- R199: the host watch of a station in SETUP or FAULT does not run. -/
theorem takeRequest_quiet : Keeps State.quiet takeRequest := by
  intro s ok
  have restarted : Keeps State.quiet restartHostWatch := by
    refine keeps_quiet_of_life (fun _ => rfl) fun s inactive rest => ?_
    obtain ⟨bus, groups, timers, beacon, listen, _, others⟩ := rest
    refine ⟨bus, groups, timers, beacon, listen, ?_, others⟩
    unfold restartHostWatch
    dsimp only
    rw [inactive, Bool.false_and]
  have cleared : State.quiet { s with port.requests := s.port.requests.tail, port.lapsed := false } := ok
  unfold takeRequest
  dsimp only
  split
  · exact restarted (settle_quiet cleared)
  · exact restarted cleared

/-! ### FAULT, the resets and SEAL -/

theorem raiseLines_quiet : Keeps State.quiet raiseLines := fun _ ok => raiseIf_quiet _ .line ok

/-- R163: the cleared groups are DISABLED or VACANT. -/
theorem clearOwnership_groups (s : State) (g : GroupId) :
    ((clearOwnership s).group g).state = .disabled ∨ ((clearOwnership s).group g).state = .vacant := by
  have cleared : (clearOwnership s).group g = (s.group g).cleared (s.port.isSealed && s.port.setup.groups.get g) :=
    Four.get_build _ g
  rw [cleared]
  unfold GroupRecord.cleared
  dsimp only
  split
  · exact .inr rfl
  · exact .inl rfl

/-- R184. -/
theorem faultColumns_atRest (k : FaultKind) (s : State) : (faultColumns k s).atRest := by
  refine ⟨⟨rfl, rfl, rfl, rfl, rfl, rfl, rfl, rfl⟩, fun g => clearOwnership_groups (journalClear s) g, fun p => ?_,
    rfl, rfl, rfl, rfl, rfl, rfl, rfl⟩
  unfold State.peer faultColumns
  dsimp only
  rw [Four.get_build]

theorem enterFault_quiet (k : FaultKind) : Keeps State.quiet (enterFault k) := by
  intro s ok
  unfold enterFault
  split
  · have columns : (faultColumns k s).quiet := fun _ => faultColumns_atRest k s
    have raised : (raise .fault (raiseLines (faultColumns k s))).quiet := raiseLines_quiet columns
    unfold answerRejoin
    split
    · exact respond_quiet _ raised
    · exact raised
  · exact ok

theorem integrityFailure_quiet (c : Client) (b : Bucket) : Keeps State.quiet (integrityFailure c b) := fun s ok =>
  enterFault_quiet .integrity (s := captureTable _ s) ok

theorem bucketOperation_quiet (c : Client) (b : Bucket) {f : State → State} {s : State} (ok : s.quiet)
    (keeps : (f s).quiet) : (bucketOperation c b f s).quiet := by
  unfold bucketOperation
  split
  · exact keeps
  · exact integrityFailure_quiet c b ok

theorem verifyClear_quiet : Keeps State.quiet verifyClear := by
  intro s ok
  unfold verifyClear
  split
  · exact ok
  · exact integrityFailure_quiet _ _ ok

theorem resetStation_quiet (straps : Straps) (cause : Cause) (bus table request : Option Capture) (s : State) :
    (resetStation straps cause bus table request s).quiet := by
  refine raiseLines_quiet fun _ => ?_
  refine ⟨⟨rfl, rfl, rfl, rfl, rfl, rfl, rfl, rfl⟩, fun g => .inl ?_, fun p => ?_, rfl, rfl, rfl, rfl, rfl, rfl, rfl⟩
  · exact congrArg GroupRecord.state (Four.get_all GroupRecord.reset g)
  · exact congrArg Peer.deadTimer (Four.get_all Peer.reset p)

/-! ### Requests -/

theorem onRequest_quiet (k : BitVec 7) {f : Request → State → State} (keeps : ∀ r, Keeps State.quiet (f r)) :
    Keeps State.quiet (onRequest k f) := by
  refine Keeps.whenLive fun s ok => ?_
  split
  · exact ok
  · split
    · exact keeps _ (takeRequest_quiet ok)
    · exact ok

/-- R28: a session request proceeds at an active station alone. -/
theorem sessionRequest_quiet (r : Request) (offence : State → Option FieldName) {f : State → State}
    (keeps : ∀ s, s.life.active = true → s.quiet → (f s).quiet) :
    Keeps State.quiet fun s => sessionRequest r (offence s) f s := by
  intro s ok
  have proceeds (active : s.life.active = true) : (sessionRequest r (offence s) f s).quiet := by
    unfold sessionRequest
    split
    · exact answer_quiet r .notReady ok
    · exact answer_quiet r .faulted ok
    · exact respond_quiet _ ok
    · exact keeps s active ok
  dsimp only
  cases life : s.life with
  | setup =>
    unfold sessionRequest
    rw [life]
    exact answer_quiet r .notReady ok
  | fault =>
    unfold sessionRequest
    rw [life]
    exact answer_quiet r .faulted ok
  | listen => exact proceeds (by rw [life]; rfl)
  | member => exact proceeds (by rw [life]; rfl)
  | isolated => exact proceeds (by rw [life]; rfl)

theorem requestOperation_quiet (r : Request) (b : Bucket) {f : State → State} {s : State} (ok : s.quiet)
    (keeps : (f s).quiet) : (requestOperation r b f s).quiet := by
  unfold requestOperation
  split
  · exact keeps
  · exact answer_quiet r .faulted (integrityFailure_quiet .request b ok)

theorem updateEntry_quiet (h : Handle) (old new : Entry) : Keeps State.quiet (updateEntry h old new) := fun s =>
  (updateEntry_tableFrame h old new s).quiet

theorem createByCheck_quiet (r : Request) (place : Place) (h : Handle) (port : Option Port) :
    Keeps State.quiet (createByCheck r place h port) := by
  intro s ok
  obtain ⟨_, _, taken⟩ := takePort_base r.group port s
  rw [createByCheck_eq, taken]
  refine respond_quiet _ ((offer_tableFrame h _).quiet ((insertAt_tableFrame place _ _).quiet ?_))
  exact ok

theorem ownerCheck_quiet (r : Request) : Keeps State.quiet (ownerCheck r) := by
  intro s ok
  unfold ownerCheck
  split
  · split
    · unfold checkCreates
      dsimp only
      split
      · exact respond_quiet _ ok
      · split
        · split
          · exact respond_quiet _ ok
          · exact createByCheck_quiet r _ _ _ ok
        · exact createByCheck_quiet r _ _ _ ok
    · exact respond_quiet _ ok
  · split
    · exact respond_quiet _ ok
    · split
      · exact respond_quiet _ (updateEntry_quiet _ _ _ ok)
      · unfold checkLive
        split
        · exact respond_quiet _ ok
        · split
          · exact respond_quiet _ ok
          · exact respond_quiet _ (updateEntry_quiet _ _ _ ok)

theorem handRelay_life (o : Observation) (s : State) : (handRelay o s).life = s.life := by
  unfold handRelay
  split <;> rfl

theorem copyCheck_quiet (r : Request) (relays : Bool) {s : State} (active : s.life.active = true) :
    (copyCheck r relays s).quiet := by
  have ok := quiet_of_active active
  unfold copyCheck
  split
  · exact respond_quiet _ ok
  · split
    · exact respond_quiet _ ok
    · split
      · exact respond_quiet _ ok
      · split
        · exact respond_quiet _ ok
        · split
          · exact respond_quiet _ ok
          · refine respond_quiet _ ?_
            split
            · exact quiet_of_life active (handRelay_life _ s)
            · exact ok

theorem checkByState_quiet (r : Request) {s : State} (active : s.life.active = true) : (checkByState r s).quiet := by
  have ok := quiet_of_active active
  unfold checkByState
  split
  · exact answer_quiet r _ ok
  · exact requestOperation_quiet r _ ok (ownerCheck_quiet r ok)
  · exact requestOperation_quiet r _ ok (ownerCheck_quiet r ok)
  · exact requestOperation_quiet r _ ok (copyCheck_quiet r _ active)
  · exact requestOperation_quiet r _ ok (copyCheck_quiet r _ active)
  · exact requestOperation_quiet r _ ok (copyCheck_quiet r _ active)

theorem adoptInBucket_quiet (r : Request) : Keeps State.quiet (adoptInBucket r) := by
  intro s ok
  unfold adoptInBucket
  split
  · exact respond_quiet _ ok
  · dsimp only
    split
    · exact respond_quiet _ ok
    · split
      · exact respond_quiet _ ok
      · exact respond_quiet _ (integrityFailure_quiet _ _ ok)
      · exact respond_quiet _ ((offer_tableFrame _ _).quiet ((insertAt_tableFrame _ _ _).quiet
          ((displace_tableFrame _ s).quiet ok)))

theorem adoptByState_quiet (r : Request) : Keeps State.quiet (adoptByState r) := by
  intro s ok
  unfold adoptByState
  split
  · exact answer_quiet r _ ok
  · split
    · exact answer_quiet r _ ok
    · split
      · exact answer_quiet r _ ok
      · exact requestOperation_quiet r _ ok (adoptInBucket_quiet r ok)

theorem retireInBucket_quiet (r : Request) : Keeps State.quiet (retireInBucket r) := by
  intro s ok
  unfold retireInBucket
  split
  · exact respond_quiet _ ok
  · split
    · exact respond_quiet _ ok
    · split
      · exact respond_quiet _ ok
      · split
        · exact respond_quiet _ ok
        · exact respond_quiet _ (updateEntry_quiet _ _ _ ok)

theorem lookupInBucket_quiet (r : Request) : Keeps State.quiet (lookupInBucket r) := by
  intro s ok
  unfold lookupInBucket
  split
  · exact respond_quiet _ ok
  · exact respond_quiet _ ok

theorem active_of_not {l : Life} (setup : l ≠ .setup) (fault : l ≠ .fault) : l.active = true := by
  cases l with
  | setup => exact absurd rfl setup
  | fault => exact absurd rfl fault
  | _ => rfl

/-- R161: a request of a group proceeds at an active station alone. -/
theorem groupRequest_quiet (r : Request) {f : State → State} (keeps : ∀ s, s.life.active = true → (f s).quiet) :
    Keeps State.quiet (groupRequest r f) := by
  intro s ok
  unfold groupRequest
  split
  · exact answer_quiet r _ ok
  · split
    · exact answer_quiet r _ ok
    · split
      · exact respond_quiet _ ok
      · split
        · exact answer_quiet r _ ok
        · split
          · exact answer_quiet r _ ok
          · exact keeps s (active_of_not ‹_› ‹_›)

/-- What the ownership controller does at an active station, with the answer. -/
theorem answerView_quiet (r : Request) {s t : State} (active : s.life.active = true) (frame : OwnershipFrame s t) :
    (answerView r t).quiet := by
  unfold answerView
  exact respond_quiet _ (quiet_of_life active frame.life)

theorem setHealth_quiet (r : Request) {s : State} (active : s.life.active = true) : (setHealth r s).quiet := by
  have written := (mapGroup_frame r.group (fun x => { x with health := cappedHealth r.score }) s).ownership
  unfold setHealth
  refine answerView_quiet r active (OwnershipFrame.trans ?_ (settle_frame _).ownership)
  split
  · exact written.trans (reactLoss_frame _ _)
  · exact written

theorem setHold_quiet (r : Request) {s : State} (active : s.life.active = true) : (setHold r s).quiet := by
  have written := (mapGroup_frame r.group (fun x => { x with hold := true }) s).ownership
  unfold setHold
  split
  · exact answerView_quiet r active (.refl s)
  · exact answerView_quiet r active ((written.trans (reactLoss_frame _ _)).trans (settle_frame _).ownership)

theorem clearHold_quiet (r : Request) {s : State} (active : s.life.active = true) : (clearHold r s).quiet :=
  answerView_quiet r active ((mapGroup_frame r.group (fun x => { x with hold := false }) s).trans
    (settle_frame _)).ownership

theorem resync_quiet (r : Request) : Keeps State.quiet (resync r) := by
  intro s ok
  unfold resync
  split
  · exact answer_quiet r _ ok
  · split
    · exact answer_quiet r _ ok
    · split
      · exact answer_quiet r _ ok
      · split
        · exact answer_quiet r _ ok
        · exact answer_quiet r _ (startPass_quiet ok)

theorem writeSetup_quiet (r : Request) : Keeps State.quiet (writeSetup r) := by
  intro s ok
  unfold writeSetup
  split
  · exact answer_quiet r _ ok
  · split
    · exact respond_quiet _ ok
    · refine answer_quiet r _ ?_
      exact ok

/-- R181, R191: the station is active from its entry to LISTEN on. -/
theorem enterListen_quiet (s : State) : (enterListen s).quiet := quiet_of_active rfl

theorem sealRequest_quiet (r : Request) : Keeps State.quiet (sealRequest r) := by
  intro s ok
  unfold sealRequest
  split
  · exact answer_quiet r _ (enterListen_quiet _)
  · exact answer_quiet r _ ok

theorem rejoinRequest_quiet (r : Request) : Keeps State.quiet (rejoinRequest r) := by
  intro s ok
  unfold rejoinRequest
  split
  · exact answer_quiet r _ ok
  · split
    · exact answer_quiet r _ ok
    · refine raiseIf_quiet _ .line fun inactive => ?_
      obtain ⟨bus, _, others⟩ := ok inactive
      exact ⟨bus, clearOwnership_groups s, others⟩

theorem rejoinSteps_quiet (tag : Byte) (s : State) : (rejoinSteps tag s).quiet :=
  respond_quiet _ (quiet_of_active rfl)

/-! ### The window, the clock and the scan -/

theorem writeWindow_quiet (offset : Byte) (size : AccessSize) (value : Word) :
    Keeps State.quiet (writeWindow offset size value) := by
  intro s ok
  unfold writeWindow
  split
  · unfold writeWord
    split_ifs
    · exact ok
    · exact ok
    · unfold postRequest
      split <;> exact ok
    · exact ok
    · exact ok
    · exact ok
    · exact ok
    · exact ok
  · exact ok

theorem takeSnapshot_quiet : Keeps State.quiet takeSnapshot := by
  intro s ok
  have copied : (copySnapshot s).quiet := ok
  unfold takeSnapshot
  dsimp only
  split
  · split
    · exact copied
    · exact integrityFailure_quiet _ _ copied
  · exact ok

theorem aging_active {s : State} (permitted : s.agingPermitted = true) : s.life.active = true :=
  (Bool.and_eq_true_iff.mp permitted).2

/-- R54: no scan starts at a station in SETUP or FAULT. -/
theorem ageTick_quiet : Keeps State.quiet ageTick := by
  intro s ok
  unfold ageTick
  dsimp only
  split
  · rename_i permitted
    have active : s.life.active = true := aging_active permitted
    split <;> exact quiet_of_life active rfl
  · exact ok

theorem referencePeriod_quiet : Keeps State.quiet referencePeriod := by
  intro s ok
  unfold referencePeriod
  split
  · exact ok
  · split
    · exact ok
    · exact ageTick_quiet ok

theorem visitEntry_tableFrame (s : State) (h : Handle) : TableFrame s (visitEntry s h) := by
  unfold visitEntry
  split
  · exact .refl s
  · split
    · exact .refl s
    · split
      · split
        · exact removeEntry_tableFrame h s
        · exact .refl s
      · split
        · exact updateEntry_tableFrame h _ _ s
        · exact .refl s

theorem visitNext_quiet : Keeps State.quiet visitNext := by
  intro s ok
  unfold visitNext
  split
  · rename_i waits
    refine bucketOperation_quiet .aging _ ok (quiet_of_life (aging_active (Bool.and_eq_true_iff.mp waits).2) ?_)
    exact (foldl_keeps TableFrame .refl .trans visitEntry visitEntry_tableFrame _ s).life
  · exact ok

/-! ### The medium -/

theorem clearPending_quiet (r : JournalRecord) : Keeps State.quiet fun s => clearPending s r := by
  intro s ok
  unfold clearPending
  dsimp only
  split
  · exact ok
  · split
    · exact ok
    · split
      · exact ok
      · exact integrityFailure_quiet _ _ ok

theorem composeDelta_quiet {s : State} (active : s.life.active = true) : (composeDelta s).quiet := by
  unfold composeDelta
  dsimp only
  exact Keeps.foldl clearPending_quiet _ (quiet_of_life active rfl)

/-- R117: only an active station contends. -/
theorem startClass_quiet (c : Nat) {s : State} (active : s.life.active = true) : (startClass c s).quiet := by
  unfold startClass
  split
  · unfold startControl
    split
    · exact quiet_of_life active rfl
    · split <;> exact quiet_of_life active rfl
  · split
    · unfold startSecond
      split
      · exact quiet_of_life active rfl
      · split
        · exact quiet_of_life active rfl
        · exact quiet_of_life active rfl
        · split <;> exact quiet_of_life active rfl
    · unfold startThird
      split
      · unfold startDelta
        split
        · exact quiet_of_life active rfl
        · exact composeDelta_quiet active
      · unfold startDigest
        split <;> exact quiet_of_life active rfl

theorem contends_active {s : State} {c : Nat} (contends : s.contends = some c) : s.life.active = true := by
  unfold State.contends at contends
  split at contends
  · exact (Bool.and_eq_true_iff.mp ‹_›).1
  · cases contends

theorem transmitStart_quiet (idleMicros : Nat) {s t : State} (ok : s.quiet)
    (run : execTransmitStart idleMicros s = .next t) : t.quiet := by
  refine Host.Outcome.next.inj run ▸ Keeps.whenLive (fun s ok => ?_) ok
  split
  · exact ok
  · rename_i contends
    split
    · exact startClass_quiet _ (contends_active contends)
    · exact ok

theorem finishFrame_life (t : Transmission) (s : State) : (finishFrame t s).life = s.life := by
  unfold finishFrame leaveHolder
  dsimp only
  split
  · split <;> rfl
  · rfl

theorem claimTransmitted_life (t : Transmission) (s : State) : (claimTransmitted t s).life = s.life := by
  unfold claimTransmitted
  split
  · split <;> rfl
  · rfl

theorem discardFrame_life (t : Transmission) (s : State) : (discardFrame t s).life = s.life := by
  have finished (c : Capture) : (busFault c (finishFrame t s)).life = s.life := finishFrame_life t s
  unfold discardFrame claimDiscarded
  split
  · split
    · exact ((abandonClaim_frame _ _ _ _).trans (settle_frame _)).life.trans (finished _)
    · exact finished _
  · exact finished _

/-- A station that transmits is active. -/
theorem transmitting_active {s : State} {x : Transmission} (ok : s.quiet) (sends : s.bus.transmitting = some x) :
    s.life.active = true := by
  by_contra inactive
  obtain ⟨⟨_, _, _, _, _, _, _, silent⟩, _⟩ := ok (Bool.not_eq_true _ ▸ inactive)
  rw [silent] at sends
  cases sends

theorem transmitted_quiet {s t : State} (ok : s.quiet) (run : execTransmitted s = .next t) : t.quiet := by
  refine Host.Outcome.next.inj run ▸ Keeps.whenLive (fun s ok => ?_) ok
  split
  · exact ok
  · rename_i sends
    exact quiet_of_life (transmitting_active ok sends) ((claimTransmitted_life _ _).trans (finishFrame_life _ s))

theorem collision_quiet {s t : State} (ok : s.quiet) (run : execCollision s = .next t) : t.quiet := by
  refine Host.Outcome.next.inj run ▸ Keeps.whenLive (fun s ok => ?_) ok
  split
  · exact ok
  · rename_i sends
    have active := transmitting_active ok sends
    split
    · exact quiet_of_life active rfl
    · exact quiet_of_life active (discardFrame_life _ s)

theorem hearStart_quiet : Keeps State.quiet hearStart := by
  intro s ok
  unfold hearStart
  split
  · exact ok
  · split <;> exact ok

/-! ### Frames heard -/

/-- R119, R128: only an active station takes a frame. -/
theorem onTransmission_quiet {f : State → State} (keeps : ∀ s, s.life.active = true → (f s).quiet) :
    Keeps State.quiet (onTransmission f) := by
  refine Keeps.whenLive fun s ok => ?_
  dsimp only
  split
  · exact ok
  · split
    · exact keeps s ‹_›
    · exact ok

theorem onFrame_quiet (kind : Byte) (source : Station) {f : State → State}
    (keeps : ∀ s, s.life.active = true → (f s).quiet) : Keeps State.quiet (onFrame kind source f) := by
  refine onTransmission_quiet fun s active => ?_
  split
  · exact enterFault_quiet _ (s := busFault _ s) (quiet_of_active active)
  · exact keeps s active

theorem onOwnershipFrame_quiet (kind : Byte) (source : Station) {f : State → State}
    (frame : ∀ s, OwnershipFrame s (f s)) : Keeps State.quiet (onOwnershipFrame kind source f) := by
  refine onFrame_quiet kind source fun s active => ?_
  split
  · exact quiet_of_life active (frame s).life
  · exact quiet_of_active active

theorem Moves.life {passes : Bool} {s t : State} (all : Moves passes s t) : t.life = s.life := by
  obtain ⟨⟨_, _, _, _, _, _, _, _, rfl⟩, -, -⟩ := all.span
  rfl

theorem revisit_quiet (before : State) (source : Option Station) : Keeps State.quiet (revisit before source) := by
  intro s ok
  cases active : s.life.active with
  | true => exact quiet_of_life active (revisit_moves before source s).life
  | false =>
    unfold revisit
    dsimp only
    rw [active, Bool.false_and]
    exact ok

theorem changeRecords_quiet (records : Four Peer) (heard : Bool) {s : State} (active : s.life.active = true) :
    (changeRecords records heard s).quiet := by
  have told : (told records heard s).quiet := quiet_of_active ((told_tells records heard s).active.trans active)
  rw [changeRecords_eq]
  split
  · exact verifyClear_quiet told
  · exact told

theorem partnerBeacon_life (b : Beacon) (s : State) : (partnerBeacon b s).life = s.life := by
  have judged (n : Seq) (u : State) : (judgeReceipt n u).life = u.life := by
    unfold judgeReceipt
    split <;> rfl
  have expected (u : State) : (expectByBeacon b u).life = u.life := by
    obtain ⟨_, _, eq⟩ := expectByBeacon_frame b u
    rw [eq]
    rfl
  have passed (u : State) : (startPass u).life = u.life := (startPass_frame u).life
  unfold partnerBeacon
  cases b.receipt with
  | none =>
    dsimp only
    split
    · rw [passed, expected]
    · exact expected s
  | some n =>
    dsimp only
    split
    · rw [passed, expected, judged]
    · rw [expected, judged]

theorem takeBeacon_quiet (p : Station) (b : Beacon) {s : State} (active : s.life.active = true) :
    (takeBeacon p b s).quiet := by
  unfold takeBeacon
  refine revisit_quiet s _ ?_
  have changed := changeRecords_quiet (s.presence.records.set p ((s.peer p).hearBeacon b s.presence.fingerprint))
    (s.heardChange p b) active
  split
  · rename_i taken
    exact quiet_of_life (Bool.and_eq_true_iff.mp taken).1 (partnerBeacon_life b _)
  · exact changed

theorem loseRecord_quiet (p : Station) {s : State} (active : s.life.active = true) : (loseRecord p s).quiet :=
  revisit_quiet s none (changeRecords_quiet _ false active)

theorem takeReceipt_life (n : Seq) (s : State) : (takeReceipt n s).life = s.life := by
  have judged : (judgeReceipt n s).life = s.life := by
    unfold judgeReceipt
    split <;> rfl
  unfold takeReceipt
  dsimp only
  split
  · exact judged
  · have tested := foldl_keeps OwnershipFrame .refl .trans (fun s g => drainTest g s) (fun s g => drainTest_frame g s)
      four (judgeReceipt n s)
    exact ((settle_frame _).life.trans tested.life).trans judged

theorem acceptDelta_life (source : Station) (d : Delta) (s : State) : (acceptDelta source d s).life = s.life := by
  unfold acceptDelta
  split <;> rfl

theorem acceptRelay_life (source : Station) (o : Observation) (s : State) :
    (acceptRelay source o s).life = s.life := by
  unfold acceptRelay
  split
  · rfl
  · split <;> rfl

theorem acceptDigest_life (source : Station) (d : Digest) (s : State) : (acceptDigest source d s).life = s.life := by
  unfold acceptDigest
  split <;> rfl

theorem acceptFetch_life (source : Station) (f : Fetch) (s : State) : (acceptFetch source f s).life = s.life := by
  unfold acceptFetch
  split <;> rfl

theorem discardInvalid_life (bytes : List Byte) (s : State) : (discardInvalid bytes s).life = s.life := by
  unfold discardInvalid
  split <;> rfl

/-! ### Receive apply, purges and passes -/

/-- A station that takes records is active. -/
theorem taking_active {s : State} {x : Taking} (ok : s.quiet) (takes : s.receive.taking = some x) :
    s.life.active = true := by
  by_contra inactive
  obtain ⟨_, _, _, _, _, _, none_, _⟩ := ok (Bool.not_eq_true _ ▸ inactive)
  rw [none_] at takes
  cases takes

theorem waiting_active {s : State} {d : AcceptedDelta} {rest : List AcceptedDelta} (ok : s.quiet)
    (waits : s.receive.waiting = d :: rest) : s.life.active = true := by
  by_contra inactive
  obtain ⟨_, _, _, _, _, _, _, none_, _⟩ := ok (Bool.not_eq_true _ ▸ inactive)
  rw [none_] at waits
  cases waits

theorem catchUp_life (h : Seq) (s : State) : (catchUp h s).life = s.life := by
  unfold catchUp
  split
  · rfl
  · split <;> rfl

theorem takeDelta_quiet : Keeps State.quiet takeDelta := by
  intro s ok
  unfold takeDelta
  split
  · rename_i takes
    exact quiet_of_life (taking_active ok takes) (takeRecords_frame _ _ _).life
  · rename_i waits
    exact quiet_of_life (waiting_active ok waits) ((takeRecords_frame _ _ _).life.trans (catchUp_life _ _))
  · exact ok

theorem enterFault_life (k : FaultKind) {s : State} (active : s.life.active = true) :
    (enterFault k s).life = .fault :=
  congrArg Presence.life (enterFault_presence k s active)

theorem integrityFailure_life (c : Client) (b : Bucket) {s : State} (active : s.life.active = true) :
    (integrityFailure c b s).life = .fault :=
  enterFault_life .integrity (s := captureTable _ s) active

/-- The station is at it still, or in FAULT. -/
def StaysOrFaults (s t : State) : Prop := t.life = s.life ∨ t.life = .fault ∧ t.quiet

theorem integrityFailure_stays (c : Client) (b : Bucket) {s : State} (active : s.life.active = true) :
    StaysOrFaults s (integrityFailure c b s) :=
  .inr ⟨integrityFailure_life c b active, integrityFailure_quiet c b (quiet_of_active active)⟩

theorem withHolder_stays (client : Client) (holder : Option Handle) {f : State → State} {s : State}
    (active : s.life.active = true) (same : ∀ u, (f u).life = u.life) :
    StaysOrFaults s (withHolder client holder f s) := by
  unfold withHolder
  split
  · exact integrityFailure_stays _ _ active
  · exact .inl ((same _).trans (displace_tableFrame holder s).life)

theorem joinWrite_stays (h : Handle) (e new : Entry) (c : EntryContent) {s : State} (active : s.life.active = true) :
    StaysOrFaults s (joinWrite h e new c s) :=
  withHolder_stays _ _ active fun u => (movePort_tableFrame h e new u).life

theorem joinInsert_stays (source : Station) (q : Seq) (c : EntryContent) {s : State} (active : s.life.active = true) :
    StaysOrFaults s (joinInsert source q c s) := by
  unfold joinInsert
  dsimp only
  split
  · exact .inl rfl
  · refine withHolder_stays _ _ active fun u => ?_
    split <;> exact (insertAt_tableFrame _ _ _).life

theorem joinRecord_stays (source : Station) (q : Seq) (c : EntryContent) {s : State} (active : s.life.active = true) :
    StaysOrFaults s (joinRecord source q c s) := by
  unfold joinRecord
  split
  · exact joinInsert_stays source q c active
  · split
    · exact joinWrite_stays _ _ _ c active
    · split
      · exact joinWrite_stays _ _ _ c active
      · exact .inl rfl

theorem joinInHand_quiet : Keeps State.quiet joinInHand := by
  intro s ok
  unfold joinInHand
  split
  · rename_i source r rest takes
    have active := taking_active ok takes
    split
    · rename_i c _
      have joined : StaysOrFaults s
          (bucketOperation .receiveApply (bucketOf c.key) (joinRecord source r.seq c) s) := by
        unfold bucketOperation
        split
        · exact joinRecord_stays source r.seq c active
        · exact integrityFailure_stays _ _ active
      dsimp only
      rcases joined with same | ⟨fault, quiet⟩
      · split
        · exact quiet_of_life active same
        · exact quiet_of_life active ((recordDone_frame source r rest _).life.trans same)
      · rw [if_pos fault]
        exact quiet
    · exact ok
    · exact ok
  · exact ok

theorem handOver_quiet : Keeps State.quiet handOver := by
  intro s ok
  unfold handOver
  split
  · rename_i takes
    split
    · split
      · exact quiet_of_life (taking_active ok takes) (recordDone_frame _ _ _ _).life
      · exact ok
    · exact ok
  · exact ok

theorem purgeEntry_tableFrame (source : Station) (groups : GroupSet) (opening : Seq) (s : State) (h : Handle) :
    TableFrame s (purgeEntry source groups opening s h) := by
  unfold purgeEntry
  split
  · exact .refl s
  · split
    · exact removeEntry_tableFrame h s
    · exact .refl s

theorem purgeHead_quiet : Keeps State.quiet purgeHead := by
  intro s ok
  unfold purgeHead
  split
  · rename_i source b groups opening _ _
    have purged := foldl_keeps TableFrame .refl .trans _ (purgeEntry_tableFrame source groups opening)
      ((s.table.bucket b).map fun x => x.1) s
    exact bucketOperation_quiet .reader b ok (purged.quiet ok)
  · exact ok

theorem takePassEnd_quiet (groups : GroupSet) (start : Seq) : Keeps State.quiet (takePassEnd groups start) := by
  intro s ok
  unfold takePassEnd
  dsimp only
  split
  · refine raiseIf_quiet _ .sync ?_
    split <;> exact ok
  · exact ok

theorem joinObservation_tableFrame (o : Observation) (s : State) : TableFrame s (joinObservation o s) := by
  unfold joinObservation
  split
  · exact .refl s
  · split
    · exact .refl s
    · dsimp only
      split
      · exact (writeEntry_tableFrame _ _ s).trans (offer_tableFrame _ _)
      · exact writeEntry_tableFrame _ _ s

/-- R47: an observation that is taken leaves its slot, as at rest. -/
theorem applyRelay_quiet : Keeps State.quiet applyRelay := by
  intro s ok
  unfold applyRelay
  split
  · have taken : State.quiet { s with engine.relaySlot := none } := by
      refine fun inactive => ?_
      obtain ⟨bus, groups, dead, beacon, listen, watch, taking, waiting, _, scan⟩ := ok inactive
      exact ⟨bus, groups, dead, beacon, listen, watch, taking, waiting, rfl, scan⟩
    dsimp only
    split
    · exact bucketOperation_quiet .request _ taken ((joinObservation_tableFrame _ _).quiet taken)
    · exact taken
  · exact ok

theorem rejournal_quiet : Keeps State.quiet rejournal := by
  intro s ok
  unfold rejournal
  split
  · rename_i b _ _
    split
    · refine bucketOperation_quiet .reader b ok ?_
      obtain ⟨_, _, _, _, eq⟩ := rejournalBucket_frame b s
      rw [eq]
      exact ok
    · exact ok
  · exact ok

theorem appendPassEnd_quiet : Keeps State.quiet appendPassEnd := by
  intro s ok
  unfold appendPassEnd
  split <;> exact ok

theorem beginDigest_quiet : Keeps State.quiet beginDigest := by
  intro s ok
  unfold beginDigest
  split <;> exact ok

theorem prepareDigest_quiet : Keeps State.quiet prepareDigest := by
  intro s ok
  unfold prepareDigest
  split
  · split
    · exact ok
    · refine bucketOperation_quiet .reader _ ok ?_
      unfold prepareBucket
      dsimp only
      split
      · exact ok
      · split <;> exact ok
  · exact ok

theorem compareDigest_quiet : Keeps State.quiet compareDigest := by
  intro s ok
  unfold compareDigest
  split
  · split
    · exact ok
    · split
      · refine bucketOperation_quiet .reader _ ok ?_
        exact ok
      · exact ok
  · exact ok

/-! ### Timers -/

/-- R119: a station whose beacon timer runs is active. -/
theorem beaconTimer_quiet : Keeps State.quiet fun s => if s.presence.beaconTimer then handBeacon s else s := by
  intro s ok
  dsimp only
  split
  · rename_i runs
    refine quiet_of_life ?_ (t := handBeacon s) (s := s) rfl
    by_contra inactive
    obtain ⟨_, _, _, stopped, _⟩ := ok (Bool.not_eq_true _ ▸ inactive)
    rw [stopped] at runs
    cases runs
  · exact ok

theorem deadTimer_active {s : State} {p : Station} (ok : s.quiet) (runs : (s.peer p).deadTimer = true) :
    s.life.active = true := by
  by_contra inactive
  obtain ⟨_, _, stopped, _⟩ := ok (Bool.not_eq_true _ ▸ inactive)
  rw [stopped p] at runs
  cases runs

theorem hostWatch_active {s : State} (ok : s.quiet) (runs : s.port.hostWatch = true) : s.life.active = true := by
  by_contra inactive
  obtain ⟨_, _, _, _, _, stopped, _⟩ := ok (Bool.not_eq_true _ ▸ inactive)
  rw [stopped] at runs
  cases runs

/-- A station with a group that it claims, holds or follows is active. -/
theorem group_active {s : State} {g : GroupId} {x : GroupState} (ok : s.quiet) (state : (s.group g).state = x)
    (disabled : x ≠ .disabled) (vacant : x ≠ .vacant) : s.life.active = true := by
  by_contra inactive
  exact (ok (Bool.not_eq_true _ ▸ inactive)).unclaimed disabled vacant state

theorem stall_quiet : Keeps State.quiet stall := by
  intro s ok
  refine startPass_quiet (verifyClear_quiet fun inactive => ?_)
  obtain ⟨bus, groups, others⟩ := ok inactive
  refine ⟨bus, fun g => ?_, others⟩
  have record := stalled_group s g
  unfold stalled at record
  rw [record]
  split
  · exact groups g
  · exact groups g

theorem preemptNow_quiet (g : GroupId) : Keeps State.quiet (preemptNow g) := by
  intro s ok
  cases active : s.life.active with
  | true => exact quiet_of_life active (preemptNow_frame g s).life
  | false =>
    have stopped : (mapGroup g (fun r => { r with preempt := false }) s).quiet := mapGroup_quiet ok rfl
    have never : (mapGroup g (fun r => { r with preempt := false }) s).preemptCondition g = false := by
      unfold State.preemptCondition
      rw [decide_eq_false ((stopped active).unclaimed (x := .holding) nofun nofun), Bool.and_false, Bool.false_and]
    unfold preemptNow
    dsimp only
    rw [never]
    split <;> exact stopped

theorem releaseAll_quiet : Keeps State.quiet releaseAll := by
  refine Keeps.foldl (fun g s ok => ?_) four
  dsimp only
  split
  · rename_i held
    refine quiet_of_life ?_ (release_frame g s).life
    by_contra inactive
    rw [(ok (Bool.not_eq_true _ ▸ inactive)).notHeld g] at held
    cases held
  · exact ok

theorem hostLapses_life (s : State) : (hostLapses s).life = s.life := by
  have reacted := foldl_keeps OwnershipFrame .refl .trans (fun s g => reactLoss g s) (fun s g => reactLoss_frame g s)
    four (raise .watch { s with port.lapsed := true, port.hostWatch := false })
  exact (settle_frame _).life.trans reacted.life

theorem receiptExpires_quiet : Keeps State.quiet receiptExpires := fun _ ok => ok

theorem closeWindow_quiet (g : GroupId) {s : State} (ok : s.quiet) : (raise .adoptEnd (closeWindow g s)).quiet :=
  mapGroup_quiet (f := fun r => { r with adoptionOpen := false, adoptionTimer := false }) ok rfl

theorem lineStuck_quiet (g : GroupId) {s : State} (ok : s.quiet) : (lineStuck g s).quiet :=
  mapGroup_quiet (f := fun r => { r with lineTimer := false, lineReported := true }) ok rfl

/-! ### The steps -/

theorem exec_quiet (c : Instr) {s t : State} (ok : s.quiet) (run : exec c s = .next t) : t.quiet := by
  have done {f : State → State} (eq : (.next (f s) : Host.Outcome State Fault Refusal) = .next t)
      (keeps : Keeps State.quiet f) : t.quiet := Host.Outcome.next.inj eq ▸ keeps ok
  have silenced (u : State) (phase : Phase) (ok : u.quiet) :
      State.quiet { u with phase := phase, bus.transmitting := none } := by
    intro inactive
    obtain ⟨⟨beacon, control, receipt, relays, delta, digest, fetch, _⟩, others⟩ := ok inactive
    exact ⟨⟨beacon, control, receipt, relays, delta, digest, fetch, rfl⟩, others⟩
  match c, run with
  | .powerReset straps, run => exact Host.Outcome.next.inj run ▸ resetStation_quiet straps _ _ _ _ s
  | .powerResetOnset, run => exact Host.Outcome.next.inj run ▸ silenced s .power ok
  | .pinResetAssert, run => exact done run (Keeps.whenLive fun u => silenced u _)
  | .pinResetRelease straps, run =>
    refine Host.Outcome.next.inj run ▸ ?_
    split
    · exact resetStation_quiet _ _ _ _ _ s
    · exact ok
    · exact ok
  | .groupLineReadback g foreignDrive, run =>
    exact Host.Outcome.next.inj run ▸ Keeps.whenLive (fun u same => settle_quiet (raiseIf_quiet _ .line same))
      (s := { s with own.foreignDrive := s.own.foreignDrive.set g foreignDrive }) ok
  | .post value, run =>
    refine done run (Keeps.whenLive fun u same => ?_)
    unfold postRequest
    split <;> exact same
  | .pop value, run => exact done run (Keeps.whenLive fun _ same => same)
  | .eventsWrite value, run => exact done run (Keeps.whenLive fun _ same => same)
  | .maskWrite value, run => exact done run (Keeps.whenLive fun _ same => same)
  | .cursorWrite value, run => exact done run (Keeps.whenLive fun _ same => same)
  | .cursorData23Read, run =>
    refine done run (Keeps.whenLive fun u same => ?_)
    unfold advanceCursor
    split <;> exact same
  | .cursorSnapshot, run => exact done run (takeSnapshot_quiet.whenGranted .cursor).whenLive
  | .clear value, run => exact done run (Keeps.whenLive fun _ same => same)
  | .registerWrite offset size value, run => exact done run (writeWindow_quiet offset size value).whenLive
  | .unknownKind, run =>
    refine done run (Keeps.whenLive fun s ok => ?_)
    split
    · exact ok
    · split
      · exact ok
      · exact respond_quiet _ (takeRequest_quiet ok)
  | .check, run =>
    exact done run (onRequest_quiet _ fun r =>
      sessionRequest_quiet r (fun _ => checkOffence r) fun _ active _ => checkByState_quiet r active).whenEngineGranted
  | .adopt, run =>
    exact done run (onRequest_quiet _ fun r => sessionRequest_quiet r (fun s => adoptOffence s.port.setup.translate r)
      fun _ _ ok => adoptByState_quiet r ok).whenEngineGranted
  | .retire, run =>
    exact done run (onRequest_quiet _ fun r => sessionRequest_quiet r (fun _ => keyOffence r)
      fun _ _ ok => requestOperation_quiet r _ ok (retireInBucket_quiet r ok)).whenEngineGranted
  | .lookup, run =>
    exact done run (onRequest_quiet _ fun r => sessionRequest_quiet r (fun _ => keyOffence r)
      fun _ _ ok => requestOperation_quiet r _ ok (lookupInBucket_quiet r ok)).whenEngineGranted
  | .health, run => exact done run (onRequest_quiet _ fun r => groupRequest_quiet r fun _ => setHealth_quiet r)
  | .hold, run => exact done run (onRequest_quiet _ fun r => groupRequest_quiet r fun _ => setHold_quiet r)
  | .unhold, run => exact done run (onRequest_quiet _ fun r => groupRequest_quiet r fun _ => clearHold_quiet r)
  | .resync, run => exact done run (onRequest_quiet _ resync_quiet)
  | .setup, run => exact done run (onRequest_quiet _ writeSetup_quiet)
  | .seal, run => exact done run (onRequest_quiet _ sealRequest_quiet)
  | .rejoin, run => exact done run (onRequest_quiet _ rejoinRequest_quiet)
  | .rejoinClear, run =>
    refine done run (Keeps.whenLive fun s ok => ?_)
    split
    · exact ok
    · exact rejoinSteps_quiet _ s
  | .keep, run => exact done run (onRequest_quiet _ fun r s ok => answer_quiet r _ ok)
  | .ageTick, run => exact done run ageTick_quiet.whenLive
  | .agingVisit, run => exact done run (visitNext_quiet.whenGranted .aging).whenLive
  | .transmitStart idleMicros, run => exact transmitStart_quiet idleMicros ok run
  | .transmitted, run => exact transmitted_quiet ok run
  | .collision, run => exact collision_quiet ok run
  | .defer, run => exact done run hearStart_quiet.whenLive
  | .invalidFrame bytes, run =>
    exact done run (onTransmission_quiet fun s active => quiet_of_life active (discardInvalid_life bytes s))
  | .beaconFrame source content, run =>
    exact done run (onFrame_quiet _ source fun _ active => takeBeacon_quiet source content active)
  | .claimFrame source content, run => exact done run (onOwnershipFrame_quiet _ source (takeClaim_frame content source))
  | .contestFrame source content, run =>
    exact done run (onOwnershipFrame_quiet _ source fun s => (takeContest_frame content s).ownership)
  | .yieldFrame source content, run =>
    exact done run (onOwnershipFrame_quiet _ source fun s => (takeYield_frame content source s).ownership)
  | .receiptFrame source expected, run =>
    refine done run (onFrame_quiet _ source fun s active => ?_)
    split
    · exact quiet_of_life active (takeReceipt_life expected s)
    · exact quiet_of_active active
  | .deltaFrame source content, run =>
    exact done run (onFrame_quiet _ source fun s active => quiet_of_life active (acceptDelta_life source content s))
  | .relayFrame source content, run =>
    exact done run (onFrame_quiet _ source fun s active => quiet_of_life active (acceptRelay_life source content s))
  | .digestFrame source content, run =>
    exact done run (onFrame_quiet _ source fun s active => quiet_of_life active (acceptDigest_life source content s))
  | .fetchFrame source content, run =>
    exact done run (onFrame_quiet _ source fun s active => quiet_of_life active (acceptFetch_life source content s))
  | .deltaTake, run => exact done run takeDelta_quiet.whenLive
  | .entryJoin, run => exact done run (joinInHand_quiet.whenGranted .receiveApply).whenLive
  | .purgeHandover, run => exact done run handOver_quiet.whenLive
  | .purge, run => exact done run (purgeHead_quiet.whenGranted .reader).whenLive
  | .passEndTake, run =>
    refine done run (Keeps.whenLive fun s ok => ?_)
    split
    · exact takePassEnd_quiet _ _ ok
    · exact ok
  | .relayApply, run => exact done run applyRelay_quiet.whenEngineGranted.whenLive
  | .reJournal, run => exact done run (rejournal_quiet.whenGranted .reader).whenLive
  | .passEndAppend, run => exact done run appendPassEnd_quiet.whenLive
  | .digestTimerExpiry, run => exact done run beginDigest_quiet.whenLive
  | .digestPrepare, run => exact done run (prepareDigest_quiet.whenGranted .reader).whenLive
  | .digestCompare, run => exact done run (compareDigest_quiet.whenGranted .reader).whenLive
  | .beaconTimerExpiry, run => exact done run beaconTimer_quiet.whenLive
  | .deadTimerExpiry peer, run =>
    exact done run (Keeps.ite fun s runs ok => loseRecord_quiet peer (deadTimer_active ok runs)).whenLive
  | .listenTimerExpiry, run =>
    refine done run (Keeps.ite fun s _ _ => quiet_of_active ?_).whenLive
    rw [leaveListen_life]
    split <;> rfl
  | .receiptTimerExpiry, run => exact done run (Keeps.whenLive (Keeps.ite fun s _ ok => receiptExpires_quiet ok))
  | .stallTimerExpiry, run => exact done run (Keeps.ite fun _ _ ok => stall_quiet ok).whenLive
  | .claimWaitExpiry g, run =>
    refine done run (Keeps.ite fun s claiming ok => ?_).whenLive
    rw [Bool.and_eq_true, decide_eq_true_eq] at claiming
    exact quiet_of_life (group_active ok claiming.2 nofun nofun) (enterHolding_frame g _ s).life
  | .claimBackoffExpiry g, run =>
    exact done run (Keeps.whenLive (Keeps.ite fun _ _ ok => settle_quiet (mapGroup_quiet ok rfl)))
  | .preemptDelayExpiry g, run => exact done run (Keeps.ite fun _ _ ok => preemptNow_quiet g ok).whenLive
  | .drainTimerExpiry g, run =>
    refine done run (Keeps.ite fun s yielding ok => ?_).whenLive
    rw [Bool.and_eq_true, decide_eq_true_eq] at yielding
    exact quiet_of_life (group_active ok yielding.2 nofun nofun)
      ((settle_frame _).life.trans (endDrain_frame g false s).life)
  | .adoptionWindowExpiry g, run =>
    exact done run (Keeps.whenLive (Keeps.ite fun _ _ ok => closeWindow_quiet g ok))
  | .quorumTimerExpiry, run =>
    exact done run (Keeps.ite fun s _ ok =>
      settle_quiet (releaseAll_quiet (s := { s with own.quorumTimer := false }) ok)).whenLive
  | .lineInhibitionExpiry g, run =>
    exact done run (Keeps.whenLive (Keeps.ite fun _ _ ok => lineStuck_quiet g ok))
  | .hostWatchExpiry, run =>
    exact done run (Keeps.ite fun s runs ok => quiet_of_life (hostWatch_active ok runs) (hostLapses_life s)).whenLive

/-- Settles O10: an operation that needs an active station leaves it active or enters FAULT, and the others keep the
station at rest. -/
theorem stepsKeepSilence : Obligations.StepsKeepSilence := by
  intro s t ok run
  unfold step at run
  split at run
  · exact Host.Outcome.next.inj run ▸ Keeps.whenLive referencePeriod_quiet ok
  · rename_i rest _
    exact exec_quiet _ (s := { s with pending := rest }) ok run

end Sys2Proof.Machine
end

