-- ==== Sys2Proof/Proofs/Starts.lean ====
section
/-!
PROOFS. The start of a transmission: the gap (R117), and the frame that a start of class 1 or 2 takes (R113, R120).
-/

namespace Sys2Proof.Machine

open Sys2Proof

/-! ### The class that contends -/

theorem readyClass_control {s : State} (waits : s.bus.control ≠ [] ∨ s.bus.beaconSlot.isSome = true) :
    s.readyClass = some 1 := by
  unfold State.readyClass
  refine if_pos (Bool.or_eq_true_iff.mpr (waits.imp_left fun some_ => ?_))
  rw [List.isEmpty_eq_false_iff.mpr some_]
  rfl

theorem readyClass_second {s : State} (control : s.bus.control = []) (beacon : s.bus.beaconSlot = none)
    (waits : (s.bus.receiptSlot.isSome || s.bus.fetch.isSome || s.recon.fetch.isSome || !s.bus.relays.isEmpty) = true) :
    s.readyClass = some 2 := by
  unfold State.readyClass
  rw [control, beacon, waits]
  rfl

theorem contends_ready {s : State} (active : s.life.active = true) (idle : s.bus.transmitting = none) :
    s.contends = s.readyClass := by
  unfold State.contends
  rw [active, idle]
  rfl

/-! ### The start -/

theorem exec_transmitStart_none {n : Nat} {s : State} (run : s.phase = .running) (none_ : s.contends = none) :
    exec (.transmitStart n) s = .next s := by
  refine congrArg Host.Outcome.next ((whenLive_running _ s run).trans ?_)
  dsimp only
  rw [none_]

/-- R117: the gap has not ended yet. -/
theorem exec_transmitStart_early {n c : Nat} {s : State} (run : s.phase = .running) (contends : s.contends = some c)
    (early : n < 10 * c + 2 * s.me.val) : exec (.transmitStart n) s = .next s := by
  refine congrArg Host.Outcome.next ((whenLive_running _ s run).trans ?_)
  dsimp only
  rw [contends]
  exact if_neg (Nat.not_le.mpr early)

theorem exec_transmitStart_after {n c : Nat} {s : State} (run : s.phase = .running) (contends : s.contends = some c)
    (gap : 10 * c + 2 * s.me.val ≤ n) : exec (.transmitStart n) s = .next (startClass c (granted s)) := by
  refine congrArg Host.Outcome.next ((whenLive_running _ s run).trans ?_)
  dsimp only
  rw [contends]
  exact if_pos gap

/-! ### The frame of class 1 or 2 -/

theorem startControl_frame {s : State} {f : ControlFrame} {rest : List ControlFrame} (waits : s.bus.control = f :: rest) :
    startControl s = beginTransmission (controlPayload f) s := by
  unfold startControl
  rw [waits]

theorem startControl_beacon {s : State} {b : Beacon} (control : s.bus.control = []) (slot : s.bus.beaconSlot = some b) :
    startControl s = beginTransmission (.beacon b) s := by
  unfold startControl
  rw [control, slot]

theorem startSecond_receipt {s : State} {q : Seq} (slot : s.bus.receiptSlot = some q) :
    startSecond s = beginTransmission (.receipt q) s := by
  unfold startSecond
  rw [slot]

theorem startSecond_fetch {s : State} {f : Fetch} (receipt : s.bus.receiptSlot = none) (composed : s.bus.fetch = some f) :
    startSecond s = beginTransmission (.fetch f) s := by
  unfold startSecond
  rw [receipt, composed]

/-- R113: the FETCH is composed, and the fetch slot empties. -/
theorem startSecond_composes {s : State} {f : Fetch} (receipt : s.bus.receiptSlot = none) (none_ : s.bus.fetch = none)
    (slot : s.recon.fetch = some f) :
    startSecond s = beginTransmission (.fetch f) { s with bus.fetch := some f, recon.fetch := none } := by
  unfold startSecond
  rw [receipt, none_, slot]

theorem startSecond_relay {s : State} {o : Observation} {rest : List Observation} (receipt : s.bus.receiptSlot = none)
    (none_ : s.bus.fetch = none) (slot : s.recon.fetch = none) (waits : s.bus.relays = o :: rest) :
    startSecond s = beginTransmission (.relay o) s := by
  unfold startSecond
  rw [receipt, none_, slot, waits]

/-- Settles O40: by the class that is ready, the gap, and the order of the frames within a class. -/
theorem startsTakeTheSelectedFrame : Obligations.StartsTakeTheSelectedFrame := by
  intro n s run active idle sends
  have contends := contends_ready active idle
  have first {p : Payload} (gap : 10 + 2 * s.me.val ≤ n)
      (waits : s.bus.control ≠ [] ∨ s.bus.beaconSlot.isSome = true)
      (starts : startControl (granted s) = beginTransmission p (granted s)) : sends p s :=
    (exec_transmitStart_after run (contends.trans (readyClass_control waits)) gap).trans
      (congrArg Host.Outcome.next starts)
  refine ⟨fun nothing => exec_transmitStart_none run (contends.trans nothing),
    fun c ready early => exec_transmitStart_early run (contends.trans ready) early,
    fun gap => ⟨fun f rest waits => ?_, fun b control slot => ?_⟩, fun gap control beacon => ?_⟩
  · exact first gap (.inl (by rw [waits]; nofun)) (startControl_frame (s := granted s) waits)
  · exact first gap (.inr (by rw [slot]; rfl)) (startControl_beacon (s := granted s) control slot)
  have second {t : State}
      (waits : (s.bus.receiptSlot.isSome || s.bus.fetch.isSome || s.recon.fetch.isSome || !s.bus.relays.isEmpty) = true)
      (starts : startSecond (granted s) = t) : exec (.transmitStart n) s = .next t :=
    (exec_transmitStart_after run (contends.trans (readyClass_second control beacon waits)) gap).trans
      (congrArg Host.Outcome.next starts)
  refine ⟨fun q receipt => ?_, fun f receipt composed => ?_, fun f receipt none_ slot => ?_,
    fun o rest receipt none_ slot waits => ?_⟩
  · exact second (by rw [receipt]; rfl) (startSecond_receipt (s := granted s) receipt)
  · exact second (by rw [receipt, composed]; rfl) (startSecond_fetch (s := granted s) receipt composed)
  · exact second (by rw [receipt, none_, slot]; rfl) (startSecond_composes (s := granted s) receipt none_ slot)
  · exact second (by rw [receipt, none_, slot, waits]; rfl)
      (startSecond_relay (s := granted s) receipt none_ slot waits)

end Sys2Proof.Machine
end

