-- ==== Sys2Proof/Proofs/DuplicateNumbers.lean ====
section
/-!
PROOFS. A transmission that fails its validation (R128), one that a station in SETUP or FAULT hears or that began in SETUP
(R119, R181), and a frame that bears this station's own number (R129, R184, R191).
-/

namespace Sys2Proof.Machine

open Sys2Proof

/-! ### The end of a transmission -/

/-- The command is a frame of that kind from that station. -/
inductive FrameCommand : Instr → Station → Byte → Prop
  | beacon (p b) : FrameCommand (.beaconFrame p b) p 0x01
  | claim (p c) : FrameCommand (.claimFrame p c) p 0x02
  | contest (p c) : FrameCommand (.contestFrame p c) p 0x03
  | yield (p y) : FrameCommand (.yieldFrame p y) p 0x04
  | receipt (p q) : FrameCommand (.receiptFrame p q) p 0x05
  | fetch (p f) : FrameCommand (.fetchFrame p f) p 0x06
  | relay (p o) : FrameCommand (.relayFrame p o) p 0x07
  | delta (p d) : FrameCommand (.deltaFrame p d) p 0x08
  | digest (p d) : FrameCommand (.digestFrame p d) p 0x09

/-- R129: every kind of frame first meets the test of its source. -/
theorem FrameCommand.exec {i : Instr} {p : Station} {kind : Byte} (frame : FrameCommand i p kind) :
    ∃ f : State → State, ∀ s, exec i s = .next (onFrame kind p f s) := by
  cases frame <;> exact ⟨_, fun _ => rfl⟩

theorem discardInvalid_invalid {bytes : List Byte} {fault source kind : Byte} (s : State)
    (heard : hear bytes = .invalid fault source kind) :
    discardInvalid bytes s = busFault { kind := fault, source := source, item := kind } s := by
  unfold discardInvalid
  rw [heard]

/-! ### The entry to FAULT of a duplicate number -/

theorem raiseIf_flags (c : Bool) (e : Event) (s : State) : ∃ flags, raiseIf c e s = { s with port.flags := flags }
    ∧ ∀ i < 18, s.port.flags.getLsbD i = true → flags.getLsbD i = true := by
  unfold raiseIf
  split
  · exact ⟨_, rfl, fun i small set => by rw [getLsbD_raiseFlag e _ i small, set, Bool.true_or]⟩
  · exact ⟨_, rfl, fun _ _ set => set⟩

/-- R191: what the answer of a REJOIN in progress leaves. -/
theorem answerRejoin_duplicate (s : State) :
    ∃ capture, answerRejoin .duplicate s = { s with
      engine.inProgress := none, port.requestCapture := capture
      port.responses := match s.engine.inProgress with
        | none => s.port.responses
        | some tag => s.port.responses ++ [{ kind := 0x22, tag := tag, status := .faulted }] } := by
  unfold answerRejoin
  cases rejoin : s.engine.inProgress with
  | none =>
    refine ⟨s.port.requestCapture, ?_⟩
    dsimp only
    rw [← rejoin]
  | some tag => exact ⟨_, rfl⟩

/-- R129, R184: the state in which a duplicate number leaves the station. -/
theorem duplicateNumber_faults (kind : Byte) {s : State} (active : s.life.active = true) :
    ∃ flags capture, duplicateNumber kind s = { faultColumns .duplicate s with
        engine.relaySlot := none, engine.inProgress := none
        port.flags := flags, port.requestCapture := capture
        port.busCapture := recordIn s.port.busCapture { kind := 0x05, source := stationByte s.me, item := kind }
        port.responses := match s.engine.inProgress with
          | none => s.port.responses
          | some tag => s.port.responses ++ [{ kind := 0x22, tag := tag, status := .faulted }] }
      ∧ flags.getLsbD 15 = true ∧ flags.getLsbD 16 = true := by
  have faulted : duplicateNumber kind s = answerRejoin .duplicate (raise .fault (raiseLines (faultColumns .duplicate
      (busFault { kind := 0x05, source := stationByte s.me, item := kind } s)))) := if_pos active
  obtain ⟨flags, lines, kept⟩ := raiseIf_flags (four.any (faultColumns .duplicate
      (busFault { kind := 0x05, source := stationByte s.me, item := kind } s)).foreign) .line
    (faultColumns .duplicate (busFault { kind := 0x05, source := stationByte s.me, item := kind } s))
  have bus : flags.getLsbD 15 = true := by
    refine kept 15 (by decide) ?_
    have raised : (raiseFlag .bus s.port.flags).getLsbD 15 = true := by
      rw [getLsbD_raiseFlag .bus _ 15 (by decide)]
      exact Bool.or_true _
    exact raised
  obtain ⟨capture, answered⟩ := answerRejoin_duplicate (raise .fault (raiseLines (faultColumns .duplicate
    (busFault { kind := 0x05, source := stationByte s.me, item := kind } s))))
  refine ⟨raiseFlag .fault flags, capture, ?_, ?_, ?_⟩
  · rw [faulted, answered, raiseLines, lines]
    rfl
  · rw [getLsbD_raiseFlag .fault _ 15 (by decide), bus, Bool.true_or]
  · rw [getLsbD_raiseFlag .fault _ 16 (by decide)]
    exact Bool.or_true _

/-- Settles O43: every frame of a kind by the test of its source, and the transmissions that no station takes. -/
theorem invalidAndDuplicateFrames : Obligations.InvalidAndDuplicateFrames := by
  intro s run frame
  have command {i : Instr} {p : Station} {kind : Byte} (is : frame i p kind) : FrameCommand i p kind := by
    rcases is with ⟨b, rfl, rfl⟩ | ⟨c, rfl, rfl⟩ | ⟨c, rfl, rfl⟩ | ⟨y, rfl, rfl⟩ | ⟨q, rfl, rfl⟩ | ⟨f, rfl, rfl⟩
      | ⟨o, rfl, rfl⟩ | ⟨d, rfl, rfl⟩ | ⟨d, rfl, rfl⟩ <;> constructor
  refine ⟨fun bytes fault source kind takes heard => ?_, fun i p kind is => ?_, fun i kind takes is => ?_⟩
  · exact congrArg Host.Outcome.next
      ((onTransmission_taken _ s run takes).trans (discardInvalid_invalid s heard))
  · have ends : ∃ f, exec i s = .next (onTransmission f s) := by
      rcases is with is | ⟨bytes, rfl⟩
      · obtain ⟨f, eq⟩ := (command is).exec
        exact ⟨_, eq s⟩
      · exact ⟨_, rfl⟩
    obtain ⟨f, eq⟩ := ends
    rw [eq]
    exact ⟨fun began => congrArg Host.Outcome.next (onTransmission_straddling f s run began),
      fun clear rest => congrArg Host.Outcome.next (onTransmission_inactive f s run rest clear)⟩
  · obtain ⟨f, eq⟩ := (command is).exec
    have active : s.life.active = true := (Bool.and_eq_true_iff.mp takes).1
    obtain ⟨flags, capture, faulted, bus, fault⟩ := duplicateNumber_faults kind active
    refine ⟨duplicateNumber kind s, (eq s).trans (congrArg Host.Outcome.next (onFrame_own kind f s run takes)), ?_⟩
    rw [faulted]
    refine ⟨rfl, rfl, rfl, faultColumns_atRest .duplicate s, rfl, rfl, bus, fault, rfl, rfl, fun none_ => ?_,
      fun tag rejoin => ?_⟩
    · dsimp only
      rw [none_]
    · dsimp only
      rw [rejoin]

end Sys2Proof.Machine
end

