-- ==== Sys2Proof/Proofs/Settling.lean ====
section
/-!
PROOFS. What the settling of the groups leaves alone (R139, R143, R145, R160): what of the state it may change, what of the
flags, the BUS capture and a transmission, and that it discards no frame while the control queue is short (R121).
-/

namespace Sys2Proof.Machine

open Sys2Proof

/-! ### What claims and drains may change -/

/-- `t` is `s` but for what claims, their abandonment and the settling may change. -/
theorem ClaimFrame.claims {s t : State} (frame : ClaimFrame s t) (span : OwnershipSpan s t) : t = { s with
    own.groups := t.own.groups, bus.control := t.bus.control, bus.transmitting := t.bus.transmitting
    recon.synced := t.recon.synced, port.flags := t.port.flags, port.busCapture := t.port.busCapture } := by
  obtain ⟨⟨_, _, _, _, _, _, _, _, narrow⟩, -, -⟩ := span
  have bus : t.bus = { s.bus with control := t.bus.control, transmitting := t.bus.transmitting } := by
    rw [narrow]
  obtain ⟨groups, _, synced, flags, capture, rfl⟩ := frame
  exact congrArg (fun b : Bus => { s with
    own.groups := groups, bus := b, recon.synced := synced, port.flags := flags, port.busCapture := capture }) bus

theorem settle_claims (s : State) : settle s = { s with
    own.groups := (settle s).own.groups, bus.control := (settle s).bus.control
    bus.transmitting := (settle s).bus.transmitting, recon.synced := (settle s).recon.synced
    port.flags := (settle s).port.flags, port.busCapture := (settle s).port.busCapture } :=
  (settle_frame s).claims (settle_moves (passes := false) s).span

/-- `t` is `s` but for what moves without a pass may change. -/
theorem Moves.leaves {s t : State} (all : Moves false s t) : t = { s with
    own.groups := t.own.groups, own.quorumTimer := t.own.quorumTimer, bus.control := t.bus.control
    bus.transmitting := t.bus.transmitting, recon.synced := t.recon.synced, xlate := t.xlate
    port.flags := t.port.flags, port.busCapture := t.port.busCapture } := by
  obtain ⟨⟨_, _, _, _, _, _, _, _, narrow⟩, -, -⟩ := all.span
  have bus : t.bus = { s.bus with control := t.bus.control, transmitting := t.bus.transmitting } := by
    rw [narrow]
  obtain ⟨groups, timer, _, synced, xlate, flags, capture, rfl⟩ := all.drainFrame
  exact congrArg (fun b : Bus => { s with
    own.groups := groups, own.quorumTimer := timer, bus := b, recon.synced := synced, xlate := xlate
    port.flags := flags, port.busCapture := capture }) bus

/-! ### The flags, the BUS capture and the transmission -/

/-- Of the flags at most BUS was raised, a full BUS capture kept its fields, and no transmission began. -/
structure BusNoted (s t : State) : Prop where
  flags : t.port.flags = s.port.flags ∨ t.port.flags = raiseFlag .bus s.port.flags
  capture : ∀ k, s.port.busCapture = some k →
    ∃ m, t.port.busCapture = some { k with more := m } ∧ (k.more = true → m = true)
  transmitting : s.bus.transmitting = none → t.bus.transmitting = none

theorem BusNoted.of_same {s t : State} (port : t.port = s.port)
    (transmitting : s.bus.transmitting = none → t.bus.transmitting = none) : BusNoted s t where
  flags := .inl (by rw [port])
  capture k full := ⟨k.more, by rw [port, full], id⟩
  transmitting := transmitting

theorem BusNoted.refl (s : State) : BusNoted s s := .of_same rfl id

theorem raiseFlag_twice (e : Event) (flags : BitVec 18) : raiseFlag e (raiseFlag e flags) = raiseFlag e flags := by
  unfold raiseFlag
  rw [BitVec.or_assoc, BitVec.or_self]

theorem BusNoted.trans {s t u : State} (a : BusNoted s t) (b : BusNoted t u) : BusNoted s u where
  flags := by
    rcases a.flags with same | raised <;> rcases b.flags with same' | raised'
    · exact .inl (same'.trans same)
    · exact .inr (raised'.trans (congrArg _ same))
    · exact .inr (same'.trans raised)
    · exact .inr (raised'.trans ((congrArg _ raised).trans (raiseFlag_twice _ _)))
  capture k full := by
    obtain ⟨m, eq, more⟩ := a.capture k full
    obtain ⟨m', eq', more'⟩ := b.capture _ eq
    exact ⟨m', eq', fun set => more' (more set)⟩
  transmitting none_ := b.transmitting (a.transmitting none_)

theorem mapGroup_noted (g : GroupId) (f : GroupRecord → GroupRecord) (s : State) : BusNoted s (mapGroup g f s) :=
  .of_same rfl id

theorem setOwner_port (g : GroupId) (o : Option Station) (s : State) : (setOwner g o s).port = s.port := by
  unfold setOwner
  split <;> rfl

theorem setOwner_noted (g : GroupId) (o : Option Station) (s : State) : BusNoted s (setOwner g o s) :=
  .of_same (setOwner_port g o s) fun none_ => (congrArg Bus.transmitting (setOwner_bus g o s)).trans none_

/-- R206: a BUS occurrence. -/
theorem busFault_noted (c : Capture) (s : State) : BusNoted s (busFault c s) where
  flags := .inr rfl
  capture k full := by
    refine ⟨true, ?_, fun _ => rfl⟩
    rw [busFault_busCapture, full]
    rfl
  transmitting := id

theorem abandonClaim_port (g : GroupId) (state : GroupState) (owner : Option Station) (s : State) :
    (abandonClaim g state owner s).port = s.port := setOwner_port g owner _

/-- R145: the withdrawn claim, in the queue and in the transmission. -/
theorem abandonClaim_bus (g : GroupId) (state : GroupState) (owner : Option Station) (s : State) :
    (abandonClaim g state owner s).bus = { s.bus with
      control := s.bus.control.filter fun f => !isClaimOf g f
      transmitting := letGoClaim g s.bus.transmitting } := setOwner_bus g owner _

theorem abandonClaim_noted (g : GroupId) (state : GroupState) (owner : Option Station) (s : State) :
    BusNoted s (abandonClaim g state owner s) := by
  refine .of_same (abandonClaim_port g state owner s) fun none_ => ?_
  rw [abandonClaim_bus, none_]
  rfl

/-- R143: the state in which a claim hands over its frame. -/
def claimed (g : GroupId) (epoch : Epoch) (note : Option Bool) (s : State) : State :=
  setOwner g none (mapGroup g (fun r =>
    { r with state := .claiming, claimEpoch := some epoch, claimWait := false, handoverNote := note }) s)

def claimFrameOf (g : GroupId) (cause : ClaimCause) (epoch : Epoch) (s : State) : ControlFrame :=
  .claim ⟨g, epoch, cause, s.port.setup.priority.get g, (s.group g).health⟩

theorem claimed_port (g : GroupId) (epoch : Epoch) (note : Option Bool) (s : State) :
    (claimed g epoch note s).port = s.port := setOwner_port g none _

theorem claimed_bus (g : GroupId) (epoch : Epoch) (note : Option Bool) (s : State) :
    (claimed g epoch note s).bus = s.bus := setOwner_bus g none _

theorem claimed_group (g : GroupId) (epoch : Epoch) (note : Option Bool) (s : State) :
    (claimed g epoch note s).group g = { s.group g with
      state := .claiming, claimEpoch := some epoch, claimWait := false, handoverNote := note, owner := none } := by
  unfold claimed
  rw [setOwner_group_same, mapGroup_group_same]

/-- R121, R143: a claim that finds room. -/
theorem startClaim_room (g : GroupId) (cause : ClaimCause) (epoch : Epoch) (note : Option Bool) {s : State}
    (room : s.bus.control.length < 4) : startClaim g cause epoch note s =
      { claimed g epoch note s with bus.control := s.bus.control ++ [claimFrameOf g cause epoch s] } := by
  have health : ((claimed g epoch note s).group g).health = (s.group g).health := by
    rw [claimed_group]
  have waits : (claimed g epoch note s).bus.control = s.bus.control := congrArg Bus.control (claimed_bus g epoch note s)
  have started : startClaim g cause epoch note s = { claimed g epoch note s with
      bus.control := (claimed g epoch note s).bus.control ++ [.claim ⟨g, epoch, cause,
        (claimed g epoch note s).port.setup.priority.get g, ((claimed g epoch note s).group g).health⟩] } :=
    if_pos (by rw [← waits] at room; exact room)
  rw [started, health, waits, claimed_port]
  rfl

/-- R121, R145: a claim that finds the queue full is abandoned. -/
theorem startClaim_full (g : GroupId) (cause : ClaimCause) (epoch : Epoch) (note : Option Bool) {s : State}
    (full : ¬ s.bus.control.length < 4) : ∃ f,
      startClaim g cause epoch note s = abandonClaim g .vacant none (queueFull f (claimed g epoch note s)) := by
  have waits : (claimed g epoch note s).bus.control = s.bus.control := congrArg Bus.control (claimed_bus g epoch note s)
  exact ⟨_, if_neg (by rw [← waits] at full; exact full)⟩

theorem startClaim_noted (g : GroupId) (cause : ClaimCause) (epoch : Epoch) (note : Option Bool) (s : State) :
    BusNoted s (startClaim g cause epoch note s) := by
  have first : BusNoted s (claimed g epoch note s) := .of_same (claimed_port g epoch note s) fun none_ => by
    rw [claimed_bus, none_]
  by_cases room : s.bus.control.length < 4
  · rw [startClaim_room g cause epoch note room]
    exact first.trans (.of_same rfl id)
  · obtain ⟨f, eq⟩ := startClaim_full g cause epoch note room
    rw [eq]
    exact (first.trans (busFault_noted _ _)).trans (abandonClaim_noted _ _ _ _)

theorem followLine_noted (g : GroupId) (s : State) : BusNoted s (followLine g s) := by
  unfold followLine
  split <;> exact mapGroup_noted g _ s

/-- R145: the claim of a group that is no longer eligible is abandoned. -/
def dropClaim (g : GroupId) (s : State) : State :=
  if (s.group g).state = .claiming && !s.eligible g then abandonClaim g .vacant none s else s

/-- R143: a group that may claim does so. -/
def tryClaim (g : GroupId) (s : State) : State :=
  if s.mayClaim g then startClaim g .vacant ((s.group g).epoch + 1) none s else s

theorem settleGroup_eq (s : State) (g : GroupId) : settleGroup s g = followLine g (tryClaim g (dropClaim g s)) := rfl

theorem dropClaim_noted (g : GroupId) (s : State) : BusNoted s (dropClaim g s) := by
  unfold dropClaim
  split
  · exact abandonClaim_noted _ _ _ s
  · exact .refl s

theorem tryClaim_noted (g : GroupId) (s : State) : BusNoted s (tryClaim g s) := by
  unfold tryClaim
  split
  · exact startClaim_noted _ _ _ _ s
  · exact .refl s

theorem settleGroup_noted (s : State) (g : GroupId) : BusNoted s (settleGroup s g) :=
  ((dropClaim_noted g s).trans (tryClaim_noted g _)).trans (followLine_noted g _)

theorem settle_noted (s : State) : BusNoted s (settle s) :=
  foldl_keeps BusNoted .refl .trans settleGroup settleGroup_noted four s

/-! ### A short control queue -/

/-- What a turn of one group does to the port and the queue while the queue has room: no frame is discarded, and one at
most joins. -/
structure Roomy (s t : State) : Prop where
  port : t.port = s.port
  length : t.bus.control.length ≤ s.bus.control.length + 1

theorem settleGroup_roomy {s : State} (g : GroupId) (room : s.bus.control.length < 4) : Roomy s (settleGroup s g) := by
  have dropped : (dropClaim g s).port = s.port ∧ (dropClaim g s).bus.control.length ≤ s.bus.control.length := by
    unfold dropClaim
    split
    · rw [abandonClaim_port, abandonClaim_bus]
      exact ⟨rfl, List.length_filter_le _ _⟩
    · exact ⟨rfl, Nat.le_refl _⟩
  have followed (u : State) : (followLine g u).port = u.port ∧ (followLine g u).bus = u.bus := by
    unfold followLine
    split <;> exact ⟨rfl, rfl⟩
  rw [settleGroup_eq]
  generalize dropClaim g s = u at dropped ⊢
  obtain ⟨port, length⟩ := dropped
  have tried : Roomy u (tryClaim g u) := by
    unfold tryClaim
    split
    · rw [startClaim_room _ _ _ _ (Nat.lt_of_le_of_lt length room)]
      exact ⟨claimed_port _ _ _ u, List.length_append.le⟩
    · exact ⟨rfl, Nat.le_succ _⟩
  obtain ⟨port', bus'⟩ := followed (tryClaim g u)
  exact ⟨port'.trans (tried.port.trans port), by rw [bus']; exact tried.length.trans (Nat.add_le_add_right length 1)⟩

theorem settleGroups_roomy (l : List GroupId) (s : State) (room : s.bus.control.length + l.length ≤ 4) :
    (l.foldl settleGroup s).port = s.port
      ∧ (l.foldl settleGroup s).bus.control.length ≤ s.bus.control.length + l.length := by
  induction l generalizing s with
  | nil => exact ⟨rfl, Nat.le_refl _⟩
  | cons g l ih =>
    rw [List.length_cons] at room ⊢
    have turn := settleGroup_roomy g (s := s) (by omega)
    have length := turn.length
    obtain ⟨port, rest⟩ := ih (settleGroup s g) (by omega)
    exact ⟨port.trans turn.port, by rw [List.foldl_cons]; omega⟩

/-- R121: with an empty queue the settling discards no frame. -/
theorem settle_roomy {s : State} (empty : s.bus.control = []) : (settle s).port = s.port :=
  (settleGroups_roomy four s (by rw [empty]; decide)).1

end Sys2Proof.Machine
end

