-- ==== Sys2Proof/Proofs/TransmissionEnds.lean ====
section
/-!
PROOFS. A deferral (R117), the end of a transmission (R120, R144), and its collisions (R118, R145).
-/

namespace Sys2Proof.Machine

open Sys2Proof

/-! ### The ends -/

theorem exec_transmitted {s : State} {x : Transmission} (run : s.phase = .running)
    (sends : s.bus.transmitting = some x) :
    exec .transmitted s = .next (claimTransmitted x (finishFrame x s)) := by
  refine congrArg Host.Outcome.next ((whenLive_running _ s run).trans ?_)
  rw [sends]

/-- R120: only a CLAIM starts a timer at its end. -/
theorem claimTransmitted_other {x : Transmission} (s : State) (other : ∀ c, x.payload ≠ .claim c) :
    claimTransmitted x s = s := by
  unfold claimTransmitted
  split
  · rename_i c claim
    exact absurd claim (other c)
  · rfl

theorem exec_transmitted_other {s : State} {x : Transmission} (run : s.phase = .running)
    (sends : s.bus.transmitting = some x) (other : ∀ c, x.payload ≠ .claim c) :
    exec .transmitted s = .next (finishFrame x s) :=
  (exec_transmitted run sends).trans (congrArg Host.Outcome.next (claimTransmitted_other _ other))

/-- R144: the CLAIM of a claim in progress. -/
theorem claimTransmitted_current {c : Claim} {s : State} (claiming : (s.group c.group).state = .claiming)
    (epoch : (s.group c.group).claimEpoch = some c.epoch) :
    claimTransmitted ⟨.claim c, true⟩ s = mapGroup c.group (fun r => { r with claimWait := true }) s := by
  refine if_pos ?_
  rw [decide_eq_true ⟨claiming, epoch⟩]
  rfl

/-- R144, log 29: a CLAIM that is its station's claim no longer. -/
theorem claimTransmitted_past {c : Claim} {s : State} {held : Bool}
    (past : held = false ∨ (s.group c.group).state ≠ .claiming ∨ (s.group c.group).claimEpoch ≠ some c.epoch) :
    claimTransmitted ⟨.claim c, held⟩ s = s := by
  refine if_neg fun current => ?_
  obtain ⟨stands, current⟩ := Bool.and_eq_true_iff.mp current
  obtain ⟨claiming, epoch⟩ := of_decide_eq_true current
  rcases past with gone | state | other
  · exact absurd stands (by rw [gone]; nofun)
  · exact state claiming
  · exact other epoch

theorem finishFrame_group (x : Transmission) (s : State) (g : GroupId) : (finishFrame x s).group g = s.group g :=
  congrArg (fun groups : Four GroupRecord => groups.get g) (finishFrame_untouched x s).groups

/-- R120: a frame that has ended leaves the bus interface and the prepared digest alone changed. -/
theorem finishFrame_bus (x : Transmission) (s : State) : ∃ bus ready, finishFrame x s =
    { s with bus := bus, recon.ready := ready } := by
  unfold finishFrame leaveHolder
  dsimp only
  split
  · split <;> exact ⟨_, _, rfl⟩
  · exact ⟨_, _, rfl⟩

/-! ### Collisions -/

theorem exec_collision_counts {s : State} {x : Transmission} (run : s.phase = .running)
    (sends : s.bus.transmitting = some x) (few : s.bus.collisions < 15) : exec .collision s = .next { s with
      bus.transmitting := none, bus.collisions := s.bus.collisions + 1 } := by
  refine congrArg Host.Outcome.next ((whenLive_running _ s run).trans ?_)
  dsimp only
  rw [sends]
  exact if_pos (Nat.succ_lt_succ few)

theorem exec_collision_discards {s : State} {x : Transmission} (run : s.phase = .running)
    (sends : s.bus.transmitting = some x) (limit : s.bus.collisions = 15) :
    exec .collision s = .next (discardFrame x s) := by
  refine congrArg Host.Outcome.next ((whenLive_running _ s run).trans ?_)
  dsimp only
  rw [sends, limit]
  rfl

/-- R118: the occurrence that the sixteenth collision records. -/
def collisionLimit (x : Transmission) (s : State) : Capture :=
  { kind := 0x06, source := stationByte s.me, item := kindCode x.payload, second := firstSequence x.payload }

theorem discardFrame_other {x : Transmission} (s : State) (other : ∀ c, x.payload ≠ .claim c) :
    discardFrame x s = busFault (collisionLimit x s) (finishFrame x s) := by
  unfold discardFrame claimDiscarded
  split
  · rename_i c claim
    exact absurd claim (other c)
  · rfl

/-- R145: a CLAIM that is discarded abandons its claim. -/
theorem discardFrame_claim {c : Claim} {s : State} (claiming : (s.group c.group).state = .claiming) :
    discardFrame ⟨.claim c, true⟩ s = settle (abandonClaim c.group .vacant none
      (busFault (collisionLimit ⟨.claim c, true⟩ s) (finishFrame ⟨.claim c, true⟩ s))) := by
  refine if_pos ?_
  have group : ((busFault (collisionLimit ⟨.claim c, true⟩ s) (finishFrame ⟨.claim c, true⟩ s)).group c.group).state
      = .claiming := claiming
  exact Bool.and_eq_true_iff.mpr ⟨rfl, decide_eq_true group⟩

/-- R118, R145: the state after the sixteenth collision of a CLAIM. -/
theorem discardedClaim {c : Claim} {s : State} (claiming : (s.group c.group).state = .claiming) (t : State)
    (eq : t = discardFrame ⟨.claim c, true⟩ s) :
    let discarded := recordIn s.port.busCapture (collisionLimit ⟨.claim c, true⟩ s)
    t.bus.transmitting = none ∧ t.bus.collisions = 0 ∧ t.port.flags = raiseFlag .bus s.port.flags
      ∧ (s.bus.control.length ≤ 1 → t.port.busCapture = discarded)
      ∧ (∀ k, discarded = some k → ∃ m, t.port.busCapture = some { k with more := m } ∧ (k.more = true → m = true))
      ∧ (t.group c.group).state = .vacant ∧ (t.group c.group).owner = none
      ∧ (t.group c.group).claimEpoch = none ∧ (t.group c.group).backoff = true
      ∧ t = { s with
          own.groups := t.own.groups, bus.control := t.bus.control, bus.transmitting := none, bus.collisions := 0
          recon.synced := t.recon.synced, port.flags := t.port.flags, port.busCapture := t.port.busCapture } := by
  rw [discardFrame_claim claiming] at eq
  intro discarded
  generalize finished : busFault (collisionLimit ⟨.claim c, true⟩ s) (finishFrame ⟨.claim c, true⟩ s) = u at eq
  have left : u = { s with
      bus.control := s.bus.control.tail, bus.transmitting := none, bus.collisions := 0
      port.flags := raiseFlag .bus s.port.flags, port.busCapture := discarded } := finished.symm
  have abandoned := abandonClaim_noted c.group .vacant none u
  have noted : BusNoted u t := eq ▸ abandoned.trans (settle_noted _)
  have silent : t.bus.transmitting = none := noted.transmitting (by rw [left])
  have moves : Moves false u t := eq ▸ (abandonClaim_moves c.group .vacant none u).moves.trans (settle_moves _)
  have frame : ClaimFrame u t := eq ▸ (abandonClaim_frame c.group .vacant none u).trans (settle_frame _)
  have frame := frame.claims moves.span
  have record := abandonClaim_group_same c.group .vacant none u
  obtain ⟨_, _, settled⟩ := settle_still (g := c.group) (s := abandonClaim c.group .vacant none u)
    (by rw [record]; nofun) (.inr (by rw [record]))
  rw [← eq, record] at settled
  refine ⟨silent, by rw [frame, left], ?_, fun short => ?_, fun k full => ?_, by rw [settled], by rw [settled],
    by rw [settled], by rw [settled], ?_⟩
  · rcases noted.flags with same | raised
    · rw [same, left]
    · rw [raised, left]
      exact raiseFlag_twice .bus s.port.flags
  · have empty : (abandonClaim c.group .vacant none u).bus.control = [] := by
      have tail : u.bus.control = [] := by
        rw [left]
        dsimp only
        rw [← List.length_eq_zero_iff, List.length_tail]
        omega
      rw [abandonClaim_bus, tail]
      rfl
    rw [eq, settle_roomy empty, abandonClaim_port, left]
  · exact noted.capture k (by rw [left]; exact full)
  · rw [silent] at frame
    rw [frame, left]

/-- Settles O42: by the command, the kind of the frame, and the collisions counted. -/
theorem transmissionsEnd : Obligations.TransmissionsEnd := by
  intro s run
  refine ⟨fun c contends => ?_, fun setup => ?_, fun p sends => ?_,
    fun _ sends => exec_transmitted_other run sends nofun,
    fun _ sends => exec_transmitted_other run sends nofun,
    fun _ sends => exec_transmitted_other run sends nofun, fun c sends past => ?_,
    fun _ sends => exec_transmitted_other run sends nofun, fun c sends claiming epoch => ?_,
    fun _ sends => exec_transmitted_other run sends nofun,
    fun _ sends => exec_transmitted_other run sends nofun,
    fun _ sends => exec_transmitted_other run sends nofun,
    fun _ sends => exec_transmitted_other run sends nofun,
    fun x sends few => exec_collision_counts run sends few, fun x sends limit other => ?_,
    fun c sends limit claiming => ?_⟩
  · have awake : s.life ≠ .setup := by
      unfold State.contends at contends
      intro setup
      rw [setup] at contends
      cases contends
    refine congrArg Host.Outcome.next ((whenLive_running _ s run).trans ?_)
    unfold hearStart
    rw [if_neg awake, contends]
    rfl
  · exact congrArg Host.Outcome.next ((whenLive_running _ s run).trans (if_pos setup))
  · rw [exec_transmitted run sends]
    cases p with
    | claim c => exact congrArg Host.Outcome.next (claimTransmitted_past (.inl rfl))
    | _ => rfl
  · exact (exec_transmitted run sends).trans (congrArg Host.Outcome.next (claimTransmitted_past (.inr past)))
  · exact (exec_transmitted run sends).trans
      (congrArg Host.Outcome.next (claimTransmitted_current (s := finishFrame ⟨.claim c, true⟩ s) claiming epoch))
  · have other (c : Claim) : x.payload ≠ .claim c := fun claim => other (congrArg kindCode claim)
    refine ⟨_, exec_transmitted_other run sends other, ?_⟩
    obtain ⟨_, _, frame⟩ := finishFrame_bus x s
    rw [exec_collision_discards run sends limit, discardFrame_other s other, frame]
    rfl
  · exact ⟨_, exec_collision_discards run sends limit, discardedClaim claiming _ rfl⟩

end Sys2Proof.Machine
end

