-- ==== Sys2Proof/Proofs/WireReading.lean ====
section
/-!
PROOFS. The readers of R128 take back what the composer of R123 to R127 wrote: one rule for each field, then for each
payload, then the frame.
-/

namespace Sys2Proof.Machine

open Sys2Proof

/-! ### Readings in a row -/

@[simp] theorem read_bind {α β : Type} (f : Read α) (g : α → Read β) (bytes : List Byte) :
    (f >>= g) bytes = (f bytes).bind fun taken => g taken.1 taken.2 := rfl

@[simp] theorem read_pure {α : Type} (x : α) (bytes : List Byte) : (pure x : Read α) bytes = some (x, bytes) := rfl

@[simp] theorem read_map {α β : Type} (g : α → β) (f : Read α) (bytes : List Byte) :
    (g <$> f) bytes = (f bytes).map fun taken => (g taken.1, taken.2) := by
  cases taken : f bytes <;> simp [Functor.map, StateT.map, taken]

@[simp] theorem need_some {α : Type} (x : α) (bytes : List Byte) : need (some x) bytes = some (x, bytes) := rfl

/-- The reader `f` takes the bytes `l`, which write the value `x`, and leaves what follows them. -/
def Reads {α : Type} (f : Read α) (l : List Byte) (x : α) : Prop := ∀ rest, f (l ++ rest) = some (x, rest)

theorem Reads.whole {α : Type} {f : Read α} {l : List Byte} {x : α} (reads : Reads f l x) :
    whole f l = some x := by
  have taken := reads []
  rw [List.append_nil] at taken
  unfold Machine.whole
  rw [taken]

theorem readMany_flatMap {α : Type} {f : Read α} {bytes : α → List Byte} (l : List α)
    (each : ∀ x ∈ l, Reads f (bytes x) x) : Reads (readMany f l.length) (l.flatMap bytes) l := by
  induction l with
  | nil => exact fun _ => rfl
  | cons x xs ih =>
    intro rest
    have first := each x List.mem_cons_self
    have others := ih fun y within => each y (List.mem_cons_of_mem x within)
    rw [List.flatMap_cons, List.append_assoc, List.length_cons, readMany, read_bind, first]
    simp only [Option.bind_some, read_bind, others rest, read_pure]

/-! ### Words and numbers -/

@[simp] theorem read8_cons (b : Byte) (rest : List Byte) : read8 (b :: rest) = some (b, rest) := rfl

@[simp] theorem read16_bytes16 (v : BitVec 16) (rest : List Byte) : read16 (bytes16 v ++ rest) = some (v, rest) := by
  have value : v.extractLsb' 8 8 ++ v.extractLsb' 0 8 = v := by
    ext i hi
    grind
  exact congrArg (fun x => some (x, rest)) value

@[simp] theorem read32_bytes32 (v : BitVec 32) (rest : List Byte) : read32 (bytes32 v ++ rest) = some (v, rest) := by
  have value : v.extractLsb' 24 8 ++ v.extractLsb' 16 8 ++ v.extractLsb' 8 8 ++ v.extractLsb' 0 8 = v := by
    ext i hi
    grind
  exact congrArg (fun x => some (x, rest)) value

@[simp] theorem read128_bytes128 (v : BitVec 128) (rest : List Byte) :
    read128 (bytes128 v ++ rest) = some (v, rest) := by
  have value : v.extractLsb' 96 32 ++ v.extractLsb' 64 32 ++ v.extractLsb' 32 32 ++ v.extractLsb' 0 32 = v := by
    ext i hi
    grind
  simp [read128, bytes128, value]

@[simp] theorem numberByte_toNat (p : Fin 4) : (numberByte p).toNat = p.val := by
  unfold numberByte
  rw [BitVec.toNat_ofNat]
  omega

@[simp] theorem readNumber_numberByte (p : Fin 4) (rest : List Byte) :
    readNumber (numberByte p :: rest) = some (p, rest) := by
  simp [readNumber]

theorem readNarrow_fits {w : Nat} {b : Byte} (fits : b.toNat < 2 ^ w) (rest : List Byte) :
    readNarrow w (b :: rest) = some (b.setWidth w, rest) := by
  simp [readNarrow, fits]

theorem readNarrow_setWidth {w : Nat} (v : BitVec w) (le : w ≤ 8) (rest : List Byte) :
    readNarrow w (v.setWidth 8 :: rest) = some (v, rest) := by
  have fits : (v.setWidth 8).toNat < 2 ^ w := by
    rw [BitVec.toNat_setWidth_of_le le]
    exact v.isLt
  rw [readNarrow_fits fits, BitVec.setWidth_setWidth_of_le v le, BitVec.setWidth_eq]

/-! ### Bits of a byte -/

theorem byteOfBits_getElem (b7 b6 b5 b4 b3 b2 b1 b0 : Bool) (i : Nat) (h : i < 8) :
    (byteOfBits b7 b6 b5 b4 b3 b2 b1 b0)[i] = [b0, b1, b2, b3, b4, b5, b6, b7][i] := by
  rw [← BitVec.getLsbD_eq_getElem]
  unfold byteOfBits
  iterate 7 rw [BitVec.getLsbD_append]
  interval_cases i <;> simp

theorem byteOfBits_lt_128 (b6 b5 b4 b3 b2 b1 b0 : Bool) :
    (byteOfBits false b6 b5 b4 b3 b2 b1 b0).toNat < 2 ^ 7 := by
  revert b6 b5 b4 b3 b2 b1 b0
  decide

theorem byteOfBits_lt_64 (b5 b4 b3 b2 b1 b0 : Bool) :
    (byteOfBits false false b5 b4 b3 b2 b1 b0).toNat < 2 ^ 6 := by
  revert b5 b4 b3 b2 b1 b0
  decide

@[simp] theorem readSet_setByte (s : Four Bool) (rest : List Byte) :
    readSet (setByte s :: rest) = some (s, rest) := by
  have value : setOfBits (setBits s) = s := by
    cases s with
    | mk g0 g1 g2 g3 =>
      revert g0 g1 g2 g3
      decide
  have narrow : setByte s = (setBits s).setWidth 8 := by
    unfold setByte
    ext i hi
    grind
  rw [readSet, read_bind, narrow, readNarrow_setWidth (setBits s) (by decide)]
  simp [value]

@[simp] theorem readBool_byteOfBits (b : Bool) (rest : List Byte) :
    readBool (byteOfBits false false false false false false false b :: rest) = some (b, rest) := by
  cases b <;> rfl

@[simp] theorem readMarks_marksByte (m : Marks) (rest : List Byte) :
    readMarks (marksByte m :: rest) = some (m, rest) := by
  rw [readMarks, read_bind, marksByte, readNarrow_fits (byteOfBits_lt_128 ..)]
  simp [byteOfBits_getElem]

@[simp] theorem readBucket_bucketBytes (b : Bucket) (rest : List Byte) :
    readBucket (bucketBytes b ++ rest) = some (b, rest) := by
  have fits : (b.setWidth 16).toNat < 4096 := by
    rw [BitVec.toNat_setWidth_of_le (by decide)]
    exact b.isLt
  rw [readBucket, read_bind, bucketBytes, read16_bytes16, Option.bind_some, if_pos fits]
  simp

@[simp] theorem readWindow_windowBytes (w : Window) (rest : List Byte) :
    readWindow (windowBytes w ++ rest) = some (w, rest) := by
  have fits : (w.setWidth 32).toNat < 2 ^ 30 := by
    rw [BitVec.toNat_setWidth_of_le (by decide)]
    exact w.isLt
  rw [readWindow, read_bind, windowBytes, read32_bytes32, Option.bind_some, if_pos fits]
  simp

@[simp] theorem readAddrs_addrsBytes (a : Addrs) (rest : List Byte) :
    readAddrs a.familyCode (addrsBytes a ++ rest) = some (a, rest) := by
  cases a <;> simp [readAddrs, addrsBytes, Addrs.familyCode]

/-! ### Codes -/

@[simp] theorem roleOfCode_roleCode (r : Role) : roleOfCode (roleCode r) = some r := by
  cases r <;> rfl

@[simp] theorem beaconLifeOfCode_code (l : BeaconLife) : beaconLifeOfCode (beaconLifeCode l) = some l := by
  cases l <;> rfl

@[simp] theorem groupStateOfCode_code (g : GroupState) : groupStateOfCode (groupStateCode g) = some g := by
  cases g <;> rfl

@[simp] theorem causeOfCode_causeCode (c : ClaimCause) : causeOfCode (causeCode c) = some c := by
  cases c <;> rfl

@[simp] theorem reasonOfCode_reasonCode (r : ContestReason) : reasonOfCode (reasonCode r) = some r := by
  cases r <;> rfl

@[simp] theorem directionOfCode_code (d : Direction) : directionOfCode (directionCode d) = some d := by
  cases d <;> rfl

/-! ### The beacon -/

/-- R124: the owner field of a group, 0xFF where no owner is known. -/
def ownerByte : Option Station → Byte
  | none => 0xFF
  | some p => numberByte p

@[simp] theorem readOwner_ownerByte (owner : Option Station) (rest : List Byte) :
    readOwner (ownerByte owner :: rest) = some (owner, rest) := by
  cases owner with
  | none => rfl
  | some p =>
    have known : numberByte p ≠ 0xFF := by
      intro same
      have numbers := congrArg BitVec.toNat same
      rw [numberByte_toNat] at numbers
      exact absurd p.isLt (by rw [numbers]; decide)
    rw [readOwner, read_bind, ownerByte, read8_cons, Option.bind_some, if_neg known]
    simp

theorem beaconGroupBytes_eq (b : BeaconGroup) :
    beaconGroupBytes b = [groupStateCode b.state] ++ bytes16 b.epoch ++
      [ownerByte b.owner, b.priority.setWidth 8, b.health.setWidth 8,
        byteOfBits false false false false false false b.eligible b.hold] := by
  unfold beaconGroupBytes
  cases b.owner <;> rfl

@[simp] theorem readBeaconGroup_bytes (b : BeaconGroup) (rest : List Byte) :
    readBeaconGroup (beaconGroupBytes b ++ rest) = some (b, rest) := by
  simp [readBeaconGroup, beaconGroupBytes_eq, byteOfBits_getElem, readNarrow_setWidth]

theorem reads_beacon (b : Beacon) : Reads readBeacon (beaconBytes b) b := by
  intro rest
  cases b with
  | mk role life fingerprint heard receipt want needSince oldest next synced groups =>
    simp only [readBeacon, beaconBytes, List.cons_append, List.nil_append, List.append_assoc]
    iterate 16
      rw [read_bind]
      simp only [read8_cons, roleOfCode_roleCode, beaconLifeOfCode_code, need_some, read32_bytes32, readSet_setByte,
        readBeaconGroup_bytes, Option.bind_some]
    cases receipt <;> cases needSince <;> simp [byteOfBits_getElem]

/-! ### The short frames -/

theorem reads_claim (c : Claim) : Reads readClaim (payloadBytes (.claim c)) c := by
  intro rest
  simp [readClaim, payloadBytes, readNarrow_setWidth]

theorem reads_contest (c : Contest) : Reads readContest (payloadBytes (.contest c)) c := by
  intro rest
  simp [readContest, payloadBytes]

theorem reads_yield (y : Yield) : Reads readYield (payloadBytes (.yield y)) y := by
  intro rest
  simp [readYield, payloadBytes]

/-! ### The records of a delta -/

@[simp] theorem readPort_bytes {port : Option Port} (fits : ∀ p, port = some p → Config.firstPort ≤ p.toNat)
    (rest : List Byte) : readPort port.isSome (bytes16 (port.getD 0) ++ rest) = some (port, rest) := by
  cases port with
  | none => simp [readPort]
  | some p =>
    have above : ¬ p.toNat < Config.firstPort := Nat.not_lt.mpr (fits p rfl)
    simp [readPort, above]

@[simp] theorem readSide_sideBytes (d : Side) (rest : List Byte) :
    readSide d.edge.isSome d.ack.isSome (sideBytes d ++ rest) = some (d, rest) := by
  cases d with
  | mk edge ack window => cases edge <;> cases ack <;> simp [readSide, sideBytes]

/-- R125: what the two presence bits of a side say of it in an ENTRY record with the field flags of the content. -/
@[simp] theorem readSides_bytes {c : EntryContent} (shape : c.stream.isSome = isStream c.key) (rest : List Byte) :
    readSides (c.key.protocol == 6) ((fieldFlags c).setWidth 6)
      ((if isStream c.key then
          sideBytes (c.stream.getD Sides.unseen).initiator ++ sideBytes (c.stream.getD Sides.unseen).responder
        else []) ++ rest) = some (c.stream, rest) := by
  change readSides (isStream c.key) _ _ = _
  rw [← shape]
  cases known : c.stream with
  | none => simp [readSides]
  | some d =>
    have stream : isStream c.key = true := by rw [← shape, known]; rfl
    simp [readSides, fieldFlags, known, stream, byteOfBits_getElem]

/-- The conditions that R128 puts on the content of an ENTRY record. -/
theorem wellFormed_content {c : EntryContent} :
    c.wellFormed = true ↔ c.marks.opened = true ∧ c.stream.isSome = isStream c.key
      ∧ ∀ p, c.translation = some p → Config.firstPort ≤ p.toNat := by
  unfold EntryContent.wellFormed isStream
  cases c.translation <;> simp [and_assoc]

theorem reads_entry {c : EntryContent} (ok : c.wellFormed = true) : Reads readEntry (entryTail c) c := by
  obtain ⟨opened, shape, port⟩ := wellFormed_content.mp ok
  intro rest
  have present : ((fieldFlags c).setWidth 6).getLsbD 0 = c.translation.isSome := by
    simp [fieldFlags, byteOfBits_getElem]
  have adopted : ((fieldFlags c).setWidth 6).getLsbD 1 = c.adopted := by
    simp [fieldFlags, byteOfBits_getElem]
  have flags : (fieldFlags c).toNat < 2 ^ 6 := byteOfBits_lt_64 ..
  simp only [readEntry, entryTail, List.cons_append, List.nil_append, List.append_assoc]
  iterate 13
    rw [read_bind]
    simp only [readNumber_numberByte, read8_cons, readMarks_marksByte, readNarrow_fits flags, read16_bytes16, present,
      readPort_bytes port, readAddrs_addrsBytes, readSides_bytes shape, Option.bind_some]
  rw [if_pos opened, adopted]
  rfl

theorem reads_record {r : WireRecord} (ok : r.body.wellFormed = true) : Reads readRecord (recordBytes r) r := by
  intro rest
  cases r with
  | mk seq body =>
    cases body with
    | entry c => simp [readRecord, recordBytes, reads_entry ok rest]
    | bucketEnd b g q => simp [readRecord, recordBytes]
    | passEnd g q => simp [readRecord, recordBytes]

/-! ### The frames with lists -/

theorem ofNat8_toNat {n : Nat} (small : n ≤ 16) : (BitVec.ofNat 8 n).toNat = n := by
  rw [BitVec.toNat_ofNat]
  omega

theorem wellFormed_fetch {f : Fetch} :
    f.wellFormed = true ↔ 1 ≤ f.buckets.length ∧ f.buckets.length ≤ Config.fetchBuckets := by
  simp [Fetch.wellFormed]

theorem wellFormed_digest {d : Digest} :
    d.wellFormed = true ↔ d.digests.length = Config.digestBuckets ∧ d.first.toNat % 16 = 0 := by
  simp [Digest.wellFormed]

theorem wellFormed_delta {d : Delta} :
    d.wellFormed = true ↔ 1 ≤ d.records.length ∧ d.records.length ≤ Config.deltaRecords
      ∧ ∀ r ∈ d.records, r.body.wellFormed = true := by
  simp [Delta.wellFormed, and_assoc]

theorem reads_fetch {f : Fetch} (ok : f.wellFormed = true) : Reads readFetch (payloadBytes (.fetch f)) f := by
  obtain ⟨some_bucket, few⟩ := wellFormed_fetch.mp ok
  intro rest
  have list := readMany_flatMap f.buckets (fun b _ => readBucket_bucketBytes b) rest
  have count : ¬(f.buckets.length < 1 ∨ Config.fetchBuckets < f.buckets.length) := by omega
  simp only [readFetch, payloadBytes, List.cons_append, List.nil_append, read_bind, readSet_setByte, read8_cons,
    Option.bind_some, ofNat8_toNat few, if_neg count, list, read_pure]

theorem reads_digest {d : Digest} (ok : d.wellFormed = true) : Reads readDigest (payloadBytes (.digest d)) d := by
  obtain ⟨sixteen, aligned⟩ := wellFormed_digest.mp ok
  intro rest
  have list := readMany_flatMap d.digests (fun b _ => read32_bytes32 b) rest
  rw [sixteen] at list
  have count : ¬((BitVec.ofNat 8 Config.digestBuckets).toNat ≠ Config.digestBuckets ∨ d.first.toNat % 16 ≠ 0) := by
    rw [aligned]
    decide
  simp only [readDigest, payloadBytes, List.cons_append, List.nil_append, List.append_assoc, read_bind,
    readSet_setByte, readBucket_bucketBytes, read8_cons, sixteen, Option.bind_some, if_neg count, list,
    read_pure]

theorem reads_delta {d : Delta} (ok : d.wellFormed = true) : Reads readDelta (payloadBytes (.delta d)) d := by
  obtain ⟨some_record, few, each⟩ := wellFormed_delta.mp ok
  intro rest
  have list := readMany_flatMap d.records (fun r within => reads_record (each r within)) rest
  have count : ¬(d.records.length < 1 ∨ Config.deltaRecords < d.records.length) := by omega
  simp only [readDelta, payloadBytes, List.cons_append, List.nil_append, List.append_assoc, read_bind,
    read32_bytes32, read8_cons, ofNat8_toNat (few.trans (by decide)), Option.bind_some, if_neg count, list,
    read_pure]

theorem reads_relay {o : Observation} (ok : o.wellFormed = true) : Reads readRelay (payloadBytes (.relay o)) o := by
  have shape : o.side.isSome = (o.key.protocol == 6) := of_decide_eq_true ok
  intro rest
  simp only [readRelay, payloadBytes, relayBytes, List.cons_append, List.nil_append, List.append_assoc]
  iterate 11
    rw [read_bind]
    simp only [readNumber_numberByte, read8_cons, directionOfCode_code, need_some, readMarks_marksByte,
      readBool_byteOfBits, read16_bytes16, readAddrs_addrsBytes, Option.bind_some]
  rw [← shape]
  rcases o with ⟨key, group, incarnation, direction, marks, side⟩
  cases side with
  | none => rfl
  | some d =>
    rcases d with ⟨edge, ack, window⟩
    cases ack <;> simp [readObserved]

/-! ### Lengths -/

theorem length_flatMap_le {α β : Type} {f : α → List β} {n : Nat} (each : ∀ x, (f x).length ≤ n) (l : List α) :
    (l.flatMap f).length ≤ n * l.length := by
  rw [List.length_flatMap, Nat.mul_comm, ← List.length_map (f := fun x => (f x).length)]
  refine List.sum_le_card_nsmul _ _ fun m within => ?_
  obtain ⟨x, _, rfl⟩ := List.mem_map.mp within
  exact each x

theorem beaconGroupBytes_length (b : BeaconGroup) : (beaconGroupBytes b).length = 7 := rfl

theorem relayBytes_length (o : Observation) : (relayBytes o).length ≤ 55 := by
  have addrs := addrsBytes_length o.key.addrs
  unfold relayBytes
  simp only [List.length_append, List.length_cons, List.length_nil, bytes16_length]
  split
  · rw [List.length_nil]
    omega
  · simp only [List.length_append, bytes32_length, windowBytes]
    omega

/-- R86: no payload is longer than the one a full DELTA may have. -/
theorem payloadBytes_length {p : Payload} (ok : p.wellFormed = true) :
    (payloadBytes p).length ≤ Config.deltaPayload := by
  cases p with
  | beacon b => exact Nat.le_of_ble_eq_true rfl
  | claim c => exact Nat.le_of_ble_eq_true rfl
  | contest c => exact Nat.le_of_ble_eq_true rfl
  | yield y => exact Nat.le_of_ble_eq_true rfl
  | receipt n => exact Nat.le_of_ble_eq_true rfl
  | relay o => exact (relayBytes_length o).trans (by decide)
  | fetch f =>
    have few := (wellFormed_fetch.mp ok).2
    have list := length_flatMap_le (f := bucketBytes) (n := 2) (fun _ => Nat.le_refl 2) f.buckets
    simp only [payloadBytes, List.length_append, List.length_cons, List.length_nil, Config.fetchBuckets,
      Config.deltaPayload] at *
    omega
  | delta d =>
    obtain ⟨_, few, _⟩ := wellFormed_delta.mp ok
    have list := length_flatMap_le recordBytes_length d.records
    simp only [payloadBytes, List.length_append, List.length_cons, List.length_nil, bytes32_length,
      Config.deltaRecords, Config.deltaPayload] at *
    omega
  | digest d =>
    have sixteen := (wellFormed_digest.mp ok).1
    have list := length_flatMap_le (f := bytes32) (n := 4) (fun _ => Nat.le_refl 4) d.digests
    simp only [payloadBytes, List.length_append, List.length_cons, List.length_nil, bucketBytes, bytes16_length,
      Config.digestBuckets, Config.deltaPayload] at *
    omega

/-! ### Frames -/

/-- R128, test 5: every well-formed payload is read back. -/
theorem readPayload_payloadBytes {p : Payload} (ok : p.wellFormed = true) :
    readPayload (kindCode p) (payloadBytes p) = some p := by
  cases p with
  | beacon b => exact congrArg (Option.map Payload.beacon) (reads_beacon b).whole
  | claim c => exact congrArg (Option.map Payload.claim) (reads_claim c).whole
  | contest c => exact congrArg (Option.map Payload.contest) (reads_contest c).whole
  | yield y => exact congrArg (Option.map Payload.yield) (reads_yield y).whole
  | receipt n => exact congrArg (Option.map Payload.receipt) (Reads.whole (read32_bytes32 n))
  | fetch f => exact congrArg (Option.map Payload.fetch) (reads_fetch ok).whole
  | relay o => exact congrArg (Option.map Payload.relay) (reads_relay ok).whole
  | delta d =>
    have fits : ¬ Config.deltaPayload < (payloadBytes (.delta d)).length := Nat.not_lt.mpr (payloadBytes_length ok)
    change (if Config.deltaPayload < _ then none else _) = _
    rw [if_neg fits]
    exact congrArg (Option.map Payload.delta) (reads_delta ok).whole
  | digest d => exact congrArg (Option.map Payload.digest) (reads_digest ok).whole

/-- R123: the part of a frame that its CRC covers. -/
def coveredBytes (f : Frame) : List Byte :=
  [kindCode f.payload, numberByte f.source] ++ bytes16 (BitVec.ofNat 16 (payloadBytes f.payload).length)
    ++ payloadBytes f.payload

theorem frameBytes_covered (f : Frame) : frameBytes f = coveredBytes f ++ bytes32 (crc (coveredBytes f)) := rfl

theorem coveredBytes_length (f : Frame) : (coveredBytes f).length = 4 + (payloadBytes f.payload).length := by
  simp only [coveredBytes, List.length_append, List.length_cons, List.length_nil, bytes16_length]

theorem frameBytes_length (f : Frame) : (frameBytes f).length = 8 + (payloadBytes f.payload).length := by
  rw [frameBytes_covered, List.length_append, coveredBytes_length, bytes32_length]
  omega

/-- The kinds of R123 are 1 to 9. -/
theorem kindCode_known (p : Payload) : ¬((kindCode p).toNat < 1 ∨ 9 < (kindCode p).toNat) := by
  cases p <;> simp [kindCode]

/-- The length field of a frame holds the length of its payload. -/
theorem lengthField {n : Nat} (fits : n ≤ 1024) :
    ((BitVec.ofNat 16 n).extractLsb' 8 8 ++ (BitVec.ofNat 16 n).extractLsb' 0 8).toNat = n := by
  have value : (BitVec.ofNat 16 n).extractLsb' 8 8 ++ (BitVec.ofNat 16 n).extractLsb' 0 8 = BitVec.ofNat 16 n := by
    have taken := read16_bytes16 (BitVec.ofNat 16 n) []
    exact congrArg Prod.fst (Option.some.inj taken)
  rw [value, BitVec.toNat_ofNat]
  omega

/-- R128: a frame composed from contents that a frame can carry passes the five tests. -/
theorem hear_frameBytes {f : Frame} (ok : f.wellFormed = true) : hear (frameBytes f) = .valid f := by
  have short : (payloadBytes f.payload).length ≤ 1024 := (payloadBytes_length ok).trans (by decide)
  have covers : (frameBytes f).length - 4 = (coveredBytes f).length := by
    rw [frameBytes_length, coveredBytes_length]
    omega
  have taken : (frameBytes f).take ((frameBytes f).length - 4) = coveredBytes f := by
    rw [covers, frameBytes_covered, List.take_left]
  have dropped : (frameBytes f).drop ((frameBytes f).length - 4) = bytes32 (crc (coveredBytes f)) := by
    rw [covers, frameBytes_covered, List.drop_left]
  have length : (byteAt (frameBytes f) 2 ++ byteAt (frameBytes f) 3).toNat = (payloadBytes f.payload).length :=
    lengthField short
  have kind : byteAt (frameBytes f) 0 = kindCode f.payload := rfl
  have source : byteAt (frameBytes f) 1 = numberByte f.source := rfl
  have payload : (coveredBytes f).drop 4 = payloadBytes f.payload := rfl
  have lengths : ¬((frameBytes f).length < 8 ∨ (frameBytes f).length ≠ 8 + (payloadBytes f.payload).length
      ∨ 1024 < (payloadBytes f.payload).length) := by
    rw [frameBytes_length]
    omega
  have known := kindCode_known f.payload
  unfold hear
  simp only [length, taken, dropped, kind, source, payload, if_neg lengths, ne_eq, not_true, if_false, if_neg known,
    readPayload_payloadBytes ok, numberByte_toNat, dif_pos f.source.isLt]

/-- Settles O13: the readers take back every field that the composer wrote, and the five tests pass. -/
theorem composedFramesAreHeard : Obligations.ComposedFramesAreHeard := by
  refine ⟨fun f ok => hear_frameBytes ok, fun s idle => ?_, fun s x sending => ?_⟩
  · rw [State.sentBytes, State.sentFrame, idle]
    rfl
  · refine ⟨frameBytes ⟨s.me, x.payload⟩, ?_, rfl, frameBytes_length _, fun ok => hear_frameBytes ok⟩
    rw [State.sentBytes, State.sentFrame, sending]
    rfl

end Sys2Proof.Machine
end

