-- ==== Sys2Proof/Proofs/OwnershipTimers.lean ====
section
/-!
PROOFS. The timers of the ownership controller and the host watch (R143, R146, R152 to R154, R173, R199): a claim that
matures, a claim that starts, and the three ways in which a group leaves this station.
-/

namespace Sys2Proof.Machine

open Sys2Proof

/-! ### The timers, expired -/

theorem exec_claimWaitExpiry {s : State} {g : GroupId} (run : s.phase = .running)
    (runs : (s.group g).claimWait = true) (claiming : (s.group g).state = .claiming) :
    exec (.claimWaitExpiry g) s = .next (enterHolding g (s.group g).maturing s) := by
  refine congrArg Host.Outcome.next ((whenLive_runs run _).trans (if_pos ?_))
  rw [runs, decide_eq_true claiming]
  rfl

/-- R143: the state at the end of the claim backoff. -/
def backoffOver (g : GroupId) (s : State) : State := mapGroup g (fun r => { r with backoff := false }) s

theorem exec_claimBackoffExpiry {s : State} {g : GroupId} (run : s.phase = .running)
    (runs : (s.group g).backoff = true) : exec (.claimBackoffExpiry g) s =
      .next (settle (backoffOver g s)) :=
  congrArg Host.Outcome.next ((whenLive_runs run _).trans (if_pos runs))

theorem exec_preemptDelayExpiry {s : State} {g : GroupId} (run : s.phase = .running)
    (runs : (s.group g).preempt = true) : exec (.preemptDelayExpiry g) s = .next (preemptNow g s) :=
  congrArg Host.Outcome.next ((whenLive_runs run _).trans (if_pos runs))

theorem exec_drainTimerExpiry {s : State} {g : GroupId} (run : s.phase = .running)
    (runs : (s.group g).drain = true) (yielding : (s.group g).state = .yielding) :
    exec (.drainTimerExpiry g) s = .next (settle (endDrain g false s)) := by
  refine congrArg Host.Outcome.next ((whenLive_runs run _).trans (if_pos ?_))
  rw [runs, decide_eq_true yielding]
  rfl

theorem exec_quorumTimerExpiry {s : State} (run : s.phase = .running) (runs : s.own.quorumTimer = true) :
    exec .quorumTimerExpiry s = .next (settle (releaseAll { s with own.quorumTimer := false })) :=
  congrArg Host.Outcome.next ((whenLive_runs run _).trans (if_pos runs))

theorem exec_hostWatchExpiry {s : State} (run : s.phase = .running) (runs : s.port.hostWatch = true) :
    exec .hostWatchExpiry s = .next (hostLapses s) :=
  congrArg Host.Outcome.next ((whenLive_runs run _).trans (if_pos runs))

/-! ### A claim that matures -/

/-- R146, R164, R165, R74: the entry to HOLDING, short of the pass. -/
def heldState (g : GroupId) (tenure : Tenure) (s : State) : State :=
  let s := mapGroup g (fun r =>
    { r with
      state := .holding
      epoch := match r.claimEpoch with
        | none => r.epoch
        | some e => serialMax r.epoch e
      claimEpoch := none
      successor := none
      claimWait := false
      backoff := false
      drain := false
      handoverNote := none
      tenure := some tenure }) s
  raise .takeover (openQuarantine g (openWindow g (setOwner g (some s.me) s)))

theorem enterHolding_heldState (g : GroupId) (tenure : Tenure) (s : State) :
    enterHolding g tenure s = startPass (heldState g tenure s) := rfl

/-- R142, R109: the synced set after the owner known became `o`. -/
def syncedAfter (g : GroupId) (o : Option Station) (s : State) : GroupSet :=
  if (s.group g).owner = o then s.recon.synced else s.recon.synced.set g false

theorem setOwner_synced (g : GroupId) (o : Option Station) (s : State) :
    (setOwner g o s).recon.synced = syncedAfter g o s := by
  unfold setOwner syncedAfter
  split <;> rfl

theorem syncedAfter_get (g k : GroupId) (o : Option Station) (s : State) : (syncedAfter g o s).get k =
    (s.recon.synced.get k && (decide (k ≠ g) || decide ((s.group g).owner = o))) := by
  unfold syncedAfter
  by_cases same : (s.group g).owner = o
  · rw [if_pos same, decide_eq_true same, Bool.or_true, Bool.and_true]
  · rw [if_neg same, decide_eq_false same, Bool.or_false, Four.get_set]
    by_cases other : k = g
    · rw [if_pos other, decide_eq_false (not_not.mpr other), Bool.and_false]
    · rw [if_neg other, decide_eq_true other, Bool.and_true]

/-- What the entry to HOLDING, short of the pass, may change. -/
theorem heldState_frame (g : GroupId) (tenure : Tenure) (s : State) : ∃ groups, heldState g tenure s = { s with
    own.groups := groups, recon.synced := syncedAfter g (some s.me) s, xlate := (openQuarantine g s).xlate
    port.flags := raiseFlag .takeover s.port.flags } := by
  unfold heldState setOwner syncedAfter
  dsimp only
  rw [mapGroup_group_same]
  dsimp only
  by_cases same : (s.group g).owner = some s.me
  · rw [if_pos same, if_pos (show _ = some (mapGroup g _ s).me from same)]
    exact ⟨_, rfl⟩
  · rw [if_neg same, if_neg (show ¬ _ = some (mapGroup g _ s).me from same)]
    exact ⟨_, rfl⟩

/-- R164, R165: the group record after an entry to HOLDING. -/
theorem heldState_group (g : GroupId) (tenure : Tenure) (s : State) : (heldState g tenure s).group g =
    { s.group g with
      state := .holding
      epoch := match (s.group g).claimEpoch with
        | none => (s.group g).epoch
        | some e => serialMax (s.group g).epoch e
      claimEpoch := none, successor := none, claimWait := false, backoff := false, drain := false
      handoverNote := none, tenure := some tenure, owner := some s.me
      adoptionOpen := true, adoptionTimer := true } := by
  have quarantined (u : State) : (raise .takeover (openQuarantine g u)).group g = u.group g := rfl
  unfold heldState
  dsimp only
  rw [quarantined, openWindow_group_same, setOwner_group_same, mapGroup_group_same]
  rfl

/-- R74: the pool after an entry to HOLDING. -/
theorem openQuarantine_pool (g : GroupId) (s : State) : (openQuarantine g s).xlate.get g =
    match (s.xlate.get g).lastSeen with
    | none => { s.xlate.get g with quarantine := [] }
    | some l => { s.xlate.get g with
        quarantine := [l, blockAfter l], cursor := firstPortOf (blockAfter (blockAfter l)), lastSeen := none } :=
  Four.get_set_same _ _ _

theorem firstPortOf_toNat (k : Block) : (firstPortOf k).toNat = 4096 + 1024 * k.val := by
  unfold firstPortOf
  rw [BitVec.toNat_ofNat]
  have last := k.isLt
  simp only [Config.firstPort]
  omega

theorem blockAfter_twice (k : Block) : blockAfter (blockAfter k) = k + 2 := by
  unfold blockAfter
  rw [add_assoc]
  rfl

theorem mayPass_iff (s : State) :
    s.mayPass = true ↔ s.straps.role = .firewall ∧ s.life.active = true ∧ s.partnerPresent = true := by
  unfold State.mayPass
  rw [Bool.and_eq_true, Bool.and_eq_true, decide_eq_true_eq]
  exact ⟨fun ⟨⟨partner, role⟩, active⟩ => ⟨role, active, partner⟩,
    fun ⟨role, active, partner⟩ => ⟨⟨partner, role⟩, active⟩⟩

/-- R106: of the reconciliation unit a start of a pass sets the pass alone. -/
theorem startPass_passes (s : State) : ∃ running start resend, startPass s = { s with
    recon.passRunning := running, recon.passStart := start, recon.resend := resend } := by
  cases starts : s.mayPass with
  | true =>
    unfold startPass
    rw [if_pos starts]
    exact ⟨_, _, _, rfl⟩
  | false => exact ⟨_, _, _, startPass_not starts⟩

theorem enterHolding_group (g : GroupId) (tenure : Tenure) (s : State) :
    (enterHolding g tenure s).group g = (heldState g tenure s).group g := startPass_group _ g

theorem enterHolding_synced (g : GroupId) (tenure : Tenure) (s : State) :
    (enterHolding g tenure s).recon.synced = syncedAfter g (some s.me) s := by
  obtain ⟨_, frame⟩ := heldState_frame g tenure s
  rw [enterHolding_heldState, (startPass_untouched _).synced, frame]

theorem enterHolding_narrow (g : GroupId) (tenure : Tenure) (s : State) : enterHolding g tenure s = { s with
    own.groups := (enterHolding g tenure s).own.groups, xlate := (openQuarantine g s).xlate
    port.flags := raiseFlag .takeover s.port.flags, recon.synced := syncedAfter g (some s.me) s
    recon.passRunning := (enterHolding g tenure s).recon.passRunning
    recon.passStart := (enterHolding g tenure s).recon.passStart
    recon.resend := (enterHolding g tenure s).recon.resend } := by
  rw [enterHolding_heldState]
  obtain ⟨_, frame⟩ := heldState_frame g tenure s
  obtain ⟨_, _, _, passes⟩ := startPass_passes (heldState g tenure s)
  rw [passes, frame]

/-- R106: an entry to HOLDING starts a pass where the station may start one. -/
theorem enterHolding_pass (g : GroupId) (tenure : Tenure) {s : State} (may : s.mayPass = true) :
    (enterHolding g tenure s).recon.passRunning = true
      ∧ (enterHolding g tenure s).recon.passStart = some s.journal.next
      ∧ (enterHolding g tenure s).recon.resend = allBuckets := by
  obtain ⟨_, frame⟩ := heldState_frame g tenure s
  have starts : (heldState g tenure s).mayPass = true := by rw [frame]; exact may
  have next : (heldState g tenure s).journal.next = s.journal.next := by rw [frame]
  obtain ⟨running, resend, start⟩ := startPass_runs starts
  rw [next] at start
  exact ⟨running, start, resend⟩

theorem enterHolding_noPass (g : GroupId) (tenure : Tenure) {s : State} (mayNot : s.mayPass = false) :
    (enterHolding g tenure s).recon = { s.recon with synced := (enterHolding g tenure s).recon.synced } := by
  obtain ⟨_, frame⟩ := heldState_frame g tenure s
  have stays : (heldState g tenure s).mayPass = false := by rw [frame]; exact mayNot
  rw [enterHolding_heldState, startPass_not stays, frame]

/-- R74: a pool after an entry to HOLDING. -/
theorem openQuarantine_seen {g : GroupId} {s : State} {l : Block} (seen : (s.xlate.get g).lastSeen = some l) :
    ((openQuarantine g s).xlate.get g).quarantine = [l, l + 1]
      ∧ ((openQuarantine g s).xlate.get g).cursor.toNat = 4096 + 1024 * (l + 2).val := by
  rw [openQuarantine_pool, seen]
  exact ⟨rfl, by rw [firstPortOf_toNat, blockAfter_twice]⟩

theorem openQuarantine_unseen {g : GroupId} {s : State} (unseen : (s.xlate.get g).lastSeen = none) :
    ((openQuarantine g s).xlate.get g).quarantine = []
      ∧ ((openQuarantine g s).xlate.get g).cursor = (s.xlate.get g).cursor := by
  rw [openQuarantine_pool, unseen]
  exact ⟨rfl, rfl⟩

theorem openQuarantine_kept (g : GroupId) (s : State) : ((openQuarantine g s).xlate.get g).lastSeen = none
    ∧ ((openQuarantine g s).xlate.get g).occupied = (s.xlate.get g).occupied := by
  rw [openQuarantine_pool]
  split
  · rename_i unseen
    exact ⟨unseen, rfl⟩
  · exact ⟨rfl, rfl⟩

/-! ### A claim that starts -/

/-- R139: what the eligibility of `g` reads. -/
theorem Moves.eligible {passes : Bool} {s t : State} {g : GroupId} (all : Moves passes s t)
    (same : t.group g = s.group g) : t.eligible g = s.eligible g := by
  obtain ⟨⟨_, _, _, _, _, _, _, _, eq⟩, -, -⟩ := all.span
  unfold State.eligible State.eligibleButLine State.foreign State.readback State.drive State.holds
  rw [same, eq]
  rfl

theorem Moves.mayOutbid {passes : Bool} {s t : State} {g : GroupId} (all : Moves passes s t)
    (same : t.group g = s.group g) : t.mayOutbid g = s.mayOutbid g := by
  obtain ⟨⟨_, _, _, _, _, _, _, _, eq⟩, -, -⟩ := all.span
  unfold State.mayOutbid State.precedence
  rw [same, eq]
  rfl

/-- R145: the moves of another group leave a waiting CLAIM in the queue. -/
theorem GroupMoves.keepClaim {passes : Bool} {g : GroupId} {s t : State} (all : GroupMoves passes g s t)
    {f : ControlFrame} (other : isClaimOf g f = false) (waits : f ∈ s.bus.control) : f ∈ t.bus.control := by
  induction all with
  | refl => exact waits
  | tail _ one ih =>
    cases one with
    | enqueue x => exact List.mem_append_left _ ih
    | withdraw => exact List.mem_filter.mpr ⟨ih, by rw [other]; rfl⟩
    | pass =>
      unfold startPass
      split <;> exact ih
    | _ => exact ih

/-- The groups before and after one in the order of the group numbers. -/
theorem four_split (g : GroupId) : ∃ l l', four = l ++ g :: l' ∧ l.length ≤ 3 ∧ g ∉ l ∧ g ∉ l' := by
  match g with
  | 0 => exact ⟨[], [1, 2, 3], rfl, by decide, by decide, by decide⟩
  | 1 => exact ⟨[0], [2, 3], rfl, by decide, by decide, by decide⟩
  | 2 => exact ⟨[0, 1], [3], rfl, by decide, by decide, by decide⟩
  | 3 => exact ⟨[0, 1, 2], [], rfl, by decide, by decide, by decide⟩

theorem foldl_keepClaim {passes : Bool} {f : State → GroupId → State} (each : ∀ s g, GroupMoves passes g s (f s g))
    {x : ControlFrame} {l : List GroupId} (other : ∀ k ∈ l, isClaimOf k x = false) (s : State)
    (waits : x ∈ s.bus.control) : x ∈ (l.foldl f s).bus.control := by
  induction l generalizing s with
  | nil => exact waits
  | cons a l ih =>
    exact ih (fun k within => other k (List.mem_cons_of_mem a within)) _
      ((each s a).keepClaim (other a List.mem_cons_self) waits)

theorem followLine_bus (g : GroupId) (s : State) : (followLine g s).bus = s.bus := by
  unfold followLine
  split <;> rfl

/-- R143: the turn of a group that may claim, with room in the queue. -/
theorem settleGroup_claims {g : GroupId} {u : State} (may : u.mayClaim g = true) (room : u.bus.control.length < 4) :
    (∃ timer reported, (settleGroup u g).group g = { u.group g with
      state := .claiming, claimEpoch := some ((u.group g).epoch + 1), claimWait := false, handoverNote := none
      owner := none, lineTimer := timer, lineReported := reported })
    ∧ claimFrameOf g .vacant ((u.group g).epoch + 1) u ∈ (settleGroup u g).bus.control := by
  have vacant : (u.group g).state = .vacant := by
    unfold State.mayClaim at may
    simp only [Bool.and_eq_true, decide_eq_true_eq] at may
    exact may.1.1.1
  have kept : dropClaim g u = u := by
    unfold dropClaim
    rw [vacant]
    rfl
  have claims : tryClaim g u = { claimed g ((u.group g).epoch + 1) none u with
      bus.control := u.bus.control ++ [claimFrameOf g .vacant ((u.group g).epoch + 1) u] } := by
    unfold tryClaim
    rw [if_pos may, startClaim_room _ _ _ _ room]
  have record : (tryClaim g u).group g = { u.group g with
      state := .claiming, claimEpoch := some ((u.group g).epoch + 1), claimWait := false, handoverNote := none
      owner := none } := by
    rw [claims]
    exact claimed_group g _ none u
  rw [settleGroup_eq, kept]
  refine ⟨?_, ?_⟩
  · obtain ⟨timer, reported, line⟩ := followLine_group_same g (tryClaim g u)
    exact ⟨timer, reported, by rw [line, record]⟩
  · rw [followLine_bus, claims]
    exact List.mem_append_right _ (List.mem_singleton.mpr rfl)

/-- R143: the settling of a group that may claim, with an empty queue. -/
theorem settle_claims_group {g : GroupId} {s : State} (may : s.mayClaim g = true) (empty : s.bus.control = []) :
    (∃ timer reported, (settle s).group g = { s.group g with
      state := .claiming, claimEpoch := some ((s.group g).epoch + 1), claimWait := false, handoverNote := none
      owner := none, lineTimer := timer, lineReported := reported })
    ∧ claimFrameOf g .vacant ((s.group g).epoch + 1) s ∈ (settle s).bus.control := by
  obtain ⟨l, l', order, few, before, after⟩ := four_split g
  have settled : settle s = l'.foldl settleGroup (settleGroup (l.foldl settleGroup s) g) := by
    unfold settle
    rw [order, List.foldl_append]
    rfl
  have reached : Moves false s (l.foldl settleGroup s) := foldl_moves settleGroup_moves l s
  have record : (l.foldl settleGroup s).group g = s.group g :=
    foldl_others (passes := false) settleGroup_moves before s
  have room : (l.foldl settleGroup s).bus.control.length < 4 := by
    have short := (settleGroups_roomy l s (by rw [empty, List.length_nil]; omega)).2
    rw [empty, List.length_nil] at short
    omega
  rw [settled]
  generalize l.foldl settleGroup s = u at *
  have mayNow : u.mayClaim g = true := by
    unfold State.mayClaim at may ⊢
    rw [record, reached.eligible record, reached.mayOutbid record]
    exact may
  have frame : claimFrameOf g .vacant ((u.group g).epoch + 1) u = claimFrameOf g .vacant ((s.group g).epoch + 1) s := by
    unfold claimFrameOf
    rw [record, reached.setup]
  obtain ⟨claiming, waits⟩ := settleGroup_claims mayNow room
  rw [frame] at waits
  rw [record] at claiming
  refine ⟨?_, foldl_keepClaim (passes := false) settleGroup_moves (fun k within => ?_) _ waits⟩
  · rw [foldl_others (passes := false) settleGroup_moves after]
    exact claiming
  · refine decide_eq_false fun same => ?_
    have same : g = k := same
    exact after (same ▸ within)

theorem backoffOver_group (g : GroupId) (s : State) :
    (backoffOver g s).group g = { s.group g with backoff := false } := mapGroup_group_same g _ s

/-- R143: a claim needs the end of the backoff. -/
theorem backoffOver_mayClaim {g : GroupId} {s : State} (vacant : (s.group g).state = .vacant)
    (eligible : s.eligible g = true) (outbids : s.mayOutbid g = true) : (backoffOver g s).mayClaim g = true := by
  have record := backoffOver_group g s
  have eligibleNow : (backoffOver g s).eligible g = s.eligible g := by
    unfold State.eligible State.eligibleButLine State.foreign State.readback State.drive State.holds
    rw [record]
    rfl
  have outbidsNow : (backoffOver g s).mayOutbid g = s.mayOutbid g := by
    unfold State.mayOutbid State.precedence
    rw [record]
    rfl
  unfold State.mayClaim
  rw [eligibleNow, outbidsNow, eligible, outbids, record, vacant]
  rfl

theorem settle_backoffOver (g : GroupId) (s : State) : settle (backoffOver g s) = { s with
    own.groups := (settle (backoffOver g s)).own.groups, bus.control := (settle (backoffOver g s)).bus.control
    bus.transmitting := (settle (backoffOver g s)).bus.transmitting
    recon.synced := (settle (backoffOver g s)).recon.synced, port.flags := (settle (backoffOver g s)).port.flags
    port.busCapture := (settle (backoffOver g s)).port.busCapture } :=
  settle_claims (backoffOver g s)

/-! ### A group that leaves -/

/-- R173, R151: the settling after the end of a drain of `g` towards `p`. -/
theorem settle_drained (g : GroupId) (p : Station) (drained : Bool) (y : State) :
    let t := settle (leaveHolding g .following (some p)
      (handControl (.yield ⟨g, (y.group g).epoch, p, drained⟩) y))
    (t.group g).state = .following ∧ (t.group g).owner = some p ∧ (t.group g).tenure = none
      ∧ (t.group g).adoptionOpen = false ∧ t.port.flags.getLsbD 2 = true
      ∧ (y.bus.control = [] → .yield ⟨g, (y.group g).epoch, p, drained⟩ ∈ t.bus.control) := by
  intro t
  have record := leaveHolding_group_same g .following (some p)
    (handControl (.yield ⟨g, (y.group g).epoch, p, drained⟩) y)
  have flag := leaveHolding_released g .following (some p)
    (handControl (.yield ⟨g, (y.group g).epoch, p, drained⟩) y)
  have waits (empty : y.bus.control = []) : .yield ⟨g, (y.group g).epoch, p, drained⟩ ∈
      (leaveHolding g .following (some p)
        (handControl (.yield ⟨g, (y.group g).epoch, p, drained⟩) y)).bus.control := by
    rw [leaveHolding_bus, handControl_room _ (by rw [empty]; decide)]
    exact List.mem_append_right _ (List.mem_singleton.mpr rfl)
  have moves : Moves false _ t := settle_moves _
  obtain ⟨timer, reported, still⟩ := settle_still (g := g) (s := leaveHolding g .following (some p)
    (handControl (.yield ⟨g, (y.group g).epoch, p, drained⟩) y)) (by rw [record]; nofun)
    (by rw [record]; exact .inl nofun)
  have final : t.group g = _ := still
  rw [record] at final
  rw [final]
  exact ⟨rfl, rfl, rfl, rfl, moves.flagged (by decide) flag,
    fun empty => moves.waiting (fun _ => rfl) (waits empty)⟩

theorem endDrain_successor {g : GroupId} {p : Station} {s : State} (drained : Bool)
    (successor : (s.group g).successor = some p) : endDrain g drained s =
      leaveHolding g .following (some p) (handControl (.yield ⟨g, (s.group g).epoch, p, drained⟩) s) := by
  unfold endDrain
  rw [successor]

/-- R152, R171: the entry to YIELDING, short of its completion test. -/
def yieldingState (g : GroupId) (p : Station) (s : State) : State :=
  mapGroup g (fun r =>
    { r with
      state := .yielding, successor := some p, drain := true, drainSpoiled := false, preempt := false }) s

theorem enterYielding_eq (g : GroupId) (p : Station) (s : State) :
    enterYielding g p s = drainTest g (yieldingState g p s) := rfl

theorem yieldingState_group (g : GroupId) (p : Station) (s : State) : (yieldingState g p s).group g =
    { s.group g with
      state := .yielding, successor := some p, drain := true, drainSpoiled := false, preempt := false } :=
  mapGroup_group_same g _ s

/-- R172: a group whose entries wait in the journal goes on draining. -/
theorem enterYielding_drains {g : GroupId} {s : State} (p : Station) (waits : s.journal.holdsGroup g = true) :
    enterYielding g p s = yieldingState g p s := by
  rw [enterYielding_eq]
  refine if_neg fun complete => ?_
  have same : (yieldingState g p s).journal = s.journal := rfl
  unfold State.drainComplete at complete
  rw [same, waits, Bool.not_true, Bool.and_false] at complete
  cases complete

/-- R172, R173: a group without entries in the journal is handed over at once where the successor shows it synced. -/
theorem enterYielding_ends {g : GroupId} {s : State} {p : Station} (empty : s.journal.holdsGroup g = false)
    (synced : (s.peer p).showsSynced g = true) : enterYielding g p s =
      leaveHolding g .following (some p) (handControl
        (.yield ⟨g, ((yieldingState g p s).group g).epoch, p, true⟩) (yieldingState g p s)) := by
  have record := yieldingState_group g p s
  rw [enterYielding_eq]
  exact State.Drained.ends ⟨by rw [record], by rw [record], by rw [record], empty, synced⟩

/-- R171 to R173: an entry to YIELDING leaves the group with its successor, draining or drained. -/
theorem enterYielding_either (g : GroupId) (p : Station) (s : State) :
    ((enterYielding g p s).group g).state = .yielding ∧ ((enterYielding g p s).group g).successor = some p
      ∨ ((enterYielding g p s).group g).state = .following ∧ ((enterYielding g p s).group g).owner = some p := by
  have record := yieldingState_group g p s
  rw [enterYielding_eq]
  unfold drainTest
  split
  · rw [endDrain_successor true (by rw [record]), leaveHolding_group_same]
    exact .inr ⟨rfl, rfl⟩
  · rw [record]
    exact .inl ⟨rfl, rfl⟩

/-- R154: what the preempt condition asks of the partner. -/
theorem preemptCondition_synced {s : State} {g : GroupId} {p : Station} (condition : s.preemptCondition g = true)
    (partner : s.presentPartner = some p) : (s.peer p).showsSynced g = true := by
  unfold State.preemptCondition at condition
  rw [partner] at condition
  dsimp only at condition
  split at condition
  · rw [Bool.and_false] at condition
    cases condition
  · simp only [Bool.and_eq_true] at condition
    exact condition.2.1.2

/-- R154: the state at the end of the preempt delay. -/
def delayOver (g : GroupId) (s : State) : State := mapGroup g (fun r => { r with preempt := false }) s

theorem delayOver_group (g : GroupId) (s : State) : (delayOver g s).group g = { s.group g with preempt := false } :=
  mapGroup_group_same g _ s

theorem delayOver_preemptCondition (g : GroupId) (s : State) :
    (delayOver g s).preemptCondition g = s.preemptCondition g := by
  unfold State.preemptCondition
  rw [delayOver_group]
  rfl

/-- R154: the yield at the end of the preempt delay. -/
theorem preemptNow_yields {g : GroupId} {p : Station} {s : State} (condition : s.preemptCondition g = true)
    (partner : s.presentPartner = some p) :
    preemptNow g s = settle (enterYielding g p (delayOver g s)) := by
  have same : (delayOver g s).presentPartner = some p := partner
  unfold preemptNow
  change (match (delayOver g s).presentPartner with
    | some p => if (delayOver g s).preemptCondition g then settle (enterYielding g p (delayOver g s)) else delayOver g s
    | none => delayOver g s) = _
  rw [same]
  exact if_pos ((delayOver_preemptCondition g s).trans condition)

theorem preemptNow_moves {g : GroupId} {p : Station} {s : State} (condition : s.preemptCondition g = true)
    (partner : s.presentPartner = some p) : Moves false s (preemptNow g s) := by
  rw [preemptNow_yields condition partner]
  have yields : GroupMoves false g s (enterYielding g p (delayOver g s)) :=
    (mapGroup_moves g _ s).trans (enterYielding_moves g p _)
  exact yields.moves.trans (settle_moves _)

/-- R171: with entries of the group in the journal the drain goes on. -/
theorem preemptNow_drains {g : GroupId} {p : Station} {s : State} (condition : s.preemptCondition g = true)
    (partner : s.presentPartner = some p) (waits : s.journal.holdsGroup g = true) :
    ((preemptNow g s).group g).state = .yielding ∧ ((preemptNow g s).group g).successor = some p
      ∧ ((preemptNow g s).group g).drain = true ∧ ((preemptNow g s).group g).preempt = false := by
  rw [preemptNow_yields condition partner, enterYielding_drains (s := delayOver g s) p waits]
  have record := yieldingState_group g p (delayOver g s)
  obtain ⟨_, _, still⟩ := settle_still (g := g) (by rw [record]; nofun) (by rw [record]; exact .inl nofun)
  rw [still, record]
  exact ⟨rfl, rfl, rfl, rfl⟩

/-- R173: without them the group is handed over at once. -/
theorem preemptNow_ends {g : GroupId} {p : Station} {s : State} (condition : s.preemptCondition g = true)
    (partner : s.presentPartner = some p) (empty : s.journal.holdsGroup g = false) :
    ((preemptNow g s).group g).state = .following ∧ ((preemptNow g s).group g).owner = some p
      ∧ (preemptNow g s).port.flags.getLsbD 2 = true
      ∧ (s.bus.control = [] → .yield ⟨g, (s.group g).epoch, p, true⟩ ∈ (preemptNow g s).bus.control) := by
  have epoch : ((yieldingState g p (delayOver g s)).group g).epoch
      = (s.group g).epoch := by
    rw [yieldingState_group, delayOver_group]
  rw [preemptNow_yields condition partner,
    enterYielding_ends (s := delayOver g s) empty (preemptCondition_synced (s := s) condition partner)]
  obtain ⟨state, owner, -, -, flag, waits⟩ :=
    settle_drained g p true (yieldingState g p (delayOver g s))
  rw [epoch] at waits state owner flag ⊢
  exact ⟨state, owner, flag, waits⟩

/-! ### The loss of the quorum -/

/-- R153: what the quorum timer does to one group. -/
def releaseHeld (s : State) (g : GroupId) : State := if s.holds g then release g s else s

theorem releaseHeld_moves (s : State) (g : GroupId) : GroupMoves false g s (releaseHeld s g) := by
  unfold releaseHeld
  split
  · exact release_moves g s
  · exact .refl

theorem releaseAll_eq (s : State) : releaseAll s = four.foldl releaseHeld s := rfl

theorem quorumExpires_moves (s : State) : Moves false { s with own.quorumTimer := false }
    (settle (releaseAll { s with own.quorumTimer := false })) :=
  (foldl_moves releaseHeld_moves four _).trans (settle_moves _)

theorem quorumTimer_moves (s : State) : Moves false s (settle (releaseAll { s with own.quorumTimer := false })) := by
  have stops : Moves false s { s with own.quorumTimer := false } := .single ⟨0, .stopTimer s⟩
  exact stops.trans (quorumExpires_moves s)

/-- R153: no move starts the quorum timer. -/
theorem Moves.quorumStopped {passes : Bool} {s t : State} (all : Moves passes s t)
    (stopped : s.own.quorumTimer = false) : t.own.quorumTimer = false := by
  refine all.lift (R := fun s t => s.own.quorumTimer = false → t.own.quorumTimer = false) (fun _ stopped => stopped)
    (fun a b stopped => b (a stopped)) (fun one stopped => ?_) stopped
  cases one with
  | stopTimer => rfl
  | pass =>
    unfold startPass
    split <;> exact stopped
  | _ => exact stopped

/-- R151: a group that was released, after the settling. -/
theorem settle_released {g : GroupId} {u t : State} (rest : Moves false (release g u) t)
    (kept : t.group g = (release g u).group g) :
    ((settle t).group g).state = .vacant ∧ ((settle t).group g).owner = none ∧ ((settle t).group g).backoff = true
      ∧ (settle t).port.flags.getLsbD 2 = true := by
  have record : (release g u).group g = { (leaveHolding g .vacant none u).group g with backoff := true } :=
    mapGroup_group_same _ _ _
  have flag : (release g u).port.flags.getLsbD 2 = true := leaveHolding_released g .vacant none u
  rw [leaveHolding_group_same] at record
  rw [record] at kept
  obtain ⟨_, _, still⟩ := settle_still (g := g) (s := t) (by rw [kept]; nofun) (by rw [kept]; exact .inr rfl)
  have moves : Moves false (release g u) (settle t) := rest.trans (settle_moves t)
  rw [still, kept]
  exact ⟨rfl, rfl, rfl, moves.flagged (by decide) flag⟩

theorem quorumExpires_releases {g : GroupId} {s : State} (held : s.holds g = true) :
    let t := settle (releaseAll { s with own.quorumTimer := false })
    (t.group g).state = .vacant ∧ (t.group g).owner = none ∧ (t.group g).backoff = true
      ∧ t.port.flags.getLsbD 2 = true := by
  rw [releaseAll_eq]
  obtain ⟨u, -, -, record, rest, kept⟩ :=
    foldl_turn (passes := false) releaseHeld_moves g { s with own.quorumTimer := false }
  have releases : releaseHeld u g = release g u := by
    refine if_pos ?_
    unfold State.holds at held ⊢
    rw [record]
    exact held
  rw [releases] at rest kept
  exact settle_released rest kept

/-- R158: a group that is VACANT is not driven. -/
theorem drive_vacant {g : GroupId} {t : State} (vacant : (t.group g).state = .vacant) : t.drive g = false := by
  unfold State.drive State.holds
  rw [vacant]
  exact Bool.and_false _

/-! ### The lapse of the host -/

/-- R199: the state at which each held group reacts. -/
def lapsedState (s : State) : State := raise .watch { s with port.lapsed := true, port.hostWatch := false }

theorem reactLoss_moves (s : State) (g : GroupId) : GroupMoves false g s (reactLoss g s) := by
  unfold reactLoss
  split
  · split
    · exact release_moves g s
    · split
      · exact enterYielding_moves g _ s
      · exact release_moves g s
  · exact .refl

theorem hostLapses_eq (s : State) :
    hostLapses s = settle (four.foldl (fun s g => reactLoss g s) (lapsedState s)) := rfl

theorem reacts_moves (s : State) : Moves false s (four.foldl (fun s g => reactLoss g s) s) :=
  foldl_moves (f := fun s g => reactLoss g s) reactLoss_moves four s

theorem hostLapses_moves (s : State) : Moves false (lapsedState s) (hostLapses s) :=
  (reacts_moves _).trans (settle_moves _)

/-- R139, input 6. -/
theorem ineligible_of_lapsed {s : State} (lapsed : s.port.lapsed = true) (g : GroupId) : s.eligible g = false := by
  unfold State.eligible State.eligibleButLine
  simp only [lapsed, Bool.not_true, Bool.and_false, Bool.false_and]

theorem Moves.lapsed {passes : Bool} {s t : State} (all : Moves passes s t) : t.port.lapsed = s.port.lapsed := by
  obtain ⟨⟨_, _, _, _, _, _, _, _, rfl⟩, -, -⟩ := all.span
  rfl

/-- R145: a claim at a station that the host has left is abandoned. -/
theorem settle_abandons {g : GroupId} {s : State} (lapsed : s.port.lapsed = true)
    (claiming : (s.group g).state = .claiming) : ((settle s).group g).state = .vacant := by
  obtain ⟨u, frame, same, settled⟩ := settle_group g s
  have lapsedNow : u.port.lapsed = true := by
    obtain ⟨_, _, _, _, _, rfl⟩ := frame
    exact lapsed
  have dropped : dropClaim g u = abandonClaim g .vacant none u := by
    refine if_pos ?_
    rw [same, claiming, ineligible_of_lapsed lapsedNow]
    rfl
  have abandoned : (abandonClaim g .vacant none u).port.lapsed = true := by
    rw [abandonClaim_port]
    exact lapsedNow
  have stays : tryClaim g (abandonClaim g .vacant none u) = abandonClaim g .vacant none u := by
    refine if_neg fun may => ?_
    unfold State.mayClaim at may
    rw [ineligible_of_lapsed abandoned, Bool.and_false] at may
    cases may
  obtain ⟨_, _, line⟩ := followLine_group_same g (abandonClaim g .vacant none u)
  rw [settled, settleGroup_eq, dropped, stays, line, abandonClaim_group_same]

theorem reactLoss_other {g : GroupId} {s : State} (other : (s.group g).state ≠ .holding) : reactLoss g s = s :=
  if_neg other

/-- R152: the reaction of a held group whose partner is eligible. -/
theorem reactLoss_yields {g : GroupId} {s : State} {p : Station} (holding : (s.group g).state = .holding)
    (partner : s.presentPartner = some p) (eligible : (s.peer p).showsEligible g = true) :
    reactLoss g s = enterYielding g p s := by
  unfold reactLoss
  rw [if_pos holding, partner]
  exact if_pos eligible

/-- R152: the reaction of a held group without an eligible partner. -/
theorem reactLoss_releases {g : GroupId} {s : State} (holding : (s.group g).state = .holding)
    (alone : ∀ p, s.presentPartner = some p → (s.peer p).showsEligible g = false) : reactLoss g s = release g s := by
  unfold reactLoss
  rw [if_pos holding]
  split
  · rfl
  · rename_i p partner
    exact if_neg (by rw [alone p partner]; exact Bool.false_ne_true)

/-- R199, R145: a claim in progress. -/
theorem hostLapses_claiming {g : GroupId} {s : State} (claiming : (s.group g).state = .claiming) :
    ((hostLapses s).group g).state = .vacant := by
  obtain ⟨u, -, -, record, rest, kept⟩ :=
    foldl_turn (passes := false) (f := fun s g => reactLoss g s) reactLoss_moves g (lapsedState s)
  have before : u.group g = s.group g := record
  rw [reactLoss_other (s := u) (by rw [before, claiming]; nofun), before] at kept
  rw [hostLapses_eq]
  refine settle_abandons ((reacts_moves _).lapsed.trans rfl) ?_
  rw [kept, claiming]

/-- R199, R152: a held group whose partner is eligible. -/
theorem hostLapses_yields {g : GroupId} {s : State} {p : Station} (holding : (s.group g).state = .holding)
    (partner : s.presentPartner = some p) (eligible : (s.peer p).showsEligible g = true) :
    ((hostLapses s).group g).state = .yielding ∧ ((hostLapses s).group g).successor = some p
      ∨ ((hostLapses s).group g).state = .following ∧ ((hostLapses s).group g).owner = some p := by
  obtain ⟨u, -, reached, record, rest, kept⟩ :=
    foldl_turn (passes := false) (f := fun s g => reactLoss g s) reactLoss_moves g (lapsedState s)
  have before : u.group g = s.group g := record
  have yields : reactLoss g u = enterYielding g p u :=
    reactLoss_yields (by rw [before, holding]) (reached.presentPartner.trans partner)
      (by rw [reached.peer]; exact eligible)
  rw [yields] at kept
  have either := enterYielding_either g p u
  rw [← kept] at either
  rw [hostLapses_eq]
  rcases either with ⟨state, successor⟩ | ⟨state, owner⟩
  · obtain ⟨_, _, still⟩ := settle_still (g := g) (by rw [state]; nofun) (by rw [state]; exact .inl nofun)
    rw [still]
    exact .inl ⟨state, successor⟩
  · obtain ⟨_, _, still⟩ := settle_still (g := g) (by rw [state]; nofun) (by rw [state]; exact .inl nofun)
    rw [still]
    exact .inr ⟨state, owner⟩

/-- R199, R152: a held group without an eligible partner. -/
theorem hostLapses_releases {g : GroupId} {s : State} (holding : (s.group g).state = .holding)
    (alone : ∀ p, s.presentPartner = some p → (s.peer p).showsEligible g = false) :
    ((hostLapses s).group g).state = .vacant ∧ ((hostLapses s).group g).owner = none := by
  obtain ⟨u, -, reached, record, rest, kept⟩ :=
    foldl_turn (passes := false) (f := fun s g => reactLoss g s) reactLoss_moves g (lapsedState s)
  have before : u.group g = s.group g := record
  have releases : reactLoss g u = release g u := by
    refine reactLoss_releases (by rw [before, holding]) fun p partner => ?_
    rw [reached.peer]
    exact alone p (reached.presentPartner.symm.trans partner)
  rw [releases] at rest kept
  obtain ⟨state, owner, -, -⟩ := settle_released rest kept
  exact ⟨state, owner⟩

theorem lapsedState_watch (s : State) : (lapsedState s).port.flags.getLsbD 11 = true := by
  unfold lapsedState
  rw [raise_flags, getLsbD_raiseFlag .watch _ 11 (by decide), decide_eq_true (show 11 = Event.watch.bit from rfl),
    Bool.or_true]

theorem hostLapses_leaves (s : State) : hostLapses s = { s with
    own.groups := (hostLapses s).own.groups, own.quorumTimer := (hostLapses s).own.quorumTimer
    bus.control := (hostLapses s).bus.control, bus.transmitting := (hostLapses s).bus.transmitting
    recon.synced := (hostLapses s).recon.synced, xlate := (hostLapses s).xlate
    port.flags := (hostLapses s).port.flags, port.busCapture := (hostLapses s).port.busCapture
    port.lapsed := true, port.hostWatch := false } :=
  (hostLapses_moves s).leaves

/-- Settles O60: each timer by the operation that its expiry performs; the settling that follows finds the group decided,
but where a claim starts or is abandoned. -/
theorem ownershipTimersExpire : Obligations.OwnershipTimersExpire := by
  intro s run claims leaves
  refine ⟨fun g runs claiming => ?_, fun g runs vacant eligible outbids empty => ?_,
    fun g p runs condition partner => ?_, fun g p runs yielding successor => ?_, fun runs => ?_, fun runs => ?_⟩
  · have record := (enterHolding_group g (s.group g).maturing s).trans (heldState_group g _ s)
    have narrow := enterHolding_narrow g (s.group g).maturing s
    have pool : (enterHolding g (s.group g).maturing s).xlate = (openQuarantine g s).xlate := by
      rw [narrow]
    have flags : (enterHolding g (s.group g).maturing s).port.flags = raiseFlag .takeover s.port.flags := by
      rw [narrow]
    have synced := enterHolding_synced g (s.group g).maturing s
    obtain ⟨unseen, occupied⟩ := openQuarantine_kept g s
    refine ⟨_, exec_claimWaitExpiry run runs claiming, ?_⟩
    rw [record, pool]
    refine ⟨rfl, rfl, rfl, fun e claims => ?_, rfl, rfl, rfl, ?_, fun l seen => openQuarantine_seen seen,
      fun unseen => openQuarantine_unseen unseen, unseen, occupied, fun k => ?_, ?_, flags, fun k other => ?_, ?_⟩
    · rw [claims]
    · rfl
    · rw [synced]
      exact syncedAfter_get g k _ s
    · split
      · rename_i may
        exact enterHolding_pass g _ ((mayPass_iff s).mpr may)
      · rename_i mayNot
        exact enterHolding_noPass g _ (Bool.eq_false_iff.mpr fun may => mayNot ((mayPass_iff s).mp may))
    · exact ⟨(enterHolding_moves g _ s).others other, Four.get_set_other _ _ other⟩
    · rw [synced, flags]
      exact narrow
  · have record := backoffOver_group g s
    obtain ⟨⟨_, _, claiming⟩, waits⟩ := settle_claims_group (backoffOver_mayClaim vacant eligible outbids) empty
    have frame : claimFrameOf g .vacant (((backoffOver g s).group g).epoch + 1) (backoffOver g s) =
        .claim ⟨g, (s.group g).epoch + 1, .vacant, s.port.setup.priority.get g, (s.group g).health⟩ := by
      unfold claimFrameOf
      rw [record]
      rfl
    rw [frame] at waits
    refine ⟨_, exec_claimBackoffExpiry run runs, ?_, ?_, ?_, ?_, waits, ?_⟩
    · rw [claiming]
    · rw [claiming]
    · rw [claiming, record]
    · rw [claiming, record]
    · exact settle_backoffOver g s
  · exact ⟨_, exec_preemptDelayExpiry run runs, preemptNow_drains condition partner,
      preemptNow_ends condition partner, (preemptNow_moves condition partner).leaves⟩
  · obtain ⟨state, owner, tenure, adoption, flag, waits⟩ := settle_drained g p false s
    rw [← endDrain_successor false successor] at state owner tenure adoption flag waits
    have all : Moves false s (settle (endDrain g false s)) := (endDrain_moves g false s).moves.trans (settle_moves _)
    refine ⟨_, exec_drainTimerExpiry run runs yielding, ?_⟩
    generalize settle (endDrain g false s) = t at *
    exact ⟨state, owner, tenure, adoption, flag, waits, all.leaves⟩
  · have all := quorumTimer_moves s
    have stopped := (quorumExpires_moves s).quorumStopped rfl
    have releases (g : GroupId) (held : s.holds g = true) := quorumExpires_releases held
    refine ⟨_, exec_quorumTimerExpiry run runs, ?_⟩
    generalize settle (releaseAll { s with own.quorumTimer := false }) = t at *
    refine ⟨stopped, fun g held => ?_, all.leaves⟩
    obtain ⟨state, owner, backoff, flag⟩ := releases g held
    exact ⟨state, owner, backoff, drive_vacant state, flag⟩
  · have moves := hostLapses_moves s
    have lapsed : (hostLapses s).port.lapsed = true := moves.lapsed
    have watch := moves.flagged (by decide) (lapsedState_watch s)
    have claiming (g : GroupId) (claiming : (s.group g).state = .claiming) := hostLapses_claiming claiming
    have yields (g : GroupId) (holding : (s.group g).state = .holding) (p : Station)
        (partner : s.presentPartner = some p) (eligible : (s.peer p).showsEligible g = true) :=
      hostLapses_yields holding partner eligible
    have releases (g : GroupId) (holding : (s.group g).state = .holding) := hostLapses_releases holding
    have frame := hostLapses_leaves s
    refine ⟨_, exec_hostWatchExpiry run runs, ?_⟩
    generalize hostLapses s = t at *
    refine ⟨lapsed, by rw [frame], watch, ineligible_of_lapsed lapsed, claiming,
      fun g holding => ⟨yields g holding, releases g holding⟩, frame⟩

end Sys2Proof.Machine
end

