-- ==== Sys2Proof/Proofs/ControlQueue.lean ====
section
/-!
PROOFS. The control queue (R121): no operation of the ownership controller fills it beyond its four frames, and a visit
of the groups brings no CLAIM to it (R143).
-/

namespace Sys2Proof.Machine

open Sys2Proof

/-- The queue stays within its capacity, and no CLAIM joined it. -/
structure ControlKept (s t : State) : Prop where
  claims : ∀ c, .claim c ∈ t.bus.control → .claim c ∈ s.bus.control
  room : s.bus.control.length ≤ Config.controlQueueSize → t.bus.control.length ≤ Config.controlQueueSize

theorem ControlKept.of_bus {s t : State} (same : t.bus = s.bus) : ControlKept s t := by
  refine ⟨fun _ => ?_, ?_⟩ <;> rw [same]
  · exact id
  · exact id

theorem ControlKept.refl (s : State) : ControlKept s s := .of_bus rfl

theorem ControlKept.trans {s t u : State} (a : ControlKept s t) (b : ControlKept t u) : ControlKept s u :=
  ⟨fun c waits => a.claims c (b.claims c waits), fun room => b.room (a.room room)⟩

/-! ### The operations of one group -/

theorem startPass_bus (s : State) : (startPass s).bus = s.bus := by
  unfold startPass
  split <;> rfl

theorem startPass_control (s : State) : ControlKept s (startPass s) := .of_bus (startPass_bus s)

theorem leaveHolding_control (g : GroupId) (state : GroupState) (owner : Option Station) (s : State) :
    ControlKept s (leaveHolding g state owner s) := .of_bus (leaveHolding_bus g state owner s)

theorem release_control (g : GroupId) (s : State) : ControlKept s (release g s) :=
  .of_bus (leaveHolding_bus g .vacant none s)

theorem enterHolding_control (g : GroupId) (tenure : Tenure) (s : State) :
    ControlKept s (enterHolding g tenure s) :=
  .of_bus ((startPass_bus _).trans (setOwner_bus g _ _))

theorem handControl_room_kept (f : ControlFrame) {s : State}
    (room : s.bus.control.length ≤ Config.controlQueueSize) :
    (handControl f s).bus.control.length ≤ Config.controlQueueSize := by
  unfold handControl
  split
  · rename_i free
    rw [List.length_append]
    exact free
  · exact room

theorem handControl_control {f : ControlFrame} (noClaim : ∀ c, f ≠ .claim c) (s : State) :
    ControlKept s (handControl f s) := by
  refine ⟨fun c waits => ?_, handControl_room_kept f⟩
  unfold handControl at waits
  split at waits
  · rcases List.mem_append.mp waits with before | last
    · exact before
    · exact absurd (List.mem_singleton.mp last).symm (noClaim c)
  · exact waits

theorem endDrain_control (g : GroupId) (drained : Bool) (s : State) : ControlKept s (endDrain g drained s) := by
  unfold endDrain
  split
  · exact .refl s
  · refine (handControl_control (fun c same => ?_) s).trans (leaveHolding_control g _ _ _)
    cases same

theorem drainTest_control (g : GroupId) (s : State) : ControlKept s (drainTest g s) := by
  unfold drainTest
  split
  · exact endDrain_control g true s
  · exact .refl s

theorem enterYielding_control (g : GroupId) (p : Station) (s : State) : ControlKept s (enterYielding g p s) :=
  (ControlKept.of_bus (s := s) (t := yieldingState g p s) rfl).trans (drainTest_control g _)

/-- R145: an abandoned claim withdraws its CLAIM. -/
theorem abandonClaim_control (g : GroupId) (state : GroupState) (owner : Option Station) (s : State) :
    ControlKept s (abandonClaim g state owner s) := by
  refine ⟨fun c waits => ?_, fun room => ?_⟩
  · rw [abandonClaim_bus] at waits
    exact List.mem_of_mem_filter waits
  · rw [abandonClaim_bus]
    exact (List.length_filter_le _ _).trans room

theorem followHolder_bus (g : GroupId) (s : State) : (followHolder g s).bus = s.bus := by
  unfold followHolder
  split
  · exact setOwner_bus g _ _
  · exact setOwner_bus g _ _
  · rfl

theorem followOrLose_bus (g : GroupId) (source : Option Station) (s : State) :
    (followOrLose g source s).bus = s.bus := by
  unfold followOrLose
  rw [followHolder_bus]
  split
  · exact setOwner_bus g _ _
  · rfl

theorem takeEpoch_bus (g : GroupId) (source : Option Station) (s : State) : (takeEpoch g source s).bus = s.bus := by
  unfold takeEpoch
  split <;> rfl

theorem yieldToHolder_control (g : GroupId) (source : Option Station) (s : State) :
    ControlKept s (yieldToHolder g source s) := by
  unfold yieldToHolder
  split
  · split
    · exact (abandonClaim_control g _ _ s).trans (.of_bus rfl)
    · exact .refl s
  · exact .refl s

theorem resolveDual_bus (g : GroupId) (source : Option Station) (s : State) :
    (resolveDual g source s).bus = s.bus := by
  unfold resolveDual
  split
  · rfl
  · split
    · split
      · exact leaveHolding_bus g _ _ s
      · exact startPass_bus _
    · rfl

theorem giveUpYield_control (g : GroupId) (s : State) : ControlKept s (giveUpYield g s) := by
  unfold giveUpYield
  split
  · split
    · exact enterHolding_control g _ s
    · exact release_control g s
  · exact .refl s

theorem preemptTest_control (g : GroupId) (s : State) : ControlKept s (preemptTest g s) := by
  unfold preemptTest
  split
  · split
    · exact .refl s
    · split
      · exact enterYielding_control g _ s
      · exact .of_bus rfl
  · exact .of_bus rfl

theorem reactLoss_control (g : GroupId) (s : State) : ControlKept s (reactLoss g s) := by
  unfold reactLoss
  split
  · split
    · exact release_control g s
    · split
      · exact enterYielding_control g _ s
      · exact release_control g s
  · exact .refl s

theorem visitGroup_control (source : Option Station) (partner : Bool) (s : State) (g : GroupId) :
    ControlKept s (visitGroup source partner s g) := by
  have first : ControlKept s (followOrLose g source (takeEpoch g source
      (yieldToHolder g source (giveUpYield g (resolveDual g source s))))) := by
    refine (ControlKept.of_bus (resolveDual_bus g source s)).trans ((giveUpYield_control g _).trans
      ((yieldToHolder_control g source _).trans (.of_bus ?_)))
    rw [followOrLose_bus, takeEpoch_bus]
  unfold visitGroup
  dsimp only
  generalize followOrLose g source _ = t at first ⊢
  have second : ControlKept s (if partner then preemptTest g t else t) := by
    split
    · exact first.trans (preemptTest_control g t)
    · exact first
  generalize (if partner then preemptTest g t else t) = u at second ⊢
  split
  · exact second.trans (drainTest_control g u)
  · exact second

theorem visitGroups_control (source : Option Station) (partner : Bool) (s : State) :
    ControlKept s (visitGroups source partner s) :=
  foldl_keeps ControlKept .refl .trans (visitGroup source partner) (visitGroup_control source partner) four s

/-! ### The settling -/

/-- R121: a claim needs room. -/
theorem startClaim_room_kept (g : GroupId) (cause : ClaimCause) (epoch : Epoch) (note : Option Bool) {s : State}
    (room : s.bus.control.length ≤ Config.controlQueueSize) :
    (startClaim g cause epoch note s).bus.control.length ≤ Config.controlQueueSize := by
  by_cases free : s.bus.control.length < 4
  · rw [startClaim_room g cause epoch note free, List.length_append]
    exact free
  · obtain ⟨f, eq⟩ := startClaim_full g cause epoch note free
    have kept := (abandonClaim_control g .vacant none (queueFull f (claimed g epoch note s))).room
    rw [eq]
    refine kept ?_
    change (claimed g epoch note s).bus.control.length ≤ _
    rw [claimed_bus]
    exact room

/-- The CLAIMs that a claim of `g` leaves waiting are those of before, or of `g`. -/
theorem startClaim_claims {g : GroupId} {cause : ClaimCause} {epoch : Epoch} {note : Option Bool} {s : State}
    {c : Claim} (waits : .claim c ∈ (startClaim g cause epoch note s).bus.control) :
    .claim c ∈ s.bus.control ∨ c.group = g := by
  by_cases free : s.bus.control.length < 4
  · rw [startClaim_room g cause epoch note free] at waits
    rcases List.mem_append.mp waits with before | last
    · exact .inl before
    · cases List.mem_singleton.mp last
      exact .inr rfl
  · obtain ⟨f, eq⟩ := startClaim_full g cause epoch note free
    rw [eq] at waits
    have before := (abandonClaim_control g .vacant none (queueFull f (claimed g epoch note s))).claims c waits
    change _ ∈ (claimed g epoch note s).bus.control at before
    rw [claimed_bus] at before
    exact .inl before

theorem dropClaim_control (g : GroupId) (s : State) : ControlKept s (dropClaim g s) := by
  unfold dropClaim
  split
  · exact abandonClaim_control g _ _ s
  · exact .refl s

theorem settleGroup_room_kept (s : State) (g : GroupId) (room : s.bus.control.length ≤ Config.controlQueueSize) :
    (settleGroup s g).bus.control.length ≤ Config.controlQueueSize := by
  have dropped := (dropClaim_control g s).room room
  rw [settleGroup_eq, followLine_bus]
  unfold tryClaim
  split
  · exact startClaim_room_kept g _ _ _ dropped
  · exact dropped

theorem settle_room_kept {s : State} (room : s.bus.control.length ≤ Config.controlQueueSize) :
    (settle s).bus.control.length ≤ Config.controlQueueSize := by
  have groups (l : List GroupId) (u : State) (room : u.bus.control.length ≤ Config.controlQueueSize) :
      (l.foldl settleGroup u).bus.control.length ≤ Config.controlQueueSize := by
    induction l generalizing u with
    | nil => exact room
    | cons g l ih => exact ih _ (settleGroup_room_kept u g room)
  unfold settle
  exact groups four s room

/-- No CLAIM of `g` waits. -/
def State.unclaimed (s : State) (g : GroupId) : Prop := ∀ c, .claim c ∈ s.bus.control → c.group ≠ g

theorem ControlKept.unclaimed {s t : State} {g : GroupId} (kept : ControlKept s t) (none_ : s.unclaimed g) :
    t.unclaimed g := fun c waits => none_ c (kept.claims c waits)

/-- R145: an abandoned claim leaves no CLAIM of its group. -/
theorem abandonClaim_unclaimed (g : GroupId) (state : GroupState) (owner : Option Station) (s : State) :
    (abandonClaim g state owner s).unclaimed g := by
  intro c waits same
  rw [abandonClaim_bus] at waits
  have other := (List.mem_filter.mp waits).2
  rw [isClaimOf, decide_eq_true same] at other
  cases other

theorem settleGroup_unclaimed_other {g k : GroupId} {s : State} (ne : k ≠ g) (none_ : s.unclaimed g) :
    (settleGroup s k).unclaimed g := by
  have dropped := (dropClaim_control k s).unclaimed none_
  intro c waits
  rw [settleGroup_eq, followLine_bus] at waits
  unfold tryClaim at waits
  split at waits
  · rcases startClaim_claims waits with before | own
    · exact dropped c before
    · rw [own]
      exact ne
  · exact dropped c waits

/-- R143: a group that is FOLLOWING does not claim. -/
theorem settleGroup_unclaimed_same {g : GroupId} {s : State} (following : (s.group g).state = .following)
    (none_ : s.unclaimed g) : (settleGroup s g).unclaimed g := by
  have noClaim : ¬((s.group g).state = .claiming && !s.eligible g) = true := by
    rw [following]
    exact Bool.false_ne_true
  have mayNot : ¬ s.mayClaim g = true := by
    unfold State.mayClaim
    rw [following]
    exact Bool.false_ne_true
  have kept : dropClaim g s = s := if_neg noClaim
  have still : tryClaim g s = s := if_neg mayNot
  intro c waits
  rw [settleGroup_eq, followLine_bus, kept, still] at waits
  exact none_ c waits

theorem settle_unclaimed {g : GroupId} {s : State} (following : (s.group g).state = .following)
    (none_ : s.unclaimed g) : (settle s).unclaimed g := by
  have others (l : List GroupId) (out : g ∉ l) (u : State) (none_ : u.unclaimed g) :
      (l.foldl settleGroup u).unclaimed g := by
    induction l generalizing u with
    | nil => exact none_
    | cons k l ih =>
      rw [List.mem_cons, not_or] at out
      exact ih out.2 _ (settleGroup_unclaimed_other (Ne.symm out.1) none_)
  obtain ⟨l, l', order, -, before, after⟩ := four_split g
  unfold settle
  rw [order, List.foldl_append]
  refine others l' after _ (settleGroup_unclaimed_same ?_ (others l before s none_))
  rw [foldl_others (passes := false) settleGroup_moves before]
  exact following

end Sys2Proof.Machine
end

