-- ==== Sys2Proof/Proofs/BeaconVisits.lean ====
section
/-!
PROOFS. What a BEACON of a PRESENT station brings to a group that no third station shows held: its holder is followed
(R141), its owner lost (R142), a claim gives way (R145), a dual ownership is resolved (R157), a yield given up (R155).
-/

namespace Sys2Proof.Machine

open Sys2Proof

/-- The last BEACON of the PRESENT station `p` shows `g` as `x`, and no third PRESENT station shows it held. -/
structure State.Shows (s : State) (g : GroupId) (p : Station) (x : BeaconGroup) : Prop where
  present : (s.peer p).state = .present
  shown : (s.peer p).groupShown g = some x
  alone : ∀ q, q ≠ p → (s.peer q).state = .present → (s.peer q).showsHeld g = false

theorem State.Shows.of_presence {s t : State} {g : GroupId} {p : Station} {x : BeaconGroup} (shows : s.Shows g p x)
    (same : t.presence = s.presence) : t.Shows g p x := by
  obtain ⟨present, shown, alone⟩ := shows
  unfold State.peer at present shown alone
  rw [← same] at present shown alone
  exact ⟨present, shown, alone⟩

theorem Moves.presence {passes : Bool} {s t : State} (all : Moves passes s t) : t.presence = s.presence := by
  obtain ⟨⟨_, _, _, _, _, _, _, _, rfl⟩, -, -⟩ := all.span
  rfl

theorem Moves.shows {passes : Bool} {s t : State} {g : GroupId} {p : Station} {x : BeaconGroup}
    (all : Moves passes s t) (shows : s.Shows g p x) : t.Shows g p x := shows.of_presence all.presence

section

variable {s : State} {g : GroupId} {p : Station} {x : BeaconGroup}

theorem State.Shows.shownBy (shows : s.Shows g p x) : s.shownBy g (some p) = some (p, x) := by
  unfold State.shownBy
  rw [Option.bind_some, shows.shown]
  rfl

theorem State.Shows.showsHeld (shows : s.Shows g p x) : (s.peer p).showsHeld g = x.state.held := by
  unfold Peer.showsHeld
  rw [shows.shown]

theorem State.Shows.showsEligible (shows : s.Shows g p x) : (s.peer p).showsEligible g = x.eligible := by
  unfold Peer.showsEligible
  rw [shows.shown]

/-- R141: the one holder. -/
theorem State.Shows.bestHolder (shows : s.Shows g p x) (held : x.state.held = true) : s.bestHolder g = some p := by
  have alone : s.holders g = four.filter fun q => decide (q = p) := by
    unfold State.holders
    refine List.filter_congr fun q _ => ?_
    by_cases same : q = p
    · rw [same, shows.showsHeld, held, decide_eq_true shows.present, decide_eq_true rfl]
      rfl
    · rw [decide_eq_false same]
      by_cases present : (s.peer q).state = .present
      · rw [shows.alone q same present, Bool.and_false]
      · rw [decide_eq_false present, Bool.false_and]
  have one (r : Station) : four.filter (fun q => decide (q = r)) = [r] := by
    revert r
    decide
  unfold State.bestHolder
  rw [alone, one]
  rfl

theorem State.Shows.unheld (shows : s.Shows g p x) (released : x.state.held = false) : s.unheld g := by
  intro q present
  by_cases same : q = p
  · rw [same, shows.showsHeld, released]
  · exact shows.alone q same present

/-! ### The stages of a visit -/

theorem resolveDual_apart (shows : s.Shows g p x) (apart : s.holds g = false ∨ x.state.held = false) :
    resolveDual g (some p) s = s := by
  unfold resolveDual
  rw [shows.shownBy]
  refine if_neg fun both => ?_
  obtain ⟨holds, held⟩ := Bool.and_eq_true_iff.mp both
  rcases apart with not_ | not_
  · rw [not_] at holds
    cases holds
  · rw [not_] at held
    cases held

/-- R157: the station of lower standing gives way. -/
theorem resolveDual_gives (shows : s.Shows g p x) (holds : s.holds g = true) (held : x.state.held = true)
    (higher : standingHigher x.epoch (shownPrecedence x p) (s.group g).epoch (s.precedence g) = true) :
    resolveDual g (some p) s = raise .split (raiseEpoch g x.epoch (leaveHolding g .following (some p) s)) := by
  unfold resolveDual
  rw [shows.shownBy]
  dsimp only
  rw [holds, held, if_pos higher]
  rfl

/-- R157: the station of higher standing stays. -/
theorem resolveDual_stays (shows : s.Shows g p x) (holds : s.holds g = true) (held : x.state.held = true)
    (lower : standingHigher x.epoch (shownPrecedence x p) (s.group g).epoch (s.precedence g) = false) :
    resolveDual g (some p) s = startPass (openWindow g (raise .split s)) := by
  unfold resolveDual
  rw [shows.shownBy]
  dsimp only
  rw [holds, held, lower]
  rfl

theorem yieldToHolder_not {source : Option Station} (other : (s.group g).state ≠ .claiming) :
    yieldToHolder g source s = s := by
  unfold yieldToHolder
  split
  · rw [decide_eq_false other]
    rfl
  · rfl

/-- R145, fourth row. -/
theorem yieldToHolder_claim {e : Epoch} (shows : s.Shows g p x) (claiming : (s.group g).state = .claiming)
    (epoch : (s.group g).claimEpoch = some e) (held : x.state.held = true) (late : serialBefore x.epoch e = false) :
    yieldToHolder g (some p) s = raiseEpoch g x.epoch (abandonClaim g .following (some p) s) := by
  unfold yieldToHolder
  rw [shows.shownBy, epoch]
  dsimp only
  rw [claiming, held, late]
  rfl

/-- R140: the last writer of the epoch, while the group is not held. -/
theorem takeEpoch_shown (shows : s.Shows g p x)
    (unowned : (s.group g).state = .vacant ∨ (s.group g).state = .following) :
    takeEpoch g (some p) s = raiseEpoch g x.epoch s := by
  unfold takeEpoch
  rw [shows.shownBy]
  rcases unowned with state | state <;> rw [state]

theorem takeEpoch_holding {source : Option Station} (holding : (s.group g).state = .holding) :
    takeEpoch g source s = s := by
  unfold takeEpoch
  rw [holding]
  cases s.shownBy g source <;> rfl

theorem followOrLose_stays {source : Option Station} (other : (s.group g).state ≠ .following) :
    followOrLose g source s = followHolder g s := by
  unfold followOrLose State.ownerLost
  rw [decide_eq_false other]
  rfl

theorem followHolder_not (vacant : (s.group g).state ≠ .vacant) (following : (s.group g).state ≠ .following) :
    followHolder g s = s := by
  unfold followHolder
  split
  · contradiction
  · contradiction
  · rfl

theorem serialMax_again (a b : Epoch) : serialMax (serialMax a b) b = serialMax a b := by
  unfold serialMax
  by_cases before : serialBefore a b = true
  · rw [if_pos before, ite_self]
  · rw [if_neg before, if_neg before]

/-- R141: the record of a group that comes to follow its holder. -/
theorem followHolder_group (shows : s.Shows g p x) (held : x.state.held = true)
    (unowned : (s.group g).state = .vacant ∨ (s.group g).state = .following) :
    ∃ yieldNote, (followHolder g s).group g = { s.group g with
      state := .following, owner := some p, epoch := serialMax (s.group g).epoch x.epoch, claimNote := none
      yieldNote := yieldNote } := by
  have standing : ((s.peer p).standing g p).1 = x.epoch := by
    unfold Peer.standing
    rw [shows.shown]
  have follows : followHolder g s = raiseEpoch g x.epoch (setOwner g (some p) (mapGroup g (fun r =>
      { r with
        state := .following
        claimNote := none
        yieldNote := r.yieldNote.filter fun n => decide (n.yielder = p) }) s)) := by
    unfold followHolder
    rw [shows.bestHolder held]
    rcases unowned with state | state <;> rw [state] <;> dsimp only <;> rw [standing]
  rw [follows, raiseEpoch, mapGroup_group_same, setOwner_group_same, mapGroup_group_same]
  exact ⟨_, rfl⟩

/-- The stages of R140 to R142. -/
def takeAndFollow (g : GroupId) (source : Option Station) (s : State) : State :=
  followOrLose g source (takeEpoch g source s)

theorem raiseEpoch_group (g : GroupId) (e : Epoch) (s : State) :
    (raiseEpoch g e s).group g = { s.group g with epoch := serialMax (s.group g).epoch e } :=
  mapGroup_group_same g _ s

/-- R140 to R142: a group that is not held comes to follow the holder that the BEACON shows. -/
theorem takeAndFollow_group (shows : s.Shows g p x) (held : x.state.held = true)
    (unowned : (s.group g).state = .vacant ∨ (s.group g).state = .following) :
    ∃ claimNote yieldNote, (takeAndFollow g (some p) s).group g = { s.group g with
      state := .following, owner := some p, epoch := serialMax (s.group g).epoch x.epoch
      claimNote := claimNote, yieldNote := yieldNote } := by
  unfold takeAndFollow followOrLose
  rw [takeEpoch_shown shows unowned]
  have record := raiseEpoch_group g x.epoch s
  have raised : (raiseEpoch g x.epoch s).Shows g p x := shows.of_presence rfl
  dsimp only
  split
  · have vacated : (setOwner g none (mapGroup g (fun r => { r with
        state := .vacant, claimNote := none, yieldNote := none }) (raiseEpoch g x.epoch s))).group g =
        { s.group g with
          state := .vacant, epoch := serialMax (s.group g).epoch x.epoch, claimNote := none, yieldNote := none
          owner := none } := by
      rw [setOwner_group_same, mapGroup_group_same, record]
    have still := raised.of_presence (setOwner_presence g none (mapGroup g (fun r => { r with
        state := .vacant, claimNote := none, yieldNote := none }) (raiseEpoch g x.epoch s)))
    obtain ⟨_, follows⟩ := followHolder_group still held (.inl (by rw [vacated]))
    rw [follows, vacated]
    dsimp only
    rw [serialMax_again]
    exact ⟨_, _, rfl⟩
  · obtain ⟨_, follows⟩ := followHolder_group raised held (by rw [record]; exact unowned)
    rw [follows, record]
    dsimp only
    rw [serialMax_again]
    exact ⟨_, _, rfl⟩

theorem keepsOwner_of_held {state : GroupState} (held : state.held = true) : keepsOwner state = true := by
  revert held
  cases state <;> decide

/-- R142: the stages that lose the owner known, whose own BEACON no longer keeps it. -/
theorem takeAndFollow_loses (shows : s.Shows g p x) (following : (s.group g).state = .following)
    (owner : (s.group g).owner = some p) (lost : keepsOwner x.state = false) :
    (takeAndFollow g (some p) s).group g = { s.group g with
      state := .vacant, owner := none, epoch := serialMax (s.group g).epoch x.epoch, claimNote := none
      yieldNote := none } ∧ (takeAndFollow g (some p) s).recon.synced.get g = false := by
  have released : x.state.held = false := by
    rw [Bool.eq_false_iff]
    intro held
    rw [keepsOwner_of_held held] at lost
    cases lost
  have record := raiseEpoch_group g x.epoch s
  have raised : (raiseEpoch g x.epoch s).Shows g p x := shows.of_presence rfl
  have gone : (raiseEpoch g x.epoch s).ownerLost g (some p) = true := by
    unfold State.ownerLost
    rw [record]
    dsimp only
    rw [following, owner]
    dsimp only
    rw [raised.shown]
    dsimp only
    rw [lost, decide_eq_true rfl, decide_eq_true rfl]
    exact Bool.or_true _
  have unheld : (setOwner g none (mapGroup g (fun r =>
      { r with state := .vacant, claimNote := none, yieldNote := none }) (raiseEpoch g x.epoch s))).unheld g :=
    unheld_of_presence (setOwner_presence g none _) (raised.unheld released)
  unfold takeAndFollow followOrLose
  rw [takeEpoch_shown shows (.inr following), if_pos gone]
  dsimp only
  rw [followHolder_unheld unheld]
  refine ⟨?_, setOwner_unsynced ?_⟩
  · rw [setOwner_group_same, mapGroup_group_same, record]
  · rw [mapGroup_group_same, record]
    dsimp only
    rw [owner]
    nofun

/-- R140 to R142 change nothing of a group that this station holds. -/
theorem takeAndFollow_holding {source : Option Station} (holding : (s.group g).state = .holding) :
    takeAndFollow g source s = s := by
  unfold takeAndFollow
  rw [takeEpoch_holding holding, followOrLose_stays (by rw [holding]; nofun),
    followHolder_not (by rw [holding]; nofun) (by rw [holding]; nofun)]

/-- R140 to R142: a group that is VACANT, where no station holds it. -/
theorem takeAndFollow_vacant (shows : s.Shows g p x) (vacant : (s.group g).state = .vacant)
    (released : x.state.held = false) : takeAndFollow g (some p) s = raiseEpoch g x.epoch s := by
  have raised : (raiseEpoch g x.epoch s).Shows g p x := shows.of_presence rfl
  unfold takeAndFollow
  rw [takeEpoch_shown shows (.inl vacant), followOrLose_stays (by rw [raiseEpoch_group, vacant]; nofun),
    followHolder_unheld (raised.unheld released)]

end

/-! ### The end of a visit -/

/-- R154, R172: the preempt test, and the completion test of a drain towards the source. -/
def visitEnd (source : Option Station) (partner : Bool) (g : GroupId) (s : State) : State :=
  let s := if partner then preemptTest g s else s
  if (s.group g).successor.isSome && decide ((s.group g).successor = source) then drainTest g s else s

theorem visitGroup_stages (source : Option Station) (partner : Bool) (s : State) (g : GroupId) :
    visitGroup source partner s g =
      visitEnd source partner g (takeAndFollow g source (yieldToHolder g source (giveUpYield g
        (resolveDual g source s)))) := rfl

theorem drainTest_not {g : GroupId} {s : State} (other : (s.group g).state ≠ .yielding) : drainTest g s = s := by
  refine if_neg fun complete => ?_
  unfold State.drainComplete at complete
  rw [decide_eq_false other] at complete
  cases complete

theorem visitEnd_moves {passes : Bool} (source : Option Station) (partner : Bool) (g : GroupId) (s : State) :
    GroupMoves passes g s (visitEnd source partner g s) := by
  have tested : GroupMoves passes g s (if partner then preemptTest g s else s) := by
    split
    · exact preemptTest_moves g s
    · exact .refl
  unfold visitEnd
  dsimp only
  generalize (if partner then preemptTest g s else s) = u at tested ⊢
  split
  · exact tested.trans (drainTest_moves g u)
  · exact tested

/-- The end of a visit sets the preempt mark alone, where the group is not YIELDING and preemption does not run on. -/
theorem visitEnd_group (source : Option Station) (partner : Bool) {g : GroupId} {s : State}
    (resting : (s.group g).state ≠ .yielding) (still : (s.group g).state ≠ .holding
      ∨ s.port.setup.preempt.get g = false ∨ s.port.setup.preemptDelay.get g ≠ 0) :
    ∃ preempt, (visitEnd source partner g s).group g = { s.group g with preempt := preempt } := by
  obtain ⟨preempt, tested⟩ := preemptIf_group partner still
  unfold visitEnd
  dsimp only
  rw [drainTest_not (by rw [tested]; exact resting), ite_self]
  exact ⟨preempt, tested⟩

/-! ### The visit of one group -/

section

variable {s : State} {g : GroupId} {p : Station} {x : BeaconGroup}

/-- What a group that comes to follow `p` shows. -/
structure GroupRecord.Follows (r : GroupRecord) (p : Station) (epoch : Epoch) : Prop where
  state : r.state = .following
  owner : r.owner = some p
  epoch : r.epoch = epoch

/-- R141: the visit of a group that follows the holder shown, from the record after R145. -/
theorem visitEnd_follows {a : State} (partner : Bool) (shows : a.Shows g p x) (held : x.state.held = true)
    (unowned : (a.group g).state = .vacant ∨ (a.group g).state = .following) :
    let t := visitEnd (some p) partner g (takeAndFollow g (some p) a)
    (t.group g).Follows p (serialMax (a.group g).epoch x.epoch)
      ∧ (t.group g).claimEpoch = (a.group g).claimEpoch ∧ (t.group g).backoff = (a.group g).backoff
      ∧ (t.group g).adoptionOpen = (a.group g).adoptionOpen := by
  obtain ⟨_, _, follows⟩ := takeAndFollow_group shows held unowned
  obtain ⟨_, ended⟩ := visitEnd_group (some p) partner (g := g) (s := takeAndFollow g (some p) a)
    (by rw [follows]; nofun) (.inl (by rw [follows]; nofun))
  intro t
  have record : t.group g = _ := ended
  rw [record, follows]
  exact ⟨⟨rfl, rfl, rfl⟩, rfl, rfl, rfl⟩

theorem holds_iff : s.holds g = true ↔ (s.group g).state = .holding ∨ (s.group g).state = .yielding := by
  unfold State.holds
  cases (s.group g).state <;> simp [GroupState.held]

/-- R141. -/
theorem visit_unowned (partner : Bool) (shows : s.Shows g p x) (held : x.state.held = true)
    (unowned : (s.group g).state = .vacant ∨ (s.group g).state = .following) :
    ((visitGroup (some p) partner s g).group g).Follows p (serialMax (s.group g).epoch x.epoch) := by
  have apart : s.holds g = false := by
    unfold State.holds
    rcases unowned with state | state <;> rw [state] <;> rfl
  have yields : (s.group g).state ≠ .yielding := by rcases unowned with state | state <;> rw [state] <;> nofun
  have claims : (s.group g).state ≠ .claiming := by rcases unowned with state | state <;> rw [state] <;> nofun
  rw [visitGroup_stages, resolveDual_apart shows (.inl apart), giveUpYield_not yields, yieldToHolder_not claims]
  exact (visitEnd_follows partner shows held unowned).1

/-- R142. -/
theorem visit_loses (partner : Bool) (shows : s.Shows g p x) (following : (s.group g).state = .following)
    (owner : (s.group g).owner = some p) (lost : keepsOwner x.state = false) :
    ((visitGroup (some p) partner s g).group g).state = .vacant
      ∧ ((visitGroup (some p) partner s g).group g).owner = none
      ∧ ((visitGroup (some p) partner s g).group g).epoch = serialMax (s.group g).epoch x.epoch
      ∧ (visitGroup (some p) partner s g).recon.synced.get g = false := by
  have apart : s.holds g = false := by
    unfold State.holds
    rw [following]
    rfl
  obtain ⟨record, unsynced⟩ := takeAndFollow_loses shows following owner lost
  obtain ⟨_, ended⟩ := visitEnd_group (some p) partner (g := g) (s := takeAndFollow g (some p) s)
    (by rw [record]; nofun) (.inl (by rw [record]; nofun))
  rw [visitGroup_stages, resolveDual_apart shows (.inl apart), giveUpYield_not (by rw [following]; nofun),
    yieldToHolder_not (by rw [following]; nofun), ended, record]
  exact ⟨rfl, rfl, rfl, (visitEnd_moves (passes := false) (some p) partner g _).moves.unsynced g unsynced⟩

theorem takeAndFollow_bus (g : GroupId) (source : Option Station) (s : State) :
    (takeAndFollow g source s).bus = s.bus := (followOrLose_bus g source _).trans (takeEpoch_bus g source s)

theorem visitEnd_control (source : Option Station) (partner : Bool) (g : GroupId) (s : State) :
    ControlKept s (visitEnd source partner g s) := by
  have tested : ControlKept s (if partner then preemptTest g s else s) := by
    split
    · exact preemptTest_control g s
    · exact .refl s
  unfold visitEnd
  dsimp only
  generalize (if partner then preemptTest g s else s) = u at tested ⊢
  split
  · exact tested.trans (drainTest_control g u)
  · exact tested

/-- R145, fourth row: a claim gives way to the holder shown, and no CLAIM of the group waits. -/
theorem visit_claimant {e : Epoch} (partner : Bool) (shows : s.Shows g p x)
    (claiming : (s.group g).state = .claiming) (epoch : (s.group g).claimEpoch = some e)
    (held : x.state.held = true) (late : serialBefore x.epoch e = false) :
    ((visitGroup (some p) partner s g).group g).Follows p (serialMax (s.group g).epoch x.epoch)
      ∧ ((visitGroup (some p) partner s g).group g).claimEpoch = none
      ∧ ((visitGroup (some p) partner s g).group g).backoff = true
      ∧ (visitGroup (some p) partner s g).unclaimed g := by
  have apart : s.holds g = false := by
    unfold State.holds
    rw [claiming]
    rfl
  have record : (raiseEpoch g x.epoch (abandonClaim g .following (some p) s)).group g = { s.group g with
      state := .following, claimEpoch := none, claimWait := false, backoff := true, handoverNote := none
      owner := some p, epoch := serialMax (s.group g).epoch x.epoch } := by
    rw [raiseEpoch_group, abandonClaim_group_same]
  have given : (raiseEpoch g x.epoch (abandonClaim g .following (some p) s)).Shows g p x := by
    have gives := yieldToHolder_claim shows claiming epoch held late
    rw [← gives]
    exact (yieldToHolder_moves (passes := false) g (some p) s).moves.shows shows
  have unclaimed : (raiseEpoch g x.epoch (abandonClaim g .following (some p) s)).unclaimed g :=
    abandonClaim_unclaimed g .following (some p) s
  rw [visitGroup_stages, resolveDual_apart shows (.inl apart), giveUpYield_not (by rw [claiming]; nofun),
    yieldToHolder_claim shows claiming epoch held late]
  obtain ⟨⟨state, owner, raised⟩, claim, backoff, -⟩ :=
    visitEnd_follows partner given held (.inr (by rw [record]))
  rw [record] at raised claim backoff
  rw [serialMax_again] at raised
  exact ⟨⟨state, owner, raised⟩, claim, backoff,
    ((ControlKept.of_bus (takeAndFollow_bus g (some p) _)).trans (visitEnd_control _ _ _ _)).unclaimed unclaimed⟩

/-- What follows the resolution of a dual ownership and the giving up of a yield. -/
theorem visit_rest (source : Option Station) (partner : Bool) (s : State) (g : GroupId) :
    Moves true (giveUpYield g (resolveDual g source s)) (visitGroup source partner s g) := by
  have all : GroupMoves true g (giveUpYield g (resolveDual g source s)) (visitGroup source partner s g) :=
    (((yieldToHolder_moves g source _).trans (takeEpoch_moves g source _)).trans
      (followOrLose_moves g source _)).trans (visitEnd_moves source partner g _)
  exact all.moves

theorem raise_flag (e : Event) (s : State) : (raise e s).port.flags.getLsbD e.bit = true := by
  have small : e.bit < 18 := by cases e <;> decide
  rw [raise_flags, getLsbD_raiseFlag e _ e.bit small, decide_eq_true rfl, Bool.or_true]

/-- R157: the state after this station gave way. -/
def gaveWay (g : GroupId) (p : Station) (e : Epoch) (s : State) : State :=
  raise .split (raiseEpoch g e (leaveHolding g .following (some p) s))

theorem gaveWay_group (g : GroupId) (p : Station) (e : Epoch) (s : State) : (gaveWay g p e s).group g = { s.group g with
    state := .following, owner := some p, preempt := false, drain := false, successor := none, tenure := none
    adoptionOpen := false, adoptionTimer := false, epoch := serialMax (s.group g).epoch e } := by
  have record : (gaveWay g p e s).group g = (raiseEpoch g e (leaveHolding g .following (some p) s)).group g := rfl
  rw [record, raiseEpoch_group, leaveHolding_group_same]

theorem gaveWay_flags (g : GroupId) (p : Station) (e : Epoch) (s : State) :
    (gaveWay g p e s).port.flags.getLsbD 2 = true ∧ (gaveWay g p e s).port.flags.getLsbD 3 = true := by
  have released : (raiseEpoch g e (leaveHolding g .following (some p) s)).port.flags.getLsbD 2 = true :=
    leaveHolding_released g .following (some p) s
  refine ⟨?_, raise_flag .split _⟩
  unfold gaveWay
  rw [raise_flags, getLsbD_raiseFlag .split _ 2 (by decide), released, Bool.true_or]

/-- R157, R151: the station of lower standing follows the other. -/
theorem visit_gives (partner : Bool) (shows : s.Shows g p x) (holds : s.holds g = true) (held : x.state.held = true)
    (higher : standingHigher x.epoch (shownPrecedence x p) (s.group g).epoch (s.precedence g) = true) :
    ((visitGroup (some p) partner s g).group g).Follows p (serialMax (s.group g).epoch x.epoch)
      ∧ ((visitGroup (some p) partner s g).group g).adoptionOpen = false
      ∧ (visitGroup (some p) partner s g).port.flags.getLsbD 2 = true
      ∧ (visitGroup (some p) partner s g).port.flags.getLsbD 3 = true := by
  have rest := visit_rest (some p) partner s g
  have gives : resolveDual g (some p) s = gaveWay g p x.epoch s := resolveDual_gives shows holds held higher
  have given := (resolveDual_moves g (some p) s).moves.shows shows
  have record := gaveWay_group g p x.epoch s
  obtain ⟨release, split⟩ := gaveWay_flags g p x.epoch s
  have stays : giveUpYield g (gaveWay g p x.epoch s) = gaveWay g p x.epoch s :=
    giveUpYield_not (by rw [record]; nofun)
  rw [gives, stays] at rest
  rw [gives] at given
  refine ⟨?_, ?_, rest.flagged (by decide) release, rest.flagged (by decide) split⟩
  all_goals rw [visitGroup_stages, gives, stays, yieldToHolder_not (by rw [record]; nofun)]
  · obtain ⟨⟨state, owner, raised⟩, -, -, -⟩ := visitEnd_follows partner given held (.inr (by rw [record]))
    rw [record, serialMax_again] at raised
    exact ⟨state, owner, raised⟩
  · obtain ⟨-, -, -, adoption⟩ := visitEnd_follows partner given held (.inr (by rw [record]))
    rw [adoption, record]

/-- R157: the state after this station stayed. -/
def stayed (g : GroupId) (s : State) : State := startPass (openWindow g (raise .split s))

theorem stayed_group (g : GroupId) (s : State) :
    (stayed g s).group g = { s.group g with adoptionOpen := true, adoptionTimer := true } := by
  unfold stayed
  rw [startPass_group, openWindow_group_same]
  rfl

theorem openWindow_moves {passes : Bool} (g : GroupId) (s : State) : Moves passes s (openWindow g s) :=
  (mapGroup_moves g _ s).moves

theorem stayed_split (g : GroupId) (s : State) : (stayed g s).port.flags.getLsbD 3 = true := by
  have reached : Moves true (raise .split s) (stayed g s) :=
    Relation.ReflTransGen.tail (openWindow_moves g (raise .split s)) ⟨g, .pass _ rfl⟩
  exact reached.flagged (by decide) (raise_flag .split s)

/-- R154: a group HOLDING after the giving up of a yield, where preemption does not run on. -/
theorem visit_holding (partner : Bool) (holding : ((giveUpYield g (resolveDual g (some p) s)).group g).state = .holding)
    (still : s.port.setup.preempt.get g = false ∨ s.port.setup.preemptDelay.get g ≠ 0) :
    ∃ preempt, (visitGroup (some p) partner s g).group g =
      { (giveUpYield g (resolveDual g (some p) s)).group g with preempt := preempt } := by
  have first : GroupMoves true g s (giveUpYield g (resolveDual g (some p) s)) :=
    (resolveDual_moves g (some p) s).trans (giveUpYield_moves g _)
  have setup := first.moves.setup
  rw [← setup] at still
  rw [visitGroup_stages]
  generalize giveUpYield g (resolveDual g (some p) s) = a at *
  rw [yieldToHolder_not (by rw [holding]; nofun), takeAndFollow_holding holding]
  exact visitEnd_group (some p) partner (by rw [holding]; nofun) (.inr still)

/-- R157, R106: the station of higher standing opens its window again. -/
theorem visit_stays (partner : Bool) (shows : s.Shows g p x) (holding : (s.group g).state = .holding)
    (held : x.state.held = true)
    (lower : standingHigher x.epoch (shownPrecedence x p) (s.group g).epoch (s.precedence g) = false)
    (still : s.port.setup.preempt.get g = false ∨ s.port.setup.preemptDelay.get g ≠ 0) :
    ∃ preempt, (visitGroup (some p) partner s g).group g = { s.group g with
      adoptionOpen := true, adoptionTimer := true, preempt := preempt } := by
  have stays : resolveDual g (some p) s = stayed g s :=
    resolveDual_stays shows (holds_iff.mpr (.inl holding)) held lower
  have record := stayed_group g s
  have keeps : giveUpYield g (stayed g s) = stayed g s := giveUpYield_not (by rw [record, holding]; nofun)
  obtain ⟨_, visited⟩ := visit_holding (s := s) (g := g) (p := p) partner
    (by rw [stays, keeps, record]; exact holding) still
  rw [visited, stays, keeps, record]
  exact ⟨_, rfl⟩

/-- R157: every dual ownership raises SPLIT. -/
theorem visit_split (partner : Bool) (shows : s.Shows g p x) (holds : s.holds g = true) (held : x.state.held = true) :
    (visitGroup (some p) partner s g).port.flags.getLsbD 3 = true := by
  have rest : Moves true (resolveDual g (some p) s) (visitGroup (some p) partner s g) :=
    Relation.ReflTransGen.trans (giveUpYield_moves g _).moves (visit_rest (some p) partner s g)
  cases higher : standingHigher x.epoch (shownPrecedence x p) (s.group g).epoch (s.precedence g) with
  | true => exact (visit_gives partner shows holds held higher).2.2.2
  | false =>
    have stays : resolveDual g (some p) s = stayed g s := resolveDual_stays shows holds held higher
    rw [stays] at rest
    exact rest.flagged (by decide) (stayed_split g s)

/-! ### A yield given up -/

theorem yieldLost_ineligible (shows : s.Shows g p x) (yielding : (s.group g).state = .yielding)
    (successor : (s.group g).successor = some p) (ineligible : x.eligible = false) : s.yieldLost g = true := by
  unfold State.yieldLost
  rw [yielding, successor]
  dsimp only
  rw [shows.showsEligible, ineligible]
  exact Bool.or_true _

/-- R155, R164: the station takes the group back. -/
theorem visit_resumes (partner : Bool) (shows : s.Shows g p x) (lost : s.yieldLost g = true)
    (released : x.state.held = false) (eligible : s.eligible g = true)
    (still : s.port.setup.preempt.get g = false ∨ s.port.setup.preemptDelay.get g ≠ 0) :
    ((visitGroup (some p) partner s g).group g).state = .holding
      ∧ ((visitGroup (some p) partner s g).group g).owner = some s.me
      ∧ ((visitGroup (some p) partner s g).group g).tenure = some .resumed
      ∧ ((visitGroup (some p) partner s g).group g).adoptionOpen = true
      ∧ (visitGroup (some p) partner s g).port.flags.getLsbD 1 = true := by
  have rest := visit_rest (some p) partner s g
  have given : giveUpYield g (resolveDual g (some p) s) = enterHolding g .resumed s := by
    rw [resolveDual_apart shows (.inr released)]
    unfold giveUpYield
    rw [if_pos lost, if_pos eligible]
  have record := (enterHolding_group g .resumed s).trans (heldState_group g .resumed s)
  rw [given] at rest
  obtain ⟨_, visited⟩ := visit_holding (s := s) (g := g) (p := p) partner (by rw [given, record]) still
  rw [visited, given, record]
  exact ⟨rfl, rfl, rfl, rfl, rest.flagged (by decide) (enterHolding_takeover g .resumed s)⟩

/-- R155, R151: the station releases the group. -/
theorem visit_releases (partner : Bool) (shows : s.Shows g p x) (lost : s.yieldLost g = true)
    (released : x.state.held = false) (ineligible : s.eligible g = false) :
    ((visitGroup (some p) partner s g).group g).state = .vacant
      ∧ ((visitGroup (some p) partner s g).group g).owner = none
      ∧ ((visitGroup (some p) partner s g).group g).backoff = true
      ∧ (visitGroup (some p) partner s g).port.flags.getLsbD 2 = true := by
  have rest := visit_rest (some p) partner s g
  have given : giveUpYield g (resolveDual g (some p) s) = release g s := by
    rw [resolveDual_apart shows (.inr released)]
    unfold giveUpYield
    rw [if_pos lost, ineligible]
    rfl
  have record : (release g s).group g = { (leaveHolding g .vacant none s).group g with backoff := true } :=
    mapGroup_group_same _ _ _
  rw [leaveHolding_group_same] at record
  have flag : (release g s).port.flags.getLsbD 2 = true := leaveHolding_released g .vacant none s
  have still := (release_moves (passes := false) g s).moves.shows shows
  rw [given] at rest
  have flagged := rest.flagged (by decide) flag
  rw [visitGroup_stages, given] at flagged ⊢
  generalize release g s = u at *
  have taken := takeAndFollow_vacant still (by rw [record]) released
  have raised := raiseEpoch_group g x.epoch u
  rw [yieldToHolder_not (by rw [record]; nofun), taken] at flagged ⊢
  obtain ⟨_, ended⟩ := visitEnd_group (some p) partner (g := g) (s := raiseEpoch g x.epoch u)
    (by rw [raised, record]; nofun) (.inl (by rw [raised, record]; nofun))
  rw [ended, raised, record]
  exact ⟨rfl, rfl, rfl, flagged⟩

end

end Sys2Proof.Machine
end

