-- ==== Sys2Proof/Proofs/BeaconRecords.lean ====
section
/-!
PROOFS. What a BEACON makes of the presence records and the designation (R131, R133), of the station state and the
quorum (R138, R183), and what the BEACON of the partner may change after them (R88, R98, R106).
-/

namespace Sys2Proof.Machine

open Sys2Proof

/-! ### A record after a recomputation -/

/-- R133: the record takes part in the designation. -/
def Peer.stands (x : Peer) : Prop := x.state = .present ∨ x.state = .lost ∨ x.state = .surplus

section

variable (x : Peer) (designated : Bool)

theorem settled_role : (x.settled designated).role = x.role := by
  unfold Peer.settled
  cases x.state <;> rfl

theorem settled_deadTimer : (x.settled designated).deadTimer = x.deadTimer := by
  unfold Peer.settled
  cases x.state <;> rfl

theorem settled_lastBeacon : (x.settled designated).lastBeacon = x.lastBeacon := by
  unfold Peer.settled
  cases x.state <;> rfl

variable {x}

theorem settled_kept (out : x.state = .absent ∨ x.state = .mismatched) : x.settled designated = x := by
  unfold Peer.settled
  rcases out with state | state <;> rw [state]

theorem stands_of_not (absent : x.state ≠ .absent) (mismatched : x.state ≠ .mismatched) : x.stands := by
  unfold Peer.stands
  cases state : x.state <;> simp_all

theorem not_stands (out : x.state = .absent ∨ x.state = .mismatched) : ¬ x.stands := by
  unfold Peer.stands
  rcases out with state | state <;> rw [state] <;> nofun

theorem settled_state (stands : x.stands) : (x.settled designated).state =
    if x.deadTimer then (if designated then .present else .surplus) else .lost := by
  unfold Peer.settled
  rcases stands with state | state | state <;> rw [state]

theorem settled_stands : (x.settled designated).stands ↔ x.stands := by
  by_cases stands : x.stands
  · have state := settled_state designated stands
    refine ⟨fun _ => stands, fun _ => ?_⟩
    unfold Peer.stands
    rw [state]
    cases x.deadTimer <;> cases designated <;> simp
  · have out : x.state = .absent ∨ x.state = .mismatched := by
      by_contra other
      rw [not_or] at other
      exact stands (stands_of_not other.1 other.2)
    rw [settled_kept designated out]

/-- R133: the candidates for a role. -/
theorem candidate_iff (role : Role) : x.candidate role = true ↔ x.role = some role ∧ x.stands := by
  unfold Peer.candidate Peer.stands
  rw [Bool.and_eq_true, decide_eq_true_eq, decide_eq_true_eq]

theorem candidate_settled (role : Role) : (x.settled designated).candidate role = x.candidate role := by
  rw [Bool.eq_iff_iff, candidate_iff, candidate_iff, settled_role, settled_stands]

end

/-! ### The designation -/

/-- The first of the stations that `f` names is the lowest of them. -/
theorem head_filter_four : ∀ (f : Fin 4 → Bool) (q : Fin 4),
    (four.filter f).head? = some q ↔ f q = true ∧ ∀ r, r < q → ¬ f r = true := by
  decide

/-- The first two of the stations that `f` names have at most one of them before. -/
theorem take_filter_four : ∀ (f : Fin 4 → Bool) (q : Fin 4),
    ((four.filter f).take 2).contains q = true ↔
      f q = true ∧ ∀ a b, a < b → b < q → f a = true → ¬ f b = true := by
  decide

theorem settledRecords_get (records : Four Peer) (s : State) (q : Station) : (settledRecords records s).get q =
    (records.get q).settled ((designate s.straps.role records).includes q) := Four.get_build _ q

theorem settledRecords_candidate (records : Four Peer) (s : State) (role : Role) (q : Station) :
    ((settledRecords records s).get q).candidate role = (records.get q).candidate role := by
  rw [settledRecords_get, candidate_settled]

theorem includes_iff (d : Designation) (q : Station) :
    d.includes q = true ↔ d.partner = some q ∨ d.witness = some q ∨ d.watched.get q = true := by
  unfold Designation.includes
  rw [Bool.or_eq_true, Bool.or_eq_true, decide_eq_true_eq, decide_eq_true_eq, or_assoc]

section

variable {records : Four Peer} {s : State}

/-- R133: the designation at a firewall. -/
theorem designate_firewall (firewall : s.straps.role = .firewall) (q : Station) :
    ((designate s.straps.role records).partner = some q ↔
        ((settledRecords records s).get q).candidate .firewall = true
          ∧ ∀ r, r < q → ¬ ((settledRecords records s).get r).candidate .firewall = true)
      ∧ ((designate s.straps.role records).witness = some q ↔
        ((settledRecords records s).get q).candidate .witness = true
          ∧ ∀ r, r < q → ¬ ((settledRecords records s).get r).candidate .witness = true)
      ∧ (designate s.straps.role records).watched.get q = false := by
  simp only [settledRecords_candidate]
  rw [firewall]
  exact ⟨head_filter_four _ q, head_filter_four _ q, Four.get_all _ q⟩

/-- R133: the designation at a witness. -/
theorem designate_witness (witness : s.straps.role = .witness) :
    (designate s.straps.role records).partner = none ∧ (designate s.straps.role records).witness = none
      ∧ ∀ q, (designate s.straps.role records).watched.get q = true ↔
        ((settledRecords records s).get q).candidate .firewall = true
          ∧ ∀ a b, a < b → b < q → ((settledRecords records s).get a).candidate .firewall = true →
            ¬ ((settledRecords records s).get b).candidate .firewall = true := by
  simp only [settledRecords_candidate]
  rw [witness]
  refine ⟨rfl, rfl, fun q => ?_⟩
  have watched : (designate .witness records).watched.get q = ((candidates records .firewall).take 2).contains q :=
    Four.get_build _ q
  rw [watched]
  exact take_filter_four _ q

/-! ### The station state and the quorum -/

/-- R183: the station state by the count of the PRESENT records. -/
theorem memberOrIsolated_value (s : State) : (s.life = .listen → (memberOrIsolated s).life = .listen)
    ∧ (s.life = .member ∨ s.life = .isolated → (memberOrIsolated s).life =
        if countPresent s.presence.records = 0 then .isolated else .member) := by
  unfold memberOrIsolated
  dsimp only
  refine ⟨fun listen => ?_, fun joined => ?_⟩
  · rw [listen]
    exact listen
  · rcases joined with life | life
    · rw [life]
      dsimp only
      by_cases alone : countPresent s.presence.records = 0
      · rw [if_pos (beq_iff_eq.mpr alone), if_pos alone]
        rfl
      · rw [if_neg (mt beq_iff_eq.mp alone), if_neg alone]
        exact life
    · rw [life]
      dsimp only
      by_cases alone : countPresent s.presence.records = 0
      · rw [if_pos (beq_iff_eq.mpr alone), if_pos alone]
        exact life
      · rw [if_neg (mt beq_iff_eq.mp alone), if_neg alone]
        rfl

/-- R138: a crossing of the threshold raises QUORUM at a firewall. -/
theorem quorumChange_flag {before : Bool} {s : State} (firewall : s.straps.role = .firewall)
    (crossed : before ≠ s.quorumPresent) : (quorumChange before s).port.flags.getLsbD 4 = true := by
  unfold quorumChange
  rw [if_neg crossed, firewall]
  exact raise_flag .quorum s

/-- The state of a change of the records before the quorum is looked at. -/
def toldLife (records : Four Peer) (heard : Bool) (s : State) : State :=
  memberOrIsolated (partnerChange s.presentPartner
    (raiseIf (heard || recordsDiffer s.presence.records (settledRecords records s)) .presence
      (redesignated records s)))

theorem told_toldLife (records : Four Peer) (heard : Bool) (s : State) :
    told records heard s = quorumChange s.quorumPresent (toldLife records heard s) := rfl

/-- R138. -/
theorem told_quorum (heard : Bool) (firewall : s.straps.role = .firewall)
    (crossed : s.quorumPresent ≠ (told records heard s).quorumPresent) :
    (told records heard s).port.flags.getLsbD 4 = true := by
  obtain ⟨_, _, eq, -⟩ := quorumChange_timer s.quorumPresent (toldLife records heard s)
  have quorum : (told records heard s).quorumPresent = (toldLife records heard s).quorumPresent := by
    rw [told_toldLife, eq]
    rfl
  have role : (toldLife records heard s).straps.role = .firewall := by
    have same : (told records heard s).straps = (toldLife records heard s).straps := by rw [told_toldLife, eq]
    obtain ⟨_, _, _, _, _, _, _, _, _, frame⟩ := (told_tells records heard s).frame
    rw [← same, frame]
    exact firewall
  rw [quorum] at crossed
  exact quorumChange_flag role crossed

/-- R183. -/
theorem told_life (records : Four Peer) (heard : Bool) (s : State) :
    (s.life = .listen → (told records heard s).life = .listen)
    ∧ (s.life = .member ∨ s.life = .isolated → (told records heard s).life =
        if countPresent (settledRecords records s) = 0 then .isolated else .member) := by
  obtain ⟨_, _, eq, -⟩ := quorumChange_timer s.quorumPresent (toldLife records heard s)
  have life : (told records heard s).life = (toldLife records heard s).life := by
    rw [told_toldLife, eq]
    rfl
  obtain ⟨_, raised, -⟩ := raiseIf_presenceFlag
    (heard || recordsDiffer s.presence.records (settledRecords records s)) .presence (redesignated records s)
  obtain ⟨_, _, _, _, _, _, changed⟩ := (partnerChange_changes s.presentPartner
    (raiseIf (heard || recordsDiffer s.presence.records (settledRecords records s)) .presence
      (redesignated records s))).frame
  rw [life]
  unfold toldLife
  have value := memberOrIsolated_value (partnerChange s.presentPartner
    (raiseIf (heard || recordsDiffer s.presence.records (settledRecords records s)) .presence
      (redesignated records s)))
  rw [changed, raised] at value ⊢
  exact value

end

/-! ### The BEACON of the partner -/

theorem setWant_frame (q : Seq) (s : State) : setWant q s = { s with
    receive.expectation := some q, receive.want := true, receive.needSince := some q
    recon.synced := Four.all false } := rfl

/-- R98: what the expectation and the synced set become. -/
theorem expectByBeacon_narrow (b : Beacon) (s : State) : ∃ expectation want needSince synced,
    expectByBeacon b s = { s with
      receive.expectation := expectation, receive.want := want, receive.needSince := needSince
      recon.synced := synced } ∧ (synced = s.recon.synced ∨ synced = Four.all false) := by
  unfold expectByBeacon
  split
  · exact ⟨_, _, _, _, setWant_frame _ s, .inr rfl⟩
  · split
    · exact ⟨_, _, _, _, setWant_frame _ s, .inr rfl⟩
    · split
      · exact ⟨_, _, _, _, setWant_frame _ s, .inr rfl⟩
      · exact ⟨_, _, _, _, rfl, .inl rfl⟩

/-- What the BEACON of the partner may change of the state `c` that the change of the records left. -/
structure PartnerHeard (c h : State) : Prop where
  frame : ∃ journal expectation want needSince recon, h = { c with
    journal := journal, receive.expectation := expectation, receive.want := want, receive.needSince := needSince
    recon := recon }
  digestTimer : h.recon.digestTimer = c.recon.digestTimer
  sweep : h.recon.sweep = c.recon.sweep
  unsynced : c.recon.synced = Four.all false → h.recon.synced = Four.all false
  cleared : ∀ n, c.journal = ⟨[], n, n, n, false, false⟩ → h.journal = c.journal

theorem PartnerHeard.refl (c : State) : PartnerHeard c c :=
  ⟨⟨_, _, _, _, _, rfl⟩, rfl, rfl, id, fun _ _ => rfl⟩

/-- R88: a receipt does nothing to a journal that was cleared. -/
theorem judgeReceipt_cleared {m n : Seq} {s : State} (cleared : s.journal = ⟨[], n, n, n, false, false⟩) :
    (judgeReceipt m s).journal = s.journal := by
  unfold judgeReceipt
  split
  · rename_i admitted
    rw [cleared] at admitted ⊢
    have same : m = n := by
      unfold Journal.admits at admitted
      have within := of_decide_eq_true admitted
      have zero : (m - n).toNat = 0 := by
        have ends : (Journal.sentEnd ⟨[], n, n, n, false, false⟩ - n).toNat = 0 := by
          simp [Journal.sentEnd]
        exact Nat.le_zero.mp (within.trans (Nat.le_of_eq ends))
      bv_omega
    rw [same]
    unfold Journal.receipt Journal.carry
    simp [serialBefore]
  · rfl

theorem partnerBeacon_heard (b : Beacon) (c : State) : PartnerHeard c (partnerBeacon b c) := by
  obtain ⟨journal, heard⟩ := receiptHeard_frame b c
  obtain ⟨expectation, want, needSince, synced, expected, shape⟩ := expectByBeacon_narrow b (receiptHeard b c)
  have reaches := (partnerBeacon_reaches b c).2.1
  have frame : ∃ recon, partnerBeacon b c = { c with
      journal := journal, receive.expectation := expectation, receive.want := want
      receive.needSince := needSince, recon := recon } ∧ recon.digestTimer = c.recon.digestTimer
      ∧ recon.sweep = c.recon.sweep ∧ recon.synced = synced := by
    rw [partnerBeacon_eq, expected]
    split
    · obtain ⟨_, _, _, passes⟩ := startPass_passes { receiptHeard b c with
        receive.expectation := expectation, receive.want := want, receive.needSince := needSince
        recon.synced := synced }
      rw [passes, heard]
      exact ⟨_, rfl, rfl, rfl, rfl⟩
    · rw [heard]
      exact ⟨_, rfl, rfl, rfl, rfl⟩
  obtain ⟨recon, eq, timer, sweep, final⟩ := frame
  have held : (partnerBeacon b c).recon = recon := by rw [eq]
  refine ⟨⟨_, _, _, _, _, eq⟩, held ▸ timer, held ▸ sweep, fun empty => ?_, fun n cleared => ?_⟩
  · rw [held, final]
    rcases shape with same | none_
    · rw [same, heard]
      exact empty
    · exact none_
  · rw [reaches]
    unfold receiptHeard
    cases b.receipt with
    | none => rfl
    | some m => exact judgeReceipt_cleared cleared

end Sys2Proof.Machine
end

