-- ==== Sys2Proof/Proofs/BeaconsTaken.lean ====
section
/-!
PROOFS. The taking of a BEACON: the records that it leaves (R131, R133), the end of the partner's presence that it may
bring (R92, R109), and each group after the visit and the settling (R141, R142, R145, R155, R157).
-/

namespace Sys2Proof.Machine

open Sys2Proof

/-! ### The groups after a BEACON -/

/-- The consequences of a BEACON of the PRESENT station `p` at the ownership controller. -/
def visitHeard (p : Station) (partner : Bool) (s : State) : State := settle (visitGroups (some p) partner s)

/-- The turn of one group in the visit after a BEACON. -/
structure HeardTurn (p : Station) (partner : Bool) (g : GroupId) (s u : State) : Prop where
  reached : Moves true s u
  record : u.group g = s.group g
  rest : Moves true (visitGroup (some p) partner u g) (visitHeard p partner s)
  control : ControlKept (visitGroup (some p) partner u g) (visitGroups (some p) partner s)
  kept : (visitGroups (some p) partner s).group g = (visitGroup (some p) partner u g).group g

theorem visitHeard_turn (p : Station) (partner : Bool) (g : GroupId) (s : State) :
    ∃ u, HeardTurn p partner g s u := by
  obtain ⟨l, l', order, -, before, after⟩ := four_split g
  have split_ : visitGroups (some p) partner s = l'.foldl (visitGroup (some p) partner)
      (visitGroup (some p) partner (l.foldl (visitGroup (some p) partner) s) g) := by
    unfold visitGroups
    rw [order, List.foldl_append]
    rfl
  have each := visitGroup_moves (some p) partner
  refine ⟨l.foldl (visitGroup (some p) partner) s, foldl_moves each l s, foldl_others each before s, ?_, ?_, ?_⟩
  · unfold visitHeard
    rw [split_]
    exact (foldl_moves each l' _).trans (settle_moves _)
  · rw [split_]
    exact foldl_keeps ControlKept .refl .trans _ (visitGroup_control (some p) partner) l' _
  · rw [split_]
    exact foldl_others each after _

section

variable {s : State} {g : GroupId} {p : Station} {x : BeaconGroup} (partner : Bool)

/-- The settling leaves a group that is not CLAIMING, and VACANT at most within its backoff, as the visit left it. -/
theorem HeardTurn.settled {u : State} (turn : HeardTurn p partner g s u)
    (claiming : ((visitGroup (some p) partner u g).group g).state ≠ .claiming)
    (resting : ((visitGroup (some p) partner u g).group g).state ≠ .vacant
      ∨ ((visitGroup (some p) partner u g).group g).backoff = true) :
    ∃ timer reported, (visitHeard p partner s).group g =
      { (visitGroup (some p) partner u g).group g with lineTimer := timer, lineReported := reported } := by
  have kept := turn.kept
  rw [← kept] at claiming resting ⊢
  exact settle_still claiming resting

theorem GroupRecord.Follows.still {r : GroupRecord} {epoch : Epoch} (follows : r.Follows p epoch) :
    r.state ≠ .claiming ∧ (r.state ≠ .vacant ∨ r.backoff = true) ∧ r.state ≠ .holding := by
  rw [follows.state]
  exact ⟨nofun, .inl nofun, nofun⟩

/-- R141. -/
theorem visitHeard_unowned (shows : s.Shows g p x) (held : x.state.held = true)
    (unowned : (s.group g).state = .vacant ∨ (s.group g).state = .following) :
    ((visitHeard p partner s).group g).Follows p (serialMax (s.group g).epoch x.epoch) := by
  obtain ⟨u, turn⟩ := visitHeard_turn p partner g s
  rw [← turn.record] at unowned ⊢
  have follows := visit_unowned partner (turn.reached.shows shows) held unowned
  obtain ⟨_, _, settled⟩ := turn.settled partner follows.still.1 follows.still.2.1
  rw [settled]
  exact ⟨follows.state, follows.owner, follows.epoch⟩

/-- R142, R109. -/
theorem visitHeard_loses (shows : s.Shows g p x) (following : (s.group g).state = .following)
    (owner : (s.group g).owner = some p) (lost : keepsOwner x.state = false) :
    ((visitHeard p partner s).group g).owner = none ∧ Claimable ((visitHeard p partner s).group g).state
      ∧ ((visitHeard p partner s).group g).epoch = serialMax (s.group g).epoch x.epoch
      ∧ (visitHeard p partner s).recon.synced.get g = false := by
  obtain ⟨u, turn⟩ := visitHeard_turn p partner g s
  rw [← turn.record] at following owner ⊢
  obtain ⟨vacant, ownerless, epoch, unsynced⟩ :=
    visit_loses partner (turn.reached.shows shows) following owner lost
  rw [← turn.kept] at vacant ownerless epoch
  obtain ⟨state, none_, same⟩ := settle_vacant vacant ownerless
  exact ⟨none_, state, same.trans epoch, turn.rest.unsynced g unsynced⟩

/-- R145. -/
theorem visitHeard_claimant {e : Epoch} (shows : s.Shows g p x) (claiming : (s.group g).state = .claiming)
    (epoch : (s.group g).claimEpoch = some e) (held : x.state.held = true) (late : serialBefore x.epoch e = false) :
    ((visitHeard p partner s).group g).Follows p (serialMax (s.group g).epoch x.epoch)
      ∧ ((visitHeard p partner s).group g).claimEpoch = none ∧ ((visitHeard p partner s).group g).backoff = true
      ∧ (visitHeard p partner s).unclaimed g := by
  obtain ⟨u, turn⟩ := visitHeard_turn p partner g s
  rw [← turn.record] at claiming epoch ⊢
  obtain ⟨follows, claim, backoff, unclaimed⟩ :=
    visit_claimant partner (turn.reached.shows shows) claiming epoch held late
  have waiting : (visitHeard p partner s).unclaimed g := by
    refine settle_unclaimed ?_ (turn.control.unclaimed unclaimed)
    rw [turn.kept]
    exact follows.state
  obtain ⟨_, _, settled⟩ := turn.settled partner follows.still.1 follows.still.2.1
  rw [settled]
  exact ⟨⟨follows.state, follows.owner, follows.epoch⟩, claim, backoff, waiting⟩

theorem Moves.precedence {passes : Bool} {t : State} (all : Moves passes s t) (same : t.group g = s.group g) :
    t.precedence g = s.precedence g := by
  unfold State.precedence
  rw [same, all.setup, all.me]

/-- R157: the station of lower standing. -/
theorem visitHeard_gives (shows : s.Shows g p x) (holds : s.holds g = true) (held : x.state.held = true)
    (higher : standingHigher x.epoch (shownPrecedence x p) (s.group g).epoch (s.precedence g) = true) :
    ((visitHeard p partner s).group g).Follows p (serialMax (s.group g).epoch x.epoch)
      ∧ ((visitHeard p partner s).group g).adoptionOpen = false
      ∧ (visitHeard p partner s).port.flags.getLsbD 2 = true := by
  obtain ⟨u, turn⟩ := visitHeard_turn p partner g s
  have holdsNow : u.holds g = true := by
    unfold State.holds at holds ⊢
    rw [turn.record]
    exact holds
  rw [← turn.reached.precedence turn.record] at higher
  rw [← turn.record] at higher ⊢
  obtain ⟨follows, adoption, release, -⟩ :=
    visit_gives partner (turn.reached.shows shows) holdsNow held higher
  obtain ⟨_, _, settled⟩ := turn.settled partner follows.still.1 follows.still.2.1
  rw [settled]
  exact ⟨⟨follows.state, follows.owner, follows.epoch⟩, adoption, turn.rest.flagged (by decide) release⟩

/-- R157: the station of higher standing. -/
theorem visitHeard_stays (shows : s.Shows g p x) (holding : (s.group g).state = .holding)
    (held : x.state.held = true)
    (lower : standingHigher x.epoch (shownPrecedence x p) (s.group g).epoch (s.precedence g) = false)
    (still : s.port.setup.preempt.get g = false ∨ s.port.setup.preemptDelay.get g ≠ 0) :
    ((visitHeard p partner s).group g).state = .holding
      ∧ ((visitHeard p partner s).group g).epoch = (s.group g).epoch
      ∧ ((visitHeard p partner s).group g).adoptionOpen = true
      ∧ ((visitHeard p partner s).group g).adoptionTimer = true := by
  obtain ⟨u, turn⟩ := visitHeard_turn p partner g s
  rw [← turn.reached.precedence turn.record] at lower
  rw [← turn.record] at lower holding ⊢
  rw [← turn.reached.setup] at still
  obtain ⟨_, visited⟩ := visit_stays partner (turn.reached.shows shows) holding held lower still
  obtain ⟨_, _, settled⟩ := turn.settled partner (by rw [visited, holding]; nofun)
    (by rw [visited, holding]; exact .inl nofun)
  rw [settled, visited]
  exact ⟨holding, rfl, rfl, rfl⟩

/-- R157: every dual ownership raises SPLIT. -/
theorem visitHeard_split (shows : s.Shows g p x) (holds : s.holds g = true) (held : x.state.held = true) :
    (visitHeard p partner s).port.flags.getLsbD 3 = true := by
  obtain ⟨u, turn⟩ := visitHeard_turn p partner g s
  have holdsNow : u.holds g = true := by
    unfold State.holds at holds ⊢
    rw [turn.record]
    exact holds
  exact turn.rest.flagged (by decide) (visit_split partner (turn.reached.shows shows) holdsNow held)

/-- R155, R164: a yield given up by a station that may hold the group. -/
theorem visitHeard_resumes (run : s.phase = .running) (shows : s.Shows g p x)
    (yielding : (s.group g).state = .yielding) (successor : (s.group g).successor = some p)
    (released : x.state.held = false) (ineligible : x.eligible = false) (may : s.mayHold g)
    (still : s.port.setup.preempt.get g = false ∨ s.port.setup.preemptDelay.get g ≠ 0) :
    ((visitHeard p partner s).group g).state = .holding ∧ ((visitHeard p partner s).group g).owner = some s.me
      ∧ ((visitHeard p partner s).group g).tenure = some .resumed
      ∧ ((visitHeard p partner s).group g).adoptionOpen = true
      ∧ (visitHeard p partner s).port.flags.getLsbD 1 = true := by
  obtain ⟨u, turn⟩ := visitHeard_turn p partner g s
  rw [← turn.record] at yielding successor
  rw [← turn.reached.mayHold turn.record, ← eligible_of_held (turn.reached.phase.trans run)
    (holds_iff.mpr (.inr yielding))] at may
  rw [← turn.reached.setup] at still
  have shown := turn.reached.shows shows
  obtain ⟨state, owner, tenure, adoption, flag⟩ := visit_resumes partner shown
    (yieldLost_ineligible shown yielding successor ineligible) released may still
  obtain ⟨_, _, settled⟩ := turn.settled partner (by rw [state]; nofun) (by rw [state]; exact .inl nofun)
  rw [settled]
  exact ⟨state, owner.trans (congrArg some turn.reached.me), tenure, adoption, turn.rest.flagged (by decide) flag⟩

/-- R155, R151: a yield given up by a station that may not. -/
theorem visitHeard_releases (run : s.phase = .running) (shows : s.Shows g p x)
    (yielding : (s.group g).state = .yielding) (successor : (s.group g).successor = some p)
    (released : x.state.held = false) (ineligible : x.eligible = false) (mayNot : ¬ s.mayHold g) :
    ((visitHeard p partner s).group g).state = .vacant ∧ ((visitHeard p partner s).group g).owner = none
      ∧ ((visitHeard p partner s).group g).backoff = true
      ∧ (visitHeard p partner s).port.flags.getLsbD 2 = true := by
  obtain ⟨u, turn⟩ := visitHeard_turn p partner g s
  rw [← turn.record] at yielding successor
  rw [← turn.reached.mayHold turn.record, ← eligible_of_held (turn.reached.phase.trans run)
    (holds_iff.mpr (.inr yielding)), Bool.not_eq_true] at mayNot
  have shown := turn.reached.shows shows
  obtain ⟨state, owner, backoff, flag⟩ := visit_releases partner shown
    (yieldLost_ineligible shown yielding successor ineligible) released mayNot
  obtain ⟨_, _, settled⟩ := turn.settled partner (by rw [state]; nofun) (.inr backoff)
  rw [settled]
  exact ⟨state, owner, backoff, turn.rest.flagged (by decide) flag⟩

end

/-! ### The taking of a BEACON -/

/-- R131 to R134: the change of the records, short of a clear that fails. -/
def beaconTold (p : Station) (b : Beacon) (s : State) : State := told (heardRecords p b s) (s.heardChange p b) s

/-- The state in which the groups are visited: the BEACON of the partner has been taken too. -/
def beaconHeard (p : Station) (b : Beacon) (s : State) : State :=
  if (beaconTold p b s).life.active && (beaconTold p b s).fromPartner p then partnerBeacon b (beaconTold p b s)
  else beaconTold p b s

theorem beaconHeard_heard (p : Station) (b : Beacon) (s : State) :
    PartnerHeard (beaconTold p b s) (beaconHeard p b s) := by
  unfold beaconHeard
  split
  · exact partnerBeacon_heard b _
  · exact .refl _

/-- R88: only the BEACON of the partner reaches the journal. -/
theorem beaconHeard_journal {p : Station} {s : State} (b : Beacon)
    (stranger : (beaconTold p b s).presentPartner ≠ some p) :
    (beaconHeard p b s).journal = (beaconTold p b s).journal := by
  unfold beaconHeard State.fromPartner
  rw [decide_eq_false stranger, Bool.and_false]
  rfl

/-- A BEACON enters no FAULT unless it ends the partner's presence while a clear fails. -/
theorem takeBeacon_revisits {p : Station} {b : Beacon} {s : State} (ok : s.presentPartner = none
      ∨ (takeBeacon p b s).presentPartner = s.presentPartner ∨ s.table.clears) : takeBeacon p b s =
    revisit s (if s.presence.fingerprint = some b.fingerprint then some p else none) (beaconHeard p b s) := by
  rw [takeBeacon_presentPartner] at ok
  exact congrArg (fun c : State => revisit s
    (if s.presence.fingerprint = some b.fingerprint then some p else none)
    (if c.life.active && c.fromPartner p then partnerBeacon b c else c)) (changeRecords_told ok)

/-- The three stages of the taking of a BEACON: the records, the partner's BEACON, the groups. -/
structure BeaconTaken (p : Station) (b : Beacon) (s c h t : State) : Prop where
  tells : Told (heardRecords p b s) (s.heardChange p b) s c
  heard : PartnerHeard c h
  moves : Moves true h t

theorem takeBeacon_taken {p : Station} {b : Beacon} {s : State} (ok : s.presentPartner = none
      ∨ (takeBeacon p b s).presentPartner = s.presentPartner ∨ s.table.clears) :
    BeaconTaken p b s (beaconTold p b s) (beaconHeard p b s) (takeBeacon p b s) := by
  refine ⟨told_tells _ _ s, beaconHeard_heard p b s, ?_⟩
  rw [takeBeacon_revisits ok]
  exact revisit_moves s _ _

section

variable {p : Station} {b : Beacon} {s c h t : State} (taken : BeaconTaken p b s c h t)

include taken

theorem BeaconTaken.presence : t.presence = c.presence := by
  obtain ⟨_, _, _, _, _, eq⟩ := taken.heard.frame
  rw [taken.moves.presence, eq]

theorem BeaconTaken.designation : t.presence.records = settledRecords (heardRecords p b s) s
    ∧ t.presence.partner = (designate s.straps.role (heardRecords p b s)).partner
    ∧ t.presence.witness = (designate s.straps.role (heardRecords p b s)).witness
    ∧ t.presence.watched = (designate s.straps.role (heardRecords p b s)).watched := by
  obtain ⟨_, _, _, _, _, _, _, _, _, eq⟩ := taken.tells.frame
  rw [taken.presence, eq]
  exact ⟨rfl, rfl, rfl, rfl⟩

theorem BeaconTaken.peer (q : Station) : t.peer q = ((heardRecords p b s).get q).settled
    ((designate s.straps.role (heardRecords p b s)).includes q) := by
  unfold State.peer
  rw [taken.designation.1, settledRecords_get]

/-- The frame of the statement. -/
theorem BeaconTaken.frame : t = { s with
    table := t.table, xlate := t.xlate, journal := t.journal, receive.expectation := t.receive.expectation
    receive.want := t.receive.want, receive.needSince := t.receive.needSince
    recon := { t.recon with digestTimer := s.recon.digestTimer, sweep := s.recon.sweep }
    bus.control := t.bus.control, bus.transmitting := t.bus.transmitting, bus.digest := t.bus.digest
    presence.records := t.presence.records, presence.partner := t.presence.partner
    presence.witness := t.presence.witness, presence.watched := t.presence.watched
    presence.life := t.presence.life
    own.groups := t.own.groups, own.quorumTimer := t.own.quorumTimer
    port.flags := t.port.flags, port.busCapture := t.port.busCapture } := by
  obtain ⟨tells, heard, moves⟩ := taken
  obtain ⟨⟨_, _, _, _, _, _, _, _, eq⟩, timer, sweep⟩ := moves.span
  obtain ⟨_, _, _, _, _, shape⟩ := heard.frame
  obtain ⟨_, _, _, _, _, _, _, _, _, origin⟩ := tells.frame
  rw [← (timer.trans heard.digestTimer).trans tells.digestTimer, ← (sweep.trans heard.sweep).trans tells.sweep, eq,
    shape, origin]
  rfl

/-- R131: a mismatched fingerprint. -/
theorem BeaconTaken.sender_mismatched (other : s.presence.fingerprint ≠ some b.fingerprint) :
    t.peer p = ⟨.mismatched, some b.role, true, (s.peer p).lastBeacon⟩ := by
  have record : (heardRecords p b s).get p = ⟨.mismatched, some b.role, true, (s.peer p).lastBeacon⟩ := by
    unfold heardRecords Peer.hearBeacon
    rw [Four.get_set_same, if_neg other]
  rw [taken.peer, record]
  rfl

/-- R131, R133: the fingerprint of this station. -/
theorem BeaconTaken.sender_matched (same : s.presence.fingerprint = some b.fingerprint) : t.peer p =
    Peer.settled ⟨.surplus, some b.role, true, some b⟩ ((designate s.straps.role (heardRecords p b s)).includes p) := by
  have record : (heardRecords p b s).get p = ⟨.surplus, some b.role, true, some b⟩ := by
    unfold heardRecords Peer.hearBeacon
    rw [Four.get_set_same, if_pos same]
  rw [taken.peer, record]

/-- R131, R133: the record of a sender with the fingerprint of this station. -/
theorem BeaconTaken.sender_fields (same : s.presence.fingerprint = some b.fingerprint) :
    ((t.peer p).state = .present ↔
        t.presence.partner = some p ∨ t.presence.witness = some p ∨ t.presence.watched.get p = true)
      ∧ ((t.peer p).state = .present ∨ (t.peer p).state = .surplus)
      ∧ (t.peer p).role = some b.role ∧ (t.peer p).deadTimer = true ∧ (t.peer p).lastBeacon = some b := by
  obtain ⟨-, partner, witness, watched⟩ := taken.designation
  rw [partner, witness, watched, ← includes_iff, taken.sender_matched same]
  cases (designate s.straps.role (heardRecords p b s)).includes p with
  | true => exact ⟨⟨fun _ => rfl, fun _ => rfl⟩, .inl rfl, rfl, rfl, rfl⟩
  | false => exact ⟨⟨nofun, nofun⟩, .inr rfl, rfl, rfl, rfl⟩

theorem BeaconTaken.others {q : Station} (ne : q ≠ p) : t.peer q =
    (s.peer q).settled ((designate s.straps.role (heardRecords p b s)).includes q) := by
  rw [taken.peer, heardRecords, Four.get_set_other _ _ ne]
  rfl

/-- R133: every record that stands is LOST, PRESENT or SURPLUS by its timer and the designation. -/
theorem BeaconTaken.standing {q : Station} (stands : (t.peer q).stands) : (t.peer q).state =
    if (t.peer q).deadTimer = false then .lost
    else if (designate s.straps.role (heardRecords p b s)).includes q = true then .present else .surplus := by
  have record := taken.peer q
  rw [record, settled_stands] at stands
  rw [record, settled_deadTimer, settled_state _ stands]
  cases ((heardRecords p b s).get q).deadTimer <;> rfl

theorem BeaconTaken.designates (q : Station) :
    (designate s.straps.role (heardRecords p b s)).includes q = true ↔
      t.presence.partner = some q ∨ t.presence.witness = some q ∨ t.presence.watched.get q = true := by
  obtain ⟨-, partner, witness, watched⟩ := taken.designation
  rw [partner, witness, watched, includes_iff]

theorem BeaconTaken.candidate (q : Station) (role : Role) :
    ((settledRecords (heardRecords p b s) s).get q).candidate role = true ↔
      (t.peer q).role = some role ∧ (t.peer q).stands := by
  rw [candidate_iff, ← taken.designation.1]
  rfl

theorem BeaconTaken.presentPartner : t.presentPartner = c.presentPartner := by
  unfold State.presentPartner State.peer
  rw [taken.presence]

/-- R183. -/
theorem BeaconTaken.life : t.life = c.life := congrArg Presence.life taken.presence

theorem BeaconTaken.table : t.table = c.table := by
  obtain ⟨_, _, _, _, _, shape⟩ := taken.heard.frame
  obtain ⟨⟨_, _, _, _, _, _, _, _, eq⟩, -, -⟩ := taken.moves.span
  rw [eq, shape]

theorem BeaconTaken.journal : t.journal = h.journal := by
  obtain ⟨⟨_, _, _, _, _, _, _, _, eq⟩, -, -⟩ := taken.moves.span
  rw [eq]

theorem BeaconTaken.flags : h.port = c.port := by
  obtain ⟨_, _, _, _, _, shape⟩ := taken.heard.frame
  rw [shape]

theorem BeaconTaken.quorumPresent : t.quorumPresent = c.quorumPresent := by
  have records := congrArg Presence.records taken.presence
  obtain ⟨_, _, _, _, _, shape⟩ := taken.heard.frame
  obtain ⟨⟨_, _, _, _, _, _, _, _, eq⟩, -, -⟩ := taken.moves.span
  unfold State.quorumPresent
  rw [records, eq, shape]

/-- R92, R109: the BEACON ends the partner's presence. -/
theorem BeaconTaken.ended (clears : s.table.clears) (was : s.presentPartner.isSome = true)
    (changed : t.presentPartner ≠ s.presentPartner) :
    t.journal = ⟨[], s.journal.next, s.journal.next, s.journal.next, false, false⟩
      ∧ t.recon.synced = Four.all false
      ∧ ∀ k, t.entryAt k = (s.entryAt k).map fun e => { e with pending := none } := by
  rw [taken.presentPartner] at changed
  obtain ⟨table, journal, synced⟩ := taken.tells.ended was changed.symm
  have cleared : c.journal = ⟨[], s.journal.next, s.journal.next, s.journal.next, false, false⟩ := journal
  refine ⟨taken.journal.trans ((taken.heard.cleared _ cleared).trans cleared),
    taken.moves.synced_empty (taken.heard.unsynced synced), fun k => ?_⟩
  rw [← entryAt_journalClear clears k]
  exact congrArg (fun t : Table => (t.slot k).map Slot.entry) (taken.table.trans table)

/-- The BEACON ends no partner's presence. -/
theorem BeaconTaken.unended (kept : ¬(s.presentPartner.isSome = true ∧ t.presentPartner ≠ s.presentPartner)) :
    c.table = s.table ∧ c.journal = s.journal := by
  rw [taken.presentPartner] at kept
  cases before : s.presentPartner with
  | none => exact taken.tells.kept before
  | some q =>
    have same : c.presentPartner = s.presentPartner := by
      by_contra changed
      exact kept ⟨by rw [before]; rfl, changed⟩
    obtain ⟨table, journal, -⟩ := taken.tells.same same.symm
    exact ⟨table, journal⟩

/-- R134. -/
theorem BeaconTaken.presenceFlag : t.port.flags.getLsbD 5 = true ↔ s.port.flags.getLsbD 5 = true
    ∨ (∃ q, (t.peer q).state ≠ (s.peer q).state) ∨ s.heardChange p b = true := by
  rw [taken.moves.presenceFlag, taken.flags, taken.tells.flag, Bool.or_eq_true, Bool.or_eq_true, recordsDiffer_iff,
    ← taken.designation.1, or_comm (a := s.heardChange p b = true)]
  rfl

theorem BeaconTaken.group (g : GroupId) : h.group g = s.group g := by
  obtain ⟨_, _, _, _, _, shape⟩ := taken.heard.frame
  obtain ⟨_, _, _, _, _, _, _, _, _, origin⟩ := taken.tells.frame
  rw [shape, origin]
  rfl

/-- What the groups are visited with: the straps, the phase and the setup are those of before. -/
theorem BeaconTaken.setting : h.straps = s.straps ∧ h.phase = s.phase ∧ h.port.setup = s.port.setup := by
  obtain ⟨_, _, _, _, _, shape⟩ := taken.heard.frame
  obtain ⟨_, _, _, _, _, _, _, _, _, origin⟩ := taken.tells.frame
  rw [shape, origin]
  exact ⟨rfl, rfl, rfl⟩

theorem BeaconTaken.precedence (g : GroupId) : h.precedence g = s.precedence g := by
  obtain ⟨straps, -, setup⟩ := taken.setting
  unfold State.precedence State.me
  rw [straps, setup, taken.group]

/-- R139: eligibility at the visit, by the station state and the quorum that the BEACON leaves. -/
theorem BeaconTaken.mayHold (g : GroupId) : h.mayHold g ↔
    s.straps.role = .firewall ∧ (t.life = .member ∨ t.life = .isolated) ∧ s.port.isSealed = true
      ∧ s.port.setup.groups.get g = true ∧ (s.group g).health ≠ 0 ∧ (s.group g).hold = false
      ∧ s.port.lapsed = false ∧ t.quorumPresent = true := by
  have record := taken.group g
  obtain ⟨⟨_, _, _, _, _, _, _, _, eq⟩, -, -⟩ := taken.moves.span
  obtain ⟨_, _, _, _, _, shape⟩ := taken.heard.frame
  obtain ⟨_, _, _, _, _, _, _, _, _, origin⟩ := taken.tells.frame
  unfold State.mayHold
  rw [record, eq, shape, origin]
  rfl

/-- What the BEACON of a PRESENT sender shows of each group. -/
theorem BeaconTaken.shows {g : GroupId} (present : (t.peer p).state = .present)
    (alone : ∀ q, q ≠ p → (t.peer q).state = .present → (t.peer q).showsHeld g = false) :
    s.presence.fingerprint = some b.fingerprint ∧ h.Shows g p (b.groups.get g) := by
  have same : s.presence.fingerprint = some b.fingerprint := by
    by_contra other
    rw [taken.sender_mismatched other] at present
    cases present
  have peers (q : Station) : t.peer q = h.peer q := taken.moves.peer q
  simp only [peers] at present alone
  refine ⟨same, present, ?_, alone⟩
  unfold Peer.groupShown
  rw [← peers, taken.sender_matched same, settled_lastBeacon]
  rfl

end

/-- R134: the partner's heard set changes whether it includes this station. -/
theorem heardChange_iff (p : Station) (b : Beacon) (s : State) : s.heardChange p b = true ↔
    s.presence.partner = some p ∧ s.presence.fingerprint = some b.fingerprint
      ∧ ∃ old, (s.peer p).lastBeacon = some old ∧ old.heard.get s.me ≠ b.heard.get s.me := by
  unfold State.heardChange
  rw [Bool.and_eq_true, Bool.and_eq_true, decide_eq_true_eq, decide_eq_true_eq, and_assoc]
  cases (s.peer p).lastBeacon with
  | none => simp
  | some old => simp

/-- The BEACON of a PRESENT sender is visited at every group. -/
theorem takeBeacon_visits {p : Station} {b : Beacon} {s : State} (ok : s.presentPartner = none
      ∨ (takeBeacon p b s).presentPartner = s.presentPartner ∨ s.table.clears) (active : s.life.active = true)
    (same : s.presence.fingerprint = some b.fingerprint) (present : ((takeBeacon p b s).peer p).state = .present) :
    ∃ partner, takeBeacon p b s = visitHeard p partner (beaconHeard p b s) := by
  have taken := takeBeacon_taken ok
  rw [taken.moves.peer] at present
  have live : (beaconHeard p b s).life.active = true := by
    obtain ⟨_, _, _, _, _, shape⟩ := taken.heard.frame
    have life : (beaconHeard p b s).life = (beaconTold p b s).life := by
      rw [shape]
      rfl
    rw [life, taken.tells.active]
    exact active
  have source : (some p).filter (fun q => decide (((beaconHeard p b s).peer q).state = .present)) = some p := by
    rw [Option.filter_some, decide_eq_true present]
    rfl
  rw [takeBeacon_revisits ok, if_pos same]
  unfold revisit
  dsimp only
  rw [source]
  refine ⟨_, if_pos ?_⟩
  rw [live]
  rfl

theorem beaconTold_life (p : Station) (b : Beacon) (s : State) :
    (s.life = .listen → (beaconTold p b s).life = .listen)
    ∧ (s.life = .member ∨ s.life = .isolated → (beaconTold p b s).life =
        if countPresent (settledRecords (heardRecords p b s) s) = 0 then .isolated else .member) :=
  told_life (heardRecords p b s) (s.heardChange p b) s

theorem beaconTold_quorum {p : Station} {b : Beacon} {s : State} (firewall : s.straps.role = .firewall)
    (crossed : s.quorumPresent ≠ (beaconTold p b s).quorumPresent) :
    (beaconTold p b s).port.flags.getLsbD 4 = true := told_quorum (s.heardChange p b) firewall crossed

theorem joined_of_active {l : Life} (active : l.active = true) (listen : l ≠ .listen) :
    l = .member ∨ l = .isolated := by
  cases l <;> simp_all [Life.active]

/-- R158: a group that the station does not hold is not driven. -/
theorem drive_unheld {g : GroupId} {t : State}
    (free : (t.group g).state = .following ∨ (t.group g).state = .vacant) : t.drive g = false := by
  unfold State.drive State.holds
  rcases free with state | state <;> rw [state] <;> exact Bool.and_false _

/-- Settles O44: by the change of the records, the partner's BEACON after it, and the visit of the groups, where each
group has one turn and is not reached by the others. -/
theorem beaconsUpdateTheRecord : Obligations.BeaconsUpdateTheRecord := by
  intro p b s run takes other
  refine ⟨takeBeacon p b s, congrArg Host.Outcome.next (onFrame_other _ p _ s run takes other), fun ok => ?_⟩
  have active : s.life.active = true := (Bool.and_eq_true_iff.mp takes).1
  have taken := takeBeacon_taken ok
  have visits := takeBeacon_visits ok active
  have unreached := beaconHeard_journal (p := p) (s := s) b
  obtain ⟨listens, joins⟩ := beaconTold_life p b s
  have crosses := beaconTold_quorum (p := p) (b := b) (s := s)
  generalize takeBeacon p b s = t at *
  generalize beaconHeard p b s = h at *
  generalize beaconTold p b s = c at *
  intro standing candidate lowest designated ended runsOn
  have designates := taken.designates
  obtain ⟨records, partner, witness, watched⟩ := taken.designation
  refine ⟨taken.sender_mismatched, fun same => ?_, fun q ne => ?_, fun q stands => ?_, fun firewall q => ?_,
    fun role => ?_, fun ⟨was, changed⟩ => ?_, fun kept => ?_, fun listen => ?_, fun joined => ?_,
    fun firewall crossed => ?_, ?_, fun g present alone => ?_, taken.frame⟩
  · exact taken.sender_fields same
  · rw [taken.others ne]
    refine ⟨settled_role _ _, settled_deadTimer _ _, settled_lastBeacon _ _, fun out => settled_kept _ out,
      fun absent mismatched => ?_⟩
    have stands := (settled_stands ((designate s.straps.role (heardRecords p b s)).includes q)).mpr
      (stands_of_not absent mismatched)
    rw [← taken.others ne] at stands
    exact stands
  · rw [taken.standing stands, if_congr Iff.rfl rfl (if_congr (designates q) rfl rfl)]
  · simp only [partner, witness, watched, lowest, candidate, standing]
    have designation := designate_firewall (records := heardRecords p b s) firewall q
    simp only [taken.candidate] at designation
    exact designation
  · rw [partner, witness, watched]
    have designation := designate_witness (records := heardRecords p b s) role
    simp only [taken.candidate] at designation
    exact designation
  · refine taken.ended ?_ was changed
    rcases ok with none_ | same | clears
    · rw [none_] at was
      cases was
    · exact absurd same changed
    · exact clears
  · obtain ⟨table, journal⟩ := taken.unended kept
    refine ⟨taken.table.trans table, fun stranger => ?_⟩
    rw [taken.presentPartner] at stranger
    exact taken.journal.trans ((unreached stranger).trans journal)
  · exact taken.life.trans (listens listen)
  · rw [taken.life, joins (joined_of_active active joined), records]
  · rw [taken.quorumPresent] at crossed
    refine taken.moves.flagged (by decide) ?_
    rw [taken.flags]
    exact crosses firewall crossed
  · rw [taken.presenceFlag, heardChange_iff]
  · obtain ⟨same, shows⟩ := taken.shows present alone
    obtain ⟨visited, eq⟩ := visits same present
    have record := taken.group g
    have precedence := taken.precedence g
    obtain ⟨straps, phase, setup⟩ := taken.setting
    have running : h.phase = .running := phase.trans run
    have stands : h.holds g = s.holds g := by
      unfold State.holds
      rw [record]
    have me : h.me = s.me := congrArg Straps.station straps
    have rests (calm : ¬ runsOn g) : h.port.setup.preempt.get g = false ∨ h.port.setup.preemptDelay.get g ≠ 0 := by
      rw [setup]
      exact (not_and_or.mp calm).imp_left Bool.eq_false_iff.mpr
    intro r x follows mayHold
    have may : h.mayHold g ↔ mayHold := taken.mayHold g
    refine ⟨fun unowned held => ?_, fun following owner lost => ?_, fun e claiming epoch held late => ?_,
      fun holds held => ⟨?_, fun higher => ?_, fun lower holding calm => ?_⟩,
      fun yielding successor released ineligible => ⟨fun holds calm => ?_, fun mayNot => ?_⟩⟩
    · have kept := visitHeard_unowned visited shows held (by rw [record]; exact unowned)
      rw [← eq, record] at kept
      exact ⟨kept.state, kept.owner, kept.epoch⟩
    · have loses := visitHeard_loses visited shows (by rw [record]; exact following) (by rw [record]; exact owner) lost
      rw [← eq, record] at loses
      exact loses
    · obtain ⟨kept, claim, backoff, unclaimed⟩ := visitHeard_claimant visited shows (by rw [record]; exact claiming)
        (by rw [record]; exact epoch) held late
      rw [← eq] at kept claim backoff unclaimed
      rw [record] at kept
      exact ⟨⟨kept.state, kept.owner, kept.epoch⟩, claim, backoff, unclaimed⟩
    · have split_ := visitHeard_split visited shows (stands.trans holds) held
      rw [← eq] at split_
      exact split_
    · obtain ⟨kept, adoption, release⟩ := visitHeard_gives visited shows (stands.trans holds) held
        (by rw [record, precedence]; exact higher)
      rw [← eq] at kept adoption release
      rw [record] at kept
      exact ⟨⟨kept.state, kept.owner, kept.epoch⟩, drive_unheld (.inl kept.state), adoption, release⟩
    · have stays := visitHeard_stays visited shows (by rw [record]; exact holding) held
        (by rw [record, precedence]; exact lower) (rests calm)
      rw [← eq, record] at stays
      exact stays
    · have resumes := visitHeard_resumes visited running shows (by rw [record]; exact yielding)
        (by rw [record]; exact successor) released ineligible (may.mpr holds) (rests calm)
      rw [← eq, me] at resumes
      exact resumes
    · obtain ⟨state, owner, backoff, release⟩ := visitHeard_releases visited running shows
        (by rw [record]; exact yielding) (by rw [record]; exact successor) released ineligible (mt may.mp mayNot)
      rw [← eq] at state owner backoff release
      exact ⟨state, owner, backoff, drive_unheld (.inr state), release⟩

end Sys2Proof.Machine
end

