-- ==== Sys2Proof/Proofs/JournalRoom.lean ====
section
/-!
PROOFS. Every step keeps the journal within its capacity (R78).
-/

namespace Sys2Proof.Machine

open Sys2Proof

/-- Every step keeps what the operations on the journal keep. The two that write a whole journal, a reset and the clear
of a REJOIN, are left to show. -/
theorem JournalRule.stepRule {J : Straps → Journal → Prop} (rule : JournalRule J)
    (reset : ∀ straps cause bus table request s, OfJournal J (resetStation straps cause bus table request s))
    (rejoin : Keeps (OfJournal J) rejoinColumns) : StepRule (OfJournal J) where
  untouched := rule.untouched
  reset := reset
  fault := rule.keeps_enterFault
  rejoin := rejoin
  regroup _ _ _ _ ok := ok
  vacate _ _ _ ok := ok
  unsync _ _ _ ok := ok
  settle := rule.keeps_ownership fun s => (settle_frame s).ownership
  reactLoss g := rule.keeps_ownership (reactLoss_frame g)
  drainTest g := rule.keeps_ownership (drainTest_frame g)
  visitGroups source partner := rule.keeps_ownership (visitGroups_frame source partner)
  discardClaim g _ _ ok := rule.keeps_ownership (fun s => (abandonClaim_frame g _ _ s).ownership) ok
  mature g tenure _ _ ok := rule.keeps_ownership (enterHolding_frame g tenure) ok
  preempt g := rule.keeps_ownership (preemptNow_frame g)
  endDrain g _ _ ok := rule.keeps_ownership (endDrain_frame g false) ok
  release g _ _ ok := rule.keeps_ownership (release_frame g) ok
  claim c source := rule.keeps_ownership (takeClaim_frame c source)
  contest c := rule.keeps_ownership fun s => (takeContest_frame c s).ownership
  yield y source := rule.keeps_ownership fun s => (takeYield_frame y source s).ownership
  changeRecords := rule.keeps_changeRecords
  partnerBeacon _ b _ _ ok := rule.keeps_partnerBeacon b ok
  receipt _ n _ _ ok := rule.keeps_judgeReceipt n ok
  ownerCheck r _ _ ok := rule.keeps_ownerCheck r ok
  adopt r _ _ ok := rule.keeps_adoptInBucket r ok
  retire := rule.keeps_retireInBucket
  observe o _ _ ok := rule.keeps_joinObservation o ok
  visitEntry := rule.keeps_visitEntry
  acceptDelta := rule.keeps_acceptDelta
  takeDelta := rule.keeps_takeDelta
  join := rule.keeps_joinInHand
  handOver := rule.keeps_handOver
  purge := rule.keeps_purgeHead
  passEnd _ groups start _ _ _ ok := rule.keeps_takePassEnd groups start ok
  rejournal := rule.keeps_rejournal
  appendPassEnd := rule.keeps_appendPassEnd
  compose := rule.keeps_composeDelta
  receiptExpires := rule.keeps_receiptExpires
  stall := rule.keeps_stall

/-- R78: an append needs room, and nothing else makes the journal longer. -/
theorem journalRoom_rule : JournalRule fun _ j => j.records.length ≤ Config.journalSize where
  append {_ j} room body slot _ := by
    have free : j.records.length < Config.journalSize := Nat.not_le.mp (of_decide_eq_false room)
    rw [append_length]
    exact free
  rewrite {_ j f} ok _ := by rwa [List.length_map]
  clear _ := Nat.zero_le _
  receipt {_ j n} _ ok := by
    have dropped : (j.receipt n).records = j.records.drop (n - j.oldest).toNat := by
      unfold Journal.receipt Journal.carry
      dsimp only
      split <;> rfl
    rw [dropped]
    exact (List.drop_sublist _ _).length_le.trans ok
  compose {_ j} ok := by
    unfold Journal.composed
    rwa [List.length_map]
  goBack ok := ok

/-- The journal of the station is within its capacity. -/
def State.journalRoom (s : State) : Prop := OfJournal (fun _ j => j.records.length ≤ Config.journalSize) s

theorem step_journalRoom {s t : State} (ok : s.journalRoom) (run : step s = .next t) : t.journalRoom := by
  refine (journalRoom_rule.stepRule (fun straps cause bus table request s => ?_) fun s _ => ?_).step ok run
  · exact journalRoom_rule.untouched (raiseIf_untouched _ .line _) (Nat.zero_le _)
  · exact Nat.zero_le _

end Sys2Proof.Machine
end

