-- ==== Sys2Proof/Proofs/Loads.lean ====
section
/-!
PROOFS. What the capacities of the station bound beside the journal, and what the shared operations do to it: the
responses, the ownership controller, the entry to FAULT and the offers of a bucket operation.
-/

namespace Sys2Proof.Machine

open Sys2Proof

/-! ### The load of a station -/

/-- What the queues, slots and counters hold. `answers` counts the responses with the one that a REJOIN in progress is
to give (R27, R195). -/
structure Load where
  requests : Nat
  answers : Nat
  control : Nat
  relays : Nat
  collisions : Nat
  purge : Nat
  taking : Bool
  waiting : Nat
  fetch : Option Fetch
  resend : List Bucket
  prescaler : Nat
  millis : Nat

def State.load (s : State) : Load where
  requests := s.port.requests.length
  answers := s.port.responses.length + (if s.engine.inProgress.isSome then 1 else 0)
  control := s.bus.control.length
  relays := s.bus.relays.length
  collisions := s.bus.collisions
  purge := s.recon.purge.length
  taking := s.receive.taking.isSome
  waiting := s.receive.waiting.length
  fetch := s.recon.fetch
  resend := s.recon.resend
  prescaler := s.clock.prescaler
  millis := s.clock.millis

/-- The load is within the capacities, with the response queue at `k`. -/
structure Load.Within (k : Nat) (l : Load) : Prop where
  requests : l.requests ≤ Config.requestQueueSize
  answers : l.answers ≤ k
  control : l.control ≤ Config.controlQueueSize
  relays : l.relays ≤ Config.relayQueueSize
  collisions : l.collisions < Config.collisionLimit
  purge : l.purge ≤ Config.purgeQueueSize
  frames : l.waiting + (if l.taking then 1 else 0) ≤ 2
  fetch : ∀ f, l.fetch = some f → f.buckets.length ≤ Config.fetchBuckets
  resend : l.resend.Pairwise (· < ·)
  prescaler : l.prescaler < Config.prescalerPeriod
  millis : l.millis < Config.millisPerTick

def State.within (k : Nat) (s : State) : Prop := s.load.Within k

theorem bounded_iff (s : State) : s.bounded ↔ s.within Config.responseQueueSize ∧ s.journalRoom := by
  constructor
  · rintro ⟨requests, answers, control, relays, collisions, purge, frames, journal, fetch, resend, prescaler, millis⟩
    exact ⟨⟨requests, answers, control, relays, collisions, purge, frames, fetch, resend, prescaler, millis⟩, journal⟩
  · rintro ⟨⟨requests, answers, control, relays, collisions, purge, frames, fetch, resend, prescaler, millis⟩, journal⟩
    exact ⟨requests, answers, control, relays, collisions, purge, frames, journal, fetch, resend, prescaler, millis⟩

section

variable {k : Nat} {s t : State}

theorem within_of_load (same : t.load = s.load) (ok : s.within k) : t.within k := by
  unfold State.within
  rw [same]
  exact ok

/-! ### Flags, captures and responses -/

theorem raiseIf_load (c : Bool) (e : Event) (s : State) : (raiseIf c e s).load = s.load := by
  unfold raiseIf
  split <;> rfl

theorem raiseLines_load (s : State) : (raiseLines s).load = s.load := raiseIf_load _ .line s

theorem respond_load (x : Response) (s : State) :
    (respond x s).load = { s.load with answers := s.load.answers + 1 } := by
  have counted : (s.port.responses ++ [x]).length + (if s.engine.inProgress.isSome then 1 else 0) =
      s.load.answers + 1 := by
    rw [List.length_append]
    exact Nat.add_right_comm _ _ _
  rw [← counted]
  unfold respond
  dsimp only
  split <;> rfl

/-- An operation that gives one response. -/
def Answers (f : State → State) : Prop := ∀ ⦃k s⦄, s.within k → (f s).within (k + 1)

theorem respond_answers (x : Response) : Answers (respond x) := by
  intro k s ok
  unfold State.within
  rw [respond_load]
  exact { ok with answers := Nat.succ_le_succ ok.answers }

theorem answer_answers (r : Request) (status : Status) : Answers (answer r status) := respond_answers _

theorem badRequest_answers (r : Request) (f : FieldName) : Answers (badRequest r f) := respond_answers _

/-! ### The ownership controller -/

theorem startPass_load (s : State) : ∃ resend, (startPass s).load = { s.load with resend := resend }
    ∧ (s.load.resend.Pairwise (· < ·) → resend.Pairwise (· < ·)) := by
  have rising := allBuckets_rising
  unfold startPass
  generalize allBuckets = all at rising ⊢
  split
  · exact ⟨all, rfl, fun _ => rising⟩
  · exact ⟨s.recon.resend, rfl, id⟩

theorem startPass_within : Keeps (State.within k) startPass := by
  intro s ok
  obtain ⟨resend, same, rising⟩ := startPass_load s
  unfold State.within
  rw [same]
  exact { ok with resend := rising ok.resend }

/-- R101, R106: of the load, moves of the ownership controller change the control queue and the Resend Set. -/
theorem Moves.load {passes : Bool} (all : Moves passes s t) : ∃ control resend,
    t.load = { s.load with control := control, resend := resend }
      ∧ (s.load.resend.Pairwise (· < ·) → resend.Pairwise (· < ·)) := by
  refine all.lift (R := fun s t => ∃ control resend, t.load = { s.load with control := control, resend := resend }
    ∧ (s.load.resend.Pairwise (· < ·) → resend.Pairwise (· < ·))) (fun s => ⟨_, _, rfl, id⟩) (fun a b => ?_)
    fun one => ?_
  · obtain ⟨_, _, eq, rising⟩ := a
    obtain ⟨control, resend, eq', rising'⟩ := b
    rw [eq] at eq' rising'
    exact ⟨control, resend, eq', fun up => rising' (rising up)⟩
  · cases one with
    | pass =>
      obtain ⟨resend, same, rising⟩ := startPass_load _
      exact ⟨(State.load _).control, resend, same, rising⟩
    | _ => exact ⟨_, _, rfl, id⟩

theorem Moves.within {passes : Bool} (all : Moves passes s t)
    (room : s.bus.control.length ≤ Config.controlQueueSize → t.bus.control.length ≤ Config.controlQueueSize)
    (ok : s.within k) : t.within k := by
  obtain ⟨control, resend, same, rising⟩ := all.load
  have size : t.bus.control.length = control := congrArg Load.control same
  unfold State.within
  rw [same]
  exact { ok with control := size ▸ room ok.control, resend := rising ok.resend }

theorem GroupMoves.within {passes : Bool} {g : GroupId} (all : GroupMoves passes g s t)
    (room : s.bus.control.length ≤ Config.controlQueueSize → t.bus.control.length ≤ Config.controlQueueSize)
    (ok : s.within k) : t.within k :=
  Moves.within (GroupMoves.moves all) room ok

theorem setOwner_within (g : GroupId) (o : Option Station) : Keeps (State.within k) (setOwner g o) := fun s =>
  GroupMoves.within (setOwner_moves (passes := false) g o s) fun room => by rwa [setOwner_bus]

theorem leaveHolding_within (g : GroupId) (state : GroupState) (owner : Option Station) :
    Keeps (State.within k) (leaveHolding g state owner) := fun s =>
  GroupMoves.within (leaveHolding_moves (passes := false) g state owner s) (leaveHolding_control g state owner s).room

theorem release_within (g : GroupId) : Keeps (State.within k) (release g) := fun s =>
  GroupMoves.within (release_moves (passes := false) g s) (release_control g s).room

theorem enterHolding_within (g : GroupId) (tenure : Tenure) : Keeps (State.within k) (enterHolding g tenure) := fun s =>
  GroupMoves.within (enterHolding_moves g tenure s) (enterHolding_control g tenure s).room

theorem endDrain_within (g : GroupId) (drained : Bool) : Keeps (State.within k) (endDrain g drained) := fun s =>
  GroupMoves.within (endDrain_moves (passes := false) g drained s) (endDrain_control g drained s).room

theorem drainTest_within (g : GroupId) : Keeps (State.within k) (drainTest g) := fun s =>
  GroupMoves.within (drainTest_moves (passes := false) g s) (drainTest_control g s).room

theorem enterYielding_within (g : GroupId) (p : Station) : Keeps (State.within k) (enterYielding g p) := fun s =>
  GroupMoves.within (enterYielding_moves (passes := false) g p s) (enterYielding_control g p s).room

theorem reactLoss_within (g : GroupId) : Keeps (State.within k) (reactLoss g) := fun s =>
  GroupMoves.within (reactLoss_moves s g) (reactLoss_control g s).room

theorem abandonClaim_within (g : GroupId) (state : GroupState) (owner : Option Station) :
    Keeps (State.within k) (abandonClaim g state owner) := fun s =>
  GroupMoves.within (abandonClaim_moves (passes := false) g state owner s) (abandonClaim_control g state owner s).room

theorem startClaim_within (g : GroupId) (cause : ClaimCause) (epoch : Epoch) (note : Option Bool) :
    Keeps (State.within k) (startClaim g cause epoch note) := fun s =>
  GroupMoves.within (startClaim_moves (passes := false) g cause epoch note s) (startClaim_room_kept g cause epoch note)

theorem handControl_within (f : ControlFrame) : Keeps (State.within k) (handControl f) := fun s =>
  GroupMoves.within (handControl_moves (passes := false) 0 f s) (handControl_room_kept f)

theorem visitGroups_within (source : Option Station) (partner : Bool) :
    Keeps (State.within k) (visitGroups source partner) := fun s =>
  (visitGroups_moves source partner s).within (visitGroups_control source partner s).room

theorem settle_within : Keeps (State.within k) settle := fun s =>
  Moves.within (settle_moves (passes := false) s) settle_room_kept

/-! ### FAULT -/

theorem collisionLimit_pos : 0 < Config.collisionLimit := by decide

theorem faultColumns_within (fault : FaultKind) : Keeps (State.within k) (faultColumns fault) := fun _ ok =>
  { ok with
    control := Nat.zero_le _
    relays := Nat.zero_le _
    collisions := collisionLimit_pos
    purge := Nat.zero_le _
    frames := Nat.zero_le _
    fetch := nofun
    resend := .nil }

/-- R191: the answer takes the place that was kept for it. -/
theorem answerRejoin_within (fault : FaultKind) : Keeps (State.within k) (answerRejoin fault) := by
  intro s ok
  unfold answerRejoin
  split
  · rename_i busy
    have kept : s.port.responses.length + 1 ≤ k := by
      have answers := ok.answers
      unfold State.load at answers
      rwa [busy] at answers
    unfold State.within
    rw [respond_load]
    exact { ok with answers := kept }
  · exact ok

theorem enterFault_within (fault : FaultKind) : Keeps (State.within k) (enterFault fault) := by
  intro s ok
  unfold enterFault
  split
  · refine answerRejoin_within fault ?_
    exact within_of_load (raiseLines_load _) (faultColumns_within fault ok)
  · exact ok

theorem integrityFailure_within (c : Client) (b : Bucket) : Keeps (State.within k) (integrityFailure c b) := fun s ok =>
  enterFault_within .integrity (s := captureTable _ s) ok

theorem verifyClear_within : Keeps (State.within k) verifyClear := by
  intro s ok
  unfold verifyClear
  split
  · exact ok
  · exact integrityFailure_within _ _ ok

theorem bucketOperation_within (c : Client) (b : Bucket) {f : State → State} (ok : s.within k)
    (keeps : (f s).within k) : (bucketOperation c b f s).within k := by
  unfold bucketOperation
  split
  · exact keeps
  · exact integrityFailure_within c b ok

theorem resetStation_within (straps : Straps) (cause : Cause) (bus table request : Option Capture) (s : State) :
    (resetStation straps cause bus table request s).within k := by
  refine within_of_load (raiseLines_load _) ?_
  have prescaler : 0 < Config.prescalerPeriod := by decide
  have millis : 0 < Config.millisPerTick := by decide
  exact ⟨Nat.zero_le _, Nat.zero_le _, Nat.zero_le _, Nat.zero_le _, collisionLimit_pos, Nat.zero_le _, Nat.zero_le _,
    nofun, .nil, prescaler, millis⟩

/-! ### The offers of a bucket operation -/

/-- Insertions and removals leave the load alone. -/
theorem PlaceFrame.load (frame : PlaceFrame s t) : t.load = s.load := by
  obtain ⟨_, _, _, rfl, _⟩ := frame
  rfl

theorem insertAt_load (p : Place) (e : Entry) (s : State) : (insertAt p e s).load = s.load := by
  unfold insertAt
  split
  · exact (insertEntry_placeFrame _ e s).load
  · exact ((removeEntry_placeFrame _ s).trans (insertEntry_placeFrame _ e _)).load
  · rfl

/-- R83, R101: a bucket joins the Resend Set in its place. -/
theorem offer_within (h : Handle) : Keeps (State.within k) fun s => (offer h s).1 := by
  intro s ok
  dsimp only
  cases here : s.entryAt h with
  | none => rwa [offer_vacant here]
  | some e =>
    by_cases accepted : s.holds e.group = true ∧ s.partnerPresent = true
    · obtain ⟨held, present⟩ := accepted
      cases pending : e.pending with
      | some q =>
        rw [offer_coalesced here held present pending]
        exact ok
      | none =>
        cases room : s.journal.full with
        | true =>
          rw [offer_overflows here held present pending room]
          exact { ok with resend := addBucket_rising _ ok.resend }
        | false =>
          rw [offer_appends here held present pending room]
          exact ok
    · rwa [offer_declined here (by simpa only [not_and_or, Bool.not_eq_true] using accepted)]

theorem updateEntry_within (h : Handle) (old new : Entry) : Keeps (State.within k) (updateEntry h old new) := by
  intro s ok
  unfold updateEntry
  dsimp only
  split
  · exact offer_within h (s := writeEntry h new s) ok
  · exact ok

end

end Sys2Proof.Machine
end

