-- ==== Sys2Proof/Proofs/LoadsOfRequests.lean ====
section
/-!
PROOFS. The requests keep the capacities: the engine takes a request where a response has room, and each request gives
one response, now or at the end of its REJOIN (R27, R191, R195).
-/

namespace Sys2Proof.Machine

open Sys2Proof

section

variable {k : Nat} {s : State}

/-! ### Taking a request -/

theorem restartHostWatch_load (s : State) : (restartHostWatch s).load = s.load := rfl

theorem takeRequest_within : Keeps (State.within k) takeRequest := by
  intro s ok
  have fewer : s.port.requests.tail.length ≤ Config.requestQueueSize :=
    s.port.requests.length_tail ▸ (Nat.sub_le _ 1).trans ok.requests
  have cleared : State.within k { s with port.requests := s.port.requests.tail, port.lapsed := false } :=
    { ok with requests := fewer }
  have settled := settle_within cleared
  unfold takeRequest
  dsimp only
  split
  · exact within_of_load (restartHostWatch_load _) settled
  · exact within_of_load (restartHostWatch_load _) cleared

/-- R27: a request is taken where its response has room. -/
theorem nextRequest_room {r : Request} (next : s.nextRequest = some r) (ok : s.within Config.responseQueueSize) :
    s.within 15 := by
  unfold State.nextRequest at next
  split at next
  · rename_i free
    simp only [Bool.and_eq_true, Option.isNone_iff_eq_none, decide_eq_true_eq] at free
    obtain ⟨⟨idle, -⟩, room⟩ := free
    have counted : s.load.answers = s.port.responses.length := by
      unfold State.load
      rw [idle]
      rfl
    exact { ok with answers := counted ▸ Nat.le_of_lt_succ room }
  · cases next

theorem onRequest_within (kind : BitVec 7) {f : Request → State → State} (answers : ∀ r, Answers (f r)) :
    Keeps (State.within Config.responseQueueSize) (onRequest kind f) := by
  refine Keeps.whenLive fun s ok => ?_
  split
  · exact ok
  · rename_i next
    split
    · exact answers _ (takeRequest_within (nextRequest_room next ok))
    · exact ok

theorem sessionRequest_answers (r : Request) (offence : State → Option FieldName) {f : State → State}
    (answers : Answers f) : Answers fun s => sessionRequest r (offence s) f s := by
  intro k s ok
  unfold sessionRequest
  dsimp only
  split
  · exact answer_answers r _ ok
  · exact answer_answers r _ ok
  · exact badRequest_answers r _ ok
  · exact answers ok

theorem requestOperation_answers (r : Request) (b : Bucket) {f : State → State} (answers : Answers f) :
    Answers (requestOperation r b f) := by
  intro k s ok
  unfold requestOperation
  split
  · exact answers ok
  · exact answer_answers r _ (integrityFailure_within .request b ok)

/-! ### Session requests -/

theorem createByCheck_answers (r : Request) (place : Place) (h : Handle) (port : Option Port) :
    Answers (createByCheck r place h port) := by
  intro k s ok
  have placed : State.within k (insertAt place (openedEntry r.key r.group 0 port s.now s.me r.packet)
      (takePort r.group port s)) := by
    refine within_of_load (insertAt_load _ _ _) ?_
    cases port <;> exact ok
  rw [createByCheck_eq]
  exact respond_answers _ (offer_within h placed)

theorem checkCreates_answers (r : Request) : Answers (checkCreates r) := by
  intro k s ok
  unfold checkCreates
  dsimp only
  split
  · exact respond_answers _ ok
  · split
    · split
      · exact respond_answers _ ok
      · exact createByCheck_answers r _ _ _ ok
    · exact createByCheck_answers r _ _ _ ok

theorem ownerCheck_answers (r : Request) : Answers (ownerCheck r) := by
  intro k s ok
  unfold ownerCheck
  split
  · split
    · exact checkCreates_answers r ok
    · exact respond_answers _ ok
  · split
    · exact respond_answers _ ok
    · split
      · exact respond_answers _ (updateEntry_within _ _ _ ok)
      · unfold checkLive
        split
        · exact respond_answers _ ok
        · split
          · exact respond_answers _ ok
          · exact respond_answers _ (updateEntry_within _ _ _ ok)

/-- R122: an observation that finds the relay queue full is dropped. -/
theorem handRelay_within (o : Observation) : Keeps (State.within k) (handRelay o) := by
  intro s ok
  unfold handRelay
  split
  · rename_i room
    have longer : (s.bus.relays ++ [o]).length ≤ Config.relayQueueSize := by
      rw [List.length_append]
      exact room
    exact { ok with relays := longer }
  · exact ok

theorem copyCheck_answers (r : Request) (relays : Bool) : Answers (copyCheck r relays) := by
  intro k s ok
  unfold copyCheck
  split
  · exact respond_answers _ ok
  · split
    · exact respond_answers _ ok
    · split
      · exact respond_answers _ ok
      · split
        · exact respond_answers _ ok
        · split
          · exact respond_answers _ ok
          · refine respond_answers _ ?_
            split
            · exact handRelay_within _ ok
            · exact ok

theorem checkByState_answers (r : Request) : Answers (checkByState r) := by
  intro k s ok
  have owner := requestOperation_answers r (bucketOf r.key) (ownerCheck_answers r) ok
  have copy (relays : Bool) := requestOperation_answers r (bucketOf r.key) (copyCheck_answers r relays) ok
  unfold checkByState
  split
  · exact answer_answers r _ ok
  · exact owner
  · exact owner
  · exact copy _
  · exact copy _
  · exact copy _

theorem adoptInBucket_answers (r : Request) : Answers (adoptInBucket r) := by
  intro k s ok
  unfold adoptInBucket
  split
  · exact respond_answers _ ok
  · dsimp only
    split
    · exact answer_answers r _ ok
    · split
      · exact answer_answers r _ ok
      · exact answer_answers r _ (integrityFailure_within _ _ ok)
      · refine respond_answers _ (offer_within _ (within_of_load (insertAt_load _ _ _) ?_))
        exact within_of_load (displace_placeFrame _ s).load ok

theorem adoptByState_answers (r : Request) : Answers (adoptByState r) := by
  intro k s ok
  unfold adoptByState
  split
  · exact answer_answers r _ ok
  · split
    · exact answer_answers r _ ok
    · split
      · exact answer_answers r _ ok
      · exact requestOperation_answers r _ (adoptInBucket_answers r) ok

theorem retireInBucket_answers (r : Request) : Answers (retireInBucket r) := by
  intro k s ok
  unfold retireInBucket
  split
  · exact answer_answers r _ ok
  · split
    · exact answer_answers r _ ok
    · split
      · exact respond_answers _ ok
      · split
        · exact respond_answers _ ok
        · exact respond_answers _ (updateEntry_within _ _ _ ok)

theorem lookupInBucket_answers (r : Request) : Answers (lookupInBucket r) := by
  intro k s ok
  unfold lookupInBucket
  split
  · exact answer_answers r _ ok
  · exact respond_answers _ ok

/-! ### Requests of a group and of the station -/

theorem groupRequest_answers (r : Request) {f : State → State} (answers : Answers f) : Answers (groupRequest r f) := by
  intro k s ok
  unfold groupRequest
  split
  · exact answer_answers r _ ok
  · split
    · exact answer_answers r _ ok
    · split
      · exact badRequest_answers r _ ok
      · split
        · exact answer_answers r _ ok
        · split
          · exact answer_answers r _ ok
          · exact answers ok

theorem answerView_answers (r : Request) : Answers (answerView r) := fun _ _ ok => respond_answers _ ok

theorem mapGroup_within (g : GroupId) (f : GroupRecord → GroupRecord) : Keeps (State.within k) (mapGroup g f) :=
  fun _ ok => ok

theorem setHealth_answers (r : Request) : Answers (setHealth r) := by
  intro k s ok
  have written := mapGroup_within r.group (fun x => { x with health := cappedHealth r.score }) ok
  unfold setHealth
  refine answerView_answers r (settle_within ?_)
  split
  · exact reactLoss_within _ written
  · exact written

theorem setHold_answers (r : Request) : Answers (setHold r) := by
  intro k s ok
  unfold setHold
  split
  · exact answerView_answers r ok
  · exact answerView_answers r (settle_within (reactLoss_within _ (mapGroup_within _ _ ok)))

theorem clearHold_answers (r : Request) : Answers (clearHold r) := fun _ _ ok =>
  answerView_answers r (settle_within (mapGroup_within _ _ ok))

theorem resync_answers (r : Request) : Answers (resync r) := by
  intro k s ok
  unfold resync
  split
  · exact answer_answers r _ ok
  · split
    · exact answer_answers r _ ok
    · split
      · exact answer_answers r _ ok
      · split
        · exact answer_answers r _ ok
        · exact answer_answers r _ (startPass_within ok)

theorem writeSetup_answers (r : Request) : Answers (writeSetup r) := by
  intro k s ok
  unfold writeSetup
  split
  · exact answer_answers r _ ok
  · split
    · exact badRequest_answers r _ ok
    · exact answer_answers r _ (s := { s with port.setup := r.setup }) ok

theorem quorumChange_load (before : Bool) (s : State) : (quorumChange before s).load = s.load := by
  unfold quorumChange
  split
  · rfl
  · exact raiseIf_load _ .quorum s

theorem sealRequest_answers (r : Request) : Answers (sealRequest r) := by
  intro k s ok
  have sealed : (sealStation s).within k := within_of_load (quorumChange_load s.quorumPresent _) ok
  unfold sealRequest
  split
  · exact answer_answers r _ sealed
  · exact answer_answers r _ ok

/-! ### REJOIN -/

/-- R190, R191: the accepted REJOIN keeps a place for its answer. -/
theorem acceptRejoin_answers (r : Request) : Answers (acceptRejoin r) := by
  intro k s ok
  have free : s.port.responses.length ≤ k := (Nat.le_add_right _ _).trans ok.answers
  exact within_of_load (raiseLines_load _) { ok with answers := Nat.succ_le_succ free }

theorem rejoinRequest_answers (r : Request) : Answers (rejoinRequest r) := by
  intro k s ok
  unfold rejoinRequest
  split
  · exact answer_answers r _ ok
  · split
    · exact answer_answers r _ ok
    · exact acceptRejoin_answers r ok

theorem rejoinColumns_within : Keeps (State.within k) rejoinColumns := fun _ ok =>
  { ok with
    control := Nat.zero_le _
    relays := Nat.zero_le _
    purge := Nat.zero_le _
    frames := Nat.zero_le _
    fetch := nofun
    resend := .nil }

/-- R191: the answer takes the place that was kept for it. -/
theorem rejoinSteps_within {tag : Byte} (busy : s.engine.inProgress = some tag) (ok : s.within k) :
    (rejoinSteps tag s).within k := by
  have kept : s.port.responses.length + 1 ≤ k := by
    have answers := ok.answers
    unfold State.load at answers
    rwa [busy] at answers
  have listening : (enterListen (quorumChange s.quorumPresent (rejoinColumns s))).load = (rejoinColumns s).load :=
    quorumChange_load s.quorumPresent (rejoinColumns s)
  have responses : (enterListen (quorumChange s.quorumPresent (rejoinColumns s))).port.responses =
      s.port.responses := by
    unfold quorumChange raiseIf
    split
    · rfl
    · split <;> rfl
  have cleared : (enterListen (quorumChange s.quorumPresent (rejoinColumns s))).within k :=
    within_of_load listening (rejoinColumns_within ok)
  unfold rejoinSteps
  dsimp only
  generalize enterListen (quorumChange s.quorumPresent (rejoinColumns s)) = t at responses cleared ⊢
  unfold State.within
  rw [respond_load]
  have answered : t.port.responses.length + 1 ≤ k := responses ▸ kept
  exact { cleared with answers := answered }

end

end Sys2Proof.Machine
end

