-- ==== Sys2Proof/Proofs/LoadsOfFrames.lean ====
section
/-!
PROOFS. The medium keeps the capacities: frames that are sent, frames that are heard, and the records of a DELTA that
are taken (R93 to R97, R113, R117 to R122).
-/

namespace Sys2Proof.Machine

open Sys2Proof

section

variable {k : Nat} {s t : State}

/-! ### Frames sent -/

theorem clearPending_within (r : JournalRecord) : Keeps (State.within k) fun s => clearPending s r := by
  intro s ok
  unfold clearPending
  dsimp only
  split
  · exact ok
  · split
    · exact ok
    · split
      · exact ok
      · exact integrityFailure_within _ _ ok

theorem composeDelta_within : Keeps (State.within k) composeDelta := by
  intro s ok
  unfold composeDelta
  dsimp only
  generalize (⟨s.journal.oldest, s.journal.carried.map JournalRecord.wire⟩ : Delta) = d
  exact Keeps.foldl clearPending_within s.journal.carried
    (s := { s with
      journal := s.journal.composed
      bus.delta := some d
      bus.transmitting := some ⟨.delta d, true⟩ }) ok

/-- R113: the FETCH that is composed empties its slot. -/
theorem startSecond_within : Keeps (State.within k) startSecond := by
  intro s ok
  unfold startSecond
  split
  · exact ok
  · split
    · exact ok
    · exact { ok with fetch := nofun }
    · split <;> exact ok

theorem startClass_within (c : Nat) : Keeps (State.within k) (startClass c) := by
  intro s ok
  unfold startClass
  split
  · unfold startControl
    split
    · exact ok
    · split <;> exact ok
  · split
    · exact startSecond_within ok
    · unfold startThird startDelta startDigest
      split
      · split
        · exact ok
        · exact composeDelta_within ok
      · split <;> exact ok

theorem transmitStart_within (idleMicros : Nat) (ok : s.within k) (run : execTransmitStart idleMicros s = .next t) :
    t.within k := by
  refine Host.Outcome.next.inj run ▸ Keeps.whenLive (fun s ok => ?_) ok
  split
  · exact ok
  · split
    · exact startClass_within _ (s := { s with bus.deferred := false, bus.straddling := false }) ok
    · exact ok

/-- R120: a frame that leaves its queue makes room. -/
theorem leaveHolder_within (p : Payload) : Keeps (State.within k) (leaveHolder p) := by
  intro s ok
  have control : s.bus.control.tail.length ≤ Config.controlQueueSize :=
    s.bus.control.length_tail ▸ (Nat.sub_le _ 1).trans ok.control
  have relays : s.bus.relays.tail.length ≤ Config.relayQueueSize :=
    s.bus.relays.length_tail ▸ (Nat.sub_le _ 1).trans ok.relays
  cases p with
  | claim | contest | yield => exact { ok with control := control }
  | relay => exact { ok with relays := relays }
  | beacon | receipt | fetch | delta | digest => exact ok

theorem finishFrame_within (x : Transmission) : Keeps (State.within k) (finishFrame x) := by
  intro s ok
  have left : (if x.held then leaveHolder x.payload s else s).within k := by
    split
    · exact leaveHolder_within _ ok
    · exact ok
  exact { left with collisions := collisionLimit_pos }

theorem transmitted_within (ok : s.within k) (run : execTransmitted s = .next t) : t.within k := by
  refine Host.Outcome.next.inj run ▸ Keeps.whenLive (fun s ok => ?_) ok
  split
  · exact ok
  · have finished := finishFrame_within ‹Transmission› ok
    unfold claimTransmitted
    split
    · split
      · exact mapGroup_within _ _ finished
      · exact finished
    · exact finished

theorem discardFrame_within (x : Transmission) : Keeps (State.within k) (discardFrame x) := by
  intro s ok
  have finished (c : Capture) : (busFault c (finishFrame x s)).within k := finishFrame_within x ok
  unfold discardFrame claimDiscarded
  split
  · split
    · exact settle_within (abandonClaim_within _ _ _ (finished _))
    · exact finished _
  · exact finished _

/-- R118: the sixteenth collision discards the frame, and the count restarts. -/
theorem collision_within (ok : s.within k) (run : execCollision s = .next t) : t.within k := by
  refine Host.Outcome.next.inj run ▸ Keeps.whenLive (fun s ok => ?_) ok
  split
  · exact ok
  · split
    · rename_i below
      exact { ok with collisions := below }
    · exact discardFrame_within _ ok

theorem hearStart_within : Keeps (State.within k) hearStart := by
  intro s ok
  unfold hearStart
  split
  · exact ok
  · split <;> exact ok

/-! ### Frames heard -/

theorem onTransmission_within {f : State → State} (keeps : Keeps (State.within k) f) :
    Keeps (State.within k) (onTransmission f) := by
  refine Keeps.whenLive fun s ok => ?_
  dsimp only
  split
  · exact ok
  · split
    · exact keeps ok
    · exact ok

theorem onFrame_within (kind : Byte) (source : Station) {f : State → State} (keeps : Keeps (State.within k) f) :
    Keeps (State.within k) (onFrame kind source f) := by
  refine onTransmission_within fun s ok => ?_
  split
  · exact enterFault_within _ (s := busFault _ s) ok
  · exact keeps ok

theorem onOwnershipFrame_within (kind : Byte) (source : Station) {f : State → State}
    (keeps : Keeps (State.within k) f) : Keeps (State.within k) (onOwnershipFrame kind source f) :=
  onFrame_within kind source (Keeps.ite fun _ _ ok => keeps ok)

theorem discardInvalid_within (bytes : List Byte) : Keeps (State.within k) (discardInvalid bytes) := by
  intro s ok
  unfold discardInvalid
  split <;> exact ok

/-! ### BEACON and RECEIPT -/

/-- R116: the end of the partner's presence empties the purge queue, the fetch slot and the Resend Set. -/
theorem partnerEnds_within : Keeps (State.within k) partnerEnds := fun _ ok =>
  { ok with purge := Nat.zero_le _, fetch := nofun, resend := .nil }

theorem partnerChange_within (before : Option Station) : Keeps (State.within k) (partnerChange before) := by
  intro s ok
  have ended : (if s.partnershipEnded before then partnerEnds s else s).within k := by
    split
    · exact partnerEnds_within ok
    · exact ok
  unfold partnerChange
  dsimp only
  generalize (if s.partnershipEnded before then partnerEnds s else s) = t at ended ⊢
  split
  · exact ok
  · split <;> exact ended

theorem memberOrIsolated_load (s : State) : (memberOrIsolated s).load = s.load := by
  unfold memberOrIsolated
  dsimp only
  split
  · split <;> rfl
  · split <;> rfl
  · rfl

theorem changeRecords_within (records : Four Peer) (heard : Bool) :
    Keeps (State.within k) (changeRecords records heard) := by
  intro s ok
  have renamed : (redesignated records s).within k := ok
  have changed : (told records heard s).within k :=
    within_of_load (quorumChange_load _ _) (within_of_load (memberOrIsolated_load _)
      (partnerChange_within _ (within_of_load (raiseIf_load _ .presence _) renamed)))
  rw [changeRecords_eq]
  split
  · exact verifyClear_within changed
  · exact changed

theorem revisit_within (before : State) (source : Option Station) : Keeps (State.within k) (revisit before source) := by
  intro s ok
  unfold revisit
  dsimp only
  split
  · exact settle_within (visitGroups_within _ _ ok)
  · exact ok

theorem judgeReceipt_within (n : Seq) : Keeps (State.within k) (judgeReceipt n) := by
  intro s ok
  unfold judgeReceipt
  split <;> exact ok

theorem expectByBeacon_within (b : Beacon) : Keeps (State.within k) (expectByBeacon b) := by
  intro s ok
  unfold expectByBeacon
  split
  · exact ok
  · split
    · exact ok
    · split <;> exact ok

theorem partnerBeacon_within (b : Beacon) : Keeps (State.within k) (partnerBeacon b) := by
  intro s ok
  have heard : (receiptHeard b s).within k := by
    unfold receiptHeard
    cases b.receipt with
    | none => exact ok
    | some n => exact judgeReceipt_within n ok
  have expected := expectByBeacon_within b heard
  rw [partnerBeacon_eq]
  split
  · exact startPass_within expected
  · exact expected

theorem takeBeacon_within (p : Station) (b : Beacon) : Keeps (State.within k) (takeBeacon p b) := by
  intro s ok
  have changed := changeRecords_within (s.presence.records.set p ((s.peer p).hearBeacon b s.presence.fingerprint))
    (s.heardChange p b) ok
  unfold takeBeacon
  refine revisit_within s _ ?_
  split
  · exact partnerBeacon_within b changed
  · exact changed

theorem loseRecord_within (p : Station) : Keeps (State.within k) (loseRecord p) := fun s ok =>
  revisit_within s none (changeRecords_within _ false ok)

theorem takeReceipt_within (n : Seq) : Keeps (State.within k) (takeReceipt n) := by
  intro s ok
  have judged := judgeReceipt_within n ok
  unfold takeReceipt
  dsimp only
  split
  · exact judged
  · exact settle_within (Keeps.foldl (fun g => drainTest_within g) four judged)

/-! ### Ownership frames -/

theorem raiseEpoch_within (g : GroupId) (e : Epoch) : Keeps (State.within k) (raiseEpoch g e) := mapGroup_within g _

theorem letThrough_within (c : Claim) (source : Station) : Keeps (State.within k) (letThrough c source) := by
  intro s ok
  unfold letThrough
  split
  · have raised := raiseEpoch_within c.group c.epoch ok
    dsimp only
    split
    · exact leaveHolding_within _ _ _ raised
    · exact setOwner_within _ _ (mapGroup_within _ _ raised)
  · exact ok

theorem firewallClaim_within (c : Claim) (source : Station) : Keeps (State.within k) (firewallClaim c source) := by
  intro s ok
  unfold firewallClaim
  dsimp only
  split
  · exact handControl_within _ ok
  · split
    · exact letThrough_within c source ok
    · exact handControl_within _ ok
  · split
    · exact raiseEpoch_within _ _ (abandonClaim_within _ _ _ ok)
    · exact handControl_within _ ok
  · exact ok
  · exact letThrough_within c source ok
  · exact letThrough_within c source ok

theorem witnessClaim_within (c : Claim) (source : Station) : Keeps (State.within k) (witnessClaim c source) := by
  intro s ok
  unfold witnessClaim
  dsimp only
  split
  · exact ok
  · split
    · exact handControl_within _ ok
    · split
      · exact setOwner_within _ _ (mapGroup_within _ _ ok)
      · split
        · exact handControl_within _ ok
        · exact setOwner_within _ _ (mapGroup_within _ _ (mapGroup_within _ _ (raiseEpoch_within _ _ ok)))

theorem takeClaim_within (c : Claim) (source : Station) : Keeps (State.within k) (takeClaim c source) := by
  intro s ok
  unfold takeClaim
  refine settle_within ?_
  cases s.straps.role with
  | firewall => exact firewallClaim_within c source ok
  | witness => exact witnessClaim_within c source ok

theorem takeContest_within (c : Contest) : Keeps (State.within k) (takeContest c) := by
  intro s ok
  unfold takeContest
  dsimp only
  split
  · exact settle_within (raiseEpoch_within _ _ (abandonClaim_within _ _ _ ok))
  · exact ok

theorem succeedYield_within (y : Yield) : Keeps (State.within k) (succeedYield y) := by
  intro s ok
  have raised := raiseEpoch_within y.group y.epoch ok
  unfold succeedYield
  dsimp only
  split
  · exact startClaim_within _ _ _ _ (mapGroup_within _ _ raised)
  · exact raised

theorem takeYield_within (y : Yield) (source : Station) : Keeps (State.within k) (takeYield y source) := by
  intro s ok
  unfold takeYield
  split
  · refine mapGroup_within _ _ ?_
    split
    · exact raiseEpoch_within _ _ ok
    · exact ok
  · split
    · exact settle_within (succeedYield_within y ok)
    · exact ok

/-! ### DELTA -/

/-- R93: a frame that is accepted finds room for it. -/
theorem acceptDelta_within (source : Station) (d : Delta) : Keeps (State.within k) (acceptDelta source d) := by
  intro s ok
  unfold acceptDelta
  split
  · rename_i accepted
    have room : s.receive.frames < 2 := of_decide_eq_true (Bool.and_eq_true_iff.mp accepted).2
    have longer : (s.receive.waiting ++ [AcceptedDelta.mk source d]).length
        + (if s.receive.taking.isSome then 1 else 0) ≤ 2 := by
      rw [List.length_append, List.length_singleton, Nat.add_right_comm]
      exact room
    exact { ok with frames := longer }
  · exact ok

theorem finishDelta_waiting (s : State) : (finishDelta s).receive.waiting = s.receive.waiting := by
  unfold finishDelta placeReceipt
  dsimp only
  split <;> rfl

theorem noteBlock_receive (c : EntryContent) (s : State) : (noteBlock c s).receive = s.receive := by
  unfold noteBlock
  split <;> rfl

theorem takeRecords_waiting (source : Station) (l : List WireRecord) (s : State) :
    (takeRecords source l s).receive.waiting = s.receive.waiting := by
  induction l generalizing s with
  | nil => exact finishDelta_waiting s
  | cons r rest ih =>
    unfold takeRecords
    split
    · exact finishDelta_waiting s
    · split
      · exact ih s
      · split
        · exact finishDelta_waiting s
        · split
          · split
            · exact ih _
            · split
              · exact ih _
              · rw [noteBlock_receive]
          · rfl
          · rfl

theorem recordDone_waiting (source : Station) (r : WireRecord) (rest : List WireRecord) (s : State) :
    (recordDone source r rest s).receive.waiting = s.receive.waiting := by
  unfold recordDone
  dsimp only
  split
  · rw [finishDelta_waiting]
    split <;> rfl
  · dsimp only
    split <;> rfl

/-- R93: beside the frame that is taken at most one waits. -/
theorem TakeFrame.within (frame : TakeFrame s t) (same : t.receive.waiting = s.receive.waiting)
    (room : s.receive.waiting.length ≤ 1) (ok : s.within k) : t.within k := by
  have frames : t.load.waiting + (if t.load.taking then 1 else 0) ≤ 2 := by
    have waits : t.load.waiting = s.receive.waiting.length := congrArg List.length same
    rw [waits]
    split <;> omega
  obtain ⟨_, _, _, _, _, _, rfl⟩ := frame
  exact { ok with frames := frames }

theorem waiting_of_taking {x : Taking} (takes : s.receive.taking = some x) (ok : s.within k) :
    s.receive.waiting.length ≤ 1 := by
  have frames := ok.frames
  unfold State.load at frames
  rw [takes] at frames
  exact Nat.le_of_succ_le_succ frames

theorem takeDelta_within : Keeps (State.within k) takeDelta := by
  intro s ok
  unfold takeDelta
  split
  · rename_i takes
    exact (takeRecords_frame _ _ _).within (takeRecords_waiting _ _ _) (waiting_of_taking takes ok) ok
  · rename_i d rest idle waits
    have frames := ok.frames
    unfold State.load at frames
    rw [idle, waits] at frames
    have fewer : rest.length ≤ 1 := Nat.le_of_succ_le_succ frames
    have left : State.within k { s with receive.waiting := rest } := by
      refine { ok with frames := ?_ }
      change rest.length + (if s.receive.taking.isSome then 1 else 0) ≤ 2
      rw [idle]
      exact fewer.trans (Nat.le_succ 1)
    have caught : (catchUp d.content.oldest { s with receive.waiting := rest }).within k
        ∧ (catchUp d.content.oldest { s with receive.waiting := rest }).receive.waiting = rest := by
      unfold catchUp
      split
      · exact ⟨left, rfl⟩
      · split <;> exact ⟨left, rfl⟩
    exact (takeRecords_frame _ _ _).within (takeRecords_waiting _ _ _) (caught.2.symm ▸ fewer) caught.1
  · exact ok

/-! ### The join -/

/-- An operation of the join leaves the load alone, or the station in FAULT. -/
def Joined (k : Nat) (s t : State) : Prop := t.load = s.load ∨ t.life = .fault ∧ t.within k

theorem integrityFailure_joined (c : Client) (b : Bucket) (ok : s.within k) : Joined k s (integrityFailure c b s) := by
  cases active : s.life.active with
  | true => exact .inr ⟨integrityFailure_life c b active, integrityFailure_within c b ok⟩
  | false =>
    unfold integrityFailure
    rw [enterFault_inactive]
    · exact .inl rfl
    · exact active

theorem withHolder_joined (client : Client) (holder : Option Handle) {f : State → State} (ok : s.within k)
    (same : ∀ u, (f u).load = u.load) : Joined k s (withHolder client holder f s) := by
  unfold withHolder
  split
  · exact integrityFailure_joined _ _ ok
  · exact .inl ((same _).trans (displace_placeFrame holder s).load)

theorem movePort_load (h : Handle) (old new : Entry) (s : State) : (movePort h old new s).load = s.load := by
  unfold movePort
  split
  · rfl
  · exact ((releasePort_placeFrame old s).trans (joinPort_placeFrame h new _)).load

theorem joinWrite_joined (h : Handle) (e new : Entry) (c : EntryContent) (ok : s.within k) :
    Joined k s (joinWrite h e new c s) := withHolder_joined _ _ ok fun u => movePort_load h e new u

theorem joinInsert_joined (source : Station) (q : Seq) (c : EntryContent) (ok : s.within k) :
    Joined k s (joinInsert source q c s) := by
  unfold joinInsert
  dsimp only
  split
  · exact .inl rfl
  · refine withHolder_joined _ _ ok fun u => ?_
    split <;> exact insertAt_load _ _ _

theorem joinRecord_joined (source : Station) (q : Seq) (c : EntryContent) (ok : s.within k) :
    Joined k s (joinRecord source q c s) := by
  unfold joinRecord
  split
  · exact joinInsert_joined source q c ok
  · split
    · exact joinWrite_joined _ _ _ c ok
    · split
      · exact joinWrite_joined _ _ _ c ok
      · exact .inl rfl

theorem joinInHand_within : Keeps (State.within k) joinInHand := by
  intro s ok
  unfold joinInHand
  split
  · rename_i source r rest takes
    split
    · rename_i c _
      have joined : Joined k s (bucketOperation .receiveApply (bucketOf c.key) (joinRecord source r.seq c) s) := by
        unfold bucketOperation
        split
        · exact joinRecord_joined source r.seq c ok
        · exact integrityFailure_joined _ _ ok
      have room := waiting_of_taking takes ok
      dsimp only
      generalize bucketOperation .receiveApply (bucketOf c.key) (joinRecord source r.seq c) s = u at joined ⊢
      rcases joined with same | ⟨fault, within_⟩
      · have kept := within_of_load same ok
        have waits : u.receive.waiting.length = s.receive.waiting.length := congrArg Load.waiting same
        split
        · exact kept
        · exact (recordDone_frame source r rest u).within (recordDone_waiting source r rest u) (waits ▸ room) kept
      · rwa [if_pos fault]
    · exact ok
    · exact ok
  · exact ok

end

end Sys2Proof.Machine
end

