-- ==== Sys2Proof/Proofs/Capacities.lean ====
section
/-!
PROOFS. Every step keeps the capacities (00_scope.md, Numbers at a Glance): the accesses of the host, the clock, the
scan, the reconciliation unit and the timers, and with them every command.
-/

namespace Sys2Proof.Machine

open Sys2Proof

section

variable {k : Nat} {s t : State}

/-! ### The window, the clock and the scan -/

/-- R193. -/
theorem postRequest_within : Keeps (State.within k) postRequest := by
  intro s ok
  unfold postRequest
  split
  · rename_i room
    have longer : (s.port.requests ++ [s.port.staging]).length ≤ Config.requestQueueSize := by
      rw [List.length_append]
      exact room
    exact { ok with requests := longer }
  · exact ok

/-- R195. -/
theorem popResponse_within : Keeps (State.within k) popResponse := fun s ok =>
  have fewer : s.port.responses.tail.length ≤ s.port.responses.length :=
    s.port.responses.length_tail ▸ Nat.sub_le _ 1
  { ok with answers := (Nat.add_le_add_right fewer _).trans ok.answers }

theorem writeWindow_within (offset : Byte) (size : AccessSize) (value : Word) :
    Keeps (State.within k) (writeWindow offset size value) := by
  intro s ok
  unfold writeWindow
  split
  · unfold writeWord
    split_ifs
    · exact ok
    · exact ok
    · exact postRequest_within ok
    · exact popResponse_within ok
    · exact ok
    · exact ok
    · exact ok
    · exact ok
  · exact ok

theorem advanceCursor_within : Keeps (State.within k) advanceCursor := by
  intro s ok
  unfold advanceCursor
  split <;> exact ok

theorem takeSnapshot_within : Keeps (State.within k) takeSnapshot := by
  intro s ok
  have copied : (copySnapshot s).within k := ok
  unfold takeSnapshot
  dsimp only
  split
  · split
    · exact copied
    · exact integrityFailure_within _ _ copied
  · exact ok

theorem prescalerPeriod_pos : 0 < Config.prescalerPeriod := by decide

theorem millisPerTick_pos : 0 < Config.millisPerTick := by decide

theorem ageTick_within : Keeps (State.within k) ageTick := by
  intro s ok
  have wrapped : State.within k { s with clock := ⟨0, 0, s.clock.tick + 1⟩ } :=
    { ok with prescaler := prescalerPeriod_pos, millis := millisPerTick_pos }
  unfold ageTick
  dsimp only
  split
  · split <;> exact wrapped
  · exact wrapped

/-- R52. -/
theorem referencePeriod_within : Keeps (State.within k) referencePeriod := by
  intro s ok
  unfold referencePeriod
  split
  · rename_i below
    exact { ok with prescaler := below }
  · split
    · rename_i below
      exact { ok with prescaler := prescalerPeriod_pos, millis := below }
    · exact ageTick_within ok

theorem visitEntry_within (h : Handle) : Keeps (State.within k) fun s => visitEntry s h := by
  intro s ok
  unfold visitEntry
  dsimp only
  split
  · exact ok
  · split
    · exact ok
    · split
      · split
        · exact within_of_load (removeEntry_placeFrame h s).load ok
        · exact ok
      · split
        · exact updateEntry_within h _ _ ok
        · exact ok

theorem visitNext_within : Keeps (State.within k) visitNext := by
  intro s ok
  unfold visitNext
  split
  · have visited := Keeps.foldl visitEntry_within ((s.table.bucket s.scan.position).map (·.1)) ok
    exact bucketOperation_within .aging _ ok visited
  · exact ok

/-! ### Purges and relay observations -/

theorem handOver_within : Keeps (State.within k) handOver := by
  intro s ok
  unfold handOver
  split
  · rename_i takes
    split
    · rename_i item _
      split
      · rename_i room
        have longer : (s.recon.purge ++ [item]).length ≤ Config.purgeQueueSize := by
          rw [List.length_append]
          exact room
        have one := waiting_of_taking takes ok
        have handed : State.within k { s with recon.purge := s.recon.purge ++ [item] } :=
          { ok with purge := longer }
        exact (recordDone_frame _ _ _ _).within (recordDone_waiting _ _ _ _) one handed
      · exact ok
    · exact ok
  · exact ok

theorem purgeTail_within (ok : s.within k) : State.within k { s with recon.purge := s.recon.purge.tail } :=
  have fewer : s.recon.purge.tail.length ≤ Config.purgeQueueSize :=
    s.recon.purge.length_tail ▸ (Nat.sub_le _ 1).trans ok.purge
  { ok with purge := fewer }

theorem purgeEntry_within (source : Station) (groups : GroupSet) (opening : Seq) (h : Handle) :
    Keeps (State.within k) fun s => purgeEntry source groups opening s h := by
  intro s ok
  unfold purgeEntry
  dsimp only
  split
  · exact ok
  · split
    · exact within_of_load (removeEntry_placeFrame h s).load ok
    · exact ok

theorem purgeHead_within : Keeps (State.within k) purgeHead := by
  intro s ok
  unfold purgeHead
  split
  · rename_i source b groups opening _ _
    have purged := Keeps.foldl (purgeEntry_within source groups opening) ((s.table.bucket b).map (·.1)) ok
    exact bucketOperation_within .reader b ok (purgeTail_within purged)
  · exact ok

theorem takePassEnd_within (groups : GroupSet) (start : Seq) : Keeps (State.within k) (takePassEnd groups start) := by
  intro s ok
  have popped := purgeTail_within ok
  unfold takePassEnd
  dsimp only
  split
  · refine within_of_load (raiseIf_load _ .sync _) ?_
    split <;> exact popped
  · exact popped

theorem acceptRelay_within (source : Station) (o : Observation) : Keeps (State.within k) (acceptRelay source o) := by
  intro s ok
  unfold acceptRelay
  split
  · exact ok
  · split <;> exact ok

theorem joinObservation_within (o : Observation) : Keeps (State.within k) (joinObservation o) := by
  intro s ok
  unfold joinObservation
  split
  · exact ok
  · rename_i h e _
    split
    · exact ok
    · dsimp only
      split
      · exact offer_within h (s := writeEntry h _ s) ok
      · exact ok

theorem applyRelay_within : Keeps (State.within k) applyRelay := by
  intro s ok
  unfold applyRelay
  split
  · have taken : State.within k { s with engine.relaySlot := none } := ok
    dsimp only
    split
    · exact bucketOperation_within .request _ taken (joinObservation_within _ taken)
    · exact taken
  · exact ok

/-! ### Re-journal, digests and FETCH -/

/-- R101, R103: the bucket leaves the Resend Set. -/
theorem rejournalBucket_within (b : Bucket) : Keeps (State.within k) (rejournalBucket b) := by
  intro s ok
  have rising : (rejournalBucket b s).recon.resend.Pairwise (· < ·) := by
    rw [rejournalBucket_resend]
    exact ok.resend.filter _
  obtain ⟨_, _, _, _, same⟩ := rejournalBucket_frame b s
  rw [same] at rising ⊢
  exact { ok with resend := rising }

theorem rejournal_within : Keeps (State.within k) rejournal := by
  intro s ok
  unfold rejournal
  split
  · split
    · exact bucketOperation_within .reader _ ok (rejournalBucket_within _ ok)
    · exact ok
  · exact ok

theorem appendPassEnd_within : Keeps (State.within k) appendPassEnd := by
  intro s ok
  unfold appendPassEnd
  split <;> exact ok

theorem beginDigest_within : Keeps (State.within k) beginDigest := by
  intro s ok
  unfold beginDigest
  split <;> exact ok

theorem prepareDigest_within : Keeps (State.within k) prepareDigest := by
  intro s ok
  unfold prepareDigest
  split
  · split
    · exact ok
    · refine bucketOperation_within .reader _ ok ?_
      unfold prepareBucket
      dsimp only
      split
      · exact ok
      · split <;> exact ok
  · exact ok

theorem acceptDigest_within (source : Station) (d : Digest) : Keeps (State.within k) (acceptDigest source d) := by
  intro s ok
  unfold acceptDigest
  split <;> exact ok

/-- R113: a bucket that finds the fetch slot full is not offered. -/
theorem offerFetch_room {groups : GroupSet} {b : Bucket} {slot : Option Fetch}
    (room : ∀ f, slot = some f → f.buckets.length ≤ Config.fetchBuckets) (f : Fetch)
    (offered : offerFetch groups b slot = some f) : f.buckets.length ≤ Config.fetchBuckets := by
  unfold offerFetch at offered
  split at offered
  · cases offered
    exact Nat.succ_le_succ (Nat.zero_le 15)
  · split at offered
    · rename_i free
      obtain ⟨-, -, below⟩ := free
      cases offered
      rw [List.length_append]
      exact below
    · cases offered
      exact room _ rfl

theorem compareBucket_within (c : Comparison) (received : Word) (rest : List Word) :
    Keeps (State.within k) (compareBucket c received rest) := by
  intro s ok
  unfold compareBucket
  refine { ok with fetch := ?_ }
  unfold State.load
  dsimp only
  split
  · exact ok.fetch
  · exact offerFetch_room ok.fetch

theorem compareDigest_within : Keeps (State.within k) compareDigest := by
  intro s ok
  unfold compareDigest
  split
  · split
    · exact ok
    · split
      · exact bucketOperation_within .reader _ ok (compareBucket_within _ _ _ ok)
      · exact ok
  · exact ok

/-- R101, R114: the buckets of a FETCH join the Resend Set in their places. -/
theorem addBuckets_rising (l : List Bucket) {resend : List Bucket} (rising : resend.Pairwise (· < ·)) :
    (l.foldl (fun r b => addBucket b r) resend).Pairwise (· < ·) := by
  induction l generalizing resend with
  | nil => exact rising
  | cons b l ih => exact ih (addBucket_rising b rising)

theorem acceptFetch_within (source : Station) (f : Fetch) : Keeps (State.within k) (acceptFetch source f) := by
  intro s ok
  unfold acceptFetch
  split
  · exact { ok with resend := addBuckets_rising f.buckets ok.resend }
  · exact ok

/-! ### Timers -/

theorem handBeacon_within : Keeps (State.within k) handBeacon := fun _ ok => ok

theorem receiptExpires_within : Keeps (State.within k) receiptExpires := fun _ ok => ok

theorem closeWindow_within (g : GroupId) : Keeps (State.within k) (closeWindow g) := fun _ ok => ok

theorem lineStuck_within (g : GroupId) : Keeps (State.within k) (lineStuck g) := fun _ ok => ok

theorem leaveListen_within : Keeps (State.within k) leaveListen := by
  intro s ok
  unfold leaveListen
  refine settle_within ?_
  exact ok

theorem stall_within : Keeps (State.within k) stall := fun s ok =>
  startPass_within (verifyClear_within (s := spoilDrains (raise .lag (journalClear s))) ok)

theorem preemptNow_within (g : GroupId) : Keeps (State.within k) (preemptNow g) := by
  intro s ok
  have stopped := mapGroup_within g (fun r => { r with preempt := false }) ok
  unfold preemptNow
  dsimp only
  split
  · split
    · exact settle_within (enterYielding_within _ _ stopped)
    · exact stopped
  · exact stopped

theorem releaseAll_within : Keeps (State.within k) releaseAll :=
  Keeps.foldl (fun g => Keeps.ite fun _ _ ok => release_within g ok) four

theorem hostLapses_within : Keeps (State.within k) hostLapses := by
  intro s ok
  have lapsed : (lapsedState s).within k := ok
  rw [hostLapses_eq]
  exact settle_within (Keeps.foldl (fun g => reactLoss_within g) four lapsed)

end

/-! ### The steps -/

theorem exec_within (c : Instr) {s t : State} (ok : s.within Config.responseQueueSize) (run : exec c s = .next t) :
    t.within Config.responseQueueSize := by
  have done {f : State → State} (eq : (.next (f s) : Host.Outcome State Fault Refusal) = .next t)
      (keeps : Keeps (State.within Config.responseQueueSize) f) : t.within Config.responseQueueSize :=
    Host.Outcome.next.inj eq ▸ keeps ok
  match c, run with
  | .powerReset straps, run => exact Host.Outcome.next.inj run ▸ resetStation_within straps _ _ _ _ s
  | .powerResetOnset, run =>
    exact done (f := fun s => { s with phase := .power, bus.transmitting := none }) run fun _ same => same
  | .pinResetAssert, run => exact done run (Keeps.whenLive fun _ same => same)
  | .pinResetRelease straps, run =>
    refine Host.Outcome.next.inj run ▸ ?_
    split
    · exact resetStation_within _ _ _ _ _ s
    · exact ok
    · exact ok
  | .groupLineReadback g foreignDrive, run =>
    have driven : State.within Config.responseQueueSize
      { s with own.foreignDrive := s.own.foreignDrive.set g foreignDrive } := ok
    exact Host.Outcome.next.inj run ▸
      Keeps.whenLive (fun u same => settle_within (within_of_load (raiseIf_load _ .line u) same)) driven
  | .post value, run => exact done run postRequest_within.whenLive
  | .pop value, run => exact done run popResponse_within.whenLive
  | .eventsWrite value, run => exact done run (Keeps.whenLive fun _ same => same)
  | .maskWrite value, run => exact done run (Keeps.whenLive fun _ same => same)
  | .cursorWrite value, run => exact done run (Keeps.whenLive fun _ same => same)
  | .cursorData23Read, run => exact done run advanceCursor_within.whenLive
  | .cursorSnapshot, run => exact done run (takeSnapshot_within.whenGranted .cursor).whenLive
  | .clear value, run => exact done run (Keeps.whenLive fun _ same => same)
  | .registerWrite offset size value, run => exact done run (writeWindow_within offset size value).whenLive
  | .unknownKind, run =>
    refine done run (Keeps.whenLive fun s ok => ?_)
    split
    · exact ok
    · rename_i next
      split
      · exact ok
      · exact badRequest_answers _ _ (takeRequest_within (nextRequest_room next ok))
  | .check, run =>
    exact done run (onRequest_within _ fun r =>
      sessionRequest_answers r (fun _ => checkOffence r) (checkByState_answers r)).whenEngineGranted
  | .adopt, run =>
    exact done run (onRequest_within _ fun r => sessionRequest_answers r
      (fun s => adoptOffence s.port.setup.translate r) (adoptByState_answers r)).whenEngineGranted
  | .retire, run =>
    exact done run (onRequest_within _ fun r => sessionRequest_answers r (fun _ => keyOffence r)
      (requestOperation_answers r _ (retireInBucket_answers r))).whenEngineGranted
  | .lookup, run =>
    exact done run (onRequest_within _ fun r => sessionRequest_answers r (fun _ => keyOffence r)
      (requestOperation_answers r _ (lookupInBucket_answers r))).whenEngineGranted
  | .health, run => exact done run (onRequest_within _ fun r => groupRequest_answers r (setHealth_answers r))
  | .hold, run => exact done run (onRequest_within _ fun r => groupRequest_answers r (setHold_answers r))
  | .unhold, run => exact done run (onRequest_within _ fun r => groupRequest_answers r (clearHold_answers r))
  | .resync, run => exact done run (onRequest_within _ resync_answers)
  | .setup, run => exact done run (onRequest_within _ writeSetup_answers)
  | .seal, run => exact done run (onRequest_within _ sealRequest_answers)
  | .rejoin, run => exact done run (onRequest_within _ rejoinRequest_answers)
  | .rejoinClear, run =>
    refine done run (Keeps.whenLive fun s ok => ?_)
    split
    · exact ok
    · exact rejoinSteps_within ‹_› ok
  | .keep, run => exact done run (onRequest_within _ fun r _ _ ok => answer_answers r _ ok)
  | .ageTick, run => exact done run ageTick_within.whenLive
  | .agingVisit, run => exact done run (visitNext_within.whenGranted .aging).whenLive
  | .transmitStart idleMicros, run => exact transmitStart_within idleMicros ok run
  | .transmitted, run => exact transmitted_within ok run
  | .collision, run => exact collision_within ok run
  | .defer, run => exact done run hearStart_within.whenLive
  | .invalidFrame bytes, run => exact done run (onTransmission_within (discardInvalid_within bytes))
  | .beaconFrame source content, run => exact done run (onFrame_within _ source (takeBeacon_within source content))
  | .claimFrame source content, run =>
    exact done run (onOwnershipFrame_within _ source (takeClaim_within content source))
  | .contestFrame source content, run => exact done run (onOwnershipFrame_within _ source (takeContest_within content))
  | .yieldFrame source content, run =>
    exact done run (onOwnershipFrame_within _ source (takeYield_within content source))
  | .receiptFrame source expected, run =>
    exact done run (onFrame_within _ source (Keeps.ite fun _ _ ok => takeReceipt_within expected ok))
  | .deltaFrame source content, run => exact done run (onFrame_within _ source (acceptDelta_within source content))
  | .relayFrame source content, run => exact done run (onFrame_within _ source (acceptRelay_within source content))
  | .digestFrame source content, run => exact done run (onFrame_within _ source (acceptDigest_within source content))
  | .fetchFrame source content, run => exact done run (onFrame_within _ source (acceptFetch_within source content))
  | .deltaTake, run => exact done run takeDelta_within.whenLive
  | .entryJoin, run => exact done run (joinInHand_within.whenGranted .receiveApply).whenLive
  | .purgeHandover, run => exact done run handOver_within.whenLive
  | .purge, run => exact done run (purgeHead_within.whenGranted .reader).whenLive
  | .passEndTake, run =>
    refine done run (Keeps.whenLive fun s ok => ?_)
    split
    · exact takePassEnd_within _ _ ok
    · exact ok
  | .relayApply, run => exact done run applyRelay_within.whenEngineGranted.whenLive
  | .reJournal, run => exact done run (rejournal_within.whenGranted .reader).whenLive
  | .passEndAppend, run => exact done run appendPassEnd_within.whenLive
  | .digestTimerExpiry, run => exact done run beginDigest_within.whenLive
  | .digestPrepare, run => exact done run (prepareDigest_within.whenGranted .reader).whenLive
  | .digestCompare, run => exact done run (compareDigest_within.whenGranted .reader).whenLive
  | .beaconTimerExpiry, run => exact done run (Keeps.ite fun _ _ ok => handBeacon_within ok).whenLive
  | .deadTimerExpiry peer, run => exact done run (Keeps.ite fun _ _ ok => loseRecord_within peer ok).whenLive
  | .listenTimerExpiry, run => exact done run (Keeps.ite fun _ _ ok => leaveListen_within ok).whenLive
  | .receiptTimerExpiry, run => exact done run (Keeps.ite fun _ _ ok => receiptExpires_within ok).whenLive
  | .stallTimerExpiry, run => exact done run (Keeps.ite fun _ _ ok => stall_within ok).whenLive
  | .claimWaitExpiry g, run => exact done run (Keeps.ite fun _ _ ok => enterHolding_within g _ ok).whenLive
  | .claimBackoffExpiry g, run =>
    exact done run (Keeps.ite fun _ _ ok => settle_within (mapGroup_within g _ ok)).whenLive
  | .preemptDelayExpiry g, run => exact done run (Keeps.ite fun _ _ ok => preemptNow_within g ok).whenLive
  | .drainTimerExpiry g, run =>
    exact done run (Keeps.ite fun _ _ ok => settle_within (endDrain_within g false ok)).whenLive
  | .adoptionWindowExpiry g, run =>
    refine done run (Keeps.ite fun s _ ok => ?_).whenLive
    have closed : (closeWindow g s).within Config.responseQueueSize := closeWindow_within g ok
    exact closed
  | .quorumTimerExpiry, run =>
    refine done run (Keeps.ite fun s _ ok => ?_).whenLive
    have stopped : State.within Config.responseQueueSize { s with own.quorumTimer := false } := ok
    exact settle_within (releaseAll_within stopped)
  | .lineInhibitionExpiry g, run => exact done run (Keeps.ite fun _ _ ok => lineStuck_within g ok).whenLive
  | .hostWatchExpiry, run => exact done run (Keeps.ite fun _ _ ok => hostLapses_within ok).whenLive

theorem step_within {s t : State} (ok : s.within Config.responseQueueSize) (run : step s = .next t) :
    t.within Config.responseQueueSize := by
  unfold step at run
  split at run
  · exact Host.Outcome.next.inj run ▸ referencePeriod_within.whenLive ok
  · rename_i c rest _
    have queued : State.within Config.responseQueueSize { s with pending := rest } := ok
    exact exec_within c queued run

/-- Settles O6: every operation of a step keeps the load within the capacities, and the journal within its own. -/
theorem stepsKeepCapacities : Obligations.StepsKeepCapacities := by
  intro s t ok run
  obtain ⟨load, journal⟩ := (bounded_iff s).mp ok
  exact (bounded_iff t).mpr ⟨step_within load run, step_journalRoom journal run⟩

end Sys2Proof.Machine
end

