-- ==== Sys2Proof/Proofs/SettledGroups.lean ====
section
/-!
PROOFS. What the settling of the groups makes of one of them (R139, R143, R145, R160): it rests but for its line timer,
its claim is abandoned, or a claim starts; and what no settling reaches.
-/

namespace Sys2Proof.Machine

open Sys2Proof

/-! ### Eligibility -/

/-- R139, R158: of a group record the eligibility reads the health, the hold and whether the group is held. -/
theorem Moves.eligible_of {passes : Bool} {s t : State} {g : GroupId} (all : Moves passes s t)
    (health : (t.group g).health = (s.group g).health) (hold : (t.group g).hold = (s.group g).hold)
    (held : t.holds g = s.holds g) : t.eligible g = s.eligible g := by
  obtain ⟨⟨_, _, _, _, _, _, _, _, eq⟩, -, -⟩ := all.span
  unfold State.eligible State.eligibleButLine State.foreign State.readback State.drive
  rw [health, hold, held, eq]
  rfl

/-- R160. -/
theorem Moves.inhibited {passes : Bool} {s t : State} {g : GroupId} (all : Moves passes s t)
    (same : t.group g = s.group g) : t.inhibited g = s.inhibited g := by
  obtain ⟨⟨_, _, _, _, _, _, _, _, eq⟩, -, -⟩ := all.span
  unfold State.inhibited State.eligibleButLine State.foreign State.readback State.drive State.holds
  rw [same, eq]
  rfl

theorem Moves.mayClaim {passes : Bool} {s t : State} {g : GroupId} (all : Moves passes s t)
    (same : t.group g = s.group g) : t.mayClaim g = s.mayClaim g := by
  unfold State.mayClaim
  rw [same, all.eligible same, all.mayOutbid same]

theorem ineligible_of_hold {s : State} {g : GroupId} (hold : (s.group g).hold = true) : s.eligible g = false := by
  unfold State.eligible State.eligibleButLine
  simp only [hold, Bool.not_true, Bool.and_false, Bool.false_and]

theorem ineligible_of_health {s : State} {g : GroupId} (health : (s.group g).health = 0) : s.eligible g = false := by
  unfold State.eligible State.eligibleButLine
  simp only [health, bne_self_eq_false, Bool.and_false, Bool.false_and]

/-- R139, first input. -/
theorem ineligible_of_witness {s : State} (witness : s.straps.role = .witness) (g : GroupId) :
    s.eligible g = false := by
  unfold State.eligible State.eligibleButLine
  rw [witness]
  rfl

theorem mayClaim_of_ineligible {s : State} {g : GroupId} (ineligible : s.eligible g = false) :
    s.mayClaim g = false := by
  unfold State.mayClaim
  rw [ineligible, Bool.and_false, Bool.false_and, Bool.false_and]

theorem mayClaim_of_occupied {s : State} {g : GroupId} (occupied : (s.group g).state ≠ .vacant) :
    s.mayClaim g = false := by
  unfold State.mayClaim
  rw [decide_eq_false occupied, Bool.false_and, Bool.false_and, Bool.false_and]

theorem mayClaim_of_backoff {s : State} {g : GroupId} (backoff : (s.group g).backoff = true) :
    s.mayClaim g = false := by
  unfold State.mayClaim
  rw [backoff, Bool.not_true, Bool.and_false, Bool.false_and]

/-! ### The turn of one group -/

/-- R160: the record of a group after its line timer followed its conditions. -/
def GroupRecord.lineFollowed (r : GroupRecord) (inhibited : Bool) : GroupRecord :=
  { r with lineTimer := inhibited && !r.lineReported, lineReported := inhibited && r.lineReported }

theorem followLine_group (g : GroupId) (s : State) :
    (followLine g s).group g = (s.group g).lineFollowed (s.inhibited g) := by
  unfold followLine GroupRecord.lineFollowed
  cases s.inhibited g with
  | true =>
    rw [if_pos rfl]
    exact mapGroup_group_same g _ s
  | false =>
    rw [if_neg Bool.false_ne_true]
    exact mapGroup_group_same g _ s

/-- R143, R145: neither a claim of `g` ends nor one starts. -/
structure State.Rests (s : State) (g : GroupId) : Prop where
  keeps : (s.group g).state = .claiming → s.eligible g = true
  starts : s.mayClaim g = false

theorem State.Rests.of_office {s : State} {g : GroupId} (claiming : (s.group g).state ≠ .claiming)
    (vacant : (s.group g).state ≠ .vacant) : s.Rests g :=
  ⟨fun claims => absurd claims claiming, mayClaim_of_occupied vacant⟩

theorem State.Rests.of_backoff {s : State} {g : GroupId} (claiming : (s.group g).state ≠ .claiming)
    (backoff : (s.group g).backoff = true) : s.Rests g :=
  ⟨fun claims => absurd claims claiming, mayClaim_of_backoff backoff⟩

theorem Moves.rests {passes : Bool} {s t : State} {g : GroupId} (all : Moves passes s t)
    (same : t.group g = s.group g) (rests : s.Rests g) : t.Rests g where
  keeps claiming := (all.eligible same).trans (rests.keeps (same ▸ claiming))
  starts := (all.mayClaim same).trans rests.starts

theorem settleGroup_rests {s : State} {g : GroupId} (rests : s.Rests g) : settleGroup s g = followLine g s := by
  have kept : dropClaim g s = s := by
    refine if_neg fun drops => ?_
    obtain ⟨claiming, ineligible⟩ := Bool.and_eq_true_iff.mp drops
    rw [rests.keeps (of_decide_eq_true claiming)] at ineligible
    cases ineligible
  have idle : tryClaim g s = s := if_neg (Bool.eq_false_iff.mp rests.starts)
  rw [settleGroup_eq, kept, idle]

theorem settleGroup_drops {s : State} {g : GroupId} (claiming : (s.group g).state = .claiming)
    (ineligible : s.eligible g = false) : settleGroup s g = followLine g (abandonClaim g .vacant none s) := by
  have dropped : dropClaim g s = abandonClaim g .vacant none s := by
    refine if_pos ?_
    rw [claiming, ineligible]
    rfl
  have idle : tryClaim g (abandonClaim g .vacant none s) = abandonClaim g .vacant none s :=
    if_neg (Bool.eq_false_iff.mp (mayClaim_of_backoff (by rw [abandonClaim_group_same])))
  rw [settleGroup_eq, dropped, idle]

/-- The settling of all groups about the turn of one: the state `u` that its turn finds. -/
structure SettleTurn (g : GroupId) (s u : State) : Prop where
  reached : Moves false s u
  record : u.group g = s.group g
  kept : (settle s).group g = (settleGroup u g).group g
  waitsBefore : ∀ f, (∀ k ≠ g, isClaimOf k f = false) → f ∈ s.bus.control → f ∈ u.bus.control
  waitsAfter : ∀ f, (∀ k ≠ g, isClaimOf k f = false) → f ∈ (settleGroup u g).bus.control → f ∈ (settle s).bus.control
  unclaimedBefore : s.unclaimed g → u.unclaimed g
  unclaimedAfter : (settleGroup u g).unclaimed g → (settle s).unclaimed g

theorem settle_turn (g : GroupId) (s : State) : ∃ u, SettleTurn g s u := by
  obtain ⟨l, l', order, -, before, after⟩ := four_split g
  have split_ : settle s = l'.foldl settleGroup (settleGroup (l.foldl settleGroup s) g) := by
    unfold settle
    rw [order, List.foldl_append]
    rfl
  have waits {l : List GroupId} (out : g ∉ l) (u : State) (f : ControlFrame)
      (own : ∀ k ≠ g, isClaimOf k f = false) (here : f ∈ u.bus.control) : f ∈ (l.foldl settleGroup u).bus.control :=
    foldl_keepClaim (passes := false) settleGroup_moves (fun k within => own k fun same => out (same ▸ within)) u here
  have unclaimed {l : List GroupId} (out : g ∉ l) (u : State) (none_ : u.unclaimed g) :
      (l.foldl settleGroup u).unclaimed g := by
    induction l generalizing u with
    | nil => exact none_
    | cons k l ih =>
      rw [List.mem_cons, not_or] at out
      exact ih out.2 _ (settleGroup_unclaimed_other (Ne.symm out.1) none_)
  refine ⟨l.foldl settleGroup s, foldl_moves settleGroup_moves l s,
    foldl_others (passes := false) settleGroup_moves before s, ?_, waits before s, ?_, unclaimed before s, ?_⟩
  · rw [split_]
    exact foldl_others (passes := false) settleGroup_moves after _
  · rw [split_]
    exact waits after _
  · rw [split_]
    exact unclaimed after _

/-! ### A group that rests -/

/-- R160. -/
theorem settle_rests {g : GroupId} {s : State} (rests : s.Rests g) :
    (settle s).group g = (s.group g).lineFollowed (s.inhibited g) := by
  obtain ⟨u, turn⟩ := settle_turn g s
  rw [turn.kept, settleGroup_rests (turn.reached.rests turn.record rests), followLine_group, turn.record,
    turn.reached.inhibited turn.record]

theorem settle_rests_but_line {g : GroupId} {s : State} (rests : s.Rests g) : (settle s).group g =
    { s.group g with
      lineTimer := ((settle s).group g).lineTimer, lineReported := ((settle s).group g).lineReported } := by
  rw [settle_rests rests]
  rfl

theorem settle_rests_unclaimed {g : GroupId} {s : State} (rests : s.Rests g) (none_ : s.unclaimed g) :
    (settle s).unclaimed g := by
  obtain ⟨u, turn⟩ := settle_turn g s
  refine turn.unclaimedAfter ?_
  rw [settleGroup_rests (turn.reached.rests turn.record rests)]
  intro c waits
  rw [followLine_bus] at waits
  exact turn.unclaimedBefore none_ c waits

/-- R145: the CLAIM of a group that rests goes on waiting. -/
theorem settle_rests_waits {g : GroupId} {s : State} {f : ControlFrame} (rests : s.Rests g)
    (own : ∀ k ≠ g, isClaimOf k f = false) (waits : f ∈ s.bus.control) : f ∈ (settle s).bus.control := by
  obtain ⟨u, turn⟩ := settle_turn g s
  refine turn.waitsAfter f own ?_
  rw [settleGroup_rests (turn.reached.rests turn.record rests), followLine_bus]
  exact turn.waitsBefore f own waits

/-! ### A claim that ends -/

/-- R145: the claim of a group that is no longer eligible. -/
theorem settle_drops {g : GroupId} {s : State} (claiming : (s.group g).state = .claiming)
    (ineligible : s.eligible g = false) :
    (∃ timer reported, (settle s).group g = { s.group g with
      state := .vacant, claimEpoch := none, claimWait := false, backoff := true, handoverNote := none, owner := none
      lineTimer := timer, lineReported := reported })
    ∧ (settle s).unclaimed g := by
  obtain ⟨u, turn⟩ := settle_turn g s
  have drops := settleGroup_drops (turn.record ▸ claiming) ((turn.reached.eligible turn.record).trans ineligible)
  refine ⟨?_, turn.unclaimedAfter ?_⟩
  · rw [turn.kept, drops, followLine_group, abandonClaim_group_same, turn.record]
    exact ⟨_, _, rfl⟩
  · rw [drops]
    intro c waits
    rw [followLine_bus] at waits
    exact abandonClaim_unclaimed g .vacant none u c waits

/-! ### What no settling reaches -/

/-- A record of a group before and after claims that started and ended. -/
structure GroupRecord.Settled (a b : GroupRecord) : Prop where
  epoch : b.epoch = a.epoch
  hold : b.hold = a.hold
  health : b.health = a.health
  state : b.state = a.state ∨ Claimable a.state ∧ Claimable b.state

theorem GroupRecord.Settled.refl (a : GroupRecord) : a.Settled a := ⟨rfl, rfl, rfl, .inl rfl⟩

theorem GroupRecord.Settled.trans {a b c : GroupRecord} (ab : a.Settled b) (bc : b.Settled c) : a.Settled c where
  epoch := bc.epoch.trans ab.epoch
  hold := bc.hold.trans ab.hold
  health := bc.health.trans ab.health
  state := by
    rcases ab.state with same | ⟨before, after⟩
    · rw [← same]
      exact bc.state
    · rcases bc.state with same | ⟨-, last⟩
      · exact .inr ⟨before, same ▸ after⟩
      · exact .inr ⟨before, last⟩

theorem GroupRecord.Settled.held {a b : GroupRecord} (ab : a.Settled b) : b.state.held = a.state.held := by
  rcases ab.state with same | ⟨before, after⟩
  · rw [same]
  · rcases before with a_ | a_ <;> rcases after with b_ | b_ <;> rw [a_, b_] <;> rfl

theorem startClaim_settled {g : GroupId} {s : State} (vacant : (s.group g).state = .vacant) (cause : ClaimCause)
    (epoch : Epoch) (note : Option Bool) : (s.group g).Settled ((startClaim g cause epoch note s).group g) := by
  by_cases room : s.bus.control.length < 4
  · have record : (startClaim g cause epoch note s).group g = _ :=
      (congrArg (fun t => State.group t g) (startClaim_room g cause epoch note room)).trans
        (claimed_group g epoch note s)
    rw [record]
    exact ⟨rfl, rfl, rfl, .inr ⟨.inl vacant, .inr rfl⟩⟩
  · obtain ⟨f, eq⟩ := startClaim_full g cause epoch note room
    have record : (queueFull f (claimed g epoch note s)).group g = _ := claimed_group g epoch note s
    rw [eq, abandonClaim_group_same, record]
    exact ⟨rfl, rfl, rfl, .inr ⟨.inl vacant, .inl rfl⟩⟩

theorem settleGroup_settled (s : State) (g : GroupId) : (s.group g).Settled ((settleGroup s g).group g) := by
  have dropped : (s.group g).Settled ((dropClaim g s).group g) := by
    unfold dropClaim
    split
    · rename_i drops
      rw [abandonClaim_group_same]
      exact ⟨rfl, rfl, rfl, .inr ⟨.inr (of_decide_eq_true (Bool.and_eq_true_iff.mp drops).1), .inl rfl⟩⟩
    · exact .refl _
  have tried (u : State) : (u.group g).Settled ((tryClaim g u).group g) := by
    unfold tryClaim
    split
    · rename_i may
      refine startClaim_settled ?_ _ _ _
      by_contra occupied
      rw [mayClaim_of_occupied occupied] at may
      cases may
    · exact .refl _
  have followed (u : State) : (u.group g).Settled ((followLine g u).group g) := by
    rw [followLine_group]
    exact ⟨rfl, rfl, rfl, .inl rfl⟩
  rw [settleGroup_eq]
  exact (dropped.trans (tried _)).trans (followed _)

theorem settle_settled (s : State) (g : GroupId) : (s.group g).Settled ((settle s).group g) := by
  obtain ⟨u, turn⟩ := settle_turn g s
  rw [turn.kept, ← turn.record]
  exact settleGroup_settled u g

/-! ### Frames -/

theorem ClaimFrame.leaves {s t : State} (frame : ClaimFrame s t) : t = { s with
    own.groups := t.own.groups, bus := t.bus, recon.synced := t.recon.synced
    port.flags := t.port.flags, port.busCapture := t.port.busCapture } := by
  obtain ⟨_, _, _, _, _, rfl⟩ := frame
  rfl

theorem DrainFrame.leaves {s t : State} (frame : DrainFrame s t) : t = { s with
    own.groups := t.own.groups, own.quorumTimer := t.own.quorumTimer, bus := t.bus
    recon.synced := t.recon.synced, xlate := t.xlate
    port.flags := t.port.flags, port.busCapture := t.port.busCapture } := by
  obtain ⟨_, _, _, _, _, _, _, rfl⟩ := frame
  rfl

end Sys2Proof.Machine
end

