-- ==== Sys2Proof/Proofs/GroupLines.lean ====
section
/-!
PROOFS. The drive of a group line (R158), and a change of the drive of others (R159) with what it brings to the group of
that line (R139, R143, R145, R160).
-/

namespace Sys2Proof.Machine

open Sys2Proof

/-! ### The drive -/

theorem active_iff (l : Life) : l.active = true ↔ ¬ (l = .setup ∨ l = .fault) := by
  cases l <;> decide

/-- R158: the drive of a line at a firewall that is not in reset. -/
theorem drive_iff {s : State} {g : GroupId} (firewall : s.straps.role = .firewall) (run : s.phase = .running) :
    s.drive g = true ↔ ¬ (s.life = .setup ∨ s.life = .fault) ∧ (s.group g).hold = false
      ∧ ((s.group g).state = .holding ∨ (s.group g).state = .yielding) := by
  unfold State.drive
  rw [firewall, run, Bool.and_eq_true, Bool.and_eq_true, Bool.and_eq_true, active_iff, Bool.not_eq_true', holds_iff,
    and_assoc]
  exact and_congr_left fun _ => and_iff_right rfl

/-- Settles O22: the rows of the table in order. -/
theorem driveFollowsItsTable : Obligations.DriveFollowsItsTable := by
  intro s g firewall run
  have drives := drive_iff (g := g) firewall run
  split_ifs with rests hold held
  · exact Bool.eq_false_iff.mpr fun on => (drives.mp on).1 rests
  · refine Bool.eq_false_iff.mpr fun on => ?_
    rw [(drives.mp on).2.1] at hold
    cases hold
  · exact drives.mpr ⟨rests, Bool.eq_false_iff.mpr hold, held⟩
  · exact Bool.eq_false_iff.mpr fun on => held (drives.mp on).2.2

theorem drive_of_not_held {s : State} {g : GroupId} (unheld : s.holds g = false) : s.drive g = false := by
  unfold State.drive
  rw [unheld, Bool.and_false]

theorem drive_on_hold {s : State} {g : GroupId} (hold : (s.group g).hold = true) : s.drive g = false := by
  unfold State.drive
  rw [hold, Bool.not_true, Bool.and_false, Bool.false_and]

/-- R159: the foreign assertion of a line that this station does not drive. -/
theorem foreign_of_not_held {s : State} {g : GroupId} (unheld : s.holds g = false) :
    s.foreign g = (decide (s.straps.role = .firewall) && s.own.foreignDrive.get g) := by
  unfold State.foreign State.readback
  rw [drive_of_not_held unheld, Bool.false_or, Bool.not_false, Bool.and_true]

theorem unheld_of_claimable {s : State} {g : GroupId} (claimable : Claimable (s.group g).state) :
    s.holds g = false := by
  unfold State.holds
  rcases claimable with state | state <;> rw [state] <;> rfl

/-- R159: no settling moves a foreign assertion. -/
theorem settle_foreign (s : State) (g : GroupId) : (settle s).foreign g = s.foreign g := by
  have record := settle_settled s g
  obtain ⟨⟨_, _, _, _, _, _, _, _, eq⟩, -, -⟩ := (settle_moves (passes := false) s).span
  obtain ⟨_, _, _, _, _, lines⟩ := settle_frame s
  have held : (settle s).holds g = s.holds g := record.held
  have drives : (settle s).drive g = s.drive g := by
    unfold State.drive
    rw [record.hold, held, eq]
    rfl
  have others : (settle s).own.foreignDrive = s.own.foreignDrive := by
    rw [lines]
  have role : (settle s).straps = s.straps := by
    rw [eq]
  unfold State.foreign State.readback
  rw [drives, others, role]

/-! ### A change of the drive of others -/

/-- R159, log 4: others drive line `g` at the level `on`. -/
def othersDrive (g : GroupId) (on : Bool) (s : State) : State :=
  { s with own.foreignDrive := s.own.foreignDrive.set g on }

/-- R159: LINE at a change of foreign assertion. -/
def lineNoted (g : GroupId) (on : Bool) (s : State) : State :=
  raiseIf (s.foreign g != (othersDrive g on s).foreign g) .line (othersDrive g on s)

theorem exec_groupLineReadback {s : State} (g : GroupId) (on : Bool) (run : s.phase = .running) :
    exec (.groupLineReadback g on) s = .next (settle (lineNoted g on s)) :=
  congrArg Host.Outcome.next (whenLive_running _ (othersDrive g on s) run)

theorem lineNoted_eq (g : GroupId) (on : Bool) (s : State) : ∃ flags,
    lineNoted g on s = { othersDrive g on s with port.flags := flags }
      ∧ flags.getLsbD 6 = (s.port.flags.getLsbD 6 || (s.foreign g != (othersDrive g on s).foreign g)) := by
  unfold lineNoted
  cases s.foreign g != (othersDrive g on s).foreign g with
  | false => exact ⟨_, rfl, (Bool.or_false _).symm⟩
  | true =>
    refine ⟨_, rfl, ?_⟩
    rw [getLsbD_raiseFlag .line _ 6 (by decide), decide_eq_true (show 6 = Event.line.bit from rfl)]
    rfl

theorem lineNoted_foreign (g : GroupId) (on : Bool) (s : State) :
    (lineNoted g on s).foreign g = (othersDrive g on s).foreign g := by
  obtain ⟨_, eq, -⟩ := lineNoted_eq g on s
  rw [eq]
  rfl

theorem lineNoted_group (g : GroupId) (on : Bool) (s : State) : (lineNoted g on s).group g = s.group g := by
  obtain ⟨_, eq, -⟩ := lineNoted_eq g on s
  rw [eq]
  rfl

theorem lineNoted_mayHold (g : GroupId) (on : Bool) (s : State) : (lineNoted g on s).mayHold g ↔ s.mayHold g := by
  obtain ⟨_, eq, -⟩ := lineNoted_eq g on s
  rw [eq]
  rfl

/-- R159: the line that this station does not drive is foreign-asserted as others drive it. -/
theorem lineNoted_line {s : State} {g : GroupId} (on : Bool) (unheld : s.holds g = false)
    (firewall : s.straps.role = .firewall) : (lineNoted g on s).foreign g = on := by
  have still : (othersDrive g on s).holds g = false := unheld
  have role : (othersDrive g on s).straps.role = .firewall := firewall
  rw [lineNoted_foreign, foreign_of_not_held still, role]
  exact Four.get_set_same _ _ _

/-- R139: eligibility after the change, while the group is not held. -/
theorem lineNoted_eligible {s : State} {g : GroupId} (on : Bool) (unheld : s.holds g = false) :
    (lineNoted g on s).eligible g = true ↔ s.mayHold g ∧ on = false := by
  unfold State.eligible
  rw [Bool.and_eq_true, eligibleButLine_iff, lineNoted_mayHold, Bool.not_eq_true']
  refine and_congr_right fun may => ?_
  rw [lineNoted_line on unheld may.1]

/-- R201: the settling raises at most BUS. -/
theorem settle_lineFlag (s : State) : (settle s).port.flags.getLsbD 6 = s.port.flags.getLsbD 6 := by
  rcases (settle_noted s).flags with same | raised
  · rw [same]
  · rw [raised, getLsbD_raiseFlag .bus _ 6 (by decide), decide_eq_false (show ¬ 6 = Event.bus.bit by decide),
      Bool.or_false]

theorem lineNoted_mayClaim {s : State} {g : GroupId} (on : Bool) (vacant : (s.group g).state = .vacant)
    (may : s.mayHold g) (off : on = false) (backoff : (s.group g).backoff = false) (outbids : s.mayOutbid g = true) :
    (lineNoted g on s).mayClaim g = true := by
  have eligible := (lineNoted_eligible on (unheld_of_claimable (.inl vacant))).mpr ⟨may, off⟩
  have outbidsNow : (lineNoted g on s).mayOutbid g = s.mayOutbid g := by
    obtain ⟨_, eq, -⟩ := lineNoted_eq g on s
    rw [eq]
    rfl
  unfold State.mayClaim
  rw [eligible, outbidsNow, outbids, lineNoted_group, vacant, backoff]
  rfl

/-- Settles O21: by the state of the group, the settling after the change ends its claim, starts one, or moves its line
timer alone. -/
theorem readbackMovesForeignAssertion : Obligations.ReadbackMovesForeignAssertion := by
  intro g on s run r able
  have record := lineNoted_group g on s
  have eligible := lineNoted_eligible (s := s) (g := g) on
  obtain ⟨_, noted, flag⟩ := lineNoted_eq g on s
  refine ⟨_, exec_groupLineReadback g on run, ?_, ?_, fun claiming ends => ?_,
    fun vacant may off backoff outbids empty => ?_, fun vacant may lineOn => ?_, fun claiming vacant => ?_, ?_⟩
  · obtain ⟨_, _, _, _, _, frame⟩ := settle_frame (lineNoted g on s)
    rw [frame, noted]
    rfl
  · rw [settle_lineFlag, settle_foreign, lineNoted_foreign, noted]
    exact flag
  · have ineligible : (lineNoted g on s).eligible g = false := by
      rw [Bool.eq_false_iff, ne_eq, eligible (unheld_of_claimable (.inr claiming))]
      rintro ⟨may, off⟩
      rcases ends with not_ | lineOn
      · exact not_ may
      · rw [off] at lineOn
        cases lineOn
    obtain ⟨⟨_, _, dropped⟩, unclaimed⟩ := settle_drops (record ▸ claiming) ineligible
    rw [dropped, record]
    exact ⟨rfl, rfl, rfl, rfl, rfl, rfl, rfl, unclaimed⟩
  · have mayClaim := lineNoted_mayClaim on vacant may off backoff outbids
    obtain ⟨⟨_, _, claims⟩, waits⟩ := settle_claims_group mayClaim (by rw [noted]; exact empty)
    unfold claimFrameOf at waits
    rw [record] at claims waits
    rw [claims]
    rw [noted] at waits ⊢
    exact ⟨rfl, rfl, rfl, rfl, rfl, waits⟩
  · have unheld := unheld_of_claimable (.inl vacant)
    have ineligible : (lineNoted g on s).eligible g = false := by
      rw [Bool.eq_false_iff, ne_eq, eligible unheld, lineOn]
      exact fun off => nomatch off.2
    have inhibited : (lineNoted g on s).inhibited g = true := by
      unfold State.inhibited
      rw [record, vacant, lineNoted_line on unheld may.1, lineOn, Bool.and_eq_true, eligibleButLine_iff,
        lineNoted_mayHold]
      exact ⟨rfl, may⟩
    rw [settle_rests ⟨fun claiming => ?_, mayClaim_of_ineligible ineligible⟩, record, inhibited]
    · rfl
    · rw [record, vacant] at claiming
      cases claiming
  · have inhibited : (lineNoted g on s).inhibited g = false := by
      unfold State.inhibited
      rw [record, decide_eq_false vacant]
      rfl
    have rests : (lineNoted g on s).Rests g :=
      .of_office (by rw [record]; exact claiming) (by rw [record]; exact vacant)
    rw [settle_rests rests, record, inhibited]
    rfl
  · have frame := settle_claims (lineNoted g on s)
    have lines : (settle (lineNoted g on s)).own.foreignDrive = (lineNoted g on s).own.foreignDrive := by
      rw [frame]
    rw [lines]
    refine frame.trans ?_
    rw [noted]
    rfl

end Sys2Proof.Machine
end

