-- ==== Sys2Proof/Proofs/ClaimFrames.lean ====
section
/-!
PROOFS. The source of an ownership frame (R147), a CONTEST (R150), and a CLAIM at a firewall (R148).
-/

namespace Sys2Proof.Machine

open Sys2Proof

/-! ### Ownership frames -/

section

variable {s : State} {p : Station} {kind : Byte} {f : State → State}

/-- R147: a frame of a PRESENT source is taken. -/
theorem onOwnershipFrame_present (run : s.phase = .running) (takes : s.takesFrames = true) (other : p ≠ s.me)
    (present : (s.peer p).state = .present) : onOwnershipFrame kind p f s = f s :=
  (onFrame_other kind p _ s run takes other).trans (if_pos present)

/-- R147: any other is not. -/
theorem onOwnershipFrame_stranger (run : s.phase = .running) (takes : s.takesFrames = true) (other : p ≠ s.me)
    (stranger : (s.peer p).state ≠ .present) : onOwnershipFrame kind p f s = s :=
  (onFrame_other kind p _ s run takes other).trans (if_neg stranger)

end

/-! ### A CONTEST -/

/-- R150: the claim that the CONTEST names, before the settling. -/
def claimContested (c : Contest) (s : State) : State := raiseEpoch c.group c.known (abandonClaim c.group .vacant none s)

theorem takeContest_named {c : Contest} {s : State} (me : c.claimant = s.me)
    (claiming : (s.group c.group).state = .claiming) (epoch : (s.group c.group).claimEpoch = some c.epoch) :
    takeContest c s = settle (claimContested c s) := if_pos ⟨me, claiming, epoch⟩

theorem takeContest_other {c : Contest} {s : State} (other : c.claimant ≠ s.me
      ∨ (s.group c.group).state ≠ .claiming ∨ (s.group c.group).claimEpoch ≠ some c.epoch) : takeContest c s = s := by
  refine if_neg ?_
  rintro ⟨me, claiming, epoch⟩
  rcases other with not_ | not_ | not_
  · exact not_ me
  · exact not_ claiming
  · exact not_ epoch

theorem claimContested_group (c : Contest) (s : State) : (claimContested c s).group c.group = { s.group c.group with
    state := .vacant, claimEpoch := none, claimWait := false, backoff := true, handoverNote := none, owner := none
    epoch := serialMax (s.group c.group).epoch c.known } := by
  unfold claimContested
  rw [raiseEpoch_group, abandonClaim_group_same]

theorem claimContested_unclaimed (c : Contest) (s : State) : (claimContested c s).unclaimed c.group :=
  abandonClaim_unclaimed c.group .vacant none s

/-- Settles O48: the abandoned claim is in its backoff, so the settling leaves it. -/
theorem contestsAbandonClaims : Obligations.ContestsAbandonClaims := by
  intro p c s run takes other present r
  have taken (x : Contest) : exec (.contestFrame p x) s = .next (takeContest x s) :=
    congrArg Host.Outcome.next (onOwnershipFrame_present run takes other present)
  refine ⟨fun me claiming epoch => ?_, fun not_ => ?_⟩
  · have record := claimContested_group c s
    have rests : (claimContested c s).Rests c.group := .of_backoff (by rw [record]; nofun) (by rw [record])
    have settled := settle_rests rests
    have unclaimed := settle_rests_unclaimed rests (claimContested_unclaimed c s)
    have named := takeContest_named me claiming epoch
    refine ⟨_, taken c, ?_⟩
    rw [record] at settled
    rw [← named] at settled unclaimed
    rw [settled]
    exact ⟨rfl, rfl, rfl, rfl, rfl, rfl, rfl, unclaimed, fun reason => taken { c with reason := reason },
      (takeContest_frame c s).leaves⟩
  · rw [taken, takeContest_other not_]

/-! ### A claim let through -/

section

variable {s : State} {c : Claim} {p : Station}

theorem serialMax_later {a b : Epoch} (later : serialBefore a b = true) : serialMax a b = b := if_pos later

theorem letThrough_stale (stale : serialBefore (s.group c.group).epoch c.epoch = false) : letThrough c p s = s :=
  if_neg (Bool.eq_false_iff.mp stale)

/-- R148, R151: a holder that gives way leaves its tenure. -/
theorem letThrough_holder (later : serialBefore (s.group c.group).epoch c.epoch = true)
    (held : s.holds c.group = true) : letThrough c p s = leaveHolding c.group .following (some p) (raiseEpoch c.group c.epoch s) := by
  have heldNow : (raiseEpoch c.group c.epoch s).holds c.group = true := by
    unfold State.holds at held ⊢
    rw [raiseEpoch_group]
    exact held
  unfold letThrough
  rw [if_pos later]
  exact if_pos heldNow

theorem letThrough_follower (later : serialBefore (s.group c.group).epoch c.epoch = true)
    (unheld : s.holds c.group = false) : letThrough c p s = setOwner c.group (some p)
      (mapGroup c.group (fun r => { r with state := .following }) (raiseEpoch c.group c.epoch s)) := by
  have unheldNow : ¬ (raiseEpoch c.group c.epoch s).holds c.group = true := by
    unfold State.holds at unheld ⊢
    rw [raiseEpoch_group, unheld]
    exact Bool.false_ne_true
  unfold letThrough
  rw [if_pos later]
  exact if_neg unheldNow

/-- R148: the claimant is followed at its epoch. -/
theorem letThrough_follows (later : serialBefore (s.group c.group).epoch c.epoch = true) :
    ((letThrough c p s).group c.group).Follows p c.epoch := by
  cases held : s.holds c.group with
  | true =>
    rw [letThrough_holder later held, leaveHolding_group_same, raiseEpoch_group]
    exact ⟨rfl, rfl, serialMax_later later⟩
  | false =>
    rw [letThrough_follower later held, setOwner_group_same, mapGroup_group_same, raiseEpoch_group]
    exact ⟨rfl, rfl, serialMax_later later⟩

theorem letThrough_moves (c : Claim) (p : Station) (s : State) :
    GroupMoves false c.group s (letThrough c p s) := by
  have raised : GroupMoves false c.group s (raiseEpoch c.group c.epoch s) := raiseEpoch_moves c.group c.epoch s
  unfold letThrough
  split
  · dsimp only
    split
    · exact raised.trans (leaveHolding_moves _ _ _ _)
    · exact (raised.trans (mapGroup_moves _ _ _)).trans (setOwner_moves _ _ _)
  · exact .refl

/-- R76: the pools after a window closed. -/
theorem leaveHolding_quarantine (g : GroupId) (state : GroupState) (owner : Option Station) (s : State) :
    ((leaveHolding g state owner s).xlate.get g).quarantine = [] := by
  have cancelled (u : State) : (cancelQuorumTimer u).xlate = u.xlate := by
    unfold cancelQuorumTimer
    split <;> rfl
  unfold leaveHolding
  rw [raise_xlate, cancelled]
  exact congrArg Pool.quarantine (Four.get_set_same _ _ _)

/-! ### The judgement of a firewall -/

/-- R148: this station keeps the group against the claimant `p`. -/
def GroupRecord.withstands (r : GroupRecord) (p : Station) : Prop :=
  r.state = .holding ∨ r.state = .yielding ∧ r.successor ≠ some p

/-- R148: this station lets a claim of `p` through. -/
def GroupRecord.admits (r : GroupRecord) (p : Station) : Prop :=
  r.state = .vacant ∨ r.state = .following ∨ r.state = .yielding ∧ r.successor = some p

theorem firewallClaim_withstands (owner : (s.group c.group).withstands p) :
    firewallClaim c p s = contest c p .ownerAlive s := by
  unfold firewallClaim
  dsimp only
  rcases owner with holding | ⟨yielding, other⟩
  · rw [holding]
  · rw [yielding]
    exact if_neg other

theorem firewallClaim_admits (free : (s.group c.group).admits p) : firewallClaim c p s = letThrough c p s := by
  unfold firewallClaim
  dsimp only
  rcases free with vacant | following | ⟨yielding, successor⟩
  · rw [vacant]
  · rw [following]
  · rw [yielding]
    exact if_pos successor

theorem firewallClaim_disabled (disabled : (s.group c.group).state = .disabled) : firewallClaim c p s = s := by
  unfold firewallClaim
  dsimp only
  rw [disabled]

/-- R148, R145: a claim gives way to one of higher standing. -/
theorem firewallClaim_gives {e : Epoch} (claiming : (s.group c.group).state = .claiming)
    (epoch : (s.group c.group).claimEpoch = some e)
    (higher : standingHigher c.epoch (claimPrecedence c p) e (s.precedence c.group) = true) :
    firewallClaim c p s = raiseEpoch c.group c.epoch (abandonClaim c.group .following (some p) s) := by
  unfold firewallClaim
  dsimp only
  rw [claiming, epoch]
  exact if_pos higher

theorem firewallClaim_stays {e : Epoch} (claiming : (s.group c.group).state = .claiming)
    (epoch : (s.group c.group).claimEpoch = some e)
    (lower : standingHigher c.epoch (claimPrecedence c p) e (s.precedence c.group) = false) :
    firewallClaim c p s = contest c p .higherClaim s := by
  unfold firewallClaim
  dsimp only
  rw [claiming, epoch]
  exact if_neg (Bool.eq_false_iff.mp lower)

theorem contest_moves (c : Claim) (p : Station) (reason : ContestReason) (s : State) :
    GroupMoves false c.group s (contest c p reason s) := handControl_moves _ _ s

theorem firewallClaim_moves (c : Claim) (p : Station) (s : State) :
    GroupMoves false c.group s (firewallClaim c p s) := by
  unfold firewallClaim
  dsimp only
  split
  · exact contest_moves c p _ s
  · split
    · exact letThrough_moves c p s
    · exact contest_moves c p _ s
  · split
    · exact (abandonClaim_moves _ _ _ s).trans (raiseEpoch_moves _ _ _)
    · exact contest_moves c p _ s
  · exact .refl
  · exact letThrough_moves c p s
  · exact letThrough_moves c p s

theorem contest_group (reason : ContestReason) (k : GroupId) : (contest c p reason s).group k = s.group k :=
  handControl_group _ s k

/-- R121: a CONTEST that finds room. -/
theorem contest_room (reason : ContestReason) (room : s.bus.control.length < 4) : contest c p reason s = { s with
    bus.control := s.bus.control ++ [.contest ⟨c.group, c.epoch, p, reason, (s.group c.group).epoch⟩] } :=
  handControl_room _ room

/-! ### A CLAIM at a firewall -/

/-- R148, with the settling that follows. -/
def firewallJudges (c : Claim) (p : Station) (s : State) : State := settle (firewallClaim c p s)

theorem takeClaim_firewall (firewall : s.straps.role = .firewall) : takeClaim c p s = firewallJudges c p s := by
  unfold takeClaim
  rw [firewall]
  rfl

theorem firewallJudges_frame (c : Claim) (p : Station) (s : State) : DrainFrame s (firewallJudges c p s) := by
  have judged : Moves false s (firewallJudges c p s) := (firewallClaim_moves c p s).moves.trans (settle_moves _)
  exact judged.drainFrame

/-- R148, R121: a judgement that contests sends its CONTEST where there is room. -/
theorem firewallJudges_contests {reason : ContestReason} (contests : firewallClaim c p s = contest c p reason s)
    (room : s.bus.control.length < 4) :
    .contest ⟨c.group, c.epoch, p, reason, (s.group c.group).epoch⟩ ∈ (firewallJudges c p s).bus.control := by
  have moves : Moves false (contest c p reason s) (settle (contest c p reason s)) := settle_moves _
  unfold firewallJudges
  rw [contests]
  refine moves.waiting (fun _ => rfl) ?_
  rw [contest_room reason room]
  exact List.mem_append_right _ (List.mem_singleton.mpr rfl)

/-- The group record is as before but for the timer of a foreign line. -/
def State.groupStands (s : State) (g : GroupId) (t : State) : Prop :=
  t.group g = { s.group g with lineTimer := (t.group g).lineTimer, lineReported := (t.group g).lineReported }

theorem firewallJudges_owner (owner : (s.group c.group).withstands p) :
    s.groupStands c.group (firewallJudges c p s) := by
  have record : (contest c p .ownerAlive s).group c.group = s.group c.group := contest_group _ _
  have rests : (contest c p .ownerAlive s).Rests c.group := by
    refine .of_office ?_ ?_ <;> rw [record] <;> rcases owner with state | ⟨state, -⟩ <;> rw [state] <;> nofun
  have stands := settle_rests_but_line rests
  unfold firewallJudges State.groupStands
  rw [firewallClaim_withstands owner]
  rwa [record] at stands

theorem firewallJudges_disabled (disabled : (s.group c.group).state = .disabled) :
    s.groupStands c.group (firewallJudges c p s) := by
  unfold firewallJudges
  rw [firewallClaim_disabled disabled]
  exact settle_rests_but_line (.of_office (by rw [disabled]; nofun) (by rw [disabled]; nofun))

/-- R148: a claim of no later epoch, where no claim of this station's own is due. -/
theorem firewallJudges_stale (free : (s.group c.group).admits p)
    (stale : serialBefore (s.group c.group).epoch c.epoch = false) (idle : s.mayClaim c.group = false) :
    s.groupStands c.group (firewallJudges c p s) := by
  have claiming : (s.group c.group).state ≠ .claiming := by
    rcases free with state | state | ⟨state, -⟩ <;> rw [state] <;> nofun
  unfold firewallJudges
  rw [firewallClaim_admits free, letThrough_stale stale]
  exact settle_rests_but_line ⟨fun claims => absurd claims claiming, idle⟩

/-- R148, R143: a VACANT group at a claim of no later epoch. -/
theorem firewallJudges_vacant (vacant : (s.group c.group).state = .vacant)
    (stale : serialBefore (s.group c.group).epoch c.epoch = false) :
    (s.group c.group).Settled ((firewallJudges c p s).group c.group) := by
  unfold firewallJudges
  rw [firewallClaim_admits (.inl vacant), letThrough_stale stale]
  exact settle_settled s c.group

/-- R148: the group after a claim of a later epoch is as the claim let through left it. -/
theorem firewallJudges_later (free : (s.group c.group).admits p)
    (later : serialBefore (s.group c.group).epoch c.epoch = true) :
    (letThrough c p s).groupStands c.group (firewallJudges c p s) := by
  have follows := letThrough_follows (p := p) later
  unfold firewallJudges
  rw [firewallClaim_admits free]
  exact settle_rests_but_line (.of_office (by rw [follows.state]; nofun) (by rw [follows.state]; nofun))

/-- R148, R151: a YIELDING station that gives way to its successor leaves its tenure. -/
theorem firewallJudges_leaves (yielding : (s.group c.group).state = .yielding)
    (successor : (s.group c.group).successor = some p)
    (later : serialBefore (s.group c.group).epoch c.epoch = true) :
    (firewallJudges c p s).drive c.group = false ∧ ((firewallJudges c p s).group c.group).adoptionOpen = false
      ∧ ((firewallJudges c p s).group c.group).drain = false ∧ ((firewallJudges c p s).group c.group).tenure = none
      ∧ ((firewallJudges c p s).xlate.get c.group).quarantine = []
      ∧ (firewallJudges c p s).port.flags.getLsbD 2 = true := by
  have free : (s.group c.group).admits p := .inr (.inr ⟨yielding, successor⟩)
  have left : letThrough c p s = leaveHolding c.group .following (some p) (raiseEpoch c.group c.epoch s) :=
    letThrough_holder later (holds_iff.mpr (.inr yielding))
  have record := leaveHolding_group_same c.group .following (some p) (raiseEpoch c.group c.epoch s)
  have quarantine := leaveHolding_quarantine c.group .following (some p) (raiseEpoch c.group c.epoch s)
  have flag := leaveHolding_released c.group .following (some p) (raiseEpoch c.group c.epoch s)
  have stands : (firewallJudges c p s).group c.group = _ := firewallJudges_later free later
  have moves : Moves false (letThrough c p s) (firewallJudges c p s) := by
    unfold firewallJudges
    rw [firewallClaim_admits free]
    exact settle_moves _
  have pools : (firewallJudges c p s).xlate = (letThrough c p s).xlate := by
    unfold firewallJudges
    rw [firewallClaim_admits free, settle_claims]
  rw [left, record] at stands
  rw [left] at moves pools
  refine ⟨drive_unheld (.inl ?_), ?_, ?_, ?_, ?_, moves.flagged (by decide) flag⟩
  · rw [stands]
  · rw [stands]
  · rw [stands]
  · rw [stands]
  · rw [pools]
    exact quarantine

/-- R148, R145: a CLAIMING station outbid by the claimant. -/
theorem firewallJudges_gives {e : Epoch} (claiming : (s.group c.group).state = .claiming)
    (epoch : (s.group c.group).claimEpoch = some e)
    (higher : standingHigher c.epoch (claimPrecedence c p) e (s.precedence c.group) = true) :
    (∃ timer reported, (firewallJudges c p s).group c.group = { s.group c.group with
      state := .following, owner := some p, claimEpoch := none, claimWait := false, backoff := true
      handoverNote := none, epoch := serialMax (s.group c.group).epoch c.epoch
      lineTimer := timer, lineReported := reported })
    ∧ (firewallJudges c p s).unclaimed c.group := by
  have gives := firewallClaim_gives claiming epoch higher
  have record := raiseEpoch_group c.group c.epoch (abandonClaim c.group .following (some p) s)
  rw [abandonClaim_group_same, ← gives] at record
  have unclaimed : (firewallClaim c p s).unclaimed c.group := by
    rw [gives]
    exact abandonClaim_unclaimed c.group .following (some p) s
  have rests : (firewallClaim c p s).Rests c.group := .of_office (by rw [record]; nofun) (by rw [record]; nofun)
  refine ⟨?_, settle_rests_unclaimed rests unclaimed⟩
  have settled : (firewallJudges c p s).group c.group = _ := settle_rests rests
  rw [settled, record]
  exact ⟨_, _, rfl⟩

end

/-- Settles O46: each clause by the branch of the judgement that its states take, and by what the settling leaves of the
group. -/
theorem firewallsJudgeClaims : Obligations.FirewallsJudgeClaims := by
  intro p c s run takes other present firewall r answered unchanged
  have taken : exec (.claimFrame p c) s = .next (firewallJudges c p s) :=
    congrArg Host.Outcome.next ((onOwnershipFrame_present run takes other present).trans (takeClaim_firewall firewall))
  refine ⟨_, taken, fun room owner => ?_, fun owner => ?_, fun free later => ?_, fun yielding successor later => ?_,
    fun free stale => ?_, fun vacant stale => ?_, fun e claiming epoch higher => ?_,
    fun e claiming epoch room lower => ?_, (firewallJudges_frame c p s).leaves⟩
  · exact firewallJudges_contests (firewallClaim_withstands owner) room
  · rcases owner with holding | yielding | disabled
    · exact firewallJudges_owner (.inl holding)
    · exact firewallJudges_owner (.inr yielding)
    · exact firewallJudges_disabled disabled
  · have follows := letThrough_follows (p := p) later
    have stands : (firewallJudges c p s).group c.group = _ := firewallJudges_later free later
    rw [stands]
    exact ⟨follows.state, follows.owner, follows.epoch⟩
  · exact firewallJudges_leaves yielding successor later
  · rcases free with following | yielding | ⟨vacant, idle⟩
    · exact firewallJudges_stale (.inr (.inl following)) stale
        (mayClaim_of_occupied (g := c.group) (by rw [following]; nofun))
    · exact firewallJudges_stale (.inr (.inr yielding)) stale
        (mayClaim_of_occupied (g := c.group) (by rw [yielding.1]; nofun))
    · exact firewallJudges_stale (.inl vacant) stale idle
  · have settled := firewallJudges_vacant (p := p) vacant stale
    exact ⟨settled.epoch, settled.state.elim (fun same => .inl (same.trans vacant)) fun claims => claims.2⟩
  · obtain ⟨⟨_, _, gives⟩, unclaimed⟩ := firewallJudges_gives (p := p) claiming epoch higher
    rw [gives]
    exact ⟨rfl, rfl, rfl, rfl, rfl, rfl, unclaimed⟩
  · exact firewallJudges_contests (firewallClaim_stays claiming epoch lower) room

end Sys2Proof.Machine
end

