-- ==== Sys2Proof/Proofs/WitnessClaims.lean ====
section
/-!
PROOFS. A CLAIM at a witness (R149): a witness is never eligible and claims nothing, so the settling after its judgement
moves the line timers alone.
-/

namespace Sys2Proof.Machine

open Sys2Proof

/-! ### A station that observes -/

/-- A witness that claims no group. -/
structure State.Observes (s : State) : Prop where
  role : s.straps.role = .witness
  claims : ∀ g, (s.group g).state ≠ .claiming

/-- `t` observes, and is `s` but for the group records. -/
def OnlyGroups (s t : State) : Prop := t.Observes ∧ t = { s with own.groups := t.own.groups }

section

variable {s : State}

theorem State.Observes.rests (ok : s.Observes) (g : GroupId) : s.Rests g :=
  ⟨fun claims => absurd claims (ok.claims g), mayClaim_of_ineligible (ineligible_of_witness ok.role g)⟩

theorem State.Observes.mapGroup (ok : s.Observes) {g : GroupId} {f : GroupRecord → GroupRecord}
    (unclaimed : (f (s.group g)).state ≠ .claiming) : (mapGroup g f s).Observes where
  role := ok.role
  claims k := by
    by_cases same : k = g
    · rw [same, mapGroup_group_same]
      exact unclaimed
    · rw [mapGroup_group_other f s same]
      exact ok.claims k

theorem State.Observes.setOwner (ok : s.Observes) (g : GroupId) (o : Option Station) : (setOwner g o s).Observes := by
  unfold Machine.setOwner
  split
  · exact ok
  · exact ⟨ok.role, (ok.mapGroup (f := fun r => { r with owner := o }) (ok.claims g)).claims⟩

theorem State.Observes.settleGroup (ok : s.Observes) (g : GroupId) : OnlyGroups s (settleGroup s g) := by
  rw [settleGroup_rests (ok.rests g)]
  unfold followLine
  split
  · exact ⟨ok.mapGroup (ok.claims g), rfl⟩
  · exact ⟨ok.mapGroup (ok.claims g), rfl⟩

theorem OnlyGroups.trans {t u : State} (st : OnlyGroups s t) (tu : OnlyGroups t u) : OnlyGroups s u :=
  ⟨tu.1, by rw [tu.2, st.2]⟩

/-- R139, R143: the settling at a station that observes reaches the group records alone. -/
theorem State.Observes.settled (ok : s.Observes) : OnlyGroups s (settle s) := by
  unfold settle
  exact foldl_keeps (fun a b => a.Observes → OnlyGroups a b) (fun _ here => ⟨here, rfl⟩)
    (fun ab bc here => (ab here).trans (bc (ab here).1)) Machine.settleGroup (fun _ g here => here.settleGroup g)
    four s ok

end

/-! ### The rules of a witness -/

section

variable {s : State} {c : Claim} {p : Station}

theorem mem_four (q : Fin 4) : q ∈ four := by
  revert q
  decide

/-- R149, rule 2. -/
theorem heldByOther_iff : s.heldByOther c p = true ↔ ∃ q, q ≠ p ∧ (s.peer q).state = .present
    ∧ (s.peer q).showsHeld c.group = true
    ∧ ¬ (c.cause = .yielded ∧ (s.group c.group).yieldNote = some ⟨q, p, c.epoch - 1⟩) := by
  unfold State.heldByOther
  simp only [List.any_eq_true, mem_four, true_and, Bool.and_eq_true, Bool.not_eq_true', decide_eq_true_eq, and_assoc,
    ← Bool.not_eq_true]

/-- R149, rule 3. -/
theorem outranks_iff {r : GroupRecord} : r.outranks c p = true ↔ c.epoch = r.epoch ∧ ∃ n, r.claimNote = some n
    ∧ n.claimant ≠ p ∧ n.epoch = c.epoch ∧ (claimPrecedence c p).higher n.precedence = true := by
  unfold GroupRecord.outranks
  cases r.claimNote with
  | none => simp
  | some n => simp [and_assoc]

/-- R149: the note of the claim that a witness follows. -/
def claimNoteOf (c : Claim) (p : Station) : ClaimNote := ⟨p, c.epoch, claimPrecedence c p⟩

/-- R149, rule 3: the claim is noted, and its claimant becomes the owner known. -/
def claimNoted (c : Claim) (p : Station) (s : State) : State := setOwner c.group (some p) (noteClaim c p s)

theorem claimNoted_group (c : Claim) (p : Station) (s : State) : (claimNoted c p s).group c.group =
    { s.group c.group with claimNote := some (claimNoteOf c p), owner := some p } := by
  unfold claimNoted noteClaim
  rw [setOwner_group_same, mapGroup_group_same]
  rfl

theorem claimNoted_bus (c : Claim) (p : Station) (s : State) : (claimNoted c p s).bus = s.bus :=
  setOwner_bus c.group _ _

/-- R149, rule 5: the group follows at the epoch of the claim. -/
def claimFollowed (c : Claim) (s : State) : State :=
  mapGroup c.group (fun r => { r with state := .following }) (raiseEpoch c.group c.epoch s)

theorem claimFollowed_group (c : Claim) (s : State) : (claimFollowed c s).group c.group = { s.group c.group with
    epoch := serialMax (s.group c.group).epoch c.epoch, state := .following } := by
  unfold claimFollowed
  rw [mapGroup_group_same, raiseEpoch_group]

/-- R149: the five rules in their order. -/
theorem witnessClaim_rules (c : Claim) (p : Station) (s : State) : witnessClaim c p s =
    if (s.group c.group).state = .disabled then s
    else if s.heldByOther c p then contest c p .ownerAlive s
    else if (s.group c.group).outranks c p then claimNoted c p s
    else if !serialBefore (s.group c.group).epoch c.epoch then contest c p .staleEpoch s
    else claimNoted c p (claimFollowed c s) := rfl

theorem State.Observes.claimNoted (ok : s.Observes) (c : Claim) (p : Station) : (claimNoted c p s).Observes :=
  State.Observes.setOwner (ok.mapGroup (f := fun r => { r with claimNote := some (claimNoteOf c p) })
    (ok.claims c.group)) c.group (some p)

theorem State.Observes.contest (ok : s.Observes) (c : Claim) (p : Station) (reason : ContestReason) :
    (contest c p reason s).Observes where
  role := by
    have moves : Moves false s (Machine.contest c p reason s) := (contest_moves c p reason s).moves
    rw [moves.leaves]
    exact ok.role
  claims k := by
    rw [contest_group]
    exact ok.claims k

theorem State.Observes.claimFollowed (ok : s.Observes) (c : Claim) : (claimFollowed c s).Observes :=
  State.Observes.mapGroup (State.Observes.mapGroup ok (f := fun r => { r with epoch := serialMax r.epoch c.epoch })
    (ok.claims c.group)) nofun

theorem State.Observes.witnessClaim (ok : s.Observes) (c : Claim) (p : Station) : (witnessClaim c p s).Observes := by
  rw [witnessClaim_rules]
  split_ifs
  · exact ok
  · exact ok.contest c p _
  · exact ok.claimNoted c p
  · exact ok.contest c p _
  · exact (ok.claimFollowed c).claimNoted c p

/-! ### A CLAIM at a witness -/

/-- R149, with the settling that follows. -/
def witnessJudges (c : Claim) (p : Station) (s : State) : State := settle (witnessClaim c p s)

theorem takeClaim_witness (witness : s.straps.role = .witness) : takeClaim c p s = witnessJudges c p s := by
  unfold takeClaim
  rw [witness]
  rfl

theorem witnessJudges_bus (ok : s.Observes) : (witnessJudges c p s).bus = (witnessClaim c p s).bus := by
  unfold witnessJudges
  rw [(ok.witnessClaim c p).settled.2]

/-- The settling leaves the record that the rules leave, but for the line timer. -/
theorem witnessJudges_group (ok : s.Observes) :
    (witnessClaim c p s).groupStands c.group (witnessJudges c p s) :=
  settle_rests_but_line ((ok.witnessClaim c p).rests c.group)

theorem setOwner_narrow (g : GroupId) (o : Option Station) (s : State) : setOwner g o s = { s with
    own.groups := (setOwner g o s).own.groups, recon.synced := (setOwner g o s).recon.synced } := by
  unfold setOwner
  split <;> rfl

/-- R149, R121: with room in the queue a witness changes the group records, the bus and the synced set alone. -/
theorem witnessJudges_frame (ok : s.Observes) (room : s.bus.control.length < 4) : witnessJudges c p s = { s with
    own.groups := (witnessJudges c p s).own.groups, bus := (witnessJudges c p s).bus
    recon.synced := (witnessJudges c p s).recon.synced } := by
  have ruled : ∃ groups bus synced, witnessClaim c p s =
      { s with own.groups := groups, bus := bus, recon.synced := synced } := by
    rw [witnessClaim_rules]
    split_ifs
    · exact ⟨_, _, _, rfl⟩
    · rw [contest_room _ room]
      exact ⟨_, _, _, rfl⟩
    · exact ⟨_, _, _, setOwner_narrow c.group (some p) (noteClaim c p s)⟩
    · rw [contest_room _ room]
      exact ⟨_, _, _, rfl⟩
    · exact ⟨_, _, _, setOwner_narrow c.group (some p) (noteClaim c p (claimFollowed c s))⟩
  obtain ⟨_, _, _, eq⟩ := ruled
  have settled := (ok.witnessClaim c p).settled.2
  rw [eq] at settled
  unfold witnessJudges
  rw [eq, settled]

/-- R149, R121: what a CONTEST of a witness leaves. -/
theorem witnessJudges_contests {reason : ContestReason} (ok : s.Observes) (room : s.bus.control.length < 4)
    (ruled : witnessClaim c p s = contest c p reason s) :
    (witnessJudges c p s).bus.control =
        s.bus.control ++ [.contest ⟨c.group, c.epoch, p, reason, (s.group c.group).epoch⟩]
      ∧ s.groupStands c.group (witnessJudges c p s) := by
  have stands := witnessJudges_group (c := c) (p := p) ok
  unfold State.groupStands at stands ⊢
  rw [ruled, contest_group] at stands
  rw [witnessJudges_bus ok, ruled, contest_room reason room]
  exact ⟨rfl, stands⟩

end

/-- Settles O47: the rules in their order, each at the group record that it leaves. -/
theorem witnessesJudgeClaims : Obligations.WitnessesJudgeClaims := by
  intro p c s run takes other present witness room unclaimed r note heldElsewhere outranks contested
  have ok : s.Observes := ⟨witness, unclaimed⟩
  have taken : exec (.claimFrame p c) s = .next (witnessJudges c p s) :=
    congrArg Host.Outcome.next ((onOwnershipFrame_present run takes other present).trans (takeClaim_witness witness))
  have record : (witnessJudges c p s).group c.group = _ := witnessJudges_group ok
  have bus := witnessJudges_bus (c := c) (p := p) ok
  have rules := witnessClaim_rules c p s
  have held : s.heldByOther c p = true ↔ heldElsewhere := heldByOther_iff
  have outranked : (s.group c.group).outranks c p = true ↔ outranks := outranks_iff
  have contests {reason : ContestReason} (ruled : witnessClaim c p s = contest c p reason s) :
      contested (witnessJudges c p s) reason := by
    obtain ⟨queue, stands⟩ := witnessJudges_contests ok room ruled
    unfold State.groupStands at stands
    refine ⟨queue, ?_⟩
    rw [stands]
    exact ⟨rfl, rfl, rfl⟩
  refine ⟨_, taken, fun disabled => ?_, fun enabled elsewhere => ?_, fun enabled free higher => ?_,
    fun enabled free low stale => ?_, fun enabled free low later => ?_, witnessJudges_frame ok room⟩
  · rw [if_pos disabled] at rules
    rw [record, bus, rules]
    exact ⟨rfl, rfl, rfl, rfl⟩
  · exact contests (by rw [rules, if_neg enabled, if_pos (held.mpr elsewhere)])
  · rw [if_neg enabled, if_neg (mt held.mp free), if_pos (outranked.mpr higher)] at rules
    rw [record, bus, rules, claimNoted_bus, claimNoted_group]
    exact ⟨rfl, rfl, rfl, rfl⟩
  · refine contests ?_
    rw [rules, if_neg enabled, if_neg (mt held.mp free), if_neg (mt outranked.mp low), stale]
    rfl
  · rw [if_neg enabled, if_neg (mt held.mp free), if_neg (mt outranked.mp low), later, Bool.not_true,
      if_neg Bool.false_ne_true] at rules
    rw [record, bus, rules, claimNoted_bus, claimNoted_group, claimFollowed_group]
    exact ⟨rfl, rfl, rfl, serialMax_later later, rfl⟩

end Sys2Proof.Machine
end

