-- ==== Sys2Proof/Proofs/YieldFrames.lean ====
section
/-!
PROOFS. A YIELD (R156, R175) at the successor that it names, at another witness and elsewhere.
-/

namespace Sys2Proof.Machine

open Sys2Proof

section

variable {s : State} {y : Yield} {p : Station}

/-- R156: the YIELD names this station, whose state for the group lets it act. -/
theorem isSuccessor_iff : s.isSuccessor y = true ↔ y.successor = s.me
    ∧ ((s.group y.group).state = .following ∨ (s.group y.group).state = .vacant) := by
  unfold State.isSuccessor
  rw [Bool.and_eq_true, decide_eq_true_eq, decide_eq_true_eq]

/-! ### A YIELD at a witness -/

theorem Four.set_set {α : Type} (f : Four α) (i : Fin 4) (x y : α) : (f.set i x).set i y = f.set i y := by
  match i with
  | 0 | 1 | 2 | 3 => rfl

/-- R156: a witness that is named raises its epoch known, and notes the YIELD. -/
theorem takeYield_named_witness (witness : s.straps.role = .witness) (acts : s.isSuccessor y = true) :
    takeYield y p s = { s with own.groups := s.own.groups.set y.group { s.group y.group with
      epoch := serialMax (s.group y.group).epoch y.epoch, yieldNote := some ⟨p, y.successor, y.epoch⟩ } } := by
  unfold takeYield
  rw [witness, acts]
  dsimp only
  rw [if_pos rfl]
  unfold noteYield mapGroup
  rw [raiseEpoch_group]
  exact congrArg (fun groups : Four GroupRecord => { s with own.groups := groups }) (Four.set_set _ _ _ _)

theorem takeYield_other_witness (witness : s.straps.role = .witness) (passes : s.isSuccessor y = false) :
    takeYield y p s = { s with own.groups := s.own.groups.set y.group { s.group y.group with
      yieldNote := some ⟨p, y.successor, y.epoch⟩ } } := by
  unfold takeYield
  rw [witness, passes]
  rfl

/-! ### A YIELD at a firewall -/

theorem takeYield_other_firewall (firewall : s.straps.role = .firewall) (passes : s.isSuccessor y = false) :
    takeYield y p s = s := by
  unfold takeYield
  rw [firewall, passes]
  rfl

theorem takeYield_successor (firewall : s.straps.role = .firewall) (acts : s.isSuccessor y = true) :
    takeYield y p s = settle (succeedYield y s) := by
  unfold takeYield
  rw [firewall, acts]
  rfl

/-- R139: eligibility does not read the epoch. -/
theorem raiseEpoch_eligible (g : GroupId) (e : Epoch) (s : State) : (raiseEpoch g e s).eligible g = s.eligible g := by
  have record := raiseEpoch_group g e s
  have moves : Moves false s (raiseEpoch g e s) := (raiseEpoch_moves g e s).moves
  refine moves.eligible_of ?_ ?_ ?_
  · rw [record]
  · rw [record]
  · unfold State.holds
    rw [record]

/-- R156: the state in which the successor starts its claim. -/
def succeeding (y : Yield) (s : State) : State :=
  mapGroup y.group (fun r => { r with backoff := false }) (raiseEpoch y.group y.epoch s)

theorem succeeding_group (y : Yield) (s : State) : (succeeding y s).group y.group = { s.group y.group with
    epoch := serialMax (s.group y.group).epoch y.epoch, backoff := false } := by
  unfold succeeding
  rw [mapGroup_group_same, raiseEpoch_group]

theorem succeedYield_eligible (eligible : s.eligible y.group = true) : succeedYield y s =
    startClaim y.group .yielded (y.epoch + 1) (some y.drained) (succeeding y s) :=
  if_pos ((raiseEpoch_eligible y.group y.epoch s).trans eligible)

theorem succeedYield_ineligible (ineligible : s.eligible y.group = false) :
    succeedYield y s = raiseEpoch y.group y.epoch s :=
  if_neg (by rw [raiseEpoch_eligible, ineligible]; exact Bool.false_ne_true)

theorem startClaim_epoch (g : GroupId) (cause : ClaimCause) (epoch : Epoch) (note : Option Bool) (s : State) :
    ((startClaim g cause epoch note s).group g).epoch = (s.group g).epoch :=
  (startClaim_ownerless g cause epoch note s).2

theorem succeedYield_epoch (y : Yield) (s : State) :
    ((succeedYield y s).group y.group).epoch = serialMax (s.group y.group).epoch y.epoch := by
  cases eligible : s.eligible y.group with
  | true => rw [succeedYield_eligible eligible, startClaim_epoch, succeeding_group]
  | false => rw [succeedYield_ineligible eligible, raiseEpoch_group]

theorem succeedYield_moves (y : Yield) (s : State) : GroupMoves false y.group s (succeedYield y s) := by
  have raised : GroupMoves false y.group s (raiseEpoch y.group y.epoch s) := raiseEpoch_moves _ _ s
  unfold succeedYield
  dsimp only
  split
  · exact (raised.trans (mapGroup_moves _ _ _)).trans (startClaim_moves _ _ _ _ _)
  · exact raised

/-- R156, R175: the claim of an eligible successor, with room in the queue. -/
theorem succeedYield_claims (eligible : s.eligible y.group = true) (room : s.bus.control.length < 4) :
    (succeedYield y s).group y.group = { s.group y.group with
      epoch := serialMax (s.group y.group).epoch y.epoch, backoff := false, state := .claiming
      claimEpoch := some (y.epoch + 1), claimWait := false, handoverNote := some y.drained, owner := none }
    ∧ claimFrameOf y.group .yielded (y.epoch + 1) (succeeding y s) ∈ (succeedYield y s).bus.control := by
  have started := startClaim_room y.group .yielded (y.epoch + 1) (some y.drained) (s := succeeding y s) room
  rw [← succeedYield_eligible eligible] at started
  rw [started]
  refine ⟨?_, List.mem_append_right _ (List.mem_singleton.mpr rfl)⟩
  have record := claimed_group y.group (y.epoch + 1) (some y.drained) (succeeding y s)
  rw [succeeding_group] at record
  exact record

/-- R139, R145: the claim is eligible as the successor was, so the settling keeps it. -/
theorem succeedYield_rests (unheld : s.holds y.group = false) (eligible : s.eligible y.group = true)
    (room : s.bus.control.length < 4) : (succeedYield y s).Rests y.group := by
  have record := (succeedYield_claims eligible room).1
  have moves : Moves false s (succeedYield y s) := (succeedYield_moves y s).moves
  refine ⟨fun _ => (moves.eligible_of ?_ ?_ ?_).trans eligible, mayClaim_of_occupied ?_⟩
  · rw [record]
  · rw [record]
  · rw [unheld]
    exact unheld_of_claimable (.inr (by rw [record]))
  · rw [record]
    nofun

theorem isClaimOf_other (g : GroupId) (cause : ClaimCause) (epoch : Epoch) (s : State) :
    ∀ k ≠ g, isClaimOf k (claimFrameOf g cause epoch s) = false :=
  fun _ other => decide_eq_false (Ne.symm other)

/-- R156, R175: the eligible successor after the settling. -/
theorem settle_succeedYield (unheld : s.holds y.group = false) (eligible : s.eligible y.group = true)
    (room : s.bus.control.length < 4) :
    (∃ timer reported, (settle (succeedYield y s)).group y.group = { s.group y.group with
      epoch := serialMax (s.group y.group).epoch y.epoch, backoff := false, state := .claiming
      claimEpoch := some (y.epoch + 1), claimWait := false, handoverNote := some y.drained, owner := none
      lineTimer := timer, lineReported := reported })
    ∧ .claim ⟨y.group, y.epoch + 1, .yielded, s.port.setup.priority.get y.group, (s.group y.group).health⟩
        ∈ (settle (succeedYield y s)).bus.control := by
  obtain ⟨record, waits⟩ := succeedYield_claims eligible room
  have rests := succeedYield_rests unheld eligible room
  have frame : claimFrameOf y.group .yielded (y.epoch + 1) (succeeding y s) = .claim
      ⟨y.group, y.epoch + 1, .yielded, s.port.setup.priority.get y.group, (s.group y.group).health⟩ := by
    unfold claimFrameOf
    rw [succeeding_group]
    rfl
  have kept := settle_rests_waits rests (isClaimOf_other y.group _ _ _) waits
  rw [frame] at kept
  rw [settle_rests rests, record]
  exact ⟨⟨_, _, rfl⟩, kept⟩

/-- R156: a successor that is not eligible raises its epoch known alone. -/
theorem settle_succeedYield_ineligible (acts : s.isSuccessor y = true) (ineligible : s.eligible y.group = false) :
    ((settle (succeedYield y s)).group y.group).state = (s.group y.group).state
      ∧ ((settle (succeedYield y s)).group y.group).owner = (s.group y.group).owner := by
  have record := raiseEpoch_group y.group y.epoch s
  have rests : (raiseEpoch y.group y.epoch s).Rests y.group := by
    refine ⟨fun claiming => ?_, mayClaim_of_ineligible ((raiseEpoch_eligible y.group y.epoch s).trans ineligible)⟩
    rw [record] at claiming
    rcases (isSuccessor_iff.mp acts).2 with state | state <;> rw [state] at claiming <;> cases claiming
  rw [succeedYield_ineligible ineligible, settle_rests rests, record]
  exact ⟨rfl, rfl⟩

end

/-- Settles O49: a stranger's frames are not taken; a YIELD goes by the role of the station and by whether it is the
successor. -/
theorem yieldsHandOver : Obligations.YieldsHandOver := by
  constructor
  · intro p s run takes other stranger
    have ignored (kind : Byte) (f : State → State) : onOwnershipFrame kind p f s = s :=
      onOwnershipFrame_stranger run takes other stranger
    exact ⟨fun c => congrArg Host.Outcome.next (ignored _ (takeClaim c p)),
      fun c => congrArg Host.Outcome.next (ignored _ (takeContest c)),
      fun y => congrArg Host.Outcome.next (ignored _ (takeYield y p))⟩
  · intro p y s run takes other present r acts
    have taken : exec (.yieldFrame p y) s = .next (takeYield y p s) :=
      congrArg Host.Outcome.next (onOwnershipFrame_present run takes other present)
    have named : s.isSuccessor y = true ↔ acts := isSuccessor_iff
    have passes (not_ : ¬ acts) : s.isSuccessor y = false := Bool.eq_false_iff.mpr (mt named.mp not_)
    refine ⟨fun witness here => ?_, fun witness not_ => ?_, fun firewall not_ => ?_, fun firewall here => ?_⟩
    · rw [taken, takeYield_named_witness witness (named.mpr here)]
    · rw [taken, takeYield_other_witness witness (passes not_)]
    · rw [taken, takeYield_other_firewall firewall (passes not_)]
    · have frame := (takeYield_frame y p s).leaves
      have unheld : s.holds y.group = false := by
        unfold State.holds
        rcases here.2 with state | state <;> rw [state] <;> rfl
      rw [takeYield_successor firewall (named.mpr here)] at taken frame
      refine ⟨_, taken, ?_, fun eligible room => ?_, settle_succeedYield_ineligible (named.mpr here), frame⟩
      · rw [(settle_settled (succeedYield y s) y.group).epoch, succeedYield_epoch]
      · obtain ⟨⟨_, _, record⟩, waits⟩ := settle_succeedYield unheld eligible room
        rw [record]
        exact ⟨rfl, rfl, rfl, rfl, rfl, rfl, waits⟩

end Sys2Proof.Machine
end

