-- ==== Sys2Proof/Proofs/HealthAndHold.lean ====
section
/-!
PROOFS. HEALTH, HOLD and UNHOLD (R161, R162): their tests, what they write, and what a hold or a health of 0 brings to a
claim and to a group that is held (R145, R152, R172, R173).
-/

namespace Sys2Proof.Machine

open Sys2Proof

/-! ### The tests -/

/-- What a request of a group does once its tests are passed. -/
def groupEffect : Instr → Request → State → State
  | .health => setHealth
  | .hold => setHold
  | _ => clearHold

theorem exec_groupRequest {s : State} {r : Request} {i : Instr} (run : s.phase = .running)
    (head : s.nextRequest = some r)
    (kind : i = .health ∧ r.kind = 0x10 ∨ i = .hold ∧ r.kind = 0x11 ∨ i = .unhold ∧ r.kind = 0x12) :
    exec i s = .next (groupRequest r (groupEffect i r) (takeRequest s)) := by
  rcases kind with ⟨rfl, kind⟩ | ⟨rfl, kind⟩ | ⟨rfl, kind⟩ <;>
    exact congrArg Host.Outcome.next (onRequest_taken _ _ s r run head kind)

section

variable {r : Request} {f : State → State} {u : State}

theorem groupRequest_setup (setup : u.life = .setup) : groupRequest r f u = answer r .notReady u := if_pos setup

theorem groupRequest_fault (fault : u.life = .fault) : groupRequest r f u = answer r .faulted u := by
  unfold groupRequest
  rw [if_neg (by rw [fault]; nofun), if_pos fault]

theorem groupRequest_offends (active : u.life.active = true) (beyond : 3 < r.groupByte.toNat) :
    groupRequest r f u = badRequest r ⟨0, 8⟩ u := by
  have offence : firstOffence (groupOffence r) = some ⟨0, 8⟩ := by
    unfold firstOffence groupOffence
    rw [decide_eq_true beyond]
    rfl
  unfold groupRequest
  rw [if_neg (fun setup => (active_iff _).mp active (.inl setup)), if_neg (Life.ne_fault_of_active active), offence]

/-- R161, steps 4 and 5: of an active station, for a group that there is. -/
theorem groupRequest_tested (active : u.life.active = true) (within : r.groupByte.toNat ≤ 3) : groupRequest r f u =
    if u.straps.role = .witness then answer r .notOwner u
    else if (u.group r.group).state = .disabled then answer r .groupDisabled u
    else f u := by
  have offence : firstOffence (groupOffence r) = none := by
    unfold firstOffence groupOffence
    rw [decide_eq_false (Nat.not_lt.mpr within)]
    rfl
  unfold groupRequest
  rw [if_neg (fun setup => (active_iff _).mp active (.inl setup)), if_neg (Life.ne_fault_of_active active), offence]

end

/-! ### The loss of eligibility -/

section

variable {s : State} {g : GroupId}

/-- R172: a group whose successor does not show it synced goes on draining. -/
theorem enterYielding_unsynced {p : Station} (unsynced : (s.peer p).showsSynced g = false) :
    enterYielding g p s = yieldingState g p s := by
  have record := yieldingState_group g p s
  have peer : ((yieldingState g p s).peer p).showsSynced g = false := unsynced
  rw [enterYielding_eq]
  refine if_neg fun complete => ?_
  unfold State.drainComplete at complete
  rw [record] at complete
  dsimp only at complete
  rw [peer, Bool.and_false] at complete
  cases complete

theorem release_group_same (g : GroupId) (s : State) : (release g s).group g = { s.group g with
    state := .vacant, owner := none, preempt := false, drain := false, successor := none, tenure := none
    adoptionOpen := false, adoptionTimer := false, backoff := true } := by
  unfold release
  rw [mapGroup_group_same, leaveHolding_group_same]

/-- R161, R162: two records of a group that agree on its health and its hold. -/
def SameHealth (a b : GroupRecord) : Prop := b.health = a.health ∧ b.hold = a.hold

theorem enterYielding_health (g : GroupId) (p : Station) (s : State) :
    SameHealth (s.group g) ((enterYielding g p s).group g) := by
  have record := yieldingState_group g p s
  rw [enterYielding_eq]
  unfold drainTest
  split
  · rw [endDrain_successor true (by rw [record]), leaveHolding_group_same, handControl_group, record]
    exact ⟨rfl, rfl⟩
  · rw [record]
    exact ⟨rfl, rfl⟩

theorem reactLoss_health (g : GroupId) (s : State) : SameHealth (s.group g) ((reactLoss g s).group g) := by
  have released : SameHealth (s.group g) ((release g s).group g) := by
    rw [release_group_same]
    exact ⟨rfl, rfl⟩
  unfold reactLoss
  split
  · split
    · exact released
    · split
      · exact enterYielding_health g _ s
      · exact released
  · exact ⟨rfl, rfl⟩

theorem settle_health (g : GroupId) (s : State) : SameHealth (s.group g) ((settle s).group g) :=
  ⟨(settle_settled s g).health, (settle_settled s g).hold⟩

/-- R152, with the settling that follows. -/
def lossAt (g : GroupId) (s : State) : State := settle (reactLoss g s)

theorem lossAt_moves (g : GroupId) (s : State) : Moves false s (lossAt g s) :=
  (reactLoss_moves s g).moves.trans (settle_moves _)

theorem lossAt_health (g : GroupId) (s : State) : SameHealth (s.group g) ((lossAt g s).group g) := by
  obtain ⟨health, hold⟩ := reactLoss_health g s
  obtain ⟨health', hold'⟩ := settle_health g (reactLoss g s)
  exact ⟨health'.trans health, hold'.trans hold⟩

/-- R145. -/
theorem lossAt_claiming (claiming : (s.group g).state = .claiming) (ineligible : s.eligible g = false) :
    ((lossAt g s).group g).state = .vacant ∧ ((lossAt g s).group g).owner = none
      ∧ ((lossAt g s).group g).claimEpoch = none ∧ ((lossAt g s).group g).backoff = true
      ∧ (lossAt g s).unclaimed g := by
  obtain ⟨⟨_, _, dropped⟩, unclaimed⟩ := settle_drops claiming ineligible
  unfold lossAt
  rw [reactLoss_other (by rw [claiming]; nofun), dropped]
  exact ⟨rfl, rfl, rfl, rfl, unclaimed⟩

/-- R152, R172, R173: the drain is complete at once. -/
theorem lossAt_ends {p : Station} (holding : (s.group g).state = .holding) (partner : s.presentPartner = some p)
    (eligible : (s.peer p).showsEligible g = true) (empty : s.journal.holdsGroup g = false)
    (synced : (s.peer p).showsSynced g = true) :
    ((lossAt g s).group g).state = .following ∧ ((lossAt g s).group g).owner = some p
      ∧ (lossAt g s).port.flags.getLsbD 2 = true
      ∧ (s.bus.control = [] → .yield ⟨g, (s.group g).epoch, p, true⟩ ∈ (lossAt g s).bus.control) := by
  have epoch : ((yieldingState g p s).group g).epoch = (s.group g).epoch := by
    rw [yieldingState_group]
  obtain ⟨state, owner, -, -, flag, waits⟩ := settle_drained g p true (yieldingState g p s)
  unfold lossAt
  rw [reactLoss_yields holding partner eligible, enterYielding_ends empty synced]
  rw [epoch] at state owner flag waits ⊢
  exact ⟨state, owner, flag, waits⟩

/-- R152, R171. -/
theorem lossAt_drains {p : Station} (holding : (s.group g).state = .holding) (partner : s.presentPartner = some p)
    (eligible : (s.peer p).showsEligible g = true)
    (waits : s.journal.holdsGroup g = true ∨ (s.peer p).showsSynced g = false) :
    ((lossAt g s).group g).state = .yielding ∧ ((lossAt g s).group g).successor = some p
      ∧ ((lossAt g s).group g).drain = true ∧ ((lossAt g s).group g).drainSpoiled = false := by
  have drains : enterYielding g p s = yieldingState g p s := waits.elim (enterYielding_drains p) enterYielding_unsynced
  have record := yieldingState_group g p s
  unfold lossAt
  rw [reactLoss_yields holding partner eligible, drains,
    settle_rests (.of_office (by rw [record]; nofun) (by rw [record]; nofun)), record]
  exact ⟨rfl, rfl, rfl, rfl⟩

/-- R152, R151. -/
theorem lossAt_releases (holding : (s.group g).state = .holding)
    (alone : ∀ p, s.presentPartner = some p → (s.peer p).showsEligible g = false) :
    ((lossAt g s).group g).state = .vacant ∧ ((lossAt g s).group g).owner = none
      ∧ ((lossAt g s).group g).backoff = true ∧ (lossAt g s).port.flags.getLsbD 2 = true := by
  unfold lossAt
  rw [reactLoss_releases holding alone]
  exact settle_released .refl rfl

end

/-- R145, R152: what the loss of eligibility of `g` at the state `u` makes of a claim and of a group that is held. -/
structure ReactsToLoss (g : GroupId) (u t : State) : Prop where
  claims : (u.group g).state = .claiming → (t.group g).state = .vacant ∧ (t.group g).owner = none
    ∧ (t.group g).claimEpoch = none ∧ (t.group g).backoff = true ∧ t.unclaimed g
  ends : (u.group g).state = .holding → ∀ p, u.presentPartner = some p → (u.peer p).showsEligible g = true →
    u.journal.holdsGroup g = false ∧ (u.peer p).showsSynced g = true →
    (t.group g).state = .following ∧ (t.group g).owner = some p ∧ t.port.flags.getLsbD 2 = true
      ∧ (u.bus.control = [] → .yield ⟨g, (u.group g).epoch, p, true⟩ ∈ t.bus.control)
  drains : (u.group g).state = .holding → ∀ p, u.presentPartner = some p → (u.peer p).showsEligible g = true →
    u.journal.holdsGroup g = true ∨ (u.peer p).showsSynced g = false →
    (t.group g).state = .yielding ∧ (t.group g).successor = some p ∧ (t.group g).drain = true
      ∧ (t.group g).drainSpoiled = false
  releases : (u.group g).state = .holding → (∀ p, u.presentPartner = some p → (u.peer p).showsEligible g = false) →
    (t.group g).state = .vacant ∧ (t.group g).owner = none ∧ (t.group g).backoff = true
      ∧ t.port.flags.getLsbD 2 = true

/-- A write of the group record that keeps its state and its epoch known, and ends its eligibility. -/
theorem lossAt_reacts {g : GroupId} {f : GroupRecord → GroupRecord} {u : State}
    (state : (f (u.group g)).state = (u.group g).state) (epoch : (f (u.group g)).epoch = (u.group g).epoch)
    (ineligible : (mapGroup g f u).eligible g = false) : ReactsToLoss g u (lossAt g (mapGroup g f u)) := by
  have record := mapGroup_group_same g f u
  rw [← record] at state epoch
  constructor
  · exact fun claiming => lossAt_claiming (state.trans claiming) ineligible
  · intro holding p partner eligible drained
    rw [← epoch]
    exact lossAt_ends (state.trans holding) partner eligible drained.1 drained.2
  · exact fun holding p partner eligible waits => lossAt_drains (state.trans holding) partner eligible waits
  · exact fun holding alone => lossAt_releases (state.trans holding) alone

/-! ### What each request writes -/

/-- R161, R162: the state `v` of which a request of a group answers the view. -/
structure GroupDone (i : Instr) (r : Request) (u v : State) : Prop where
  moves : Moves false u v
  health : i = .health → (v.group r.group).health = cappedHealth r.score
    ∧ (v.group r.group).hold = (u.group r.group).hold
  hold : i = .hold → (v.group r.group).hold = true ∧ (v.group r.group).health = (u.group r.group).health
  unhold : i = .unhold → (v.group r.group).hold = false ∧ (v.group r.group).health = (u.group r.group).health
  loss : i = .hold ∧ (u.group r.group).hold = false ∨ i = .health ∧ r.score = 0 → ReactsToLoss r.group u v

section

variable (r : Request) (u : State)

/-- R161. -/
def healthWritten : State := mapGroup r.group (fun x => { x with health := cappedHealth r.score }) u

/-- R162. -/
def holdWritten (hold : Bool) : State := mapGroup r.group (fun x => { x with hold := hold }) u

theorem healthWritten_group :
    (healthWritten r u).group r.group = { u.group r.group with health := cappedHealth r.score } :=
  mapGroup_group_same r.group _ u

theorem holdWritten_group (hold : Bool) :
    (holdWritten r u hold).group r.group = { u.group r.group with hold := hold } :=
  mapGroup_group_same r.group _ u

theorem healthWritten_moves : Moves false u (healthWritten r u) := (mapGroup_moves r.group _ u).moves

theorem holdWritten_moves (hold : Bool) : Moves false u (holdWritten r u hold) := (mapGroup_moves r.group _ u).moves

theorem setHealth_eq : setHealth r u = answerView r
    (if cappedHealth r.score = 0 then lossAt r.group (healthWritten r u) else settle (healthWritten r u)) := by
  unfold setHealth
  dsimp only
  split <;> rfl

/-- R161: a score of 0 is a health of 0. -/
theorem cappedHealth_zero : cappedHealth 0 = 0 := rfl

theorem setHealth_done : ∃ v, groupEffect .health r u = answerView r v ∧ GroupDone .health r u v := by
  have record := healthWritten_group r u
  refine ⟨_, setHealth_eq r u, ?_⟩
  split
  · rename_i zero
    obtain ⟨health, hold⟩ := lossAt_health r.group (healthWritten r u)
    rw [record] at health hold
    exact {
      moves := (healthWritten_moves r u).trans (lossAt_moves _ _)
      health := fun _ => ⟨health, hold⟩
      hold := nofun
      unhold := nofun
      loss := fun _ => lossAt_reacts rfl rfl (ineligible_of_health (by rw [mapGroup_group_same]; exact zero)) }
  · rename_i positive
    obtain ⟨health, hold⟩ := settle_health r.group (healthWritten r u)
    rw [record] at health hold
    refine ⟨(healthWritten_moves r u).trans (settle_moves _), fun _ => ⟨health, hold⟩, nofun, nofun, ?_⟩
    rintro (⟨other, -⟩ | ⟨-, zero⟩)
    · cases other
    · rw [zero] at positive
      exact absurd cappedHealth_zero positive

theorem setHold_done : ∃ v, groupEffect .hold r u = answerView r v ∧ GroupDone .hold r u v := by
  have record := holdWritten_group r u true
  cases held : (u.group r.group).hold with
  | true =>
    refine ⟨u, if_pos held, .refl, nofun, fun _ => ⟨held, rfl⟩, nofun, ?_⟩
    rintro (⟨-, free⟩ | ⟨other, -⟩)
    · rw [held] at free
      cases free
    · cases other
  | false =>
    obtain ⟨health, hold⟩ := lossAt_health r.group (holdWritten r u true)
    rw [record] at health hold
    refine ⟨lossAt r.group (holdWritten r u true), if_neg (by rw [held]; exact Bool.false_ne_true),
      (holdWritten_moves r u true).trans (lossAt_moves _ _), nofun, fun _ => ⟨hold, health⟩, nofun, fun _ => ?_⟩
    exact lossAt_reacts rfl rfl (ineligible_of_hold (by rw [mapGroup_group_same]))

theorem clearHold_done : ∃ v, groupEffect .unhold r u = answerView r v ∧ GroupDone .unhold r u v := by
  have record := holdWritten_group r u false
  obtain ⟨health, hold⟩ := settle_health r.group (holdWritten r u false)
  rw [record] at health hold
  refine ⟨settle (holdWritten r u false), rfl, (holdWritten_moves r u false).trans (settle_moves _), nofun, nofun,
    fun _ => ⟨hold, health⟩, ?_⟩
  rintro (⟨other, -⟩ | ⟨other, -⟩) <;> cases other

theorem groupEffect_done {i : Instr} (kind : i = .health ∨ i = .hold ∨ i = .unhold) :
    ∃ v, groupEffect i r u = answerView r v ∧ GroupDone i r u v := by
  rcases kind with rfl | rfl | rfl
  · exact setHealth_done r u
  · exact setHold_done r u
  · exact clearHold_done r u

end

/-- R161, R162: the response of a request of a group that is carried out. -/
def viewResponse (r : Request) (v : State) : Response :=
  { plainResponse r .ok with
    view := some ⟨(v.group r.group).state, (v.group r.group).health, (v.group r.group).hold⟩ }

theorem answerView_eq (r : Request) (v : State) :
    answerView r v = { v with port.responses := v.port.responses ++ [viewResponse r v] } :=
  respond_ok (viewResponse r v) v rfl

theorem Moves.responses {passes : Bool} {s t : State} (all : Moves passes s t) :
    t.port.responses = s.port.responses := by
  obtain ⟨⟨_, _, _, _, _, _, _, _, rfl⟩, -, -⟩ := all.span
  rfl

/-- Settles O32: the tests in order; then what each request writes, and what the loss of eligibility brings. -/
theorem groupRequests : Obligations.GroupRequests := by
  intro s r i run head kind u
  rw [exec_groupRequest run head kind]
  refine ⟨fun setup => ?_, fun fault => ?_, fun active beyond => ?_, fun active within witness => ?_,
    fun active within firewall disabled => ?_, fun active within firewall enabled => ?_⟩
  · rw [groupRequest_setup setup]
  · rw [groupRequest_fault fault]
  · rw [groupRequest_offends active beyond]
  · rw [groupRequest_tested active within, if_pos witness]
  · rw [groupRequest_tested active within, if_neg (by rw [firewall]; nofun), if_pos disabled]
  · have named : i = .health ∨ i = .hold ∨ i = .unhold := kind.imp And.left (Or.imp And.left And.left)
    obtain ⟨v, effect, done⟩ := groupEffect_done r u named
    have carried : groupRequest r (groupEffect i r) u = answerView r v := by
      rw [groupRequest_tested active within, if_neg (by rw [firewall]; nofun), if_neg enabled, effect]
    have responses := done.moves.responses
    have frame := done.moves.leaves
    refine ⟨_, congrArg Host.Outcome.next carried, ?_⟩
    rw [answerView_eq]
    refine ⟨by rw [← responses]; rfl, done.health, fun hold => ?_, done.unhold, fun loss => ?_, ?_⟩
    · obtain ⟨on, health⟩ := done.hold hold
      exact ⟨on, health, drive_on_hold on⟩
    · have reacts := done.loss loss
      exact ⟨reacts.claims, fun holding => ⟨fun p partner eligible =>
        ⟨reacts.ends holding p partner eligible, reacts.drains holding p partner eligible⟩, reacts.releases holding⟩⟩
    · exact congrArg (fun w : State => { w with port.responses := v.port.responses ++ [viewResponse r v] }) frame

end Sys2Proof.Machine
end
